-- ==== Sys2Proof/Word.lean ====
section
/-! DEFINITION. Word.lean: the word and byte types of the NQ-LZW core (spec 00_scope.md R10, R12). -/

namespace Sys2Proof

/-- A host-visible register, a command word, or an internal 32-bit two's-complement register (R10). -/
abbrev Word := BitVec 32

/-- A byte: an unsigned value 0 to 255 unless a rule says otherwise (R12). -/
abbrev Byte := BitVec 8

end Sys2Proof
end

