-- ==== Sys2Proof/Config.lean ====
section
/-! DEFINITION. Config.lean: the fixed parameters of the two engines (spec 00_scope.md R7, R8), the names of the
model's parameters (R9), and the values the spec leaves open, which have no body here. -/

namespace Sys2Proof

/-- `PALETTE_ORDER` (R9, 92_eei_decisions.md D18): the byte order of a palette triple. -/
inductive PaletteOrder where
  /-- R, G, B: what the source states, and the default. -/
  | rgb
  /-- the lane order B, G, R. -/
  | lane
  deriving DecidableEq, Repr

namespace Config

/-! ### The NeuQuant engine (R7) -/

/-- neurons and palette entries -/
abbrev netsize : Nat := 256
/-- `netsize - 1` -/
abbrev maxnetpos : Nat := 255
/-- a colour byte `v` is held as `v << netbiasshift` -/
abbrev netbiasshift : Nat := 4
/-- learning cycles -/
abbrev ncycles : Nat := 100
/-- fixed-point bias of `freq` and `bias` -/
abbrev intbiasshift : Nat := 16
/-- `1 << intbiasshift` -/
abbrev intbias : Nat := 65536
/-- `gamma = 1 << gammashift = 1024` -/
abbrev gammashift : Nat := 10
/-- shift of the leak of `freq` -/
abbrev betashift : Nat := 10
/-- `intbias >> betashift` -/
abbrev beta : Nat := 64
/-- `intbias << (gammashift - betashift)` -/
abbrev betagamma : Nat := 65536
/-- `netsize >> 3`: initial radius and size of `radpower` -/
abbrev initrad : Nat := 32
/-- fixed-point bias of `radius` -/
abbrev radiusbiasshift : Nat := 6
/-- `1 << radiusbiasshift` -/
abbrev radiusbias : Nat := 64
/-- `initrad * radiusbias` -/
abbrev initradius : Nat := 2048
/-- radius decay divisor -/
abbrev radiusdec : Nat := 30
/-- fixed-point bias of `alpha` -/
abbrev alphabiasshift : Nat := 10
/-- `1 << alphabiasshift`: alpha = 1.0 -/
abbrev initalpha : Nat := 1024
/-- fixed-point bias of the taper's quotient -/
abbrev radbiasshift : Nat := 8
/-- `1 << radbiasshift` -/
abbrev radbias : Nat := 256
/-- `alphabiasshift + radbiasshift` -/
abbrev alpharadbshift : Nat := 18
/-- `1 << alpharadbshift` -/
abbrev alpharadbias : Nat := 262144
/-- first stride candidate -/
abbrev prime1 : Nat := 499
/-- second stride candidate -/
abbrev prime2 : Nat := 491
/-- third stride candidate -/
abbrev prime3 : Nat := 487
/-- fourth stride candidate, the largest -/
abbrev prime4 : Nat := 503
/-- `3 * prime4`, compared with the byte length `lengthcount` (90_conflicts.md C3) -/
abbrev minpicturebytes : Nat := 1509
/-- least and largest legal sample factor -/
abbrev minSampleFactor : Nat := 1
/-- least and largest legal sample factor -/
abbrev maxSampleFactor : Nat := 30
/-- start value of the map search's best distance -/
abbrev mapInitDist : Int := 1000
/-- largest accepted `NQ_LEN` (41_nq_learning.md R120) -/
abbrev maxLength : Nat := 0x7FFFFFFF
/-- start value of both best distances of a contest (41_nq_learning.md R135) -/
abbrev contestInitDist : Nat := 0x7FFFFFFF

/-! ### The LZW engine (R8) -/

/-- `BITS` = `maxbits`: the largest code width -/
abbrev maxbits : Nat := 12
/-- `1 << BITS`: no code is allocated at or above it -/
abbrev maxmaxcode : Nat := 4096
/-- hash table slots -/
abbrev hsize : Nat := 5003
/-- primary hash shift (44_lzw_encode.md R219 derives the value) -/
abbrev hshift : Nat := 4
/-- payload bytes per sub-block at most -/
abbrev packetCap : Nat := 254
/-- least legal colour depth -/
abbrev minDepth : Nat := 2
/-- largest legal colour depth (92_eei_decisions.md D15) -/
abbrev maxDepth : Nat := 8

/-- The `masks` ROM: `masks[k] = 2^k - 1` (R8, 10_state.md R50); read with `k` = `cur_bits`. -/
abbrev masks (k : Nat) : Nat := 2 ^ k - 1

/-! ### Values the spec does not give: no body, so nothing can be proved of them -/

/-- FREE VALUE (assumption 3). What `LZ_OUTLEN` holds after an accepted byte when it already held 2^32 - 1: the
spec counts every accepted byte in a 32-bit register (10_state.md R43) and does not say what follows its largest
value. Applied to the number of bytes in the OUT stream. -/
opaque outlenOverflow : Nat → Word

/-- FREE VALUE (assumption 4). The entry of `ColorMap`'s job-local table `index` for a palette entry that no neuron's
lane 3 names (42_nq_palette.md R166 says that lane 3 is a permutation, so in a run every entry is written).
Applied to the 256 lane-3 values and the palette entry. -/
opaque unwrittenIndex : List Word → Nat → Byte

end Config

end Sys2Proof
end

