-- ==== Sys2Proof/Syntax.lean ====
section
/-! DEFINITION. Syntax.lean: the ten commands of NQLZW-1, one constructor per row of spec/opcode_table.json
(30_encoding.md R95), and the command port each is written to (R96). Operands are the unsigned numbers of R92 to R94;
whether they fit their fields is WellFormed.lean's check. -/

namespace Sys2Proof

/-- The two command ports, one per engine (20_memory.md R79, 60_exceptions.md R286). -/
inductive Port where
  /-- `NQ_CMD`: the NeuQuant engine. -/
  | nq
  /-- `LZ_CMD`: the LZW engine. -/
  | lz
  deriving DecidableEq, Repr

/-- A command (R95). -/
inductive Instr where
  /-- `NQ.INIT sf`: construct the network (R120). -/
  | nqInit (sf : Nat)
  /-- `NQ.LEARN`: train the network on the source image (R122). -/
  | nqLearn
  /-- `NQ.UNBIAS`: take the network out of fixed point (R160). -/
  | nqUnbias
  /-- `NQ.INXBUILD`: sort by green and build `netindex` (R161). -/
  | nqInxbuild
  /-- `NQ.COLORMAP`: write the palette memory (R165). -/
  | nqColormap
  /-- `NQ.PROCESS`: learn, unbias, index and palette in one command (R168). -/
  | nqProcess
  /-- `NQ.MAP b, g, r`: the palette index nearest to one colour (R190). -/
  | nqMap (b g r : Nat)
  /-- `NQ.MAPBUF`: map every source pixel into the index buffer (R193). -/
  | nqMapbuf
  /-- `LZ.INIT depth`: construct the encoder (R210). -/
  | lzInit (depth : Nat)
  /-- `LZ.ENCODE`: write the whole compressed stream (R211). -/
  | lzEncode
  deriving DecidableEq, Repr

/-- The port a command is written to (R95, R96). -/
def Instr.port : Instr → Port
  | .nqInit _ => .nq
  | .nqLearn => .nq
  | .nqUnbias => .nq
  | .nqInxbuild => .nq
  | .nqColormap => .nq
  | .nqProcess => .nq
  | .nqMap _ _ _ => .nq
  | .nqMapbuf => .nq
  | .lzInit _ => .lz
  | .lzEncode => .lz

end Sys2Proof
end

