-- ==== Sys2Proof/WellFormed.lean ====
section
/-! DEFINITION. WellFormed.lean: which commands have a word. An operand that does not fit its field spells no command
(30_encoding.md R100); a field value outside the legal range of the command is still a word (R97). -/

namespace Sys2Proof

/-- The operands fit their fields: `sf` 5 bits (R92), `depth` 4 bits (R93), each colour 8 bits (R94). -/
def Instr.wellFormed : Instr → Bool
  | .nqInit sf => decide (sf < 32)
  | .nqLearn => true
  | .nqUnbias => true
  | .nqInxbuild => true
  | .nqColormap => true
  | .nqProcess => true
  | .nqMap b g r => decide (b < 256) && decide (g < 256) && decide (r < 256)
  | .nqMapbuf => true
  | .lzInit depth => decide (depth < 16)
  | .lzEncode => true

end Sys2Proof
end

