-- ==== Sys2Proof/Decode.lean ====
section
/-! DEFINITION. Decode.lean: from a command word to a command and back (30_encoding.md R90 to R99). Decoding is total:
every word is a command of the port it was written to, or is refused by a name (R98). -/

namespace Sys2Proof

/-- `w[hi:lo]` as an unsigned number (00_scope.md R12). -/
def field (w : Word) (hi lo : Nat) : Nat := w.toNat / 2 ^ lo % 2 ^ (hi + 1 - lo)

/-- Why a word is an illegal command of its port (R97). -/
inductive Illegal where
  /-- R97 (a): its opcode is not one of the port's opcodes. -/
  | opcodeNotOfPort
  /-- R97 (b): a bit of its format's `zero` field is 1. -/
  | zeroFieldNotZero
  deriving DecidableEq, Repr

/-- Format N (R91): bits 23:0 must be 0. -/
def decodeN (w : Word) (i : Instr) : Except Illegal Instr :=
  if field w 23 0 = 0 then .ok i else .error .zeroFieldNotZero

/-- Format S (R92): bits 23:5 must be 0; `sf` = `w[4:0]`. -/
def decodeS (w : Word) : Except Illegal Instr :=
  if field w 23 5 = 0 then .ok (.nqInit (field w 4 0)) else .error .zeroFieldNotZero

/-- Format D (R93): bits 23:4 must be 0; `depth` = `w[3:0]`. -/
def decodeD (w : Word) : Except Illegal Instr :=
  if field w 23 4 = 0 then .ok (.lzInit (field w 3 0)) else .error .zeroFieldNotZero

/-- Format C (R94): `r` = `w[23:16]`, `g` = `w[15:8]`, `b` = `w[7:0]`; no `zero` field. -/
def decodeC (w : Word) : Except Illegal Instr :=
  .ok (.nqMap (field w 7 0) (field w 15 8) (field w 23 16))

/-- The opcode map of the NQE's port (R95). -/
def decodeNq (w : Word) : Except Illegal Instr :=
  match field w 31 24 with
  | 0x10 => decodeS w
  | 0x11 => decodeN w .nqLearn
  | 0x12 => decodeN w .nqUnbias
  | 0x13 => decodeN w .nqInxbuild
  | 0x14 => decodeN w .nqColormap
  | 0x15 => decodeN w .nqProcess
  | 0x16 => decodeC w
  | 0x17 => decodeN w .nqMapbuf
  | _ => .error .opcodeNotOfPort

/-- The opcode map of the LZE's port (R95). -/
def decodeLz (w : Word) : Except Illegal Instr :=
  match field w 31 24 with
  | 0x20 => decodeD w
  | 0x21 => decodeN w .lzEncode
  | _ => .error .opcodeNotOfPort

/-- The decoding half of R99: the word `w` written to port `p`. -/
def decode (p : Port) (w : Word) : Except Illegal Instr :=
  match p with
  | .nq => decodeNq w
  | .lz => decodeLz w

/-- The port whose opcode the word carries (R95): `LZ_CMD` for 0x20 and 0x21, else `NQ_CMD`. -/
def portOfWord (w : Word) : Port :=
  if field w 31 24 = 0x20 ∨ field w 31 24 = 0x21 then .lz else .nq

/-- The opcode of a command: bits 31:24 of its word (R90, R95). -/
def Instr.opcode : Instr → Nat
  | .nqInit _ => 0x10
  | .nqLearn => 0x11
  | .nqUnbias => 0x12
  | .nqInxbuild => 0x13
  | .nqColormap => 0x14
  | .nqProcess => 0x15
  | .nqMap _ _ _ => 0x16
  | .nqMapbuf => 0x17
  | .lzInit _ => 0x20
  | .lzEncode => 0x21

/-- Bits 23:0 of a command's word: the operands in their fields, `zero` fields 0 (R91 to R94). -/
def Instr.operandBits : Instr → Nat
  | .nqInit sf => sf
  | .nqLearn => 0
  | .nqUnbias => 0
  | .nqInxbuild => 0
  | .nqColormap => 0
  | .nqProcess => 0
  | .nqMap b g r => r * 2 ^ 16 + g * 2 ^ 8 + b
  | .nqMapbuf => 0
  | .lzInit depth => depth
  | .lzEncode => 0

/-- The word of a well-formed command (R90 to R95). -/
def encode (i : Instr) : Word := BitVec.ofNat 32 (i.opcode * 2 ^ 24 + i.operandBits)

/-- The command a table row's bits spell: the word is decoded on the port its opcode belongs to (R96). Every command
is one 32-bit word (R90), so bits at or above bit 32 spell none. -/
def decodeTableWord (_nbits w : Nat) : Option Instr :=
  if w < 2 ^ 32 then
    match decode (portOfWord (BitVec.ofNat 32 w)) (BitVec.ofNat 32 w) with
    | .ok i => some i
    | .error _ => none
  else none

end Sys2Proof
end

