-- ==== Sys2Proof/Machine/State.lean ====
section
/-! DEFINITION. Machine/State.lean: everything the spec gives the machine (10_state.md R22 to R53), the host's
buffers, stream and sink (20_memory.md R63 to R66), the host's actions still to come (20_memory.md R79), the reasons a
step can stop, and the state after reset (70_reset_and_hazards.md R301). Plain data throughout. -/

namespace Sys2Proof.Machine

/-! ### Reasons to stop -/

/-- Why the machine stops with a fault. None of these is an `ERR` code (60_exceptions.md R277). -/
inductive Fault where
  /-- `NQ.LEARN`, `NQ.PROCESS`, `NQ.MAPBUF`: a `SrcRead` at or beyond `SRC_SIZE` has no step (20_memory.md R63). Safe. -/
  | srcBeyondEnd
  /-- `NQ.MAPBUF`: an `IdxWrite` at or beyond `IDX_SIZE` has no step (20_memory.md R64). Safe. -/
  | idxBeyondEnd
  /-- `LZ.ENCODE`: a `PixRead` at or beyond `PIX_SIZE` has no step (20_memory.md R65). Safe. -/
  | pixBeyondEnd
  /-- A host read of a `PAL_W` word while `NQ_STATUS.PHASE` is not `PALETTE` (20_memory.md R67). Safe. -/
  | paletteNotReady
  /-- `LZ.ENCODE` of an image of no pixels: the first `NextPixel` is `END`, which 44_lzw_encode.md R213 says never
  happens (`LZ.INIT` rejects `W * H` = 0). No run reaches it (assumption 19). Safe. -/
  | noFirstPixel
  /-- `LZ.ENCODE`: a secondary scan that has visited `HSIZE` slots without an end. 44_lzw_encode.md R218 says every
  scan ends before that; no state reaches it (assumption 18, `Laws.probe_ends`). Safe. -/
  | probeEndless
  deriving DecidableEq, Repr

/-- Why the machine has no meaning for what it is asked. -/
inductive Refusal where
  /-- A command of the opcode table with no meaning yet. Safe. -/
  | notModelled (mnemonic : String)
  /-- A host CSR access of another width than 32 bits, or at an offset not a multiple of 4 (20_memory.md R61). Safe. -/
  | unsupportedAccess
  /-- The host attaches a buffer of 2^32 bytes or more, which no port can address (00_scope.md R9). Safe. -/
  | bufferTooLarge
  deriving DecidableEq, Repr

/-! ### Status registers -/

/-- `NQ_STATUS.PHASE` (R25). -/
inductive NqPhase where
  | empty | constructed | learned | unbiased | indexed | palette
  deriving DecidableEq, Repr

/-- `LZ_STATUS.PHASE` (R41). -/
inductive LzPhase where
  | empty | ready | done | aborted
  deriving DecidableEq, Repr

/-- The `ERR` field (60_exceptions.md R270). -/
inductive ErrCode where
  | noError | invalidInput | degenerateParameters | ioFailure | illegalCommand | sequenceError
  deriving DecidableEq, Repr

/-! ### Memories -/

/-- An internal RAM of `n` entries (20_memory.md R60 "internal RAMs"). -/
structure Ram (α : Type) (n : Nat) where
  /-- the entries, entry 0 first -/
  cells : List α
  size_eq : cells.length = n
  deriving DecidableEq, Repr

/-- The RAM that holds `a` in every entry. -/
def Ram.fill {α : Type} (n : Nat) (a : α) : Ram α n := ⟨List.replicate n a, List.length_replicate⟩

/-- Bytes by offset: strictly rising offsets, no entry equal to 0, which is what an unlisted offset reads as
(assumption 9). -/
abbrev Memory := List Host.Cell

/-- A byte buffer the host has attached at a port (20_memory.md R63 to R65): its size and its bytes. -/
structure Buffer where
  /-- `SRC_SIZE`, `IDX_SIZE` or `PIX_SIZE` (00_scope.md R9) -/
  size : BitVec 32
  mem : Memory
  deriving DecidableEq, Repr

/-- No buffer attached: no offset exists. -/
def Buffer.unattached : Buffer := ⟨0, []⟩

/-- A neuron's four lanes, each a 32-bit signed integer (R29, R30). -/
structure Neuron where
  /-- lane 0 -/
  b : Word
  /-- lane 1 -/
  g : Word
  /-- lane 2 -/
  r : Word
  /-- lane 3 -/
  index : Word
  deriving DecidableEq, Repr

/-! ### The NeuQuant engine -/

/-- The state of the NQE (R23 to R37). -/
structure NqState where
  /-- `NQ_STATUS.PHASE` (R24, R25) -/
  phase : NqPhase
  /-- `NQ_STATUS.ERR` (R24) -/
  err : ErrCode
  /-- `NQ_STATUS.BUSY` (R24) -/
  busy : Bool
  /-- `NQ_STATUS.STICKY` (R24) -/
  sticky : Bool
  /-- `NQ_LEN` (R26) -/
  len : Word
  /-- `NQ_MAPRES.INDEX` (R27) -/
  mapres : Byte
  /-- `lengthcount` (R28) -/
  lengthcount : Word
  /-- `samplefac` (R28) -/
  samplefac : BitVec 5
  /-- `alphadec` (R28) -/
  alphadec : Word
  /-- `network` (R29) -/
  network : Ram Neuron 256
  /-- `freq` (R31) -/
  freq : Ram Word 256
  /-- `bias` (R32) -/
  bias : Ram Word 256
  /-- `radpower` (R33) -/
  radpower : Ram Word 32
  /-- `netindex` (R34) -/
  netindex : Ram Byte 256
  /-- `PAL` (R36) -/
  pal : Ram Byte 768
  deriving DecidableEq, Repr

/-! ### The LZW engine -/

/-- The key RAM `htab` (R45): the slots that hold a key, by rising slot number; every other slot is `EMPTY`. -/
abbrev KeyTable := List (Nat × BitVec 20)

/-- The code RAM `codetab` (R45): the slots whose code is not 0, by rising slot number. -/
abbrev CodeTable := List (Nat × BitVec 12)

/-- The state of the LZE that outlives a command (R38 to R45). -/
structure LzState where
  /-- `LZ_STATUS.PHASE` (R39, R41) -/
  phase : LzPhase
  /-- `LZ_STATUS.ERR` (R39) -/
  err : ErrCode
  /-- `LZ_STATUS.BUSY` (R39) -/
  busy : Bool
  /-- `LZ_STATUS.STICKY` (R39) -/
  sticky : Bool
  /-- `LZ_WIDTH[15:0]` (R40) -/
  width : BitVec 16
  /-- `LZ_HEIGHT[15:0]` (R40) -/
  height : BitVec 16
  /-- `LZ_PIXLEN` (R42) -/
  pixlen : Word
  /-- `LZ_OUTLEN` (R43) -/
  outlen : Word
  /-- `imgW` (R44) -/
  imgW : BitVec 16
  /-- `imgH` (R44) -/
  imgH : BitVec 16
  /-- `initCodeSize` (R44) -/
  initCodeSize : BitVec 4
  /-- `htab` (R45) -/
  htab : KeyTable
  /-- `codetab` (R45) -/
  codetab : CodeTable
  deriving DecidableEq, Repr

/-! ### The host's side -/

/-- One answer of the output sink (20_memory.md R66). -/
inductive SinkAnswer where
  | accept | fail
  deriving DecidableEq, Repr

/-- The output sink as an input: its next answers, then one answer for every later byte (assumption 8). -/
structure Sink where
  script : List SinkAnswer
  thereafter : SinkAnswer
  deriving DecidableEq, Repr

/-- The width of a host CSR access (20_memory.md R61: only a 32-bit word is supported). -/
inductive AccessWidth where
  | byte | half | word | double
  deriving DecidableEq, Repr

/-- What the outside does to the core (20_memory.md R79, 70_reset_and_hazards.md R300, R305, R306, R317), one at a time. -/
inductive HostAction where
  /-- a write of a CSR, or of a command word to `NQ_CMD` or `LZ_CMD` -/
  | write (width : AccessWidth) (offset : BitVec 12) (value : Word)
  /-- a read of a CSR -/
  | read (width : AccessWidth) (offset : BitVec 12)
  /-- attach a SRC buffer that holds these bytes (R305 step 1) -/
  | attachSrc (bytes : List Byte)
  /-- attach an IDX buffer that holds these bytes (R305 step 5) -/
  | attachIdx (bytes : List Byte)
  /-- attach a PIX buffer that holds these bytes (R306 step 1) -/
  | attachPix (bytes : List Byte)
  /-- hand the IDX buffer over as the PIX buffer (R317; assumption 23) -/
  | idxToPix
  /-- connect a sink, whose stream starts empty (R306 step 4, R314) -/
  | connectSink (sink : Sink)
  /-- the reset input (R300) -/
  | reset
  deriving DecidableEq, Repr

/-! ### The whole machine -/

/-- The core, the host's buffers, stream and sink, and the host's actions still to come. -/
structure State where
  /-- the NeuQuant engine -/
  nq : NqState
  /-- the LZW engine -/
  lz : LzState
  /-- the SRC port's buffer (20_memory.md R63) -/
  src : Buffer
  /-- the IDX port's buffer (20_memory.md R64) -/
  idx : Buffer
  /-- the PIX port's buffer (20_memory.md R65) -/
  pix : Buffer
  /-- the OUT stream (20_memory.md R66) -/
  out : List Byte
  /-- the answers the sink will give (20_memory.md R66) -/
  sink : Sink
  /-- the parameter `PALETTE_ORDER` (00_scope.md R9); no step changes it -/
  paletteOrder : PaletteOrder
  /-- the host's actions still to come, the next one first (assumption 1) -/
  inputs : List HostAction
  /-- the word the host's last read returned (assumption 21) -/
  lastRead : Option Word
  deriving DecidableEq, Repr

/-! ### Reset -/

/-- A neuron of zero lanes: the value named for the unspecified network after reset (assumption 5). -/
def Neuron.zero : Neuron := ⟨0, 0, 0, 0⟩

/-- The NQE after reset (70_reset_and_hazards.md R301); what R301 calls unspecified is 0 (assumption 5). -/
def NqState.reset : NqState where
  phase := .empty
  err := .noError
  busy := false
  sticky := false
  len := 0
  mapres := 0
  lengthcount := 0
  samplefac := 0
  alphadec := 0
  network := Ram.fill 256 Neuron.zero
  freq := Ram.fill 256 0
  bias := Ram.fill 256 0
  radpower := Ram.fill 32 0
  netindex := Ram.fill 256 0
  pal := Ram.fill 768 0

/-- The LZE after reset (70_reset_and_hazards.md R301); what R301 calls unspecified is 0 or `EMPTY` (assumption 5). -/
def LzState.reset : LzState where
  phase := .empty
  err := .noError
  busy := false
  sticky := false
  width := 0
  height := 0
  pixlen := 0
  outlen := 0
  imgW := 0
  imgH := 0
  initCodeSize := 0
  htab := []
  codetab := []

/-- The machine right after reset, nothing attached and no host action waiting (assumptions 7, 8, 9). -/
def State.reset : State where
  nq := NqState.reset
  lz := LzState.reset
  src := Buffer.unattached
  idx := Buffer.unattached
  pix := Buffer.unattached
  out := []
  sink := ⟨[], .accept⟩
  paletteOrder := .rgb
  inputs := []
  lastRead := none

end Sys2Proof.Machine
end

