-- ==== Sys2Proof/Machine/Ops.lean ====
section
/-! DEFINITION. Machine/Ops.lean: the operations every meaning is built from: RAM accesses, sparse tables, the byte
ports (20_memory.md R63 to R66), the integer operators of 00_scope.md R11, and how a command ends (60_exceptions.md
R272). The core has no trap entry and no trap return (60_exceptions.md R279, R280): `endCommand` is what stands in
their place. -/

namespace Sys2Proof.Machine

/-! ### Integer operators (00_scope.md R11) -/

/-- `a / b`: truncates toward zero. -/
def tquot (a b : Int) : Int := a.tdiv b

/-- `a >> k`: arithmetic, the floor of `a / 2^k`. -/
def asr (a : Int) (k : Nat) : Int := a / 2 ^ k

/-- Store an exact integer in a 32-bit two's-complement register (00_scope.md R10). -/
def toWord (x : Int) : Word := BitVec.ofInt 32 x

/-! ### Internal RAMs -/

/-- `f k x` for each entry `x` at position `k`, counting positions from `k`. -/
def mapFrom {α β : Type} (f : Nat → α → β) : Nat → List α → List β
  | _, [] => []
  | k, x :: xs => f k x :: mapFrom f (k + 1) xs

/-- One entry of each list at a time. -/
def zipMap {α β γ : Type} (f : α → β → γ) : List α → List β → List γ
  | x :: xs, y :: ys => f x y :: zipMap f xs ys
  | _, _ => []

theorem length_mapFrom {α β : Type} (f : Nat → α → β) (k : Nat) (l : List α) :
    (mapFrom f k l).length = l.length := by
  induction l generalizing k with
  | nil => rfl
  | cons x xs ih => simp [mapFrom, ih]

theorem length_zipMap {α β γ : Type} (f : α → β → γ) (l : List α) (m : List β) :
    (zipMap f l m).length = min l.length m.length := by
  induction l generalizing m with
  | nil => simp [zipMap]
  | cons x xs ih => cases m <;> simp [zipMap, ih]

/-- The RAM whose entry `k` is `f k` of the old entry: every entry rewritten from its old value and its position. -/
def Ram.mapIdx {α β : Type} {n : Nat} (f : Nat → α → β) (r : Ram α n) : Ram β n :=
  ⟨mapFrom f 0 r.cells, (length_mapFrom f 0 r.cells).trans r.size_eq⟩

/-- The RAM whose entry `k` is `f` of the two entries `k`. -/
def Ram.zipWith {α β γ : Type} {n : Nat} (f : α → β → γ) (r : Ram α n) (q : Ram β n) : Ram γ n :=
  ⟨zipMap f r.cells q.cells, by simp [length_zipMap, r.size_eq, q.size_eq]⟩

/-- `r[k]`; `d` for a position the RAM does not have. -/
def Ram.read {α : Type} {n : Nat} (r : Ram α n) (k : Nat) (d : α) : α := r.cells.getD k d

/-- `r[k] <- v`; a position the RAM does not have is no entry, and nothing is written (assumption 14). -/
def Ram.write {α : Type} {n : Nat} (r : Ram α n) (k : Nat) (v : α) : Ram α n :=
  ⟨r.cells.set k v, List.length_set.trans r.size_eq⟩

/-- The RAM that holds the entries of `l`, which has as many. -/
def Ram.ofList {α : Type} (n : Nat) (l : List α) (h : l.length = n) : Ram α n := ⟨l, h⟩

/-! ### Tables by key, in one canonical form -/

/-- The entry listed under `a`. -/
def find {α : Type} : List (Nat × α) → Nat → Option α
  | [], _ => none
  | (b, v) :: rest, a => if a = b then some v else find rest a

/-- List `v` under `a`, keeping rising order. -/
def put {α : Type} : List (Nat × α) → Nat → α → List (Nat × α)
  | [], a, v => [(a, v)]
  | (b, w) :: rest, a, v =>
    if a < b then (a, v) :: (b, w) :: rest
    else if a = b then (a, v) :: rest
    else (b, w) :: put rest a v

/-- List nothing under `a`. -/
def erase {α : Type} : List (Nat × α) → Nat → List (Nat × α)
  | [], _ => []
  | (b, w) :: rest, a => if a = b then erase rest a else (b, w) :: erase rest a

/-- Keys strictly rising. -/
abbrev Rising {α : Type} (l : List (Nat × α)) : Prop := l.Pairwise (fun x y => x.1 < y.1)

/-- The table of values whose unlisted key reads as `d`. -/
def readDefault {α : Type} (d : α) (l : List (Nat × α)) (a : Nat) : α := (find l a).getD d

/-- Write `v` under `a`: writing what an unlisted key reads as removes the entry. -/
def writeDefault {α : Type} [DecidableEq α] (d : α) (l : List (Nat × α)) (a : Nat) (v : α) : List (Nat × α) :=
  if v = d then erase l a else put l a v

/-- What an unlisted byte of a port buffer reads as (assumption 9). -/
def unlistedByte : Byte := 0

/-- The byte at offset `a`. -/
def Memory.read (m : Memory) (a : Nat) : Byte := readDefault unlistedByte m a

/-- The byte at offset `a` becomes `v`. -/
def Memory.write (m : Memory) (a : Nat) (v : Byte) : Memory := writeDefault unlistedByte m a v

/-- The canonical form: rising offsets, no entry equal to what an unlisted offset reads as. -/
abbrev Memory.wf (m : Memory) : Prop := Rising m ∧ ∀ c ∈ m, c.2 ≠ unlistedByte

/-- The bytes at offsets `k`, `k + 1`, … -/
def Memory.ofBytes : Nat → List Byte → Memory
  | _, [] => []
  | k, v :: vs => if v = unlistedByte then Memory.ofBytes (k + 1) vs else (k, v) :: Memory.ofBytes (k + 1) vs

/-! ### The byte ports (20_memory.md R63 to R65) -/

/-- The canonical form of an attached buffer: its memory's, and no entry outside its size. -/
abbrev Buffer.wf (buf : Buffer) : Prop := Memory.wf buf.mem ∧ ∀ c ∈ buf.mem, c.1 < buf.size.toNat

/-- The buffer that holds these bytes. -/
def Buffer.ofBytes (bytes : List Byte) : Buffer := ⟨BitVec.ofNat 32 bytes.length, Memory.ofBytes 0 bytes⟩

/-- The byte at offset `a`, for `a` below the buffer's size. -/
def Buffer.get (buf : Buffer) (a : Nat) : Option Byte :=
  if a < buf.size.toNat then some (Memory.read buf.mem a) else none

/-- `SrcRead(a)` (R63). -/
def srcRead (src : Buffer) (a : Nat) : Except Fault Byte :=
  match src.get a with
  | some v => .ok v
  | none => .error .srcBeyondEnd

/-- `IdxWrite(a, v)` (R64). -/
def idxWrite (idx : Buffer) (a : Nat) (v : Byte) : Except Fault Buffer :=
  if a < idx.size.toNat then .ok { idx with mem := Memory.write idx.mem a v } else .error .idxBeyondEnd

/-- `PixRead(a)` (R65). -/
def pixRead (pix : Buffer) (a : Nat) : Except Fault Byte :=
  match pix.get a with
  | some v => .ok v
  | none => .error .pixBeyondEnd

/-- `Draw(sink)` (R66): the sink's next answer, and the sink after it. -/
def Sink.draw (k : Sink) : SinkAnswer × Sink :=
  match k.script with
  | [] => (k.thereafter, k)
  | a :: rest => (a, { k with script := rest })

/-- `LZ_OUTLEN` after one more accepted byte (10_state.md R43), the byte being number `count` of the stream; beyond the
register's largest value the spec gives no value (assumption 3). -/
def outlenNext (outlen : Word) (count : Nat) : Word :=
  if outlen.toNat + 1 < 2 ^ 32 then outlen + 1 else Config.outlenOverflow count

/-! ### How a command ends -/

/-- `EndCommand(P, code)` (60_exceptions.md R272): `ERR` takes the code, an error sets `STICKY`, `BUSY` falls. -/
def endCommand (p : Port) (code : ErrCode) (s : State) : State :=
  match p with
  | .nq => { s with nq := { s.nq with err := code, sticky := s.nq.sticky || decide (code ≠ .noError), busy := false } }
  | .lz => { s with lz := { s.lz with err := code, sticky := s.lz.sticky || decide (code ≠ .noError), busy := false } }

/-- `raise Error(code)` before the command has changed anything (00_scope.md R15, 60_exceptions.md R274). -/
def raiseError (p : Port) (code : ErrCode) (s : State) : Host.Outcome State Fault Refusal :=
  .next (endCommand p code s)

/-- Completion without error: `STATUS(P).ERR <- 0` (30_encoding.md R99). -/
def complete (p : Port) (s : State) : Host.Outcome State Fault Refusal :=
  .next (endCommand p .noError s)

end Sys2Proof.Machine
end

