-- ==== Sys2Proof/Machine/Operands.lean ====
section
/-! DEFINITION. Machine/Operands.lean: what a command takes as operands: the numbers of its word (30_encoding.md R92
to R94), the CSRs and latched registers its rule names, and the pixels of SRC (20_memory.md R63). -/

namespace Sys2Proof.Machine

/-- A colour as three exact integers, lane order B, G, R. -/
structure Colour where
  b : Int
  g : Int
  r : Int
  deriving DecidableEq, Repr

/-- The colour operand of `NQ.MAP` (R94): unsigned, neither scaled nor biased. -/
def Colour.ofOperands (b g r : Nat) : Colour := ⟨b, g, r⟩

/-- The three bytes at offsets `a`, `a + 1`, `a + 2` of SRC: B, G, R (20_memory.md R63, R68). -/
def readTriple (src : Buffer) (a : Nat) : Except Fault Colour :=
  match srcRead src a, srcRead src (a + 1), srcRead src (a + 2) with
  | .ok b, .ok g, .ok r => .ok ⟨b.toNat, g.toNat, r.toNat⟩
  | .error f, _, _ => .error f
  | _, .error f, _ => .error f
  | _, _, .error f => .error f

/-- `FetchSample(pix)` (41_nq_learning.md R129): the pixel, each lane shifted left by `netbiasshift`. -/
def fetchSample (src : Buffer) (pix : Nat) : Except Fault Colour :=
  match readTriple src pix with
  | .ok c => .ok ⟨c.b * 2 ^ Config.netbiasshift, c.g * 2 ^ Config.netbiasshift, c.r * 2 ^ Config.netbiasshift⟩
  | .error f => .error f

/-- `NQ.INIT`'s length check (41_nq_learning.md R120): not empty, whole pixels, at most 0x7FFFFFFF. -/
def lengthAccepted (len : Nat) : Bool :=
  decide (len ≠ 0) && decide (len % 3 = 0) && decide (len ≤ Config.maxLength)

/-- `NQ.INIT`'s operand check (R120): 1 to 30. -/
def sampleFactorAccepted (sf : Nat) : Bool :=
  decide (Config.minSampleFactor ≤ sf) && decide (sf ≤ Config.maxSampleFactor)

/-- `LZ.INIT`'s length check (44_lzw_encode.md R210): `W * H` computed exactly, not 0, and equal to `LZ_PIXLEN`. -/
def imageAccepted (w h pixlen : Nat) : Bool :=
  decide (w * h ≠ 0) && decide (pixlen = w * h)

/-- `LZ.INIT`'s operand check (R210): 2 to 8. -/
def depthAccepted (depth : Nat) : Bool :=
  decide (Config.minDepth ≤ depth) && decide (depth ≤ Config.maxDepth)

end Sys2Proof.Machine
end

