-- ==== Sys2Proof/Machine/Flags.lean ====
section
/-! DEFINITION. Machine/Flags.lean: the status registers as the host reads them (10_state.md R24, R25, R39, R41), the
numbering of errors (60_exceptions.md R270), and the phases each command is allowed in (30_encoding.md R95, R99). -/

namespace Sys2Proof.Machine

/-- R25's numbering. -/
def NqPhase.code : NqPhase → Nat
  | .empty => 0
  | .constructed => 1
  | .learned => 2
  | .unbiased => 3
  | .indexed => 4
  | .palette => 5

/-- R41's numbering. -/
def LzPhase.code : LzPhase → Nat
  | .empty => 0
  | .ready => 1
  | .done => 2
  | .aborted => 3

/-- R270's numbering. -/
def ErrCode.code : ErrCode → Nat
  | .noError => 0
  | .invalidInput => 1
  | .degenerateParameters => 2
  | .ioFailure => 3
  | .illegalCommand => 4
  | .sequenceError => 5

/-- The layout of R24 and R39: `PHASE` 3:0, `ERR` 7:4, `BUSY` 8, `STICKY` 9, the rest 0. -/
def packStatus (phase err : Nat) (busy sticky : Bool) : Word :=
  BitVec.ofNat 32 (phase + err * 2 ^ 4 + busy.toNat * 2 ^ 8 + sticky.toNat * 2 ^ 9)

/-- `NQ_STATUS` as read (R24). -/
def NqState.statusWord (q : NqState) : Word := packStatus q.phase.code q.err.code q.busy q.sticky

/-- `LZ_STATUS` as read (R39). -/
def LzState.statusWord (z : LzState) : Word := packStatus z.phase.code z.err.code z.busy z.sticky

/-- `STATUS(P).BUSY`. -/
def State.busy (s : State) : Port → Bool
  | .nq => s.nq.busy
  | .lz => s.lz.busy

/-- `STATUS(P).STICKY`. -/
def State.sticky (s : State) : Port → Bool
  | .nq => s.nq.sticky
  | .lz => s.lz.sticky

/-- `STATUS(P).ERR`. -/
def State.err (s : State) : Port → ErrCode
  | .nq => s.nq.err
  | .lz => s.lz.err

/-- `PhasesAllowed(op)` (R95), on the phases of both engines: a command reads its own engine's. -/
def phaseAllowed (i : Instr) (s : State) : Bool :=
  match i with
  | .nqInit _ => true
  | .nqLearn => decide (s.nq.phase = .constructed)
  | .nqUnbias => decide (s.nq.phase = .learned)
  | .nqInxbuild => decide (s.nq.phase = .unbiased)
  | .nqColormap => decide (s.nq.phase = .indexed ∨ s.nq.phase = .palette)
  | .nqProcess => decide (s.nq.phase = .constructed)
  | .nqMap _ _ _ => decide (s.nq.phase = .indexed ∨ s.nq.phase = .palette)
  | .nqMapbuf => decide (s.nq.phase = .indexed ∨ s.nq.phase = .palette)
  | .lzInit _ => true
  | .lzEncode => decide (s.lz.phase = .ready)

/-- The sequencing half of R99: in a phase the command is not allowed in it ends with `SEQUENCE_ERROR`, else its own
rule runs. -/
def sequenced (i : Instr) (s : State) (run : State → Host.Outcome State Fault Refusal) :
    Host.Outcome State Fault Refusal :=
  if phaseAllowed i s then run s else raiseError i.port .sequenceError s

end Sys2Proof.Machine
end

