-- ==== Sys2Proof/Machine/NqLearn.lean ====
section
/-! DEFINITION. Machine/NqLearn.lean: `NQ.INIT` and `NQ.LEARN` (spec 41_nq_learning.md): construction of the network,
the sample walk, the contest, the winner's and the neighbours' moves. -/

namespace Sys2Proof.Machine

/-! ### Construction (R120, R121) -/

/-- Neuron `i` of the initial network: the grey `(i << (netbiasshift + 8)) / netsize`, lane 3 = 0 (R121). -/
def initialNeuron (i : Nat) : Neuron :=
  let v := toWord (tquot (i * 2 ^ (Config.netbiasshift + 8)) Config.netsize)
  ⟨v, v, v, 0⟩

/-- `InitNetwork()` (R121). -/
def initNetwork (q : NqState) : NqState :=
  { q with
    network := q.network.mapIdx fun i _ => initialNeuron i
    freq := Ram.fill 256 (toWord (tquot Config.intbias Config.netsize))
    bias := Ram.fill 256 0 }

/-- `NQ.INIT sf` (R120). -/
def execNqInit (sf : Nat) (s : State) : Host.Outcome State Fault Refusal :=
  sequenced (.nqInit sf) s fun s =>
    if lengthAccepted s.nq.len.toNat = false then raiseError .nq .invalidInput s
    else if sampleFactorAccepted sf = false then raiseError .nq .degenerateParameters s
    else
      let q := initNetwork { s.nq with lengthcount := s.nq.len, samplefac := BitVec.ofNat 5 sf }
      complete .nq { s with nq := { q with phase := .constructed } }

/-! ### The contest (R132 to R135) -/

/-- `Dist(n, b, g, r)`: the lane-wise L1 distance over lanes 0 to 2 (R132). -/
def dist (x : Neuron) (c : Colour) : Nat :=
  (x.b.toInt - c.b).natAbs + (x.g.toInt - c.g).natAbs + (x.r.toInt - c.r).natAbs

/-- The contest's running minima; position -1 is none yet (R135). -/
structure ContestBest where
  bestd : Nat
  bestpos : Int
  bestbiasd : Int
  bestbiaspos : Int
  deriving DecidableEq, Repr

/-- Before neuron 0 (R135). -/
def ContestBest.start : ContestBest := ⟨Config.contestInitDist, -1, Config.contestInitDist, -1⟩

/-- The biased distance, with the bias the neuron has before this contest (R134). -/
def biasedDist (d : Nat) (bias : Word) : Int :=
  (d : Int) - asr bias.toInt (Config.intbiasshift - Config.netbiasshift)

/-- Neuron `n` at distance `d` and biased distance `bd`: it replaces a best only when strictly nearer (R133, R134). -/
def ContestBest.consider (best : ContestBest) (n : Nat) (d : Nat) (bd : Int) : ContestBest where
  bestd := if d < best.bestd then d else best.bestd
  bestpos := if d < best.bestd then n else best.bestpos
  bestbiasd := if bd < best.bestbiasd then bd else best.bestbiasd
  bestbiaspos := if bd < best.bestbiasd then n else best.bestbiaspos

/-- The reduction over the neurons from position `n` on, in increasing order (R133, R134). -/
def contestScan (c : Colour) : Nat → List Neuron → List Word → ContestBest → ContestBest
  | n, x :: xs, bias :: biases, best =>
    contestScan c (n + 1) xs biases (best.consider n (dist x c) (biasedDist (dist x c) bias))
  | _, _, _, best => best

/-- `betafreq`: the leak of one neuron's frequency (R135). -/
def betafreq (freq : Word) : Int := asr freq.toInt Config.betashift

/-- `freq[n] <- freq[n] - betafreq` (R135). -/
def leakFreq (freq : Word) : Word := toWord (freq.toInt - betafreq freq)

/-- `bias[n] <- bias[n] + (betafreq << gammashift)`, with `freq[n]` as before the contest (R135). -/
def leakBias (freq bias : Word) : Word := toWord (bias.toInt + betafreq freq * 2 ^ Config.gammashift)

/-- Add `v` to the entry at position `pos`; position -1 is no entry. -/
def addAt (pos : Int) (v : Int) (r : Ram Word 256) : Ram Word 256 :=
  r.mapIdx fun k x => if (k : Int) = pos then toWord (x.toInt + v) else x

/-- What a contest leaves: the two updated RAMs and the biased winner. -/
structure ContestResult where
  freq : Ram Word 256
  bias : Ram Word 256
  winner : Int
  deriving DecidableEq, Repr

/-- `Contest(b, g, r)` (R135). The scan reads `network` and the old `bias`; every neuron leaks, each from its own old
entries; then the raw winner is credited; the biased winner is returned (assumption 17). -/
def contest (c : Colour) (network : Ram Neuron 256) (freq bias : Ram Word 256) : ContestResult :=
  let best := contestScan c 0 network.cells bias.cells ContestBest.start
  { freq := addAt best.bestpos Config.beta (freq.mapIdx fun _ f => leakFreq f)
    bias := addAt best.bestpos (-(Config.betagamma : Int)) (freq.zipWith leakBias bias)
    winner := best.bestbiaspos }

/-! ### Moving the winner and its neighbours (R137 to R140) -/

/-- One lane moved toward the sample's lane by the factor `f / scale`: `x - (f * (x - s)) / scale` (R137, R140). -/
def moveLane (f scale : Int) (x : Word) (s : Int) : Word :=
  toWord (x.toInt - tquot (f * (x.toInt - s)) scale)

/-- Lanes 0 to 2 moved, each from its own old value; lane 3 kept (R138). -/
def Neuron.moveToward (f scale : Int) (c : Colour) (x : Neuron) : Neuron where
  b := moveLane f scale x.b c.b
  g := moveLane f scale x.g c.g
  r := moveLane f scale x.r c.r
  index := x.index

/-- `AlterSingle(alpha, j, b, g, r)` (R137). -/
def alterSingle (alpha : Nat) (j : Int) (c : Colour) (network : Ram Neuron 256) : Ram Neuron 256 :=
  network.mapIdx fun k x => if (k : Int) = j then x.moveToward alpha Config.initalpha c else x

/-- `AlterNeigh(rad, j, b, g, r)`: every neuron at index distance `m` = 1 to `rad - 1` from `j` moves with the factor
`radpower[m] / alpharadbias` (R139). R140 fixes the order of these moves; each neuron moves at most once and from its
own lanes, so the order does not show (assumption 17). -/
def alterNeigh (rad : Nat) (j : Int) (c : Colour) (radpower : Ram Word 32) (network : Ram Neuron 256) : Ram Neuron 256 :=
  network.mapIdx fun k x =>
    let m := ((k : Int) - j).natAbs
    if 1 ≤ m ∧ m < rad then x.moveToward (radpower.read m 0).toInt Config.alpharadbias c else x

/-! ### The taper, the stride and the decay (R126, R127, R130) -/

/-- `radpower[k]` for a radius and a learning rate: the inner quotient truncates before the product (R126). -/
def radpowerEntry (rad alpha k : Nat) : Word :=
  toWord (alpha * tquot (((rad : Int) * rad - (k : Int) * k) * Config.radbias) ((rad : Int) * rad))

/-- `SetRadpower(rad, alpha)`: entries 0 to `rad - 1`; the others keep their values (R126). -/
def setRadpower (rad alpha : Nat) (radpower : Ram Word 32) : Ram Word 32 :=
  radpower.mapIdx fun k old => if k < rad then radpowerEntry rad alpha k else old

/-- `SelectStep(lengthcount)`: the stride between samples, in bytes (R127). -/
def selectStep (len : Nat) : Nat :=
  if len < Config.minpicturebytes then 3
  else if len % Config.prime1 ≠ 0 then 3 * Config.prime1
  else if len % Config.prime2 ≠ 0 then 3 * Config.prime2
  else if len % Config.prime3 ≠ 0 then 3 * Config.prime3
  else 3 * Config.prime4

/-- `rad` of a biased radius: `radius >> radiusbiasshift`, and 0 when that is at most 1 (R125, R130). -/
def radOf (radius : Nat) : Nat :=
  let rad := radius / 2 ^ Config.radiusbiasshift
  if rad ≤ 1 then 0 else rad

/-- The registers of a running `NQ.LEARN` (10_state.md R35), with the RAMs it trains. -/
structure LearnJob where
  network : Ram Neuron 256
  freq : Ram Word 256
  bias : Ram Word 256
  radpower : Ram Word 32
  alpha : Nat
  radius : Nat
  rad : Nat
  delta : Nat
  pix : Nat
  /-- samples done -/
  i : Nat
  deriving DecidableEq, Repr

/-- `CycleDecay()` (R130): `x <- x - x / d` for the learning rate and the radius, every `delta` samples. -/
def cycleDecay (alphadec : Nat) (j : LearnJob) : LearnJob :=
  let delta := if j.delta = 0 then 1 else j.delta
  if j.i % delta = 0 then
    let alpha := j.alpha - j.alpha / alphadec
    let radius := j.radius - j.radius / Config.radiusdec
    { j with
      delta := delta
      alpha := alpha
      radius := radius
      rad := radOf radius
      radpower := setRadpower (radOf radius) alpha j.radpower }
  else { j with delta := delta }

/-! ### The sample loop (R123 to R128) -/

/-- The moves one sample causes (R128): the contest, the biased winner, then its neighbours while there is a radius. -/
def trainOn (c : Colour) (j : LearnJob) : LearnJob :=
  let k := contest c j.network j.freq j.bias
  let moved := alterSingle j.alpha k.winner c j.network
  { j with
    freq := k.freq
    bias := k.bias
    network := if j.rad ≠ 0 then alterNeigh j.rad k.winner c j.radpower moved else moved }

/-- The next sample's offset: `pix + step`, less `lengthcount` when that reaches it (R128; `lim` = `lengthcount`). -/
def nextPix (step len pix : Nat) : Nat :=
  if pix + step ≥ len then pix + step - len else pix + step

/-- The loop of R128 for the samples still to take. -/
def learnLoop (src : Buffer) (step len alphadec : Nat) : Nat → LearnJob → Except Fault LearnJob
  | 0, j => .ok j
  | samples + 1, j =>
    match fetchSample src j.pix with
    | .error f => .error f
    | .ok c =>
      let j := trainOn c j
      learnLoop src step len alphadec samples
        (cycleDecay alphadec { j with pix := nextPix step len j.pix, i := j.i + 1 })

/-- The sample factor training uses: forced to 1 below `minpicturebytes` bytes (R123). -/
def trainFactor (len : Nat) (samplefac : BitVec 5) : BitVec 5 :=
  if len < Config.minpicturebytes then 1 else samplefac

/-- `alphadec` of a sample factor (R123). -/
def alphadecOf (samplefac : Nat) : Nat := 30 + (samplefac - 1) / 3

/-- `samplepixels` (R124). -/
def samplePixels (len samplefac : Nat) : Nat := len / (3 * samplefac)

/-- The registers at the first sample (R124, R125). -/
def learnStart (q : NqState) (samplepixels : Nat) : LearnJob :=
  let rad := radOf Config.initradius
  { network := q.network
    freq := q.freq
    bias := q.bias
    radpower := setRadpower rad Config.initalpha q.radpower
    alpha := Config.initalpha
    radius := Config.initradius
    rad := rad
    delta := samplepixels / Config.ncycles
    pix := 0
    i := 0 }

/-- The whole training run, with its registers at the end (R123 to R130). -/
def learnRun (q : NqState) (src : Buffer) : Except Fault LearnJob :=
  let len := q.lengthcount.toNat
  let factor := (trainFactor len q.samplefac).toNat
  let samplepixels := samplePixels len factor
  learnLoop src (selectStep len) len (alphadecOf factor) samplepixels (learnStart q samplepixels)

/-- What training writes back: the forced factor, `alphadec`, the RAMs (R122 to R130). -/
def learnCommit (q : NqState) (j : LearnJob) : NqState :=
  { q with
    samplefac := trainFactor q.lengthcount.toNat q.samplefac
    alphadec := toWord (alphadecOf (trainFactor q.lengthcount.toNat q.samplefac).toNat)
    network := j.network
    freq := j.freq
    bias := j.bias
    radpower := j.radpower }

/-- `Learn()` (R123 to R130). -/
def learn (q : NqState) (src : Buffer) : Except Fault NqState :=
  match learnRun q src with
  | .ok j => .ok (learnCommit q j)
  | .error f => .error f

/-- `NQ.LEARN` (R122). -/
def execNqLearn (s : State) : Host.Outcome State Fault Refusal :=
  sequenced .nqLearn s fun s =>
    match learn s.nq s.src with
    | .ok q => complete .nq { s with nq := { q with phase := .learned } }
    | .error f => .fault f

end Sys2Proof.Machine
end

