-- ==== Sys2Proof/Machine/NqPalette.lean ====
section
/-! DEFINITION. Machine/NqPalette.lean: `NQ.UNBIAS`, `NQ.INXBUILD`, `NQ.COLORMAP`, `NQ.PROCESS` (spec
42_nq_palette.md). -/

namespace Sys2Proof.Machine

/-! ### NQ.UNBIAS (R160) -/

/-- One neuron out of fixed point, its position recorded in lane 3 (R160). -/
def Neuron.unbias (i : Nat) (x : Neuron) : Neuron where
  b := toWord (asr x.b.toInt Config.netbiasshift)
  g := toWord (asr x.g.toInt Config.netbiasshift)
  r := toWord (asr x.r.toInt Config.netbiasshift)
  index := toWord i

/-- `Unbias()` (R160). -/
def unbias (q : NqState) : NqState := { q with network := q.network.mapIdx Neuron.unbias }

/-- `NQ.UNBIAS` (R160). -/
def execNqUnbias (s : State) : Host.Outcome State Fault Refusal :=
  sequenced .nqUnbias s fun s =>
    complete .nq { s with nq := { unbias s.nq with phase := .unbiased } }

/-! ### NQ.INXBUILD (R161 to R164) -/

/-- The sort key: lane 1. -/
def Neuron.green (x : Neuron) : Int := x.g.toInt

/-- The inner scan of R162: among `xs`, at positions `j` on, the first neuron with the least green, if that is below
`smallval`; with its position. `small` is the one found so far. -/
def scanSmallest : Nat → List Neuron → Int → Option (Nat × Neuron) → Option (Nat × Neuron)
  | _, [], _, small => small
  | j, x :: xs, smallval, small =>
    if x.green < smallval then scanSmallest (j + 1) xs x.green (some (j, x))
    else scanSmallest (j + 1) xs smallval small

/-- One step of the selection sort on the positions from `i` on (`x` at `i`, `xs` after it): the neuron that comes to
position `i`, and the positions after it, with `x` in the place of the neuron swapped (R162, R163). -/
def swapSmallest (x : Neuron) (xs : List Neuron) : Neuron × List Neuron :=
  match scanSmallest 0 xs x.green none with
  | none => (x, xs)
  | some (j, y) => (y, xs.set j x)

/-- The selection sort (R162, R163); the number counts the positions still to fill. -/
def selectionSort : Nat → List Neuron → List Neuron
  | 0, l => l
  | _, [] => []
  | n + 1, x :: xs => (swapSmallest x xs).1 :: selectionSort n (swapSmallest x xs).2

theorem length_swapSmallest (x : Neuron) (xs : List Neuron) : (swapSmallest x xs).2.length = xs.length := by
  unfold swapSmallest
  split <;> simp

theorem length_selectionSort (n : Nat) (l : List Neuron) : (selectionSort n l).length = l.length := by
  induction n generalizing l with
  | zero => rfl
  | succ n ih => cases l <;> simp [selectionSort, ih, length_swapSmallest]

/-- The network sorted by green (R163). -/
def sortNetwork (network : Ram Neuron 256) : Ram Neuron 256 :=
  ⟨selectionSort Config.netsize network.cells, (length_selectionSort _ _).trans network.size_eq⟩

/-- The registers of the bucketing in R162, with the table it writes. -/
structure IndexJob where
  previouscol : Int
  startpos : Nat
  netindex : Ram Byte 256
  deriving DecidableEq, Repr

/-- `netindex[v] <- x` at the one green `v`; a green outside 0 to 255 has no entry (assumption 14). -/
def indexAt (v : Int) (x : Nat) (t : Ram Byte 256) : Ram Byte 256 :=
  t.mapIdx fun j old => if (j : Int) = v then BitVec.ofNat 8 x else old

/-- `netindex[j] <- x` for every `j` above `lo` and below `hi`. -/
def indexBetween (lo hi : Int) (x : Nat) (t : Ram Byte 256) : Ram Byte 256 :=
  t.mapIdx fun j old => if lo < (j : Int) ∧ (j : Int) < hi then BitVec.ofNat 8 x else old

/-- Position `i`, holding the green `smallval` after the sort (R162). -/
def indexStep (i : Nat) (smallval : Int) (k : IndexJob) : IndexJob :=
  if smallval ≠ k.previouscol then
    { previouscol := smallval
      startpos := i
      netindex := indexBetween k.previouscol smallval i (indexAt k.previouscol ((k.startpos + i) / 2) k.netindex) }
  else k

/-- The positions from `i` on (R162). -/
def indexLoop : Nat → List Neuron → IndexJob → IndexJob
  | _, [], k => k
  | i, x :: xs, k => indexLoop (i + 1) xs (indexStep i x.green k)

/-- The last bucket and the greens above it (R162). -/
def indexFinish (k : IndexJob) : Ram Byte 256 :=
  indexBetween k.previouscol Config.netsize Config.maxnetpos
    (indexAt k.previouscol ((k.startpos + Config.maxnetpos) / 2) k.netindex)

/-- The bucketing of R162 over the sorted network. -/
def buildIndex (sorted : Ram Neuron 256) (netindex : Ram Byte 256) : Ram Byte 256 :=
  indexFinish (indexLoop 0 sorted.cells ⟨0, 0, netindex⟩)

/-- `InxBuild()` (R162). The sort of position `i` is finished before the bucketing of position `i` reads it, and the
bucketing moves no neuron, so sorting first and bucketing after is the same (assumption 17). -/
def inxBuild (q : NqState) : NqState :=
  { q with
    network := sortNetwork q.network
    netindex := buildIndex (sortNetwork q.network) q.netindex }

/-- `NQ.INXBUILD` (R161). -/
def execNqInxbuild (s : State) : Host.Outcome State Fault Refusal :=
  sequenced .nqInxbuild s fun s =>
    complete .nq { s with nq := { inxBuild s.nq with phase := .indexed } }

/-! ### NQ.COLORMAP (R165, R166) -/

/-- `index[k]` after the first loop of R166: the last position whose lane 3 is `k`; positions count from `n`. -/
def inverseEntry (k : Nat) : Nat → List Neuron → Option Nat → Option Nat
  | _, [], found => found
  | n, x :: xs, found => inverseEntry k (n + 1) xs (if x.index.toInt = k then some n else found)

/-- The position `j` of R166's second loop. An entry the first loop did not write is a free value (assumption 4). -/
def palettePosition (network : List Neuron) (k : Nat) : Nat :=
  match inverseEntry k 0 network none with
  | some n => n
  | none => (Config.unwrittenIndex (network.map Neuron.index) k).toNat

/-- The three bytes of an entry, in the order the parameter gives (R166, 20_memory.md R68). -/
def paletteTriple (order : PaletteOrder) (x : Neuron) : List Byte :=
  match order with
  | .rgb => [x.r.setWidth 8, x.g.setWidth 8, x.b.setWidth 8]
  | .lane => [x.b.setWidth 8, x.g.setWidth 8, x.r.setWidth 8]

/-- The bytes of the entries `k`, `k + 1`, … of which there are `n`. -/
def paletteBytes (order : PaletteOrder) (network : List Neuron) : Nat → Nat → List Byte
  | 0, _ => []
  | n + 1, k =>
    paletteTriple order (network.getD (palettePosition network k) Neuron.zero) ++
      paletteBytes order network n (k + 1)

theorem length_paletteBytes (order : PaletteOrder) (network : List Neuron) (n k : Nat) :
    (paletteBytes order network n k).length = 3 * n := by
  induction n generalizing k with
  | zero => rfl
  | succ n ih => cases order <;> simp [paletteBytes, paletteTriple, ih] <;> omega

/-- `ColorMap()` (R166): all 768 bytes of `PAL`. -/
def colorMap (order : PaletteOrder) (q : NqState) : NqState :=
  { q with
    pal := Ram.ofList 768 (paletteBytes order q.network.cells 256 0)
      (length_paletteBytes order q.network.cells 256 0) }

/-- `NQ.COLORMAP` (R165). -/
def execNqColormap (s : State) : Host.Outcome State Fault Refusal :=
  sequenced .nqColormap s fun s =>
    complete .nq { s with nq := { colorMap s.paletteOrder s.nq with phase := .palette } }

/-! ### NQ.PROCESS (R168) -/

/-- `NQ.PROCESS` (R168): the four steps in their fixed order. -/
def execNqProcess (s : State) : Host.Outcome State Fault Refusal :=
  sequenced .nqProcess s fun s =>
    match learn s.nq s.src with
    | .ok q =>
      complete .nq { s with nq := { colorMap s.paletteOrder (inxBuild (unbias q)) with phase := .palette } }
    | .error f => .fault f

end Sys2Proof.Machine
end

