-- ==== Sys2Proof/Machine/NqMap.lean ====
section
/-! DEFINITION. Machine/NqMap.lean: `NQ.MAP` and `NQ.MAPBUF` (spec 43_nq_map.md). -/

namespace Sys2Proof.Machine

/-! ### The pruned search (R191) -/

/-- The best candidate so far; -1 is none yet (R191). -/
structure MapBest where
  bestd : Int
  best : Int
  deriving DecidableEq, Repr

/-- A candidate whose green distance is below `bestd`: the distance grows lane by lane in the order G, B, R, and the
candidate is dropped as soon as the partial sum reaches `bestd` (R191). -/
def MapBest.consider (c : Colour) (x : Neuron) (m : MapBest) : MapBest :=
  let gb := (x.g.toInt - c.g).natAbs + (x.b.toInt - c.b).natAbs
  if (gb : Int) < m.bestd then
    let gbr := gb + (x.r.toInt - c.r).natAbs
    if (gbr : Int) < m.bestd then ⟨gbr, x.index.toInt⟩ else m
  else m

/-- One look on one side of the search (R191). `left` holds the neurons that side has still to visit, the next one
first; `diff` is that side's green distance without its sign taken off. The side stops for good, with nothing left,
when its green distance alone reaches `bestd`. -/
def mapSide (c : Colour) (diff : Neuron → Int) (left : List Neuron) (m : MapBest) : List Neuron × MapBest :=
  match left with
  | [] => ([], m)
  | x :: rest => if diff x ≥ m.bestd then ([], m) else (rest, m.consider c x)

/-- The loop of R191: in each round one look upward, then one look downward. The number bounds the rounds: each round
shortens every side that is not empty, so `netsize` rounds empty both. -/
def mapLoop (c : Colour) : Nat → List Neuron → List Neuron → MapBest → MapBest
  | 0, _, _, m => m
  | n + 1, up, down, m =>
    let u := mapSide c (fun x => x.g.toInt - c.g) up m
    let d := mapSide c (fun x => c.g - x.g.toInt) down u.2
    mapLoop c n u.1 d.1 d.2

/-- `Map(b, g, r)` (R191): upward from position `netindex[g]`, downward from the position before it. -/
def mapColour (network : Ram Neuron 256) (netindex : Ram Byte 256) (c : Colour) : Int :=
  let i := (netindex.read c.g.toNat 0).toNat
  (mapLoop c Config.netsize (network.cells.drop i) (network.cells.take i).reverse ⟨Config.mapInitDist, -1⟩).best

/-- `NQ.MAP b, g, r` (R190). -/
def execNqMap (b g r : Nat) (s : State) : Host.Outcome State Fault Refusal :=
  sequenced (.nqMap b g r) s fun s =>
    complete .nq
      { s with nq := { s.nq with
          mapres := BitVec.ofInt 8 (mapColour s.nq.network s.nq.netindex (Colour.ofOperands b g r)) } }

/-! ### NQ.MAPBUF (R193) -/

/-- The loop of R193 for the `n` pixels from pixel `k` on. -/
def mapBuf (network : Ram Neuron 256) (netindex : Ram Byte 256) (src : Buffer) :
    Nat → Nat → Buffer → Except Fault Buffer
  | 0, _, idx => .ok idx
  | n + 1, k, idx =>
    match readTriple src (3 * k) with
    | .error f => .error f
    | .ok c =>
      match idxWrite idx k (BitVec.ofInt 8 (mapColour network netindex c)) with
      | .error f => .error f
      | .ok idx => mapBuf network netindex src n (k + 1) idx

/-- `NQ.MAPBUF` (R193). -/
def execNqMapbuf (s : State) : Host.Outcome State Fault Refusal :=
  sequenced .nqMapbuf s fun s =>
    match mapBuf s.nq.network s.nq.netindex s.src (s.nq.lengthcount.toNat / 3) 0 s.idx with
    | .ok idx => complete .nq { s with idx := idx }
    | .error f => .fault f

end Sys2Proof.Machine
end

