-- ==== Sys2Proof/Machine/LzEncode.lean ====
section
/-! DEFINITION. Machine/LzEncode.lean: `LZ.INIT` and `LZ.ENCODE` (spec 44_lzw_encode.md and 45_lzw_bitpack.md): the
pixel cursor, the dictionary, the code output with its bit accumulator, the code width, and the sub-blocks. -/

namespace Sys2Proof.Machine

/-! ### LZ.INIT (R210) -/

/-- `LZ.INIT depth` (R210). -/
def execLzInit (depth : Nat) (s : State) : Host.Outcome State Fault Refusal :=
  sequenced (.lzInit depth) s fun s =>
    if imageAccepted s.lz.width.toNat s.lz.height.toNat s.lz.pixlen.toNat = false then raiseError .lz .invalidInput s
    else if depthAccepted depth = false then raiseError .lz .degenerateParameters s
    else
      complete .lz
        { s with lz := { s.lz with
            imgW := s.lz.width
            imgH := s.lz.height
            initCodeSize := BitVec.ofNat 4 depth
            phase := .ready } }

/-! ### The registers of a running encode -/

/-- The registers of a running `LZ.ENCODE` (10_state.md R46 to R49), with the dictionary RAMs, the OUT stream, its
length register and the sink it works on. `remaining` (R47) is the main loop's argument. -/
structure EncodeJob where
  /-- `g_init_bits` -/
  gInitBits : Nat
  /-- `n_bits` -/
  nBits : Nat
  /-- `maxcode` -/
  maxcode : Nat
  /-- `free_ent` -/
  freeEnt : Nat
  /-- `ClearCode` -/
  clearCode : Nat
  /-- `EOFCode` -/
  eofCode : Nat
  /-- `clear_flg` -/
  clearFlg : Bool
  /-- `ent` -/
  ent : Nat
  /-- `curPixel` -/
  curPixel : Nat
  /-- `cur_accum` -/
  curAccum : Nat
  /-- `cur_bits` -/
  curBits : Nat
  /-- `accum[0]` to `accum[a_count - 1]`; `a_count` is their number (R49) -/
  packet : List Byte
  /-- `htab` -/
  htab : KeyTable
  /-- `codetab` -/
  codetab : CodeTable
  /-- the OUT stream -/
  out : List Byte
  /-- `LZ_OUTLEN` -/
  outlen : Word
  /-- the sink's answers to come -/
  sink : Sink
  deriving DecidableEq, Repr

/-- How an encode ends before its end. -/
inductive EncodeHalt where
  /-- the sink answered `fail` (60_exceptions.md R276): the registers at that moment -/
  | ioFailure (j : EncodeJob)
  /-- the engine has no step -/
  | stuck (f : Fault)
  deriving DecidableEq, Repr

/-- A step of the encoder. -/
abbrev EncodeStep := Except EncodeHalt EncodeJob

/-! ### Bytes out (20_memory.md R66, 45_lzw_bitpack.md R243, R244) -/

/-- `OutWrite(v)` (20_memory.md R66). -/
def outWrite (v : Byte) (j : EncodeJob) : EncodeStep :=
  match j.sink.draw with
  | (.accept, sink) =>
    .ok { j with sink := sink, out := j.out ++ [v], outlen := outlenNext j.outlen (j.out.length + 1) }
  | (.fail, sink) => .error (.ioFailure { j with sink := sink })

/-- The bytes in order, up to the first one the sink fails. -/
def outWrites : List Byte → EncodeJob → EncodeStep
  | [], j => .ok j
  | v :: vs, j =>
    match outWrite v j with
    | .ok j => outWrites vs j
    | .error h => .error h

/-- `FlushChar()` (R244): a count byte and the buffered payload, or nothing when the buffer is empty. -/
def flushChar (j : EncodeJob) : EncodeStep :=
  if j.packet.length > 0 then
    match outWrites (BitVec.ofNat 8 j.packet.length :: j.packet) j with
    | .ok j => .ok { j with packet := [] }
    | .error h => .error h
  else .ok j

/-- `CharOut(b)` (R243). -/
def charOut (b : Byte) (j : EncodeJob) : EncodeStep :=
  let j := { j with packet := j.packet ++ [b] }
  if j.packet.length ≥ Config.packetCap then flushChar j else .ok j

/-! ### Codes out (R240 to R246) -/

/-- One byte off the accumulator: `CharOut(cur_accum AND 0xFF)`, the accumulator shifted by 8 (R241, R246). -/
def shiftByte (j : EncodeJob) : EncodeStep :=
  match charOut (BitVec.ofNat 8 j.curAccum) j with
  | .ok j => .ok { j with curAccum := j.curAccum / 2 ^ 8, curBits := j.curBits - 8 }
  | .error h => .error h

/-- The loop of R241: whole bytes off the accumulator. The number bounds the rounds; `cur_bits` rounds are enough. -/
def drainBytes : Nat → EncodeJob → EncodeStep
  | 0, j => .ok j
  | n + 1, j =>
    if j.curBits ≥ 8 then
      match shiftByte j with
      | .ok j => drainBytes n j
      | .error h => .error h
    else .ok j

/-- The accumulator with the code laid above its pending bits (R241): the mask keeps the `cur_bits` pending bits. -/
def accumulate (accum bits code : Nat) : Nat :=
  if bits > 0 then (accum &&& Config.masks bits) ||| (code * 2 ^ bits) else code

/-- `Pack(code)` (R241). -/
def pack (code : Nat) (j : EncodeJob) : EncodeStep :=
  drainBytes (j.curBits + j.nBits)
    { j with curAccum := accumulate j.curAccum j.curBits code, curBits := j.curBits + j.nBits }

/-- `UpdateWidth()` (R245). -/
def updateWidth (j : EncodeJob) : EncodeJob :=
  if j.freeEnt > j.maxcode ∨ j.clearFlg then
    if j.clearFlg then { j with nBits := j.gInitBits, maxcode := 2 ^ j.gInitBits - 1, clearFlg := false }
    else if j.nBits + 1 = Config.maxbits then { j with nBits := j.nBits + 1, maxcode := Config.maxmaxcode }
    else { j with nBits := j.nBits + 1, maxcode := 2 ^ (j.nBits + 1) - 1 }
  else j

/-- The loop of R246: the remaining bits, padded with zeros. The number bounds the rounds; `cur_bits` are enough. -/
def drainBits : Nat → EncodeJob → EncodeStep
  | 0, j => .ok j
  | n + 1, j =>
    if j.curBits > 0 then
      match shiftByte j with
      | .ok j => drainBits n j
      | .error h => .error h
    else .ok j

/-- `FinalFlush()` (R246). `cur_bits` never goes below 0 here, which is where R246 sets it at the end. -/
def finalFlush (j : EncodeJob) : EncodeStep :=
  match drainBits j.curBits j with
  | .ok j => flushChar { j with curBits := 0 }
  | .error h => .error h

/-- `Output(code)` (R240): pack, then the width, then the flush when the code is `EOFCode`. -/
def output (code : Nat) (j : EncodeJob) : EncodeStep :=
  match pack code j with
  | .ok j => if code = j.eofCode then finalFlush (updateWidth j) else .ok (updateWidth j)
  | .error h => .error h

/-! ### The dictionary (44_lzw_encode.md R215 to R225, 45_lzw_bitpack.md R250) -/

/-- The key of the pair (prefix code, pixel): `(c << maxbits) + ent` (R215). -/
def fcode (c ent : Nat) : BitVec 20 := BitVec.ofNat 20 (c * 2 ^ Config.maxbits + ent)

/-- The primary slot `(c << hshift) XOR ent` (R215). -/
def primarySlot (c ent : Nat) : Nat := (c * 2 ^ Config.hshift) ^^^ ent

/-- The displacement of a secondary scan (R217). -/
def probeDisp (i : Nat) : Nat := if i = 0 then 1 else Config.hsize - i

/-- The slot `disp` below, wrapping (R217). -/
def probeNext (disp i : Nat) : Nat := if i < disp then i + Config.hsize - disp else i - disp

/-- What a scan ends with. -/
inductive ProbeEnd where
  /-- the key stands in this slot -/
  | hit (i : Nat)
  /-- this slot is `EMPTY` -/
  | miss (i : Nat)
  deriving DecidableEq, Repr

/-- The loop of `Probe` (R217) from slot `i`; the number bounds its steps. -/
def probeLoop (htab : KeyTable) (key : BitVec 20) (disp : Nat) : Nat → Nat → Option ProbeEnd
  | 0, _ => none
  | n + 1, i =>
    match find htab (probeNext disp i) with
    | none => some (.miss (probeNext disp i))
    | some k => if k = key then some (.hit (probeNext disp i)) else probeLoop htab key disp n (probeNext disp i)

/-- `Probe(i, fcode)` (R217). R218 bounds the scan by `HSIZE` steps. -/
def probe (htab : KeyTable) (key : BitVec 20) (i : Nat) : Option ProbeEnd :=
  probeLoop htab key (probeDisp i) Config.hsize i

/-- The look-up of a key: the primary slot, then the secondary scan (R214). -/
def lookup (htab : KeyTable) (key : BitVec 20) (i : Nat) : Option ProbeEnd :=
  match find htab i with
  | none => some (.miss i)
  | some k => if k = key then some (.hit i) else probe htab key i

/-- `codetab[i]` (R45). -/
def codeAt (codetab : CodeTable) (i : Nat) : Nat := (readDefault 0 codetab i).toNat

/-- `Insert(i, fcode)` (R224). -/
def insert (i : Nat) (key : BitVec 20) (j : EncodeJob) : EncodeJob :=
  { j with
    codetab := writeDefault 0 j.codetab i (BitVec.ofNat 12 j.freeEnt)
    freeEnt := j.freeEnt + 1
    htab := put j.htab i key }

/-- `ClearHash()` (R250): every slot `EMPTY`; `codetab` keeps its codes. -/
def clearHash (j : EncodeJob) : EncodeJob := { j with htab := [] }

/-- `ClearBlock()` (R250). -/
def clearBlock (j : EncodeJob) : EncodeStep :=
  output j.clearCode { clearHash j with freeEnt := j.clearCode + 2, clearFlg := true }

/-! ### The compressor (44_lzw_encode.md R212 to R214) -/

/-- `NextPixel()` while pixels remain (R212). -/
def nextPixel (pix : Buffer) (j : EncodeJob) : Except EncodeHalt (Nat × EncodeJob) :=
  match pixRead pix j.curPixel with
  | .ok v => .ok (v.toNat, { j with curPixel := j.curPixel + 1 })
  | .error f => .error (.stuck f)

/-- A miss at the empty slot `i` (R214): the prefix goes out, the pixel is the new prefix, and the pair gets a code
while code space remains, else the block is cleared (R225). -/
def miss (c i : Nat) (key : BitVec 20) (j : EncodeJob) : EncodeStep :=
  match output j.ent j with
  | .error h => .error h
  | .ok j =>
    let j := { j with ent := c }
    if j.freeEnt < Config.maxmaxcode then .ok (insert i key j) else clearBlock j

/-- One pixel of the main loop (R214, R216). -/
def takePixel (c : Nat) (j : EncodeJob) : EncodeStep :=
  match lookup j.htab (fcode c j.ent) (primarySlot c j.ent) with
  | some (.hit i) => .ok { j with ent := codeAt j.codetab i }
  | some (.miss i) => miss c i (fcode c j.ent) j
  | none => .error (.stuck .probeEndless)

/-- `MainLoop()` (R214) with `remaining` pixels to read. -/
def mainLoop (pix : Buffer) : Nat → EncodeJob → EncodeStep
  | 0, j =>
    match output j.ent j with
    | .ok j => output j.eofCode j
    | .error h => .error h
  | remaining + 1, j =>
    match nextPixel pix j with
    | .error h => .error h
    | .ok (c, j) =>
      match takePixel c j with
      | .ok j => mainLoop pix remaining j
      | .error h => .error h

/-- The registers `Compress(init_bits)` sets before it reads a pixel (R213). -/
def compressStart (initBits : Nat) (j : EncodeJob) : EncodeJob :=
  { j with
    gInitBits := initBits
    clearFlg := false
    nBits := initBits
    maxcode := 2 ^ initBits - 1
    clearCode := 2 ^ (initBits - 1)
    eofCode := 2 ^ (initBits - 1) + 1
    freeEnt := 2 ^ (initBits - 1) + 2
    packet := []
    curAccum := 0
    curBits := 0 }

/-- `Compress(init_bits)` (R213) of an image of `pixels` pixels. -/
def compress (pix : Buffer) (pixels initBits : Nat) (j : EncodeJob) : EncodeStep :=
  match pixels with
  | 0 => .error (.stuck .noFirstPixel)
  | remaining + 1 =>
    match nextPixel pix (compressStart initBits j) with
    | .error h => .error h
    | .ok (c, j) =>
      match output j.clearCode (clearHash { j with ent := c }) with
      | .error h => .error h
      | .ok j => mainLoop pix remaining j

/-! ### LZ.ENCODE (R211) -/

/-- The number of pixels of the accepted image: `imgW * imgH` (R211). -/
def LzState.pixels (z : LzState) : Nat := z.imgW.toNat * z.imgH.toNat

/-- The registers when the command starts (R211): `LZ_OUTLEN` is 0; the job-local registers hold nothing yet and are
set by `Compress` before anything reads them (R213). -/
def encodeStart (s : State) : EncodeJob where
  gInitBits := 0
  nBits := 0
  maxcode := 0
  freeEnt := 0
  clearCode := 0
  eofCode := 0
  clearFlg := false
  ent := 0
  curPixel := 0
  curAccum := 0
  curBits := 0
  packet := []
  htab := s.lz.htab
  codetab := s.lz.codetab
  out := s.out
  outlen := 0
  sink := s.sink

/-- The stream of R211: header, compressed data, terminator. -/
def encodeRun (s : State) : EncodeStep :=
  match outWrite (s.lz.initCodeSize.setWidth 8) (encodeStart s) with
  | .error h => .error h
  | .ok j =>
    match compress s.pix s.lz.pixels (s.lz.initCodeSize.toNat + 1) j with
    | .error h => .error h
    | .ok j => outWrite 0 j

/-- What an encode leaves behind: the dictionary RAMs, `LZ_OUTLEN`, the phase, the stream and the sink. -/
def encodeCommit (s : State) (phase : LzPhase) (j : EncodeJob) : State :=
  { s with
    lz := { s.lz with phase := phase, outlen := j.outlen, htab := j.htab, codetab := j.codetab }
    out := j.out
    sink := j.sink }

/-- A sink failure (60_exceptions.md R276): the accepted bytes stay, the phase is `ABORTED`, the error is
`IO_FAILURE`. -/
def abortEncode (s : State) (j : EncodeJob) : Host.Outcome State Fault Refusal :=
  raiseError .lz .ioFailure (encodeCommit s .aborted j)

/-- `LZ.ENCODE` (R211). -/
def execLzEncode (s : State) : Host.Outcome State Fault Refusal :=
  sequenced .lzEncode s fun s =>
    match encodeRun s with
    | .ok j => complete .lz (encodeCommit s .done j)
    | .error (.ioFailure j) => abortEncode s j
    | .error (.stuck f) => .fault f

end Sys2Proof.Machine
end

