-- ==== Sys2Proof/Machine/Dispatch.lean ====
section
/-! DEFINITION. Machine/Dispatch.lean: one arm per command (30_encoding.md R95), each one call of its meaning. -/

namespace Sys2Proof.Machine

def exec (i : Instr) (s : State) : Host.Outcome State Fault Refusal :=
  match i with
  | .nqInit sf => Sys2Proof.Machine.execNqInit sf s
  | .nqLearn => Sys2Proof.Machine.execNqLearn s
  | .nqUnbias => Sys2Proof.Machine.execNqUnbias s
  | .nqInxbuild => Sys2Proof.Machine.execNqInxbuild s
  | .nqColormap => Sys2Proof.Machine.execNqColormap s
  | .nqProcess => Sys2Proof.Machine.execNqProcess s
  | .nqMap b g r => Sys2Proof.Machine.execNqMap b g r s
  | .nqMapbuf => Sys2Proof.Machine.execNqMapbuf s
  | .lzInit depth => Sys2Proof.Machine.execLzInit depth s
  | .lzEncode => Sys2Proof.Machine.execLzEncode s

end Sys2Proof.Machine
end

