-- ==== Sys2Proof/Machine/HostPort.lean ====
section
/-! DEFINITION. Machine/HostPort.lean: what the outside does to the core (20_memory.md R61 to R67, R79): the CSR window
of 10_state.md R22, the two command registers, the attached buffers and sink, and the reset input
(70_reset_and_hazards.md R300, R301). -/

namespace Sys2Proof.Machine

/-! ### The register map (10_state.md R22) -/

/-- A register of R22. -/
inductive Csr where
  | nqCmd | nqStatus | nqLen | nqMapres
  | lzCmd | lzStatus | lzWidth | lzHeight | lzPixlen | lzOutlen
  /-- `PAL_W0` to `PAL_W191` -/
  | palW (w : Nat)
  deriving DecidableEq, Repr

/-- The register at a byte offset of the window; none where R22 lists none. -/
def csrAt (offset : Nat) : Option Csr :=
  if offset = 0x000 then some .nqCmd
  else if offset = 0x004 then some .nqStatus
  else if offset = 0x008 then some .nqLen
  else if offset = 0x00C then some .nqMapres
  else if offset = 0x100 then some .lzCmd
  else if offset = 0x104 then some .lzStatus
  else if offset = 0x108 then some .lzWidth
  else if offset = 0x10C then some .lzHeight
  else if offset = 0x110 then some .lzPixlen
  else if offset = 0x114 then some .lzOutlen
  else if 0x400 ≤ offset ∧ offset ≤ 0x6FC ∧ offset % 4 = 0 then some (.palW ((offset - 0x400) / 4))
  else none

/-- The offset of an engine's command register (R23, R38). -/
def cmdOffset : Port → BitVec 12
  | .nq => 0x000
  | .lz => 0x100

/-- A supported access: an aligned 32-bit word (20_memory.md R61). -/
def accessSupported (width : AccessWidth) (offset : BitVec 12) : Bool :=
  decide (width = .word) && decide (offset.toNat % 4 = 0)

/-! ### Reads (20_memory.md R62, R67) -/

/-- `PAL_W w`: `{PAL[4w+3], PAL[4w+2], PAL[4w+1], PAL[4w]}` (10_state.md R37). -/
def palWord (pal : Ram Byte 768) (w : Nat) : Word :=
  BitVec.ofNat 32 ((pal.read (4 * w) 0).toNat + (pal.read (4 * w + 1) 0).toNat * 2 ^ 8 +
    (pal.read (4 * w + 2) 0).toNat * 2 ^ 16 + (pal.read (4 * w + 3) 0).toNat * 2 ^ 24)

/-- What a read of a register returns. -/
def csrRead (s : State) : Csr → Except Fault Word
  | .nqCmd => .ok 0
  | .nqStatus => .ok s.nq.statusWord
  | .nqLen => .ok s.nq.len
  | .nqMapres => .ok (s.nq.mapres.setWidth 32)
  | .lzCmd => .ok 0
  | .lzStatus => .ok s.lz.statusWord
  | .lzWidth => .ok (s.lz.width.setWidth 32)
  | .lzHeight => .ok (s.lz.height.setWidth 32)
  | .lzPixlen => .ok s.lz.pixlen
  | .lzOutlen => .ok s.lz.outlen
  | .palW w => if s.nq.phase = .palette then .ok (palWord s.nq.pal w) else .error .paletteNotReady

/-- The word at an offset; an unmapped offset reads 0 (R62). -/
def windowRead (s : State) (offset : Nat) : Except Fault Word :=
  match csrAt offset with
  | some r => csrRead s r
  | none => .ok 0

/-- A host read: the word goes to the host; nothing in the core changes (R62). -/
def hostRead (width : AccessWidth) (offset : BitVec 12) (s : State) : Host.Outcome State Fault Refusal :=
  if accessSupported width offset then
    match windowRead s offset.toNat with
    | .ok v => .next { s with lastRead := some v }
    | .error f => .fault f
  else .refused .unsupportedAccess

/-! ### Commands (10_state.md R23, R38; 30_encoding.md R99; 70_reset_and_hazards.md R310) -/

/-- A command write while `BUSY` = 1 is discarded: `STICKY` is set and nothing else happens (R310). -/
def discardCommand (p : Port) (s : State) : Host.Outcome State Fault Refusal :=
  match p with
  | .nq => .next { s with nq := { s.nq with sticky := true } }
  | .lz => .next { s with lz := { s.lz with sticky := true } }

/-- `Decode(P, w)` (R99): an illegal word ends with `ILLEGAL_COMMAND`; a command runs. -/
def runWord (p : Port) (w : Word) (s : State) : Host.Outcome State Fault Refusal :=
  match decode p w with
  | .ok i => exec i s
  | .error _ => raiseError p .illegalCommand s

/-- The word `w` is written to port `p`'s command register. -/
def submit (p : Port) (w : Word) (s : State) : Host.Outcome State Fault Refusal :=
  if s.busy p then discardCommand p s else runWord p w s

/-! ### Writes (20_memory.md R62) -/

/-- A host write of a register: read-only registers and fields ignore it (R62, R40). -/
def csrWrite (v : Word) (s : State) : Csr → Host.Outcome State Fault Refusal
  | .nqCmd => submit .nq v s
  | .nqStatus => .next s
  | .nqLen => .next { s with nq := { s.nq with len := v } }
  | .nqMapres => .next s
  | .lzCmd => submit .lz v s
  | .lzStatus => .next s
  | .lzWidth => .next { s with lz := { s.lz with width := v.setWidth 16 } }
  | .lzHeight => .next { s with lz := { s.lz with height := v.setWidth 16 } }
  | .lzPixlen => .next { s with lz := { s.lz with pixlen := v } }
  | .lzOutlen => .next s
  | .palW _ => .next s

/-- A host write at an offset; an unmapped offset ignores it (R62). -/
def hostWrite (width : AccessWidth) (offset : BitVec 12) (v : Word) (s : State) : Host.Outcome State Fault Refusal :=
  if accessSupported width offset then
    match csrAt offset.toNat with
    | some r => csrWrite v s r
    | none => .next s
  else .refused .unsupportedAccess

/-! ### Buffers, sink, reset -/

/-- Whether a port can address every byte of a buffer (00_scope.md R9). -/
def attachable (bytes : List Byte) : Bool := decide (bytes.length < 2 ^ 32)

/-- The reset input (70_reset_and_hazards.md R300, R301): both engines; the host's buffers, stream, sink and actions
are not the core's. What R301 leaves unspecified takes the values of `NqState.reset` and `LzState.reset`
(assumptions 5, 6). -/
def resetCore (s : State) : State := { s with nq := NqState.reset, lz := LzState.reset }

/-- One action of the outside. -/
def hostAction (a : HostAction) (s : State) : Host.Outcome State Fault Refusal :=
  match a with
  | .write width offset v => hostWrite width offset v s
  | .read width offset => hostRead width offset s
  | .attachSrc bytes => if attachable bytes then .next { s with src := Buffer.ofBytes bytes } else .refused .bufferTooLarge
  | .attachIdx bytes => if attachable bytes then .next { s with idx := Buffer.ofBytes bytes } else .refused .bufferTooLarge
  | .attachPix bytes => if attachable bytes then .next { s with pix := Buffer.ofBytes bytes } else .refused .bufferTooLarge
  | .idxToPix => .next { s with pix := s.idx }
  | .connectSink sink => .next { s with sink := sink, out := [] }
  | .reset => .next (resetCore s)

/-- The machine's turn: the host's next action, or idling where there is none (60_exceptions.md R288). -/
def takeAction (s : State) : Host.Outcome State Fault Refusal :=
  match s.inputs with
  | [] => .next s
  | a :: rest => hostAction a { s with inputs := rest }

/-- The engine at port `p` is not busy. -/
def clearBusy (p : Port) (s : State) : State :=
  match p with
  | .nq => { s with nq := { s.nq with busy := false } }
  | .lz => { s with lz := { s.lz with busy := false } }

/-- The host's next action is a write of the word `w` to the command register its opcode belongs to, and that engine
can take it (assumption 2). -/
def offerWord (s : State) (w : Word) : State :=
  let t := clearBusy (portOfWord w) s
  { t with inputs := .write .word (cmdOffset (portOfWord w)) w :: s.inputs }

end Sys2Proof.Machine
end

