-- ==== Sys2Proof/Machine/Step.lean ====
section
/-! DEFINITION. Machine/Step.lean: one step of the machine. The core fetches nothing (10_state.md R21, 20_memory.md
R77): a step is the host's next action, and a command write runs the whole command (00_scope.md R19). -/

namespace Sys2Proof.Machine

/-- One step: the host's next action (20_memory.md R79), or nothing to do. -/
def step (s : State) : Host.Outcome State Fault Refusal := takeAction s

/-- The state whose next step runs the command word `w`: the host's next action writes it to its command register
(assumption 2). -/
def State.withFetchWord (s : State) (_nbits w : Nat) : State := offerWord s (BitVec.ofNat 32 w)

end Sys2Proof.Machine
end

