-- ==== Sys2Proof/Machine/Assembler.lean ====
section
/-! DEFINITION. Machine/Assembler.lean: the assembler of 30_encoding.md R100 to R102: from a line of text to the host
actions it stands for. A line that spells nothing, an operand that does not fit its field included, has no actions
(R100 "the assembler refuses it"). -/

namespace Sys2Proof.Machine

/-! ### Lines (R100, R101, R102) -/

/-- One line of a program. -/
inductive AsmLine where
  /-- a command (R100) -/
  | command (i : Instr)
  /-- the pseudo-instruction `nq.quantize <sf>` (R102) -/
  | quantize (sf : Nat)
  /-- the pseudo-instruction `lz.gif <depth>` (R102) -/
  | gif (depth : Nat)
  /-- `wr <CSR>, <value>` (R101) -/
  | wr (offset value : Nat)
  /-- `rd <CSR>`, with the value the program states it expects, if any (R101) -/
  | rd (offset : Nat) (expected : Option Nat)
  /-- `.src <byte>, …` (R101) -/
  | src (bytes : List Nat)
  /-- `.idx <n>` (R101) -/
  | idx (n : Nat)
  /-- `.pix <byte>, …` (R101) -/
  | pix (bytes : List Nat)
  deriving DecidableEq, Repr

/-- The write that submits a command, where its operands fit (R100). -/
def assembleCommand (i : Instr) : Option (List HostAction) :=
  if i.wellFormed then some [.write .word (cmdOffset i.port) (encode i)] else none

/-- The commands of several lines in order; none if one of them spells no command. -/
def assembleCommands : List Instr → Option (List HostAction)
  | [] => some []
  | i :: is =>
    match assembleCommand i, assembleCommands is with
    | some a, some rest => some (a ++ rest)
    | _, _ => none

/-- The bytes of a buffer directive, each 0 to 255. -/
def asmBytes (l : List Nat) : Option (List Byte) :=
  if l.all (fun v => decide (v < 256)) then some (l.map (BitVec.ofNat 8)) else none

/-- The host actions of a line (R100 to R102). `.idx n` attaches `n` bytes; the host's bytes in it are not stated and
are 0 here (assumption 9). -/
def assemble : AsmLine → Option (List HostAction)
  | .command i => assembleCommand i
  | .quantize sf => assembleCommands [.nqInit sf, .nqProcess, .nqMapbuf]
  | .gif depth => assembleCommands [.lzInit depth, .lzEncode]
  | .wr offset value =>
    if offset < 4096 ∧ value < 2 ^ 32 then some [.write .word (BitVec.ofNat 12 offset) (BitVec.ofNat 32 value)]
    else none
  | .rd offset _ => if offset < 4096 then some [.read .word (BitVec.ofNat 12 offset)] else none
  | .src bytes => (asmBytes bytes).map fun l => [.attachSrc l]
  | .idx n => if n < 2 ^ 32 then some [.attachIdx (List.replicate n 0)] else none
  | .pix bytes => (asmBytes bytes).map fun l => [.attachPix l]

/-! ### Text (R100, R101; assumption 28) -/

/-- A blank. -/
def isBlank (c : Char) : Bool := c = ' ' || c = '\t'

/-- The text without the blanks around it. -/
def trimBlanks (l : List Char) : List Char :=
  ((l.dropWhile isBlank).reverse.dropWhile isBlank).reverse

/-- The text before `;` (R100). -/
def stripComment (l : List Char) : List Char := l.takeWhile fun c => c ≠ ';'

/-- The pieces between commas; no piece of an empty text. -/
def splitCommas : List Char → List (List Char)
  | [] => [[]]
  | c :: rest =>
    match splitCommas rest with
    | [] => [[]]
    | piece :: pieces => if c = ',' then [] :: piece :: pieces else (c :: piece) :: pieces

/-- The value of a digit in base 16. -/
def digitValue (c : Char) : Option Nat :=
  if '0' ≤ c ∧ c ≤ '9' then some (c.toNat - '0'.toNat)
  else if 'a' ≤ c ∧ c ≤ 'f' then some (c.toNat - 'a'.toNat + 10)
  else if 'A' ≤ c ∧ c ≤ 'F' then some (c.toNat - 'A'.toNat + 10)
  else none

/-- The digits read in a base, most significant first, after `acc`. -/
def readDigits (base : Nat) : Nat → List Char → Option Nat
  | acc, [] => some acc
  | acc, c :: rest =>
    match digitValue c with
    | some d => if d < base then readDigits base (acc * base + d) rest else none
    | none => none

/-- A number: decimal, or hexadecimal after `0x` (R100). -/
def readNumber (l : List Char) : Option Nat :=
  match l with
  | [] => none
  | ['0', 'x'] => none
  | '0' :: 'x' :: rest => readDigits 16 0 rest
  | l => readDigits 10 0 l

/-- The numbers between commas. -/
def readNumbers : List (List Char) → Option (List Nat)
  | [] => some []
  | piece :: pieces =>
    match readNumber (trimBlanks piece), readNumbers pieces with
    | some v, some vs => some (v :: vs)
    | _, _ => none

/-- The operands of a line: nothing, or numbers between commas. -/
def readOperands (l : List Char) : Option (List Nat) :=
  if trimBlanks l = [] then some [] else readNumbers (splitCommas l)

/-- The offset of a register named as in 10_state.md R22, or given as a number (R101). DESIGN CHOICE (assumption 28): the
number after `PAL_W` may have leading zeros, so `PAL_W007` is `PAL_W7`; R22 lists `PAL_W0` to `PAL_W191` only. -/
def readCsr (l : List Char) : Option Nat :=
  match l with
  | ['N', 'Q', '_', 'C', 'M', 'D'] => some 0x000
  | ['N', 'Q', '_', 'S', 'T', 'A', 'T', 'U', 'S'] => some 0x004
  | ['N', 'Q', '_', 'L', 'E', 'N'] => some 0x008
  | ['N', 'Q', '_', 'M', 'A', 'P', 'R', 'E', 'S'] => some 0x00C
  | ['L', 'Z', '_', 'C', 'M', 'D'] => some 0x100
  | ['L', 'Z', '_', 'S', 'T', 'A', 'T', 'U', 'S'] => some 0x104
  | ['L', 'Z', '_', 'W', 'I', 'D', 'T', 'H'] => some 0x108
  | ['L', 'Z', '_', 'H', 'E', 'I', 'G', 'H', 'T'] => some 0x10C
  | ['L', 'Z', '_', 'P', 'I', 'X', 'L', 'E', 'N'] => some 0x110
  | ['L', 'Z', '_', 'O', 'U', 'T', 'L', 'E', 'N'] => some 0x114
  | 'P' :: 'A' :: 'L' :: '_' :: 'W' :: w =>
    match w, readDigits 10 0 w with
    | _ :: _, some v => if v < 192 then some (0x400 + 4 * v) else none
    | _, _ => none
  | l => readNumber l

/-- The text before `->` and, where there is one, the text after it (R101). -/
def splitArrow : List Char → List Char × Option (List Char)
  | '-' :: '>' :: rest => ([], some rest)
  | [] => ([], none)
  | c :: rest => (c :: (splitArrow rest).1, (splitArrow rest).2)

/-- `rd <CSR>` or `rd <CSR> -> <value>` (R101). -/
def readRd (l : List Char) : Option AsmLine :=
  match splitArrow l with
  | (csr, none) => (readCsr (trimBlanks csr)).map fun o => .rd o none
  | (csr, some v) =>
    match readCsr (trimBlanks csr), readNumber (trimBlanks v) with
    | some o, some v => some (.rd o (some v))
    | _, _ => none

/-- `wr <CSR>, <value>` (R101). -/
def readWr (l : List Char) : Option AsmLine :=
  match splitCommas l with
  | [csr, v] =>
    match readCsr (trimBlanks csr), readNumber (trimBlanks v) with
    | some o, some v => some (.wr o v)
    | _, _ => none
  | _ => none

/-- A command or pseudo-instruction by its mnemonic and operands (R100, R102). -/
def readCommand (mnemonic : List Char) (ops : List Nat) : Option AsmLine :=
  match mnemonic, ops with
  | ['n', 'q', '.', 'i', 'n', 'i', 't'], [sf] => some (.command (.nqInit sf))
  | ['n', 'q', '.', 'l', 'e', 'a', 'r', 'n'], [] => some (.command .nqLearn)
  | ['n', 'q', '.', 'u', 'n', 'b', 'i', 'a', 's'], [] => some (.command .nqUnbias)
  | ['n', 'q', '.', 'i', 'n', 'x', 'b', 'u', 'i', 'l', 'd'], [] => some (.command .nqInxbuild)
  | ['n', 'q', '.', 'c', 'o', 'l', 'o', 'r', 'm', 'a', 'p'], [] => some (.command .nqColormap)
  | ['n', 'q', '.', 'p', 'r', 'o', 'c', 'e', 's', 's'], [] => some (.command .nqProcess)
  | ['n', 'q', '.', 'm', 'a', 'p'], [b, g, r] => some (.command (.nqMap b g r))
  | ['n', 'q', '.', 'm', 'a', 'p', 'b', 'u', 'f'], [] => some (.command .nqMapbuf)
  | ['l', 'z', '.', 'i', 'n', 'i', 't'], [depth] => some (.command (.lzInit depth))
  | ['l', 'z', '.', 'e', 'n', 'c', 'o', 'd', 'e'], [] => some (.command .lzEncode)
  | ['n', 'q', '.', 'q', 'u', 'a', 'n', 't', 'i', 'z', 'e'], [sf] => some (.quantize sf)
  | ['l', 'z', '.', 'g', 'i', 'f'], [depth] => some (.gif depth)
  | ['.', 's', 'r', 'c'], bytes => some (.src bytes)
  | ['.', 'i', 'd', 'x'], [n] => some (.idx n)
  | ['.', 'p', 'i', 'x'], bytes => some (.pix bytes)
  | _, _ => none

/-- A line that is not empty once its comment is off. -/
def readLine (l : List Char) : Option AsmLine :=
  let word := l.takeWhile fun c => !isBlank c
  let rest := l.dropWhile fun c => !isBlank c
  match word with
  | ['w', 'r'] => readWr rest
  | ['r', 'd'] => readRd rest
  | _ =>
    match readOperands rest with
    | some ops => readCommand word ops
    | none => none

/-- The host actions of one line of text; a line with nothing but a comment has none to do. -/
def assembleText (line : List Char) : Option (List HostAction) :=
  match trimBlanks (stripComment line) with
  | [] => some []
  | l =>
    match readLine l with
    | some a => assemble a
    | none => none

/-- The host actions of a program, one line after another (R100, R101); none if a line is refused. -/
def assembleProgram : List (List Char) → Option (List HostAction)
  | [] => some []
  | line :: lines =>
    match assembleText line, assembleProgram lines with
    | some a, some rest => some (a ++ rest)
    | _, _ => none

end Sys2Proof.Machine
end

