-- ==== Sys2Proof/Machine/GifDecoder.lean ====
section
/-! DEFINITION. Machine/GifDecoder.lean: the decoder that the round-trip property of 44_lzw_encode.md R229 relies on: it
takes the sub-blocks apart (45_lzw_bitpack.md R244, R253), reads codes LSB first (R241), starts at width
`initCodeSize + 1`, adds a bit each time its table reaches `2^width` entries while the width is below 12, and returns
to the initial width on CLEAR. It is no part of the core: the claims use it to say what a stream means. -/

namespace Sys2Proof.Machine

/-- The sub-blocks of a payload: each a count byte and at most 254 bytes; the number bounds their count. -/
def frameBlocks : Nat → List Byte → List Byte
  | 0, _ => []
  | n + 1, payload =>
    if payload.length = 0 then []
    else
      BitVec.ofNat 8 (payload.take Config.packetCap).length :: (payload.take Config.packetCap) ++
        frameBlocks n (payload.drop Config.packetCap)

/-- The sub-blocks of a payload (45_lzw_bitpack.md R253): blocks of 254 bytes, then one for what is left over. -/
def frame (payload : List Byte) : List Byte := frameBlocks payload.length payload

/-- The payload of the sub-blocks up to the terminator, which must be the last byte; the number bounds their count. -/
def deframe : Nat → List Byte → Option (List Byte)
  | 0, _ => none
  | _, [] => none
  | n + 1, count :: rest =>
    if count = 0 then (if rest = [] then some [] else none)
    else if count.toNat ≤ rest.length then
      (deframe n (rest.drop count.toNat)).map fun payload => rest.take count.toNat ++ payload
    else none

/-- The bits of a byte, least significant first. -/
def byteBits (b : Byte) : List Bool := (List.range 8).map fun k => b.getLsbD k

/-- The low `n` bits of a number, least significant first. -/
def natBits (n x : Nat) : List Bool := (List.range n).map fun k => x.testBit k

/-- The number whose bits these are, least significant first. -/
def bitsValue : List Bool → Nat
  | [] => 0
  | b :: bs => b.toNat + 2 * bitsValue bs

/-- The decoder's registers: the code width, the strings of the codes from `ClearCode + 2` on, the string of the code
before (none right after a CLEAR). -/
structure DecodeJob where
  width : Nat
  table : List (List Nat)
  prev : Option (List Nat)
  deriving DecidableEq, Repr

/-- The registers right after a CLEAR. -/
def DecodeJob.cleared (depth : Nat) : DecodeJob := ⟨depth + 1, [], none⟩

/-- The string of a code that is neither CLEAR nor EOF; the code not yet in the table is the string before, with its
own first pixel after it. -/
def DecodeJob.string (depth : Nat) (j : DecodeJob) (code : Nat) : Option (List Nat) :=
  if code < 2 ^ depth then some [code]
  else
    match j.prev with
    | none => none
    | some p =>
      if code = 2 ^ depth + 2 + j.table.length then some (p ++ p.take 1)
      else j.table[code - (2 ^ depth + 2)]?

/-- The table and width after a code with the string `e` (R229). -/
def DecodeJob.learn (depth : Nat) (j : DecodeJob) (e : List Nat) : DecodeJob :=
  match j.prev with
  | none => { j with prev := some e }
  | some p =>
    let table := if 2 ^ depth + 2 + j.table.length < 2 ^ 12 then j.table ++ [p ++ e.take 1] else j.table
    { width := if 2 ^ depth + 2 + table.length = 2 ^ j.width ∧ j.width < 12 then j.width + 1 else j.width
      table := table
      prev := some e }

/-- The pixels of the codes in `bits`, up to EOF; the number bounds the codes. -/
def decodeBits (depth : Nat) : Nat → DecodeJob → List Bool → Option (List Nat)
  | 0, _, _ => none
  | n + 1, j, bits =>
    if bits.length < j.width then none
    else
      let code := bitsValue (bits.take j.width)
      let rest := bits.drop j.width
      if code = 2 ^ depth then decodeBits depth n (DecodeJob.cleared depth) rest
      else if code = 2 ^ depth + 1 then some []
      else
        match j.string depth code with
        | none => none
        | some e => (decodeBits depth n (j.learn depth e) rest).map fun pixels => e ++ pixels

/-- The pixels of a whole image-data stream: code-size byte, sub-blocks, terminator (44_lzw_encode.md R211). -/
def gifDecode (stream : List Byte) : Option (List Nat) :=
  match stream with
  | [] => none
  | size :: blocks =>
    match deframe blocks.length blocks with
    | none => none
    | some payload =>
      let bits := payload.flatMap byteBits
      decodeBits size.toNat (bits.length + 1) (DecodeJob.cleared size.toNat) bits

end Sys2Proof.Machine
end

