-- ==== Sys2Proof/Machine/Pseudocode.lean ====
section
/-! DEFINITION. Machine/Pseudocode.lean: the loops of the quantizer exactly as the spec's pseudocode writes them, entry
by entry and in its order: the contest (41_nq_learning.md R135), the neighbourhood update (R140), training (R123 to R130),
the index build (42_nq_palette.md R162) and the map search (43_nq_map.md R191). The meanings use the forms of NqLearn.lean, NqPalette.lean and NqMap.lean; that
the two agree is stated in the obligations. Loops run on a number that bounds their rounds. -/

namespace Sys2Proof.Machine.Pseudocode

open Sys2Proof.Machine

/-- `r[pos] <- v`; a negative position is no entry. -/
def writeAt {α : Type} {n : Nat} (r : Ram α n) (pos : Int) (v : α) : Ram α n :=
  if 0 ≤ pos then r.write pos.toNat v else r

/-! ### R135 -/

/-- The variables of R135. -/
structure ContestVars where
  bestd : Int
  bestbiasd : Int
  bestpos : Int
  bestbiaspos : Int
  freq : Ram Word 256
  bias : Ram Word 256

/-- The body of R135's loop for one `n`. -/
def contestBody (c : Colour) (network : Ram Neuron 256) (n : Nat) (v : ContestVars) : ContestVars :=
  let d : Int := dist (network.read n Neuron.zero) c
  let bd : Int := d - asr (v.bias.read n 0).toInt (Config.intbiasshift - Config.netbiasshift)
  let betafreq : Int := asr (v.freq.read n 0).toInt Config.betashift
  { bestd := if d < v.bestd then d else v.bestd
    bestpos := if d < v.bestd then n else v.bestpos
    bestbiasd := if bd < v.bestbiasd then bd else v.bestbiasd
    bestbiaspos := if bd < v.bestbiasd then n else v.bestbiaspos
    freq := v.freq.write n (toWord ((v.freq.read n 0).toInt - betafreq))
    bias := v.bias.write n (toWord ((v.bias.read n 0).toInt + betafreq * 2 ^ Config.gammashift)) }

/-- `for n in 0..255` of R135: the `count` rounds from `n` on. -/
def contestFor (c : Colour) (network : Ram Neuron 256) : Nat → Nat → ContestVars → ContestVars
  | 0, _, v => v
  | count + 1, n, v => contestFor c network count (n + 1) (contestBody c network n v)

/-- `Contest(b, g, r)` (R135). -/
def contest (c : Colour) (network : Ram Neuron 256) (freq bias : Ram Word 256) : ContestResult :=
  let v := contestFor c network 256 0 ⟨0x7FFFFFFF, 0x7FFFFFFF, -1, -1, freq, bias⟩
  { freq := writeAt v.freq v.bestpos (toWord ((v.freq.read v.bestpos.toNat 0).toInt + Config.beta))
    bias := writeAt v.bias v.bestpos (toWord ((v.bias.read v.bestpos.toNat 0).toInt - Config.betagamma))
    winner := v.bestbiaspos }

/-! ### R137, R140 -/

/-- Neuron `p` moved by `f / scale`, read and written back. -/
def moveBy (f scale : Int) (c : Colour) (p : Int) (network : Ram Neuron 256) : Ram Neuron 256 :=
  writeAt network p ((network.read p.toNat Neuron.zero).moveToward f scale c)

/-- `AlterSingle(alpha, j, b, g, r)` (R137). -/
def alterSingle (alpha j : Int) (c : Colour) (network : Ram Neuron 256) : Ram Neuron 256 :=
  moveBy alpha Config.initalpha c j network

/-- Neuron `p` moved by `a / alpharadbias` (R140). -/
def moveAt (a : Int) (c : Colour) (p : Int) (network : Ram Neuron 256) : Ram Neuron 256 :=
  moveBy a Config.alpharadbias c p network

/-- `while j < hi or k > lo` of R140. -/
def alterNeighWhile (c : Colour) (radpower : Ram Word 32) (lo hi : Int) :
    Nat → Int → Int → Nat → Ram Neuron 256 → Ram Neuron 256
  | 0, _, _, _, network => network
  | fuel + 1, j, k, m, network =>
    if j < hi ∨ k > lo then
      let a := (radpower.read m 0).toInt
      let up := if j < hi then moveAt a c j network else network
      let both := if k > lo then moveAt a c k up else up
      alterNeighWhile c radpower lo hi fuel (if j < hi then j + 1 else j) (if k > lo then k - 1 else k) (m + 1) both
    else network

/-- `AlterNeigh(rad, i, b, g, r)` (R140). -/
def alterNeigh (rad : Nat) (i : Int) (c : Colour) (radpower : Ram Word 32) (network : Ram Neuron 256) :
    Ram Neuron 256 :=
  let lo : Int := if i - rad < -1 then -1 else i - rad
  let hi : Int := if i + rad > 256 then 256 else i + rad
  alterNeighWhile c radpower lo hi Config.netsize (i + 1) (i - 1) 1 network

/-! ### R123 to R130 -/

/-- `for k in 0..rad-1` of R126: the `count` rounds from `k` on. -/
def setRadpowerFor (rad alpha : Int) : Nat → Nat → Ram Word 32 → Ram Word 32
  | 0, _, radpower => radpower
  | count + 1, k, radpower =>
    setRadpowerFor rad alpha count (k + 1)
      (radpower.write k (toWord (alpha * tquot ((rad * rad - (k : Int) * k) * Config.radbias) (rad * rad))))

/-- `SetRadpower(rad, alpha)` (R126). -/
def setRadpower (rad alpha : Int) (radpower : Ram Word 32) : Ram Word 32 := setRadpowerFor rad alpha rad.toNat 0 radpower

/-- The variables of R124 to R130. -/
structure LearnVars where
  alpha : Int
  radius : Int
  rad : Int
  delta : Int
  pix : Int
  i : Int
  network : Ram Neuron 256
  freq : Ram Word 256
  bias : Ram Word 256
  radpower : Ram Word 32

/-- `rad <- radius >> radiusbiasshift`; `if rad <= 1: rad <- 0` (R125, R130). -/
def radOf (radius : Int) : Int :=
  if asr radius Config.radiusbiasshift ≤ 1 then 0 else asr radius Config.radiusbiasshift

/-- `CycleDecay()` (R130). -/
def cycleDecay (alphadec : Int) (v : LearnVars) : LearnVars :=
  let delta := if v.delta = 0 then 1 else v.delta
  if v.i.tmod delta = 0 then
    let alpha := v.alpha - tquot v.alpha alphadec
    let radius := v.radius - tquot v.radius Config.radiusdec
    let rad := radOf radius
    { v with delta := delta, alpha := alpha, radius := radius, rad := rad, radpower := setRadpower rad alpha v.radpower }
  else { v with delta := delta }

/-- The body of R128's loop for the sample `c`: the contest's biased winner `j` is moved, then its neighbours. -/
def sampleBody (c : Colour) (step lengthcount alphadec : Int) (v : LearnVars) : LearnVars :=
  let k := contest c v.network v.freq v.bias
  let j := k.winner
  let single := alterSingle v.alpha j c v.network
  let network := if v.rad ≠ 0 then alterNeigh v.rad.toNat j c v.radpower single else single
  let pix := v.pix + step
  cycleDecay alphadec
    { v with
      network := network
      freq := k.freq
      bias := k.bias
      pix := if pix ≥ lengthcount then pix - lengthcount else pix
      i := v.i + 1 }

/-- `while i < samplepixels` of R128. -/
def sampleWhile (src : Buffer) (samplepixels step lengthcount alphadec : Int) : Nat → LearnVars → Except Fault LearnVars
  | 0, v => .ok v
  | fuel + 1, v =>
    if v.i < samplepixels then
      match fetchSample src v.pix.toNat with
      | .ok c => sampleWhile src samplepixels step lengthcount alphadec fuel (sampleBody c step lengthcount alphadec v)
      | .error f => .error f
    else .ok v

/-- `Learn()` (R123 to R128). -/
def learn (q : NqState) (src : Buffer) : Except Fault NqState :=
  let lengthcount : Int := q.lengthcount.toNat
  let samplefac : BitVec 5 := if lengthcount < Config.minpicturebytes then 1 else q.samplefac
  let alphadec : Int := 30 + tquot ((samplefac.toNat : Int) - 1) 3
  let samplepixels := tquot lengthcount (3 * samplefac.toNat)
  let alpha : Int := Config.initalpha
  let radius : Int := Config.initradius
  let rad := radOf radius
  match sampleWhile src samplepixels (selectStep q.lengthcount.toNat) lengthcount alphadec samplepixels.toNat
      { alpha := alpha, radius := radius, rad := rad, delta := tquot samplepixels Config.ncycles, pix := 0, i := 0
        network := q.network, freq := q.freq, bias := q.bias, radpower := setRadpower rad alpha q.radpower } with
  | .ok v =>
    .ok { q with
      samplefac := samplefac, alphadec := toWord alphadec
      network := v.network, freq := v.freq, bias := v.bias, radpower := v.radpower }
  | .error f => .error f

/-! ### R162 -/

/-- `for j in i+1..255` of R162's scan: the `count` rounds from `j` on, with `smallpos` and `smallval`. -/
def smallestFor (network : Ram Neuron 256) : Nat → Nat → Nat → Int → Nat × Int
  | 0, _, smallpos, smallval => (smallpos, smallval)
  | count + 1, j, smallpos, smallval =>
    let green := (network.read j Neuron.zero).g.toInt
    if green < smallval then smallestFor network count (j + 1) j green
    else smallestFor network count (j + 1) smallpos smallval

/-- `for j in lo..hi`: `netindex[j] <- x`, the `count` rounds from `j` on. -/
def fillFor (x : Nat) : Nat → Int → Ram Byte 256 → Ram Byte 256
  | 0, _, t => t
  | count + 1, j, t => fillFor x count (j + 1) (writeAt t j (BitVec.ofNat 8 x))

/-- The variables of R162. -/
structure InxVars where
  network : Ram Neuron 256
  netindex : Ram Byte 256
  previouscol : Int
  startpos : Nat

/-- The body of R162's outer loop for one `i`. -/
def inxBody (i : Nat) (v : InxVars) : InxVars :=
  let found := smallestFor v.network (255 - i) (i + 1) i (v.network.read i Neuron.zero).g.toInt
  let smallpos := found.1
  let smallval := found.2
  let network :=
    if i ≠ smallpos then
      (v.network.write i (v.network.read smallpos Neuron.zero)).write smallpos (v.network.read i Neuron.zero)
    else v.network
  if smallval ≠ v.previouscol then
    { network := network
      netindex :=
        fillFor i (smallval - 1 - v.previouscol).toNat (v.previouscol + 1)
          (writeAt v.netindex v.previouscol (BitVec.ofNat 8 ((v.startpos + i) / 2)))
      previouscol := smallval
      startpos := i }
  else { v with network := network }

/-- `for i in 0..255` of R162: the `count` rounds from `i` on. -/
def inxFor : Nat → Nat → InxVars → InxVars
  | 0, _, v => v
  | count + 1, i, v => inxFor count (i + 1) (inxBody i v)

/-- `InxBuild()` (R162): the network and the table it leaves. -/
def inxBuild (network : Ram Neuron 256) (netindex : Ram Byte 256) : Ram Neuron 256 × Ram Byte 256 :=
  let v := inxFor 256 0 ⟨network, netindex, 0, 0⟩
  (v.network,
    fillFor Config.maxnetpos (255 - v.previouscol).toNat (v.previouscol + 1)
      (writeAt v.netindex v.previouscol (BitVec.ofNat 8 ((v.startpos + Config.maxnetpos) / 2))))

/-! ### R191 -/

/-- The variables of R191. -/
structure MapVars where
  bestd : Int
  best : Int
  i : Int
  j : Int

/-- A candidate `n` at green distance `dist` below `bestd` (R191). -/
def candidate (network : Ram Neuron 256) (c : Colour) (n : Nat) (v : MapVars) (dist : Int) : MapVars :=
  let x := network.read n Neuron.zero
  let d1 : Int := dist.natAbs + (x.b.toInt - c.b).natAbs
  if d1 < v.bestd then
    let d2 : Int := d1 + (x.r.toInt - c.r).natAbs
    if d2 < v.bestd then { v with bestd := d2, best := x.index.toInt } else v
  else v

/-- The upward half of a round (R191). -/
def upward (network : Ram Neuron 256) (c : Colour) (v : MapVars) : MapVars :=
  if v.i < 256 then
    let dist := (network.read v.i.toNat Neuron.zero).g.toInt - c.g
    if dist ≥ v.bestd then { v with i := 256 }
    else candidate network c v.i.toNat { v with i := v.i + 1 } dist
  else v

/-- The downward half of a round (R191). -/
def downward (network : Ram Neuron 256) (c : Colour) (v : MapVars) : MapVars :=
  if v.j ≥ 0 then
    let dist := c.g - (network.read v.j.toNat Neuron.zero).g.toInt
    if dist ≥ v.bestd then { v with j := -1 }
    else candidate network c v.j.toNat { v with j := v.j - 1 } dist
  else v

/-- `while i < netsize or j >= 0` of R191. -/
def mapWhile (network : Ram Neuron 256) (c : Colour) : Nat → MapVars → MapVars
  | 0, v => v
  | fuel + 1, v =>
    if v.i < 256 ∨ v.j ≥ 0 then mapWhile network c fuel (downward network c (upward network c v)) else v

/-- `Map(b, g, r)` (R191); the rounds are bounded by a number no search reaches. -/
def mapColour (network : Ram Neuron 256) (netindex : Ram Byte 256) (c : Colour) : Int :=
  let i : Int := (netindex.read c.g.toNat 0).toNat
  (mapWhile network c (2 * Config.netsize) ⟨Config.mapInitDist, -1, i, i - 1⟩).best

end Sys2Proof.Machine.Pseudocode
end

