-- ==== Sys2Proof/Safety.lean ====
section
/-! DEFINITION. Safety.lean: the terms the claims are stated in: what holds of every state a run reaches (the
invariants, each with its rule), what the host can observe (70_reset_and_hazards.md R322), and when two states differ
only in what no rule reads (R302). -/

namespace Sys2Proof.Safety

open Sys2Proof.Machine

/-! ### Canonical form of the memories -/

/-- The key RAM: rising slots, all inside the table (10_state.md R45). -/
def KeysCanonical (t : KeyTable) : Prop := Rising t ∧ ∀ e ∈ t, e.1 < Config.hsize

/-- The code RAM: rising slots, all inside the table, none listed with what an unlisted slot reads as. -/
def CodesCanonical (t : CodeTable) : Prop := Rising t ∧ ∀ e ∈ t, e.1 < Config.hsize ∧ e.2 ≠ 0

/-- Every memory of the state is in its one canonical form. -/
structure MemoryCanonical (s : State) : Prop where
  src : s.src.wf
  idx : s.idx.wf
  pix : s.pix.wf
  htab : KeysCanonical s.lz.htab
  codetab : CodesCanonical s.lz.codetab

/-! ### The NeuQuant engine -/

/-- Lanes 0 to 2 lie in 0 to `hi`. -/
def LanesIn (hi : Int) (x : Neuron) : Prop :=
  (0 ≤ x.b.toInt ∧ x.b.toInt ≤ hi) ∧ (0 ≤ x.g.toInt ∧ x.g.toInt ≤ hi) ∧ (0 ≤ x.r.toInt ∧ x.r.toInt ≤ hi)

/-- A constructed network has an accepted job (41_nq_learning.md R120). -/
def JobAccepted (q : NqState) : Prop :=
  q.phase ≠ .empty →
    (q.lengthcount.toNat ≠ 0 ∧ q.lengthcount.toNat % 3 = 0 ∧ q.lengthcount.toNat ≤ 0x7FFFFFFF) ∧
      1 ≤ q.samplefac.toNat ∧ q.samplefac.toNat ≤ 30

/-- The leaky-frequency relation of one neuron, with its bounds (41_nq_learning.md R136). -/
def LeakRelation (freq bias : Word) : Prop :=
  bias.toInt = 1024 * (256 - freq.toInt) ∧ (256 ≤ freq.toInt ∧ freq.toInt ≤ 66559) ∧
    -67894272 ≤ bias.toInt ∧ bias.toInt ≤ 0

/-- R136 of every neuron, once there is a network. -/
def LeakyFrequency (q : NqState) : Prop :=
  q.phase ≠ .empty → ∀ k, k < 256 → LeakRelation (q.freq.read k 0) (q.bias.read k 0)

/-- What the network holds in each phase (10_state.md R25, R29, R30; 41_nq_learning.md R151; 42_nq_palette.md R160,
R163): biased lanes and lane 3 = 0, then bytes and the position, then sorted by green with lane 3 a permutation. -/
def NetworkShape (q : NqState) : Prop :=
  match q.phase with
  | .empty => True
  | .constructed => ∀ x ∈ q.network.cells, LanesIn 4080 x ∧ x.index = 0
  | .learned => ∀ x ∈ q.network.cells, LanesIn 4080 x ∧ x.index = 0
  | .unbiased => (∀ x ∈ q.network.cells, LanesIn 255 x) ∧ q.network.cells.map (fun x => x.index.toInt) = (List.range 256).map Int.ofNat
  | .indexed =>
    (∀ x ∈ q.network.cells, LanesIn 255 x) ∧
      (q.network.cells.map (fun x => x.index.toInt)).Perm ((List.range 256).map Int.ofNat) ∧
      q.network.cells.Pairwise (fun x y => x.g.toInt ≤ y.g.toInt)
  | .palette =>
    (∀ x ∈ q.network.cells, LanesIn 255 x) ∧
      (q.network.cells.map (fun x => x.index.toInt)).Perm ((List.range 256).map Int.ofNat) ∧
      q.network.cells.Pairwise (fun x y => x.g.toInt ≤ y.g.toInt)

/-- Once indexed, `netindex[g]` splits the positions: green at most `g` below it, at least `g` from it on
(43_nq_map.md R192 (2)). The last position is left out: of a `g` above every green 42_nq_palette.md R164 makes
`netindex[g]` 255, and the green at 255 is then below `g` (assumption 25). -/
def IndexSplits (q : NqState) : Prop :=
  q.phase = .indexed ∨ q.phase = .palette →
    ∀ g, g < 256 → ∀ p, p < 256 →
      ((q.netindex.read g 0).toNat ≤ p → p < 255 → (g : Int) ≤ (q.network.read p Neuron.zero).g.toInt) ∧
        (p < (q.netindex.read g 0).toNat → (q.network.read p Neuron.zero).g.toInt ≤ g)

/-- Palette entry `k` shows the colour of neuron `x`, in the byte order `order` (42_nq_palette.md R166). -/
def PaletteShows (order : PaletteOrder) (pal : Ram Byte 768) (k : Nat) (x : Neuron) : Prop :=
  match order with
  | .rgb =>
    ((pal.read (3 * k) 0).toNat : Int) = x.r.toInt ∧ ((pal.read (3 * k + 1) 0).toNat : Int) = x.g.toInt ∧
      ((pal.read (3 * k + 2) 0).toNat : Int) = x.b.toInt
  | .lane =>
    ((pal.read (3 * k) 0).toNat : Int) = x.b.toInt ∧ ((pal.read (3 * k + 1) 0).toNat : Int) = x.g.toInt ∧
      ((pal.read (3 * k + 2) 0).toNat : Int) = x.r.toInt

/-- In phase `PALETTE` each neuron's colour stands in the palette entry its lane 3 names (42_nq_palette.md R167). -/
def PaletteCurrent (s : State) : Prop :=
  s.nq.phase = .palette → ∀ x ∈ s.nq.network.cells, PaletteShows s.paletteOrder s.nq.pal x.index.toNat x

/-- How many neurons have a green below `v`: the first position a sorted network gives a green of `v` or more. -/
def greensBelow (network : Ram Neuron 256) (v : Int) : Nat :=
  (network.cells.filter fun x => decide (x.g.toInt < v)).length

/-- The place of position `p` in the visiting order `i0, i0-1, i0+1, i0-2, …` (43_nq_map.md R192). -/
def visitRank (i0 p : Nat) : Nat := if i0 ≤ p then 2 * (p - i0) else 2 * (i0 - p) - 1

/-! ### Commands that end with an error -/

/-- `t` is `s` but for what an error writes (60_exceptions.md R272, R274): the code, `STICKY`, `BUSY`. -/
def WithError (p : Port) (code : ErrCode) (s t : State) : Prop :=
  match p with
  | .nq => t = { s with nq := { s.nq with err := code, sticky := true, busy := false } }
  | .lz => t = { s with lz := { s.lz with err := code, sticky := true, busy := false } }

/-! ### The LZW engine -/

/-- The sink's answer to the byte number `n` offered from here on (20_memory.md R66). -/
def answer (k : Sink) (n : Nat) : SinkAnswer := k.script.getD n k.thereafter

/-- The primary slot of a key (44_lzw_encode.md R215). -/
def homeSlot (key : BitVec 20) : Nat := primarySlot (key.toNat / 4096) (key.toNat % 4096)

/-- Every key of the table is found by its own look-up, in the slot it stands in (44_lzw_encode.md R214, R217). -/
def Findable (t : KeyTable) : Prop := ∀ e ∈ t, lookup t e.2 (homeSlot e.2) = some (.hit e.1)

/-- The code bits a running encode has not yet sent in a full sub-block, in stream order: the packet buffer's, then
the accumulator's (45_lzw_bitpack.md R241, R243). -/
def waitingBits (j : EncodeJob) : List Bool := j.packet.flatMap byteBits ++ natBits j.curBits j.curAccum

/-- An engine past `EMPTY` has an accepted image (44_lzw_encode.md R210). -/
def ImageAccepted (z : LzState) : Prop :=
  z.phase ≠ .empty → z.pixels ≠ 0 ∧ 2 ≤ z.initCodeSize.toNat ∧ z.initCodeSize.toNat ≤ 8

/-- Every byte from here on is accepted. -/
def Accepting (k : Sink) : Prop := (∀ a ∈ k.script, a = .accept) ∧ k.thereafter = .accept

/-- What holds of the encoder's registers between two pixels (44_lzw_encode.md R213, R224, R226; 45_lzw_bitpack.md R243,
R245, R252; 10_state.md R45, R46, R48, R49), for an image of colour depth `depth`. -/
structure EncodeInv (depth : Nat) (j : EncodeJob) : Prop where
  depthLow : 2 ≤ depth
  depthHigh : depth ≤ 8
  gInitBits : j.gInitBits = depth + 1
  clearCode : j.clearCode = 2 ^ depth
  eofCode : j.eofCode = 2 ^ depth + 1
  clearFlg : j.clearFlg = false
  ent : j.ent < 4096
  freeLow : j.clearCode + 2 ≤ j.freeEnt
  freeHigh : j.freeEnt ≤ 4096
  bitsLow : j.gInitBits ≤ j.nBits
  bitsHigh : j.nBits ≤ 12
  maxcode : j.maxcode = if j.nBits = 12 then 4096 else 2 ^ j.nBits - 1
  freeFits : j.freeEnt ≤ j.maxcode + 1
  curBits : j.curBits ≤ 7
  packet : j.packet.length < 254
  keys : KeysCanonical j.htab
  codes : CodesCanonical j.codetab
  count : j.htab.length = j.freeEnt - (j.clearCode + 2)
  live : ∀ e ∈ j.htab, j.clearCode + 2 ≤ codeAt j.codetab e.1 ∧ codeAt j.codetab e.1 < j.freeEnt

/-! ### No command is ever half done -/

/-- `BUSY` is 0 in both engines (00_scope.md R19). -/
def NotBusy (s : State) : Prop := s.nq.busy = false ∧ s.lz.busy = false

/-- All of the above. -/
structure Inv (s : State) : Prop where
  memory : MemoryCanonical s
  job : JobAccepted s.nq
  leak : LeakyFrequency s.nq
  shape : NetworkShape s.nq
  splits : IndexSplits s.nq
  palette : PaletteCurrent s
  image : ImageAccepted s.lz
  notBusy : NotBusy s

/-! ### What the host can observe (70_reset_and_hazards.md R322) -/

/-- The observation of R322: the CSRs, the palette while there is one, the IDX bytes, the OUT stream; and the word
the host's last read returned. -/
structure Observation where
  nqStatus : Word
  nqLen : Word
  nqMapres : Byte
  lzStatus : Word
  lzWidth : BitVec 16
  lzHeight : BitVec 16
  lzPixlen : Word
  lzOutlen : Word
  pal : Option (List Byte)
  idx : Buffer
  out : List Byte
  lastRead : Option Word
  deriving DecidableEq, Repr

/-- The observation in a state. -/
def observe (s : State) : Observation where
  nqStatus := s.nq.statusWord
  nqLen := s.nq.len
  nqMapres := s.nq.mapres
  lzStatus := s.lz.statusWord
  lzWidth := s.lz.width
  lzHeight := s.lz.height
  lzPixlen := s.lz.pixlen
  lzOutlen := s.lz.outlen
  pal := if s.nq.phase = .palette then some s.nq.pal.cells else none
  idx := s.idx
  out := s.out
  lastRead := s.lastRead

/-! ### States that differ only in what no rule reads (70_reset_and_hazards.md R302) -/

/-- NQE states that agree on all a command or the host may still read: what a phase has not yet written may differ. -/
structure SameNq (q q' : NqState) : Prop where
  phase : q'.phase = q.phase
  err : q'.err = q.err
  busy : q'.busy = q.busy
  sticky : q'.sticky = q.sticky
  len : q'.len = q.len
  mapres : q'.mapres = q.mapres
  lengthcount : q.phase ≠ .empty → q'.lengthcount = q.lengthcount
  samplefac : q.phase ≠ .empty → q'.samplefac = q.samplefac
  network : q.phase ≠ .empty → q'.network = q.network
  freq : q.phase ≠ .empty → q'.freq = q.freq
  bias : q.phase ≠ .empty → q'.bias = q.bias
  netindex : q.phase = .indexed ∨ q.phase = .palette → q'.netindex = q.netindex
  pal : q.phase = .palette → q'.pal = q.pal

/-- LZE states that agree on all a command or the host may still read; the dictionary is never read across jobs. -/
structure SameLz (z z' : LzState) : Prop where
  phase : z'.phase = z.phase
  err : z'.err = z.err
  busy : z'.busy = z.busy
  sticky : z'.sticky = z.sticky
  width : z'.width = z.width
  height : z'.height = z.height
  pixlen : z'.pixlen = z.pixlen
  outlen : z'.outlen = z.outlen
  imgW : z.phase ≠ .empty → z'.imgW = z.imgW
  imgH : z.phase ≠ .empty → z'.imgH = z.imgH
  initCodeSize : z.phase ≠ .empty → z'.initCodeSize = z.initCodeSize

/-- States that differ only in what R301 leaves unspecified and R302 says is never observed. -/
structure SameButUnspecified (s s' : State) : Prop where
  nq : SameNq s.nq s'.nq
  lz : SameLz s.lz s'.lz
  src : s'.src = s.src
  idx : s'.idx = s.idx
  pix : s'.pix = s.pix
  out : s'.out = s.out
  sink : s'.sink = s.sink
  paletteOrder : s'.paletteOrder = s.paletteOrder
  inputs : s'.inputs = s.inputs
  lastRead : s'.lastRead = s.lastRead

/-- Two outcomes of steps from such states: both go on, to such states again, or both stop for the same reason. -/
def SameOutcome : Host.Outcome State Fault Refusal → Host.Outcome State Fault Refusal → Prop
  | .next t, .next t' => SameButUnspecified t t'
  | .fault f, .fault f' => f = f'
  | .refused r, .refused r' => r = r'
  | _, _ => False

end Sys2Proof.Safety
end

