-- ==== Sys2Proof/Certificates/Slice0/Obligations.lean ====
section
/-! DEFINITION. Certificates/Slice0/Obligations.lean: the statements for the provers, each with the rule of the spec it
comes from. -/

open Sys2Proof Sys2Proof.Machine Sys2Proof.Safety

/-! ### Encoding -/

/-- 30_encoding.md R90 to R95, R97, R98: decoding reads back exactly what encoding writes. A word written to a port decodes to
a command if and only if that command's operands fit, the port is its own, and the word is its encoding. -/
def Obligations.DecodeEncodeAgree : Prop :=
  ∀ (p : Port) (w : Word) (i : Instr), decode p w = .ok i ↔ i.wellFormed = true ∧ i.port = p ∧ encode i = w

/-- 30_encoding.md R103 and the encodings of 95_test_vectors.md §3.2, on words written out from the formats. -/
def Obligations.SpecWordsDecode : Prop :=
  decode .nq 0x1000000A = .ok (.nqInit 10) ∧ decode .nq 0x11000000 = .ok .nqLearn ∧
    decode .nq 0x12000000 = .ok .nqUnbias ∧ decode .nq 0x13000000 = .ok .nqInxbuild ∧
    decode .nq 0x14000000 = .ok .nqColormap ∧ decode .nq 0x15000000 = .ok .nqProcess ∧
    decode .nq 0x16FF0000 = .ok (.nqMap 0 0 255) ∧ decode .nq 0x161E140A = .ok (.nqMap 10 20 30) ∧
    decode .nq 0x17000000 = .ok .nqMapbuf ∧ decode .lz 0x20000002 = .ok (.lzInit 2) ∧
    decode .lz 0x21000000 = .ok .lzEncode ∧ decode .nq 0x11000001 = .error .zeroFieldNotZero

/-- 30_encoding.md R97 with 60_exceptions.md R272, R274: a word is illegal exactly when its opcode is not one of the
port's or a bit of its format's `zero` field is 1; an illegal command ends at once with `ILLEGAL_COMMAND`, sets
`STICKY`, and changes nothing else; an operand value out of the command's range is no illegal encoding, and ends with
`DEGENERATE_PARAMETERS` where the lengths are accepted. That `STICKY` is set is the model's reading of R97 beside R272
and R274 (assumption 30). -/
def Obligations.IllegalCommandsExactly : Prop :=
  (∀ w : Word,
    ((∃ e, decode .nq w = .error e) ↔
      ((field w 31 24 < 0x10 ∨ 0x17 < field w 31 24) ∨ (field w 31 24 = 0x10 ∧ field w 23 5 ≠ 0) ∨
        (field w 31 24 ≠ 0x10 ∧ field w 31 24 ≠ 0x16 ∧ field w 23 0 ≠ 0))) ∧
    ((∃ e, decode .lz w = .error e) ↔
      ((field w 31 24 ≠ 0x20 ∧ field w 31 24 ≠ 0x21) ∨ (field w 31 24 = 0x20 ∧ field w 23 4 ≠ 0) ∨
        (field w 31 24 = 0x21 ∧ field w 23 0 ≠ 0)))) ∧
  (∀ (p : Port) (w : Word) (s : State), s.busy p = false → (∃ e, decode p w = .error e) →
    ∃ t, submit p w s = .next t ∧ WithError p .illegalCommand s t) ∧
  (∀ (sf : Nat) (s : State), lengthAccepted s.nq.len.toNat = true → sf = 0 ∨ sf = 31 →
    ∃ t, exec (.nqInit sf) s = .next t ∧ WithError .nq .degenerateParameters s t) ∧
  (∀ (d : Nat) (s : State), imageAccepted s.lz.width.toNat s.lz.height.toNat s.lz.pixlen.toNat = true →
    d < 2 ∨ 8 < d → ∃ t, exec (.lzInit d) s = .next t ∧ WithError .lz .degenerateParameters s t)

/-- 30_encoding.md R96: on the other engine's port every command's word is illegal, and never reaches its own engine:
only the status of the port it was written to changes. -/
def Obligations.WrongPortIsIllegal : Prop :=
  ∀ (i : Instr) (p : Port) (s : State), i.wellFormed = true → p ≠ i.port → s.busy p = false →
    decode p (encode i) = .error .opcodeNotOfPort ∧
      ∃ t, submit p (encode i) s = .next t ∧ WithError p .illegalCommand s t

/-- 30_encoding.md R100, R102: the assembler spells exactly the commands whose operands fit their fields, each as one
write of its word to its port, and the pseudo-instructions as their lines. -/
def Obligations.AssemblerSpellsCommands : Prop :=
  (∀ i : Instr, i.wellFormed = true →
    assemble (.command i) = some [.write .word (cmdOffset i.port) (encode i)]) ∧
  (∀ i : Instr, i.wellFormed = false → assemble (.command i) = none) ∧
  (∀ sf : Nat, sf < 32 → ∃ a b c, assemble (.command (.nqInit sf)) = some a ∧
    assemble (.command .nqProcess) = some b ∧ assemble (.command .nqMapbuf) = some c ∧
    assemble (.quantize sf) = some (a ++ b ++ c)) ∧
  (∀ d : Nat, d < 16 → ∃ a b, assemble (.command (.lzInit d)) = some a ∧
    assemble (.command .lzEncode) = some b ∧ assemble (.gif d) = some (a ++ b))

/-! ### A step -/

/-- 30_encoding.md R99, 10_state.md R23, R38: when the host's next action writes a word to the command register of an
engine that is not busy and the word decodes, the step is `exec` of that command, the action being used up. -/
def Obligations.StepRunsDecodedCommand : Prop :=
  ∀ (s : State) (p : Port) (w : Word) (i : Instr) (rest : List HostAction), s.busy p = false → decode p w = .ok i →
    s.inputs = .write .word (cmdOffset p) w :: rest → step s = exec i { s with inputs := rest }

/-- 70_reset_and_hazards.md R310, 00_scope.md R19: a command write while the engine is busy sets its `STICKY` and does
nothing else, the write itself being used up; after reset no engine is busy and no step leaves one busy, so no run
comes to that. -/
def Obligations.BusyWriteIsDiscarded : Prop :=
  (∀ (s : State) (w : Word) (rest : List HostAction),
    (s.nq.busy = true → s.inputs = .write .word 0x000 w :: rest →
      step s = .next { s with inputs := rest, nq := { s.nq with sticky := true } }) ∧
    (s.lz.busy = true → s.inputs = .write .word 0x100 w :: rest →
      step s = .next { s with inputs := rest, lz := { s.lz with sticky := true } })) ∧
  NotBusy State.reset ∧ (∀ s t : State, NotBusy s → step s = .next t → NotBusy t)

/-- 60_exceptions.md R288, 20_memory.md R61, R63 to R66, R73, R74, 70_reset_and_hazards.md R305, R306, R314, R317: with no
host action to take the core idles with its state kept; with one, the step takes exactly that one. A host access of
another width than 32 bits, or at an offset that is no multiple of 4, is refused. Attaching a buffer leaves the port
with its size and its bytes, each at its offset, and changes nothing else; handing IDX over makes the PIX buffer a copy
of it; connecting a sink starts an empty stream. The model's choices here: a buffer a port cannot address is refused
(assumption 10), the hand-over is a copy (assumption 23), the sink is its coming answers (assumption 8). -/
def Obligations.StepTakesOneAction : Prop :=
  (∀ s : State, s.inputs = [] → step s = .next s) ∧
  (∀ (s t : State) (a : HostAction) (rest : List HostAction), s.inputs = a :: rest → step s = .next t →
    t.inputs = rest ∧ t.paletteOrder = s.paletteOrder) ∧
  (∀ (s : State) (width : AccessWidth) (offset : BitVec 12) (v : Word) (rest : List HostAction),
    width ≠ .word ∨ offset.toNat % 4 ≠ 0 →
    (s.inputs = .read width offset :: rest → step s = .refused .unsupportedAccess) ∧
      (s.inputs = .write width offset v :: rest → step s = .refused .unsupportedAccess)) ∧
  (∀ (s : State) (bytes : List Byte) (rest : List HostAction), bytes.length < 2 ^ 32 →
    ∃ buf : Buffer, buf.size.toNat = bytes.length ∧ (∀ a : Nat, buf.get a = bytes[a]?) ∧
      (s.inputs = .attachSrc bytes :: rest → step s = .next { s with inputs := rest, src := buf }) ∧
      (s.inputs = .attachIdx bytes :: rest → step s = .next { s with inputs := rest, idx := buf }) ∧
      (s.inputs = .attachPix bytes :: rest → step s = .next { s with inputs := rest, pix := buf })) ∧
  (∀ (s : State) (bytes : List Byte) (rest : List HostAction), 2 ^ 32 ≤ bytes.length →
    s.inputs = .attachSrc bytes :: rest ∨ s.inputs = .attachIdx bytes :: rest ∨ s.inputs = .attachPix bytes :: rest →
    step s = .refused .bufferTooLarge) ∧
  (∀ (s : State) (k : Sink) (rest : List HostAction),
    (s.inputs = .idxToPix :: rest → step s = .next { s with inputs := rest, pix := s.idx }) ∧
      (s.inputs = .connectSink k :: rest → step s = .next { s with inputs := rest, sink := k, out := [] }))

/-- 20_memory.md R62: a supported read returns a word and changes nothing in the core; what it returns of an unmapped
offset and of the command registers is 0. -/
def Obligations.ReadsHaveNoSideEffect : Prop :=
  ∀ (s : State) (offset : BitVec 12) (rest : List HostAction), offset.toNat % 4 = 0 →
    s.inputs = .read .word offset :: rest → (0x400 ≤ offset.toNat → offset.toNat ≤ 0x6FC → s.nq.phase = .palette) →
    ∃ v : Word, step s = .next { s with inputs := rest, lastRead := some v } ∧
      (offset.toNat ∉ [0x004, 0x008, 0x00C, 0x104, 0x108, 0x10C, 0x110, 0x114] →
        offset.toNat < 0x400 ∨ 0x6FC < offset.toNat → v = 0) ∧
      (offset.toNat = 0x004 → v = s.nq.statusWord) ∧ (offset.toNat = 0x008 → v = s.nq.len) ∧
      (offset.toNat = 0x00C → v.toNat = s.nq.mapres.toNat) ∧ (offset.toNat = 0x104 → v = s.lz.statusWord) ∧
      (offset.toNat = 0x108 → v.toNat = s.lz.width.toNat) ∧ (offset.toNat = 0x10C → v.toNat = s.lz.height.toNat) ∧
      (offset.toNat = 0x110 → v = s.lz.pixlen) ∧ (offset.toNat = 0x114 → v = s.lz.outlen)

/-- 10_state.md R37 with 20_memory.md R67: `PAL_W` w reads the four palette bytes 4w to 4w + 3, the first in bits 7:0,
while the phase is `PALETTE`; in every other phase the read faults; a host write to it is ignored. -/
def Obligations.PaletteWindowReads : Prop :=
  ∀ (s : State) (w : Nat) (offset : BitVec 12) (rest : List HostAction), w < 192 → offset.toNat = 0x400 + 4 * w →
    (s.inputs = .read .word offset :: rest →
      (s.nq.phase = .palette →
        ∃ v : Word, step s = .next { s with inputs := rest, lastRead := some v } ∧
          ∀ j, j < 4 → v.toNat / 2 ^ (8 * j) % 256 = (s.nq.pal.read (4 * w + j) 0).toNat) ∧
      (s.nq.phase ≠ .palette → step s = .fault .paletteNotReady)) ∧
    (∀ v : Word, s.inputs = .write .word offset v :: rest → step s = .next { s with inputs := rest })

/-- 20_memory.md R62, 10_state.md R26, R40, R42: a supported write anywhere but to the two command registers stores
the value in the four writable registers (the low 16 bits in `LZ_WIDTH` and `LZ_HEIGHT`), and does nothing at a
read-only register or an unmapped offset. -/
def Obligations.WritesStoreOnlyTheirRegister : Prop :=
  ∀ (s : State) (offset : BitVec 12) (v : Word) (rest : List HostAction), offset.toNat % 4 = 0 →
    offset.toNat ≠ 0x000 → offset.toNat ≠ 0x100 → s.inputs = .write .word offset v :: rest →
    ∃ t, step s = .next t ∧
      t = { s with
        inputs := rest
        nq := { s.nq with len := if offset.toNat = 0x008 then v else s.nq.len }
        lz := { s.lz with
          width := if offset.toNat = 0x108 then BitVec.ofNat 16 (v.toNat % 2 ^ 16) else s.lz.width
          height := if offset.toNat = 0x10C then BitVec.ofNat 16 (v.toNat % 2 ^ 16) else s.lz.height
          pixlen := if offset.toNat = 0x110 then v else s.lz.pixlen } }

/-! ### Reset -/

/-- 70_reset_and_hazards.md R300, R301, for the values it states: the status registers, `NQ_LEN`, `NQ_MAPRES`, the image
registers, `LZ_PIXLEN` and `LZ_OUTLEN` are 0, in both engines, in `State.reset` and after the reset input; the reset
input always completes and touches nothing of the host's: the buffers, the stream and the sink are as before. -/
def Obligations.ResetValues : Prop :=
  (∀ t : State, (t = State.reset ∨ ∃ s rest, s.inputs = .reset :: rest ∧ step s = .next t) →
    t.nq.statusWord = 0 ∧ t.nq.phase = .empty ∧ t.nq.len = 0 ∧ t.nq.mapres = 0 ∧ t.lz.statusWord = 0 ∧
      t.lz.phase = .empty ∧ t.lz.width = 0 ∧ t.lz.height = 0 ∧ t.lz.pixlen = 0 ∧ t.lz.outlen = 0) ∧
  (∀ (s : State) (rest : List HostAction), s.inputs = .reset :: rest →
    ∃ t, step s = .next t ∧ t = { s with inputs := rest, nq := t.nq, lz := t.lz })

/-- The invariants hold right after reset. -/
def Obligations.ResetMeetsInvariants : Prop := Inv State.reset

/-- 70_reset_and_hazards.md R302: unspecified reset values are never observed. States that differ only in what a phase
has not yet written step alike, and to states that again differ only so; and what the host observes is the same. -/
def Obligations.UnspecifiedValuesNeverObserved : Prop :=
  ∀ s s' : State, SameButUnspecified s s' → NetworkShape s.nq →
    observe s' = observe s ∧ SameOutcome (step s) (step s')

/-! ### Invariants of every step -/

/-- 20_memory.md R60, 10_state.md R45: every step keeps every memory in its one canonical form: port buffers, key
RAM, code RAM. -/
def Obligations.StepKeepsMemoryCanonical : Prop :=
  ∀ s t : State, MemoryCanonical s → step s = .next t → MemoryCanonical t

/-- 41_nq_learning.md R136: at every point after `NQ.INIT`, between commands and after every contest of a training
run, `bias[n] = 1024 * (256 - freq[n])`, `256 ≤ freq[n] ≤ 66559` and `-67894272 ≤ bias[n] ≤ 0`. -/
def Obligations.LeakyFrequencyKept : Prop :=
  (∀ s t : State, LeakyFrequency s.nq → step s = .next t → LeakyFrequency t.nq) ∧
  (∀ (c : Colour) (network : Ram Neuron 256) (freq bias : Ram Word 256),
    (∀ k, k < 256 → LeakRelation (freq.read k 0) (bias.read k 0)) →
    ∀ k, k < 256 → LeakRelation ((contest c network freq bias).freq.read k 0) ((contest c network freq bias).bias.read k 0))

/-- 41_nq_learning.md R151, 10_state.md R25, R29, R30, 42_nq_palette.md R160, R163: every step keeps the network as its
phase says: biased lanes in 0 to 4080 and lane 3 = 0; then bytes with the position in lane 3; then sorted by green
with lane 3 a permutation of the positions. -/
def Obligations.StepKeepsNetworkShape : Prop :=
  ∀ s t : State, NetworkShape s.nq → step s = .next t → NetworkShape t.nq

/-- 42_nq_palette.md R164, 43_nq_map.md R192, 42_nq_palette.md R165, R167: every step keeps `netindex` a split of the sorted
network by green, and keeps the palette that of the network while the phase is `PALETTE`. -/
def Obligations.StepKeepsIndexAndPalette : Prop :=
  ∀ s t : State, NetworkShape s.nq → step s = .next t →
    (IndexSplits s.nq → IndexSplits t.nq) ∧ (PaletteCurrent s → PaletteCurrent t)

/-- 41_nq_learning.md R120, 44_lzw_encode.md R210: every step keeps an accepted job accepted, in both engines. -/
def Obligations.StepKeepsJobsAccepted : Prop :=
  ∀ s t : State, JobAccepted s.nq → ImageAccepted s.lz → step s = .next t → JobAccepted t.nq ∧ ImageAccepted t.lz

/-! ### Whole-machine rules -/

/-- 10_state.md R25, R41: the phases move only along their tables. The NQE's goes to `EMPTY` by reset, to `CONSTRUCTED` from
anywhere, then step by step, to `PALETTE` also straight from `CONSTRUCTED`; the LZE's to `EMPTY` by reset, to `READY`
from anywhere, and from `READY` to `DONE` or `ABORTED`. -/
def Obligations.PhaseTransitions : Prop :=
  ∀ s t : State, step s = .next t →
    (t.nq.phase = s.nq.phase ∨ (t.nq.phase = .empty ∧ s.inputs.head? = some .reset) ∨ t.nq.phase = .constructed ∨
      (s.nq.phase = .constructed ∧ t.nq.phase = .learned) ∨ (s.nq.phase = .learned ∧ t.nq.phase = .unbiased) ∨
      (s.nq.phase = .unbiased ∧ t.nq.phase = .indexed) ∨ (s.nq.phase = .indexed ∧ t.nq.phase = .palette) ∨
      (s.nq.phase = .constructed ∧ t.nq.phase = .palette)) ∧
    (t.lz.phase = s.lz.phase ∨ (t.lz.phase = .empty ∧ s.inputs.head? = some .reset) ∨ t.lz.phase = .ready ∨
      (s.lz.phase = .ready ∧ (t.lz.phase = .done ∨ t.lz.phase = .aborted)))

/-- 10_state.md R24, R39, 60_exceptions.md R272: `STICKY` is cleared only by reset. -/
def Obligations.StickyClearedOnlyByReset : Prop :=
  ∀ (s t : State) (p : Port), step s = .next t → s.sticky p = true → s.inputs.head? ≠ some .reset → t.sticky p = true

/-- 60_exceptions.md R271, R272: the errors each command can end with, once it is decoded, and what its end writes in its
engine's status: the outcome in `ERR`, `STICKY` set by an error and otherwise kept, `BUSY` 0. -/
def Obligations.CommandEndWritesStatus : Prop :=
  ∀ (i : Instr) (s t : State), exec i s = .next t →
    (match i with
      | .nqInit _ => t.nq.err = .noError ∨ t.nq.err = .invalidInput ∨ t.nq.err = .degenerateParameters
      | .lzInit _ => t.lz.err = .noError ∨ t.lz.err = .invalidInput ∨ t.lz.err = .degenerateParameters
      | .lzEncode => t.lz.err = .noError ∨ t.lz.err = .ioFailure ∨ t.lz.err = .sequenceError
      | _ => t.nq.err = .noError ∨ t.nq.err = .sequenceError) ∧
    t.busy i.port = false ∧ (t.err i.port ≠ .noError → t.sticky i.port = true) ∧
      (t.err i.port = .noError → t.sticky i.port = s.sticky i.port)

/-- 60_exceptions.md R274: errors are precise: a command that ends with code 1, 2, 4 or 5 has changed only `ERR` and
`STICKY` (and `BUSY`, which a command ends with 0). -/
def Obligations.ErrorsArePrecise : Prop :=
  (∀ (i : Instr) (s t : State), exec i s = .next t → t.err i.port ≠ .noError → t.err i.port ≠ .ioFailure →
    WithError i.port (t.err i.port) s t) ∧
  (∀ (p : Port) (w : Word) (s t : State), s.busy p = false → (∃ e, decode p w = .error e) →
    submit p w s = .next t → WithError p .illegalCommand s t)

/-- 60_exceptions.md R286: the engines share nothing: a command of one and a command of the other, in either order,
leave the same state. -/
def Obligations.EnginesCommute : Prop :=
  ∀ (i k : Instr) (s a b : State), i.port = .nq → k.port = .lz → exec i s = .next a → exec k s = .next b →
    ∃ t, exec k a = .next t ∧ exec i b = .next t

/-- 70_reset_and_hazards.md R316: after the INIT that copied them, a host write to `NQ_LEN`, `LZ_WIDTH`, `LZ_HEIGHT` or
`LZ_PIXLEN` has no effect on what any command but the next INIT of that engine does. -/
def Obligations.LengthsAreLatched : Prop :=
  ∀ (i : Instr) (s t : State) (n w h x : Word), (∀ sf, i ≠ .nqInit sf) → (∀ d, i ≠ .lzInit d) → exec i s = .next t →
    exec i { s with
        nq := { s.nq with len := n }
        lz := { s.lz with width := w.setWidth 16, height := h.setWidth 16, pixlen := x } } =
      .next { t with
        nq := { t.nq with len := n }
        lz := { t.lz with width := w.setWidth 16, height := h.setWidth 16, pixlen := x } }

/-! ### Frames -/

/-- 60_exceptions.md R286, 20_memory.md R79: a command of the NQE leaves everything of the LZE, SRC, PIX, the OUT stream
and the sink as it was, and `NQ_LEN` too; only `NQ.MAPBUF` writes IDX. -/
def Obligations.NqCommandFrame : Prop :=
  ∀ (i : Instr) (s t : State), i.port = .nq → exec i s = .next t →
    t = { s with nq := t.nq, idx := t.idx } ∧ t.nq.len = s.nq.len ∧ (i ≠ .nqMapbuf → t.idx = s.idx)

/-- 60_exceptions.md R286, 20_memory.md R79, 44_lzw_encode.md R210, R211: a command of the LZE leaves everything of the
NQE, every port buffer and the image registers as they were; `LZ.INIT` writes neither the dictionary nor
`LZ_OUTLEN` nor the stream; `LZ.ENCODE` does not write the latched image. -/
def Obligations.LzCommandFrame : Prop :=
  ∀ (i : Instr) (s t : State), i.port = .lz → exec i s = .next t →
    t = { s with lz := t.lz, out := t.out, sink := t.sink } ∧
      (t.lz.width = s.lz.width ∧ t.lz.height = s.lz.height ∧ t.lz.pixlen = s.lz.pixlen) ∧
      (i ≠ .lzEncode → t.out = s.out ∧ t.sink = s.sink ∧ t.lz.outlen = s.lz.outlen ∧ t.lz.htab = s.lz.htab ∧
        t.lz.codetab = s.lz.codetab) ∧
      (i = .lzEncode → t.lz.imgW = s.lz.imgW ∧ t.lz.imgH = s.lz.imgH ∧ t.lz.initCodeSize = s.lz.initCodeSize)

/-! ### Where commands end with an error -/

/-- 30_encoding.md R95, R99: outside its allowed phases a command ends with `SEQUENCE_ERROR` and does nothing else. -/
def Obligations.CommandsOutOfSequence : Prop :=
  ∀ s : State,
    (s.nq.phase ≠ .constructed → ∃ t, exec .nqLearn s = .next t ∧ WithError .nq .sequenceError s t) ∧
    (s.nq.phase ≠ .learned → ∃ t, exec .nqUnbias s = .next t ∧ WithError .nq .sequenceError s t) ∧
    (s.nq.phase ≠ .unbiased → ∃ t, exec .nqInxbuild s = .next t ∧ WithError .nq .sequenceError s t) ∧
    (s.nq.phase ≠ .indexed → s.nq.phase ≠ .palette →
      (∃ t, exec .nqColormap s = .next t ∧ WithError .nq .sequenceError s t) ∧
      (∀ b g r, ∃ t, exec (.nqMap b g r) s = .next t ∧ WithError .nq .sequenceError s t) ∧
      (∃ t, exec .nqMapbuf s = .next t ∧ WithError .nq .sequenceError s t)) ∧
    (s.nq.phase ≠ .constructed → ∃ t, exec .nqProcess s = .next t ∧ WithError .nq .sequenceError s t) ∧
    (s.lz.phase ≠ .ready → ∃ t, exec .lzEncode s = .next t ∧ WithError .lz .sequenceError s t)

/-- 60_exceptions.md R273, checks 3 and 4, with R270's causes: an INIT reports `INVALID_INPUT` for its length check
whatever its operand, and `DEGENERATE_PARAMETERS` only once the length is accepted. -/
def Obligations.InitErrorPriority : Prop :=
  (∀ (sf : Nat) (s : State),
    (s.nq.len.toNat = 0 ∨ s.nq.len.toNat % 3 ≠ 0 ∨ 0x7FFFFFFF < s.nq.len.toNat →
      ∃ t, exec (.nqInit sf) s = .next t ∧ WithError .nq .invalidInput s t) ∧
    (s.nq.len.toNat ≠ 0 → s.nq.len.toNat % 3 = 0 → s.nq.len.toNat ≤ 0x7FFFFFFF → sf < 1 ∨ 30 < sf →
      ∃ t, exec (.nqInit sf) s = .next t ∧ WithError .nq .degenerateParameters s t)) ∧
  (∀ (d : Nat) (s : State),
    (s.lz.width.toNat * s.lz.height.toNat = 0 ∨ s.lz.pixlen.toNat ≠ s.lz.width.toNat * s.lz.height.toNat →
      ∃ t, exec (.lzInit d) s = .next t ∧ WithError .lz .invalidInput s t) ∧
    (s.lz.width.toNat * s.lz.height.toNat ≠ 0 → s.lz.pixlen.toNat = s.lz.width.toNat * s.lz.height.toNat →
      d < 2 ∨ 8 < d → ∃ t, exec (.lzInit d) s = .next t ∧ WithError .lz .degenerateParameters s t))

/-- 20_memory.md R63 to R65, 70_reset_and_hazards.md R312, R313: reads and writes beyond the attached buffer have no step,
whatever the buffer's size. `NQ.LEARN` and `NQ.PROCESS` are stuck exactly where one of the samples they take (R124,
R127, R128) does not lie inside SRC, so below 1509 bytes wherever SRC is shorter than the image; `NQ.MAPBUF` is stuck
wherever SRC is shorter than the image or IDX than its pixels, at the first access beyond; `LZ.ENCODE`, its sink
accepting, wherever PIX is shorter than the image. -/
def Obligations.MissingBuffersStick : Prop :=
  ∀ s : State,
    (s.nq.phase = .constructed → JobAccepted s.nq →
      (s.nq.lengthcount.toNat < 1509 → s.src.size.toNat < s.nq.lengthcount.toNat →
        exec .nqLearn s = .fault .srcBeyondEnd ∧ exec .nqProcess s = .fault .srcBeyondEnd) ∧
      ∀ len samples : Nat, len = s.nq.lengthcount.toNat →
        samples = len / (3 * if len < 1509 then 1 else s.nq.samplefac.toNat) →
        ((∃ k, k < samples ∧ s.src.size.toNat < k * selectStep len % len + 3) →
          exec .nqLearn s = .fault .srcBeyondEnd ∧ exec .nqProcess s = .fault .srcBeyondEnd) ∧
        ((∀ k, k < samples → k * selectStep len % len + 3 ≤ s.src.size.toNat) →
          (∃ t, exec .nqLearn s = .next t) ∧ ∃ t, exec .nqProcess s = .next t)) ∧
    (s.nq.phase = .indexed ∨ s.nq.phase = .palette → JobAccepted s.nq →
      (s.src.size.toNat < s.nq.lengthcount.toNat → s.src.size.toNat / 3 ≤ s.idx.size.toNat →
        exec .nqMapbuf s = .fault .srcBeyondEnd) ∧
      (s.idx.size.toNat < s.nq.lengthcount.toNat / 3 → s.idx.size.toNat < s.src.size.toNat / 3 →
        exec .nqMapbuf s = .fault .idxBeyondEnd)) ∧
    (s.lz.phase = .ready → ImageAccepted s.lz →
      (answer s.sink 0 = .accept → s.pix.size = 0 → exec .lzEncode s = .fault .pixBeyondEnd) ∧
      (Accepting s.sink → s.pix.size.toNat < s.lz.pixels → exec .lzEncode s = .fault .pixBeyondEnd))

/-! ### What the quantizer's commands do -/

/-- 41_nq_learning.md R120, R121: an accepted `NQ.INIT` latches the length and the factor and builds the grey diagonal:
neuron `i` is (16i, 16i, 16i, 0), every `freq` is 256, every `bias` is 0; nothing else of the engine changes. -/
def Obligations.NqInitBuildsGreyNetwork : Prop :=
  ∀ (sf : Nat) (s : State), s.nq.len.toNat ≠ 0 → s.nq.len.toNat % 3 = 0 → s.nq.len.toNat ≤ 0x7FFFFFFF →
    1 ≤ sf → sf ≤ 30 →
    ∃ t, exec (.nqInit sf) s = .next t ∧
      t = { s with nq := { s.nq with
        phase := .constructed, err := .noError, busy := false, lengthcount := s.nq.len, samplefac := t.nq.samplefac,
        network := t.nq.network, freq := t.nq.freq, bias := t.nq.bias } } ∧
      t.nq.samplefac.toNat = sf ∧
      ∀ i, i < 256 →
        t.nq.network.read i Neuron.zero = ⟨BitVec.ofNat 32 (16 * i), BitVec.ofNat 32 (16 * i), BitVec.ofNat 32 (16 * i), 0⟩ ∧
          t.nq.freq.read i 0 = 256 ∧ t.nq.bias.read i 0 = 0

/-- 41_nq_learning.md R122 to R124, R131, R138: `NQ.LEARN` on an accepted job with the whole image attached completes,
never reads beyond it, forces the sample factor to 1 below 1509 bytes, sets `alphadec`, leaves lane 3 of every
neuron, and writes nothing but the RAMs it trains. -/
def Obligations.NqLearnCompletes : Prop :=
  ∀ s : State, s.nq.phase = .constructed → JobAccepted s.nq → s.nq.lengthcount.toNat ≤ s.src.size.toNat →
    ∃ t, exec .nqLearn s = .next t ∧
      t = { s with nq := { s.nq with
        phase := .learned, err := .noError, busy := false, samplefac := t.nq.samplefac, alphadec := t.nq.alphadec,
        network := t.nq.network, freq := t.nq.freq, bias := t.nq.bias, radpower := t.nq.radpower } } ∧
      t.nq.samplefac = (if s.nq.lengthcount.toNat < 1509 then 1 else s.nq.samplefac) ∧
      t.nq.alphadec.toNat = 30 + (t.nq.samplefac.toNat - 1) / 3 ∧
      ∀ k, k < 256 → (t.nq.network.read k Neuron.zero).index = (s.nq.network.read k Neuron.zero).index

/-- 41_nq_learning.md R122, R126, R128, R135, R137, R139, on a one-pixel image of any colour: training from the initial
network takes one sample. The neuron of the grey at the median of the three bytes wins and lands on the sample; its
neighbours at distance `m` = 1 to 31 move by the taper's factor; every other neuron stays. The winner is credited; no
other `freq` or `bias` changes. -/
def Obligations.OnePixelTraining : Prop :=
  ∀ (s : State) (b g r : Byte), s.nq.phase = .constructed → s.nq.lengthcount = 3 →
    (∀ i, i < 256 → s.nq.network.read i Neuron.zero =
      ⟨BitVec.ofNat 32 (16 * i), BitVec.ofNat 32 (16 * i), BitVec.ofNat 32 (16 * i), 0⟩) →
    (∀ i, i < 256 → s.nq.freq.read i 0 = 256 ∧ s.nq.bias.read i 0 = 0) →
    s.src.get 0 = some b → s.src.get 1 = some g → s.src.get 2 = some r →
    ∃ (t : State) (v : Nat), v = max (min b.toNat g.toNat) (min (max b.toNat g.toNat) r.toNat) ∧
      exec .nqLearn s = .next t ∧
      (∀ k : Nat, k < 256 → ∀ (m : Nat) (a : Int) (x : Neuron), m = ((k : Int) - v).natAbs →
        a = (1024 * (((1024 - m * m) * 256) / 1024) : Nat) → x = t.nq.network.read k Neuron.zero →
        x.index = 0 ∧
        (m = 0 → x.b.toInt = 16 * (b.toNat : Int) ∧ x.g.toInt = 16 * (g.toNat : Int) ∧ x.r.toInt = 16 * (r.toNat : Int)) ∧
        (1 ≤ m → m ≤ 31 →
          x.b.toInt = 16 * (k : Int) - (a * (16 * (k : Int) - 16 * (b.toNat : Int))).tdiv 262144 ∧
          x.g.toInt = 16 * (k : Int) - (a * (16 * (k : Int) - 16 * (g.toNat : Int))).tdiv 262144 ∧
          x.r.toInt = 16 * (k : Int) - (a * (16 * (k : Int) - 16 * (r.toNat : Int))).tdiv 262144) ∧
        (32 ≤ m → x = s.nq.network.read k Neuron.zero)) ∧
      ∀ i, i < 256 →
        t.nq.freq.read i 0 = (if i = v then 320 else 256) ∧
          (t.nq.bias.read i 0).toInt = (if i = v then -65536 else 0)

/-- 41_nq_learning.md R133, R134: over lanes in their range, with biases in theirs, the raw winner `w` is the first neuron
of the smallest distance and the biased winner `v` the first of the smallest biased distance. With R128, R135: the
contest credits `w` and returns `v`, and a sample moves `v`, and its neighbours while there is a radius. -/
def Obligations.ContestFindsFirstMinima : Prop :=
  ∀ (c : Colour) (network : Ram Neuron 256) (bias : Ram Word 256),
    (0 ≤ c.b ∧ c.b ≤ 4080) → (0 ≤ c.g ∧ c.g ≤ 4080) → (0 ≤ c.r ∧ c.r ≤ 4080) →
    (∀ x ∈ network.cells, LanesIn 4080 x) → (∀ b ∈ bias.cells, -67894272 ≤ b.toInt ∧ b.toInt ≤ 0) →
    ∃ w v : Nat, w < 256 ∧ v < 256 ∧
      (contestScan c 0 network.cells bias.cells ContestBest.start).bestpos = w ∧
      (contestScan c 0 network.cells bias.cells ContestBest.start).bestbiaspos = v ∧
      (∀ n, n < 256 → dist (network.read w Neuron.zero) c ≤ dist (network.read n Neuron.zero) c ∧
        (n < w → dist (network.read w Neuron.zero) c < dist (network.read n Neuron.zero) c)) ∧
      (∀ n, n < 256 →
        biasedDist (dist (network.read v Neuron.zero) c) (bias.read v 0) ≤
          biasedDist (dist (network.read n Neuron.zero) c) (bias.read n 0) ∧
        (n < v →
          biasedDist (dist (network.read v Neuron.zero) c) (bias.read v 0) <
            biasedDist (dist (network.read n Neuron.zero) c) (bias.read n 0))) ∧
      (∀ freq : Ram Word 256, (∀ k, k < 256 → LeakRelation (freq.read k 0) (bias.read k 0)) →
        (contest c network freq bias).winner = v ∧
        ∀ n, n < 256 →
          ((contest c network freq bias).freq.read n 0).toInt =
              (freq.read n 0).toInt - (freq.read n 0).toInt / 1024 + (if n = w then 64 else 0) ∧
            ((contest c network freq bias).bias.read n 0).toInt =
              (bias.read n 0).toInt + (freq.read n 0).toInt / 1024 * 1024 - (if n = w then 65536 else 0)) ∧
      ∀ j : LearnJob, j.network = network → j.bias = bias →
        trainOn c j = { j with
          network :=
            if j.rad = 0 then alterSingle j.alpha v c network
            else alterNeigh j.rad v c j.radpower (alterSingle j.alpha v c network)
          freq := (contest c network j.freq bias).freq
          bias := (contest c network j.freq bias).bias }

/-- 41_nq_learning.md R152: the 256 `freq` entries sum to 65536 right after `NQ.INIT`; a contest adds 64 to the sum and takes
`freq[n] >> 10` from it for every neuron; after the first contest the sum is 65600, so it is not conserved. -/
def Obligations.FrequencySum : Prop :=
  (∀ (sf : Nat) (s t : State), exec (.nqInit sf) s = .next t → t.nq.err = .noError →
    (∀ k, k < 256 → t.nq.freq.read k 0 = 256) ∧ (t.nq.freq.cells.map BitVec.toInt).sum = 65536) ∧
  (∀ (c : Colour) (network : Ram Neuron 256) (freq bias : Ram Word 256),
    (0 ≤ c.b ∧ c.b ≤ 4080) → (0 ≤ c.g ∧ c.g ≤ 4080) → (0 ≤ c.r ∧ c.r ≤ 4080) →
    (∀ x ∈ network.cells, LanesIn 4080 x) → (∀ k, k < 256 → LeakRelation (freq.read k 0) (bias.read k 0)) →
    ((contest c network freq bias).freq.cells.map BitVec.toInt).sum =
        (freq.cells.map BitVec.toInt).sum + 64 - (freq.cells.map fun f => f.toInt / 1024).sum ∧
      ((∀ k, k < 256 → freq.read k 0 = 256) →
        ((contest c network freq bias).freq.cells.map BitVec.toInt).sum = 65600))

/-- 41_nq_learning.md R135, R140, 43_nq_map.md R191: the contest, the neighbourhood update and the map search are the
spec's own loops, entry by entry, cursor by cursor, in its order. And so is training as a whole, R123 to R130: the
set-up, the sample loop with the biased winner moved, the decay of the learning rate and the radius, the taper. -/
def Obligations.MeaningsAreTheSpecLoops : Prop :=
  (∀ (c : Colour) (network : Ram Neuron 256) (freq bias : Ram Word 256),
    contest c network freq bias = Pseudocode.contest c network freq bias) ∧
  (∀ (rad : Nat) (i : Int) (c : Colour) (radpower : Ram Word 32) (network : Ram Neuron 256), -1 ≤ i → i ≤ 255 →
    alterNeigh rad i c radpower network = Pseudocode.alterNeigh rad i c radpower network) ∧
  (∀ (network : Ram Neuron 256) (netindex : Ram Byte 256) (c : Colour),
    mapColour network netindex c = Pseudocode.mapColour network netindex c) ∧
  (∀ (q : NqState) (src : Buffer), learn q src = Pseudocode.learn q src)

/-- 41_nq_learning.md R137: `AlterSingle` moves each lane of the winner by the truncated fraction; the new lane lies
between the old lane and the sample's, both included; at `alpha` = 1024 it is the sample's; no other neuron moves. -/
def Obligations.AlterSingleMovesTowardSample : Prop :=
  ∀ (alpha j : Nat) (c : Colour) (network : Ram Neuron 256), alpha ≤ 1024 → j < 256 →
    (0 ≤ c.b ∧ c.b ≤ 4080) → (0 ≤ c.g ∧ c.g ≤ 4080) → (0 ≤ c.r ∧ c.r ≤ 4080) →
    (∀ x ∈ network.cells, LanesIn 4080 x) →
    (∀ k, k < 256 → k ≠ j → (alterSingle alpha j c network).read k Neuron.zero = network.read k Neuron.zero) ∧
    ∀ old new : Neuron, old = network.read j Neuron.zero → new = (alterSingle alpha j c network).read j Neuron.zero →
      new.b.toInt = old.b.toInt - (alpha * (old.b.toInt - c.b)).tdiv 1024 ∧
      new.g.toInt = old.g.toInt - (alpha * (old.g.toInt - c.g)).tdiv 1024 ∧
      new.r.toInt = old.r.toInt - (alpha * (old.r.toInt - c.r)).tdiv 1024 ∧ new.index = old.index ∧
      (min old.b.toInt c.b ≤ new.b.toInt ∧ new.b.toInt ≤ max old.b.toInt c.b) ∧
      (min old.g.toInt c.g ≤ new.g.toInt ∧ new.g.toInt ≤ max old.g.toInt c.g) ∧
      (min old.r.toInt c.r ≤ new.r.toInt ∧ new.r.toInt ≤ max old.r.toInt c.r) ∧
      (alpha = 1024 → new.b.toInt = c.b ∧ new.g.toInt = c.g ∧ new.r.toInt = c.r)

/-- 41_nq_learning.md R126: `SetRadpower` writes the taper, its inner quotient truncated before the product, in entries
0 to `rad - 1`; the others keep their values; with `rad` = 0 nothing is written. -/
def Obligations.TaperValues : Prop :=
  ∀ (rad alpha : Nat) (radpower : Ram Word 32), rad ≤ 32 → alpha ≤ 1024 →
    (∀ k, k < rad → ((setRadpower rad alpha radpower).read k 0).toNat = alpha * (((rad * rad - k * k) * 256) / (rad * rad))) ∧
    (∀ k, rad ≤ k → (setRadpower rad alpha radpower).read k 0 = radpower.read k 0)

/-- 41_nq_learning.md R127, R131 (2): the stride is 3 below 1509 bytes; else it is three times the first of 499, 491, 487
that does not divide the pixel count, and 3·503 when all three do, whether or not 503 does; and the walk stays on whole
pixels inside the image. -/
def Obligations.SampleWalkStaysInside : Prop :=
  ∀ len pix : Nat, len % 3 = 0 → len ≠ 0 → pix % 3 = 0 → pix + 3 ≤ len →
    (len < 1509 → selectStep len = 3) ∧
    (1509 ≤ len →
      (len / 3 % 499 ≠ 0 → selectStep len = 3 * 499) ∧
      (len / 3 % 499 = 0 → len / 3 % 491 ≠ 0 → selectStep len = 3 * 491) ∧
      (len / 3 % 499 = 0 → len / 3 % 491 = 0 → len / 3 % 487 ≠ 0 → selectStep len = 3 * 487) ∧
      (len / 3 % 499 = 0 → len / 3 % 491 = 0 → len / 3 % 487 = 0 → selectStep len = 3 * 503)) ∧
    nextPix (selectStep len) len pix % 3 = 0 ∧ nextPix (selectStep len) len pix + 3 ≤ len

/-- 42_nq_palette.md R160: `NQ.UNBIAS` shifts lanes 0 to 2 right by 4 and records each neuron's position in lane 3;
nothing else of the engine changes. -/
def Obligations.NqUnbiasTakesOutOfFixedPoint : Prop :=
  ∀ s : State, s.nq.phase = .learned →
    ∃ t, exec .nqUnbias s = .next t ∧
      t = { s with nq := { s.nq with
        phase := .unbiased, err := .noError, busy := false, network := t.nq.network } } ∧
      ∀ i, i < 256 →
        (t.nq.network.read i Neuron.zero).b.toInt = (s.nq.network.read i Neuron.zero).b.toInt / 16 ∧
          (t.nq.network.read i Neuron.zero).g.toInt = (s.nq.network.read i Neuron.zero).g.toInt / 16 ∧
          (t.nq.network.read i Neuron.zero).r.toInt = (s.nq.network.read i Neuron.zero).r.toInt / 16 ∧
          (t.nq.network.read i Neuron.zero).index.toNat = i

/-- 42_nq_palette.md R161, R163: `NQ.INXBUILD` reorders the neurons, all four lanes with each, so that green is
non-decreasing, and writes only `network` and `netindex`. -/
def Obligations.NqInxbuildSortsByGreen : Prop :=
  ∀ s : State, s.nq.phase = .unbiased →
    ∃ t, exec .nqInxbuild s = .next t ∧
      t = { s with nq := { s.nq with
        phase := .indexed, err := .noError, busy := false, network := t.nq.network, netindex := t.nq.netindex } } ∧
      t.nq.network.cells.Perm s.nq.network.cells ∧
      t.nq.network.cells.Pairwise (fun x y => x.g.toInt ≤ y.g.toInt)

/-- 42_nq_palette.md R164: after `InxBuild` on greens of 0 to 255, an entry whose green occurs is the midpoint of its
run's first position and the next run's (255 for the last run); an entry whose green does not occur is the first
position of a larger green (255 where there is none); and the table is non-decreasing. -/
def Obligations.NetindexContent : Prop :=
  ∀ q : NqState, (∀ x ∈ q.network.cells, LanesIn 255 x) →
    (∀ v : Nat, v < 256 →
      ((∃ x ∈ q.network.cells, x.g.toInt = (v : Int)) →
        ((inxBuild q).netindex.read v 0).toNat =
          (greensBelow q.network v + min (greensBelow q.network (v + 1)) 255) / 2) ∧
      ((∀ x ∈ q.network.cells, x.g.toInt ≠ (v : Int)) →
        ((inxBuild q).netindex.read v 0).toNat = min (greensBelow q.network v) 255)) ∧
    (∀ v w : Nat, v ≤ w → w < 256 → ((inxBuild q).netindex.read v 0).toNat ≤ ((inxBuild q).netindex.read w 0).toNat)

/-- 42_nq_palette.md R162: sorting and then bucketing is the spec's one loop that does both, swap by swap. -/
def Obligations.InxBuildIsTheSpecLoop : Prop :=
  ∀ q : NqState,
    ((inxBuild q).network, (inxBuild q).netindex) = Pseudocode.inxBuild q.network q.netindex

/-- 42_nq_palette.md R165 to R167, R169: `NQ.COLORMAP` writes all of `PAL`: each neuron's colour stands in the entry its
lane 3 names, in the byte order the parameter gives; nothing else of the engine changes. -/
def Obligations.NqColormapWritesPalette : Prop :=
  ∀ s : State, s.nq.phase = .indexed ∨ s.nq.phase = .palette → NetworkShape s.nq →
    ∃ t, exec .nqColormap s = .next t ∧
      t = { s with nq := { s.nq with phase := .palette, err := .noError, busy := false, pal := t.nq.pal } } ∧
      (∀ x ∈ s.nq.network.cells, PaletteShows s.paletteOrder t.nq.pal x.index.toNat x) ∧
      ∀ k, k < 256 → ∃ x ∈ s.nq.network.cells, x.index.toNat = k

/-- 42_nq_palette.md R168: `NQ.PROCESS` completes where `NQ.LEARN` does, and leaves what `NQ.LEARN`, `NQ.UNBIAS`,
`NQ.INXBUILD`, `NQ.COLORMAP` in turn leave. -/
def Obligations.ProcessIsTheFourSteps : Prop :=
  ∀ s : State, s.nq.phase = .constructed → JobAccepted s.nq → s.nq.lengthcount.toNat ≤ s.src.size.toNat →
    ∃ a b c t, exec .nqLearn s = .next a ∧ exec .nqUnbias a = .next b ∧ exec .nqInxbuild b = .next c ∧
      exec .nqColormap c = .next t ∧ exec .nqProcess s = .next t ∧ t.nq.phase = .palette ∧ t.nq.err = .noError

/-- 43_nq_map.md R190, R192: `NQ.MAP` completes, writes nothing but `NQ_MAPRES`, and leaves there the lane 3 of the neuron
at the least L1 distance over all 256 that is first in the visiting order that starts at `netindex[g]` and alternates
downward and upward. -/
def Obligations.NqMapFindsNearest : Prop :=
  ∀ (b g r : Nat) (s : State), b < 256 → g < 256 → r < 256 → s.nq.phase = .indexed ∨ s.nq.phase = .palette →
    NetworkShape s.nq →
    ∃ t, exec (.nqMap b g r) s = .next t ∧
      t = { s with nq := { s.nq with err := .noError, busy := false, mapres := t.nq.mapres } } ∧
      ∃ p, p < 256 ∧ (t.nq.mapres.toNat : Int) = (s.nq.network.read p Neuron.zero).index.toInt ∧
        ∀ n, n < 256 →
          dist (s.nq.network.read p Neuron.zero) ⟨b, g, r⟩ ≤ dist (s.nq.network.read n Neuron.zero) ⟨b, g, r⟩ ∧
          (dist (s.nq.network.read n Neuron.zero) ⟨b, g, r⟩ = dist (s.nq.network.read p Neuron.zero) ⟨b, g, r⟩ →
            visitRank (s.nq.netindex.read g 0).toNat p ≤ visitRank (s.nq.netindex.read g 0).toNat n)

/-- 43_nq_map.md R194: of a colour that some neuron has exactly, `Map` returns a neuron at distance 0, of several such
the first in the visiting order of R192; where only one neuron has the colour, its palette index. -/
def Obligations.ExactColourMapsToItself : Prop :=
  ∀ (q : NqState) (x : Neuron) (c : Colour), q.phase = .indexed ∨ q.phase = .palette → NetworkShape q →
    x ∈ q.network.cells → c = ⟨x.b.toInt, x.g.toInt, x.r.toInt⟩ →
    (∃ p, p < 256 ∧ mapColour q.network q.netindex c = (q.network.read p Neuron.zero).index.toInt ∧
      dist (q.network.read p Neuron.zero) c = 0 ∧
      ∀ n, n < 256 → dist (q.network.read n Neuron.zero) c = 0 →
        visitRank (q.netindex.read x.g.toNat 0).toNat p ≤ visitRank (q.netindex.read x.g.toNat 0).toNat n) ∧
    ((∀ y ∈ q.network.cells, y.b = x.b → y.g = x.g → y.r = x.r → y = x) →
      mapColour q.network q.netindex c = x.index.toInt)

/-- 42_nq_palette.md R167 with 43_nq_map.md R192: in phase `PALETTE` the index `NQ.MAP` returns names a palette entry
that shows a colour no other palette entry is nearer than. -/
def Obligations.MapResultIndexesPalette : Prop :=
  ∀ (b g r : Nat) (s : State), b < 256 → g < 256 → r < 256 → s.nq.phase = .palette → Inv s →
    ∃ t, exec (.nqMap b g r) s = .next t ∧
      ∃ x ∈ s.nq.network.cells, PaletteShows s.paletteOrder t.nq.pal t.nq.mapres.toNat x ∧
        ∀ k, k < 256 → ∃ y ∈ s.nq.network.cells, PaletteShows s.paletteOrder t.nq.pal k y ∧
          dist x ⟨b, g, r⟩ ≤ dist y ⟨b, g, r⟩

/-- 43_nq_map.md R193: `NQ.MAPBUF` with the image attached and room in IDX completes; IDX byte `k` is the index of pixel
`k`, every other IDX byte is as before, and nothing else changes. -/
def Obligations.NqMapbufMapsEveryPixel : Prop :=
  ∀ s : State, s.nq.phase = .indexed ∨ s.nq.phase = .palette →
    s.nq.lengthcount.toNat ≤ s.src.size.toNat → s.nq.lengthcount.toNat / 3 ≤ s.idx.size.toNat →
    ∃ t, exec .nqMapbuf s = .next t ∧
      t = { s with nq := { s.nq with err := .noError, busy := false }, idx := t.idx } ∧ t.idx.size = s.idx.size ∧
      ∀ k, Memory.read t.idx.mem k =
        if k < s.nq.lengthcount.toNat / 3 then
          BitVec.ofInt 8 (mapColour s.nq.network s.nq.netindex
            ⟨(Memory.read s.src.mem (3 * k)).toNat, (Memory.read s.src.mem (3 * k + 1)).toNat,
              (Memory.read s.src.mem (3 * k + 2)).toNat⟩)
        else Memory.read s.idx.mem k

/-! ### What the encoder's commands do -/

/-- 44_lzw_encode.md R210: an accepted `LZ.INIT` latches the image's size and the depth, and nothing else changes. -/
def Obligations.LzInitLatchesImage : Prop :=
  ∀ (d : Nat) (s : State), s.lz.width.toNat * s.lz.height.toNat ≠ 0 →
    s.lz.pixlen.toNat = s.lz.width.toNat * s.lz.height.toNat → 2 ≤ d → d ≤ 8 →
    ∃ t, exec (.lzInit d) s = .next t ∧
      t = { s with lz := { s.lz with
        phase := .ready, err := .noError, busy := false, imgW := s.lz.width, imgH := s.lz.height,
        initCodeSize := t.lz.initCodeSize } } ∧
      t.lz.initCodeSize.toNat = d

/-- 44_lzw_encode.md R211, R218, 45_lzw_bitpack.md R253, R228: `LZ.ENCODE` of an accepted image with its pixels attached
and a sink that accepts completes in phase `DONE`: it appends the code-size byte, well-framed sub-blocks and the
terminator, counts every byte in `LZ_OUTLEN`, and leaves the latched image and everything else. -/
def Obligations.LzEncodeCompletes : Prop :=
  ∀ s : State, s.lz.phase = .ready → ImageAccepted s.lz → s.lz.pixels ≤ s.pix.size.toNat → Accepting s.sink →
    ∃ t stream payload, exec .lzEncode s = .next t ∧
      t = { s with
        lz := { s.lz with
          phase := .done, err := .noError, busy := false, outlen := t.lz.outlen, htab := t.lz.htab,
          codetab := t.lz.codetab }
        out := s.out ++ stream
        sink := t.sink } ∧
      stream.head? = some (BitVec.ofNat 8 s.lz.initCodeSize.toNat) ∧
      deframe stream.length (stream.drop 1) = some payload ∧ payload ≠ [] ∧
      (stream.length < 2 ^ 32 → t.lz.outlen.toNat = stream.length)

/-- 45_lzw_bitpack.md R253: for pixels below `2^initCodeSize` the stream is the header, full sub-blocks of 254 payload
bytes, at most one shorter one, and the terminator; its length is `1 + P + q + (1 if r > 0 else 0) + 1`. -/
def Obligations.StreamShape : Prop :=
  ∀ s : State, s.lz.phase = .ready → ImageAccepted s.lz → Accepting s.sink →
    (∀ a, a < s.lz.pixels → ∃ v, s.pix.get a = some v ∧ v.toNat < 2 ^ s.lz.initCodeSize.toNat) →
    ∃ t payload, exec .lzEncode s = .next t ∧ payload ≠ [] ∧
      t.out = s.out ++ (BitVec.ofNat 8 s.lz.initCodeSize.toNat :: frame payload ++ [0]) ∧
      ∀ n, n = 1 + payload.length + payload.length / 254 + (if payload.length % 254 = 0 then 0 else 1) + 1 →
        n < 2 ^ 32 → t.lz.outlen.toNat = n

/-- 44_lzw_encode.md R229: the stream of pixels below `2^initCodeSize` decodes to exactly those pixels. -/
def Obligations.StreamRoundTrip : Prop :=
  ∀ s : State, s.lz.phase = .ready → ImageAccepted s.lz → Accepting s.sink →
    (∀ a, a < s.lz.pixels → ∃ v, s.pix.get a = some v ∧ v.toNat < 2 ^ s.lz.initCodeSize.toNat) →
    ∃ t stream, exec .lzEncode s = .next t ∧ t.out = s.out ++ stream ∧
      gifDecode stream = some ((List.range s.lz.pixels).map fun a => (Memory.read s.pix.mem a).toNat)

/-- 20_memory.md R66, 60_exceptions.md R276: where the sink fails byte number `n` of the stream an accepting sink would
get, the first `n` bytes are delivered and counted and the job ends in `ABORTED` with `IO_FAILURE`; where it accepts
them all, the job ends in `DONE` with the whole stream. -/
def Obligations.SinkFailureLeavesPrefix : Prop :=
  ∀ (s full : State) (stream : List Byte), s.lz.phase = .ready →
    exec .lzEncode { s with sink := ⟨[], .accept⟩ } = .next full → full.lz.phase = .done → full.out = s.out ++ stream →
    ((∀ k, k < stream.length → answer s.sink k = .accept) →
      ∃ t, exec .lzEncode s = .next t ∧ t.out = s.out ++ stream ∧ t.lz.phase = .done ∧ t.lz.err = .noError) ∧
    (∀ n, n < stream.length → (∀ k, k < n → answer s.sink k = .accept) → answer s.sink n = .fail →
      ∃ t, exec .lzEncode s = .next t ∧ t.out = s.out ++ stream.take n ∧ t.lz.phase = .aborted ∧
        t.lz.err = .ioFailure ∧ t.lz.sticky = true ∧ (n < 2 ^ 32 → t.lz.outlen.toNat = n))

/-- 44_lzw_encode.md R211, R220, 10_state.md R52: the stream depends only on `initCodeSize`, the number of pixels and the
pixels themselves, and the sink: nothing left by an earlier job reaches it, nor the count in `LZ_OUTLEN`, nor whether
the engine is stuck. (A stream of 2^32 bytes has no count: assumption 3.) -/
def Obligations.StreamDependsOnImageOnly : Prop :=
  ∀ s s' : State, s.lz.phase = .ready → s'.lz.phase = .ready → s'.lz.initCodeSize = s.lz.initCodeSize →
    s'.lz.pixels = s.lz.pixels → (∀ a, a < s.lz.pixels → s'.pix.get a = s.pix.get a) → s'.sink = s.sink →
    (∀ t, exec .lzEncode s = .next t →
      ∃ t' stream, exec .lzEncode s' = .next t' ∧ t.out = s.out ++ stream ∧ t'.out = s'.out ++ stream ∧
        t'.lz.phase = t.lz.phase ∧ t'.lz.err = t.lz.err ∧ t'.sink = t.sink ∧
        (stream.length < 2 ^ 32 → t'.lz.outlen = t.lz.outlen)) ∧
    (∀ f, exec .lzEncode s = .fault f → exec .lzEncode s' = .fault f)

/-- 44_lzw_encode.md R224, R225, R226, 45_lzw_bitpack.md R243, R245, R250, R251, R252: what holds of the encoder's registers
before the first pixel of the main loop holds after every pixel, and the width falls only where the dictionary was
cleared, and then to `initCodeSize + 1`. A miss when no code space remains clears the block: the dictionary is empty,
`codetab` keeps its codes, allocation starts over, and the pixel that missed is the new prefix. -/
def Obligations.EncoderRegistersKept : Prop :=
  (∀ (depth c : Nat) (j j' : EncodeJob), 2 ≤ depth → depth ≤ 8 → c < 256 → CodesCanonical j.codetab →
    output (2 ^ depth) (clearHash { compressStart (depth + 1) j with ent := c }) = .ok j' → EncodeInv depth j') ∧
  (∀ (depth c : Nat) (j j' : EncodeJob), EncodeInv depth j → c < 256 → takePixel c j = .ok j' →
    EncodeInv depth j' ∧
      (j.nBits ≤ j'.nBits ∨ (j'.nBits = depth + 1 ∧ j'.freeEnt = 2 ^ depth + 2 ∧ j'.htab = []))) ∧
  (∀ (depth c i : Nat) (key : BitVec 20) (j : EncodeJob), EncodeInv depth j → Accepting j.sink → j.freeEnt = 4096 →
    ∃ j', miss c i key j = .ok j' ∧ j'.htab = [] ∧ j'.codetab = j.codetab ∧ j'.freeEnt = 2 ^ depth + 2 ∧
      j'.nBits = depth + 1 ∧ j'.maxcode = 2 ^ (depth + 1) - 1 ∧ j'.clearFlg = false ∧ j'.ent = c)

/-- 44_lzw_encode.md R215, R214, R217, R224: the key of a pair lies in 0 to 2^20 - 1, different pairs have different keys, and
the primary slot is `(c << 4) XOR ent`, inside the table; inserting a key in the empty slot its look-up ends at keeps every key of the
dictionary findable, the new one included. -/
def Obligations.DictionaryKeysAreFound : Prop :=
  (∀ c c' ent ent' : Nat, c < 256 → c' < 256 → ent < 4096 → ent' < 4096 →
    (fcode c ent).toNat = c * 2 ^ 12 + ent ∧ (fcode c ent = fcode c' ent' → c = c' ∧ ent = ent') ∧
      primarySlot c ent = (c * 2 ^ 4) ^^^ ent ∧ primarySlot c ent ≤ 4095 ∧ homeSlot (fcode c ent) = primarySlot c ent) ∧
  (∀ (t : KeyTable) (key : BitVec 20) (i : Nat), KeysCanonical t → Findable t →
    lookup t key (homeSlot key) = some (.miss i) → Findable (put t i key) ∧ find (put t i key) i = some key)

/-- 44_lzw_encode.md R218: in a table with a free slot every look-up ends, within the table's size, in a slot inside the
table: at the key, or at an empty slot. -/
def Obligations.ScansEnd : Prop :=
  ∀ (t : KeyTable) (key : BitVec 20) (i : Nat), KeysCanonical t → t.length < 5003 → i < 5003 →
    ∃ k, k < 5003 ∧
      ((lookup t key i = some (.hit k) ∧ find t k = some key) ∨ (lookup t key i = some (.miss k) ∧ find t k = none))

/-- 45_lzw_bitpack.md R241: packing a code that fits its width appends its bits, least significant first, to the
stream's waiting bits; whole bytes of 254 go out as a sub-block. -/
def Obligations.PackAppendsCodeBits : Prop :=
  ∀ (code : Nat) (j : EncodeJob), code < 2 ^ j.nBits → j.nBits ≤ 12 → j.curBits ≤ 7 → j.curAccum < 2 ^ j.curBits →
    j.packet.length < 254 → Accepting j.sink →
    ∃ j' sent, pack code j = .ok j' ∧ (sent = [] ∨ sent.length = 254) ∧ j'.out = j.out ++ frame sent ∧
      waitingBits j ++ natBits j.nBits code = sent.flatMap byteBits ++ waitingBits j' ∧
      j'.curBits ≤ 7 ∧ j'.curAccum < 2 ^ j'.curBits ∧ j'.packet.length < 254

/-- 45_lzw_bitpack.md R243, R244: a payload byte is buffered, and the byte that fills 254 sends the sub-block: its count
byte and its payload; a flush sends what is buffered, and nothing when nothing is. -/
def Obligations.SubBlocksOfAtMost254 : Prop :=
  ∀ (b : Byte) (j : EncodeJob), Accepting j.sink → j.packet.length < 254 →
    (∃ j', charOut b j = .ok j' ∧
      (j.packet.length < 253 → j'.packet = j.packet ++ [b] ∧ j'.out = j.out) ∧
      (j.packet.length = 253 → j'.packet = [] ∧ j'.out = j.out ++ (254 :: (j.packet ++ [b])))) ∧
    (∃ j', flushChar j = .ok j' ∧ j'.packet = [] ∧
      j'.out = if j.packet = [] then j.out else j.out ++ (BitVec.ofNat 8 j.packet.length :: j.packet))
end

