-- ==== Sys2Proof/Laws/State.lean ====
section
/-! SUPPORT. Laws/State.lean: one lemma per field per named update of the state and of the running jobs, so that no later
proof unfolds an update. -/

namespace Sys2Proof.Laws

open Sys2Proof.Machine

/-! ### `endCommand` (60_exceptions.md R272) -/

@[simp] theorem endCommand_nq_lz (c : ErrCode) (s : State) : (endCommand .nq c s).lz = s.lz := rfl

@[simp] theorem endCommand_nq_nq_phase (c : ErrCode) (s : State) :
    (endCommand .nq c s).nq.phase = s.nq.phase := rfl

@[simp] theorem endCommand_nq_nq_err (c : ErrCode) (s : State) :
    (endCommand .nq c s).nq.err = c := rfl

@[simp] theorem endCommand_nq_nq_busy (c : ErrCode) (s : State) :
    (endCommand .nq c s).nq.busy = false := rfl

@[simp] theorem endCommand_nq_nq_sticky (c : ErrCode) (s : State) :
    (endCommand .nq c s).nq.sticky = (s.nq.sticky || decide (c ≠ .noError)) := rfl

@[simp] theorem endCommand_nq_nq_len (c : ErrCode) (s : State) :
    (endCommand .nq c s).nq.len = s.nq.len := rfl

@[simp] theorem endCommand_nq_nq_mapres (c : ErrCode) (s : State) :
    (endCommand .nq c s).nq.mapres = s.nq.mapres := rfl

@[simp] theorem endCommand_nq_nq_lengthcount (c : ErrCode) (s : State) :
    (endCommand .nq c s).nq.lengthcount = s.nq.lengthcount := rfl

@[simp] theorem endCommand_nq_nq_samplefac (c : ErrCode) (s : State) :
    (endCommand .nq c s).nq.samplefac = s.nq.samplefac := rfl

@[simp] theorem endCommand_nq_nq_alphadec (c : ErrCode) (s : State) :
    (endCommand .nq c s).nq.alphadec = s.nq.alphadec := rfl

@[simp] theorem endCommand_nq_nq_network (c : ErrCode) (s : State) :
    (endCommand .nq c s).nq.network = s.nq.network := rfl

@[simp] theorem endCommand_nq_nq_freq (c : ErrCode) (s : State) :
    (endCommand .nq c s).nq.freq = s.nq.freq := rfl

@[simp] theorem endCommand_nq_nq_bias (c : ErrCode) (s : State) :
    (endCommand .nq c s).nq.bias = s.nq.bias := rfl

@[simp] theorem endCommand_nq_nq_radpower (c : ErrCode) (s : State) :
    (endCommand .nq c s).nq.radpower = s.nq.radpower := rfl

@[simp] theorem endCommand_nq_nq_netindex (c : ErrCode) (s : State) :
    (endCommand .nq c s).nq.netindex = s.nq.netindex := rfl

@[simp] theorem endCommand_nq_nq_pal (c : ErrCode) (s : State) :
    (endCommand .nq c s).nq.pal = s.nq.pal := rfl

@[simp] theorem endCommand_lz_nq (c : ErrCode) (s : State) : (endCommand .lz c s).nq = s.nq := rfl

@[simp] theorem endCommand_lz_lz_phase (c : ErrCode) (s : State) :
    (endCommand .lz c s).lz.phase = s.lz.phase := rfl

@[simp] theorem endCommand_lz_lz_err (c : ErrCode) (s : State) :
    (endCommand .lz c s).lz.err = c := rfl

@[simp] theorem endCommand_lz_lz_busy (c : ErrCode) (s : State) :
    (endCommand .lz c s).lz.busy = false := rfl

@[simp] theorem endCommand_lz_lz_sticky (c : ErrCode) (s : State) :
    (endCommand .lz c s).lz.sticky = (s.lz.sticky || decide (c ≠ .noError)) := rfl

@[simp] theorem endCommand_lz_lz_width (c : ErrCode) (s : State) :
    (endCommand .lz c s).lz.width = s.lz.width := rfl

@[simp] theorem endCommand_lz_lz_height (c : ErrCode) (s : State) :
    (endCommand .lz c s).lz.height = s.lz.height := rfl

@[simp] theorem endCommand_lz_lz_pixlen (c : ErrCode) (s : State) :
    (endCommand .lz c s).lz.pixlen = s.lz.pixlen := rfl

@[simp] theorem endCommand_lz_lz_outlen (c : ErrCode) (s : State) :
    (endCommand .lz c s).lz.outlen = s.lz.outlen := rfl

@[simp] theorem endCommand_lz_lz_imgW (c : ErrCode) (s : State) :
    (endCommand .lz c s).lz.imgW = s.lz.imgW := rfl

@[simp] theorem endCommand_lz_lz_imgH (c : ErrCode) (s : State) :
    (endCommand .lz c s).lz.imgH = s.lz.imgH := rfl

@[simp] theorem endCommand_lz_lz_initCodeSize (c : ErrCode) (s : State) :
    (endCommand .lz c s).lz.initCodeSize = s.lz.initCodeSize := rfl

@[simp] theorem endCommand_lz_lz_htab (c : ErrCode) (s : State) :
    (endCommand .lz c s).lz.htab = s.lz.htab := rfl

@[simp] theorem endCommand_lz_lz_codetab (c : ErrCode) (s : State) :
    (endCommand .lz c s).lz.codetab = s.lz.codetab := rfl

@[simp] theorem endCommand_src (p : Port) (c : ErrCode) (s : State) : (endCommand p c s).src = s.src := by
  cases p <;> rfl

@[simp] theorem endCommand_idx (p : Port) (c : ErrCode) (s : State) : (endCommand p c s).idx = s.idx := by
  cases p <;> rfl

@[simp] theorem endCommand_pix (p : Port) (c : ErrCode) (s : State) : (endCommand p c s).pix = s.pix := by
  cases p <;> rfl

@[simp] theorem endCommand_out (p : Port) (c : ErrCode) (s : State) : (endCommand p c s).out = s.out := by
  cases p <;> rfl

@[simp] theorem endCommand_sink (p : Port) (c : ErrCode) (s : State) : (endCommand p c s).sink = s.sink := by
  cases p <;> rfl

@[simp] theorem endCommand_paletteOrder (p : Port) (c : ErrCode) (s : State) : (endCommand p c s).paletteOrder = s.paletteOrder := by
  cases p <;> rfl

@[simp] theorem endCommand_inputs (p : Port) (c : ErrCode) (s : State) : (endCommand p c s).inputs = s.inputs := by
  cases p <;> rfl

@[simp] theorem endCommand_lastRead (p : Port) (c : ErrCode) (s : State) : (endCommand p c s).lastRead = s.lastRead := by
  cases p <;> rfl

@[simp] theorem endCommand_busy (p : Port) (c : ErrCode) (s : State) : (endCommand p c s).busy p = false := by
  cases p <;> rfl

@[simp] theorem endCommand_err (p : Port) (c : ErrCode) (s : State) : (endCommand p c s).err p = c := by
  cases p <;> rfl

@[simp] theorem endCommand_sticky (p : Port) (c : ErrCode) (s : State) :
    (endCommand p c s).sticky p = (s.sticky p || decide (c ≠ .noError)) := by
  cases p <;> rfl

/-! ### `clearBusy` and `offerWord` -/

@[simp] theorem clearBusy_nq_lz (s : State) : (clearBusy .nq s).lz = s.lz := rfl

@[simp] theorem clearBusy_nq_nq_phase (s : State) : (clearBusy .nq s).nq.phase = s.nq.phase := rfl

@[simp] theorem clearBusy_nq_nq_err (s : State) : (clearBusy .nq s).nq.err = s.nq.err := rfl

@[simp] theorem clearBusy_nq_nq_busy (s : State) : (clearBusy .nq s).nq.busy = false := rfl

@[simp] theorem clearBusy_nq_nq_sticky (s : State) : (clearBusy .nq s).nq.sticky = s.nq.sticky := rfl

@[simp] theorem clearBusy_nq_nq_len (s : State) : (clearBusy .nq s).nq.len = s.nq.len := rfl

@[simp] theorem clearBusy_nq_nq_mapres (s : State) : (clearBusy .nq s).nq.mapres = s.nq.mapres := rfl

@[simp] theorem clearBusy_nq_nq_lengthcount (s : State) : (clearBusy .nq s).nq.lengthcount = s.nq.lengthcount := rfl

@[simp] theorem clearBusy_nq_nq_samplefac (s : State) : (clearBusy .nq s).nq.samplefac = s.nq.samplefac := rfl

@[simp] theorem clearBusy_nq_nq_alphadec (s : State) : (clearBusy .nq s).nq.alphadec = s.nq.alphadec := rfl

@[simp] theorem clearBusy_nq_nq_network (s : State) : (clearBusy .nq s).nq.network = s.nq.network := rfl

@[simp] theorem clearBusy_nq_nq_freq (s : State) : (clearBusy .nq s).nq.freq = s.nq.freq := rfl

@[simp] theorem clearBusy_nq_nq_bias (s : State) : (clearBusy .nq s).nq.bias = s.nq.bias := rfl

@[simp] theorem clearBusy_nq_nq_radpower (s : State) : (clearBusy .nq s).nq.radpower = s.nq.radpower := rfl

@[simp] theorem clearBusy_nq_nq_netindex (s : State) : (clearBusy .nq s).nq.netindex = s.nq.netindex := rfl

@[simp] theorem clearBusy_nq_nq_pal (s : State) : (clearBusy .nq s).nq.pal = s.nq.pal := rfl

@[simp] theorem clearBusy_lz_nq (s : State) : (clearBusy .lz s).nq = s.nq := rfl

@[simp] theorem clearBusy_lz_lz_phase (s : State) : (clearBusy .lz s).lz.phase = s.lz.phase := rfl

@[simp] theorem clearBusy_lz_lz_err (s : State) : (clearBusy .lz s).lz.err = s.lz.err := rfl

@[simp] theorem clearBusy_lz_lz_busy (s : State) : (clearBusy .lz s).lz.busy = false := rfl

@[simp] theorem clearBusy_lz_lz_sticky (s : State) : (clearBusy .lz s).lz.sticky = s.lz.sticky := rfl

@[simp] theorem clearBusy_lz_lz_width (s : State) : (clearBusy .lz s).lz.width = s.lz.width := rfl

@[simp] theorem clearBusy_lz_lz_height (s : State) : (clearBusy .lz s).lz.height = s.lz.height := rfl

@[simp] theorem clearBusy_lz_lz_pixlen (s : State) : (clearBusy .lz s).lz.pixlen = s.lz.pixlen := rfl

@[simp] theorem clearBusy_lz_lz_outlen (s : State) : (clearBusy .lz s).lz.outlen = s.lz.outlen := rfl

@[simp] theorem clearBusy_lz_lz_imgW (s : State) : (clearBusy .lz s).lz.imgW = s.lz.imgW := rfl

@[simp] theorem clearBusy_lz_lz_imgH (s : State) : (clearBusy .lz s).lz.imgH = s.lz.imgH := rfl

@[simp] theorem clearBusy_lz_lz_initCodeSize (s : State) : (clearBusy .lz s).lz.initCodeSize = s.lz.initCodeSize := rfl

@[simp] theorem clearBusy_lz_lz_htab (s : State) : (clearBusy .lz s).lz.htab = s.lz.htab := rfl

@[simp] theorem clearBusy_lz_lz_codetab (s : State) : (clearBusy .lz s).lz.codetab = s.lz.codetab := rfl

@[simp] theorem clearBusy_src (p : Port) (s : State) : (clearBusy p s).src = s.src := by
  cases p <;> rfl

@[simp] theorem clearBusy_idx (p : Port) (s : State) : (clearBusy p s).idx = s.idx := by
  cases p <;> rfl

@[simp] theorem clearBusy_pix (p : Port) (s : State) : (clearBusy p s).pix = s.pix := by
  cases p <;> rfl

@[simp] theorem clearBusy_out (p : Port) (s : State) : (clearBusy p s).out = s.out := by
  cases p <;> rfl

@[simp] theorem clearBusy_sink (p : Port) (s : State) : (clearBusy p s).sink = s.sink := by
  cases p <;> rfl

@[simp] theorem clearBusy_paletteOrder (p : Port) (s : State) : (clearBusy p s).paletteOrder = s.paletteOrder := by
  cases p <;> rfl

@[simp] theorem clearBusy_inputs (p : Port) (s : State) : (clearBusy p s).inputs = s.inputs := by
  cases p <;> rfl

@[simp] theorem clearBusy_lastRead (p : Port) (s : State) : (clearBusy p s).lastRead = s.lastRead := by
  cases p <;> rfl

@[simp] theorem clearBusy_busy (p : Port) (s : State) : (clearBusy p s).busy p = false := by
  cases p <;> rfl

@[simp] theorem offerWord_inputs (s : State) (w : Word) :
    (offerWord s w).inputs = .write .word (cmdOffset (portOfWord w)) w :: s.inputs := rfl

/-! ### `resetCore` (70_reset_and_hazards.md R301) -/

@[simp] theorem resetCore_nq (s : State) : (resetCore s).nq = NqState.reset := rfl

@[simp] theorem resetCore_lz (s : State) : (resetCore s).lz = LzState.reset := rfl

@[simp] theorem resetCore_src (s : State) : (resetCore s).src = s.src := rfl

@[simp] theorem resetCore_idx (s : State) : (resetCore s).idx = s.idx := rfl

@[simp] theorem resetCore_pix (s : State) : (resetCore s).pix = s.pix := rfl

@[simp] theorem resetCore_out (s : State) : (resetCore s).out = s.out := rfl

@[simp] theorem resetCore_sink (s : State) : (resetCore s).sink = s.sink := rfl

@[simp] theorem resetCore_paletteOrder (s : State) : (resetCore s).paletteOrder = s.paletteOrder := rfl

@[simp] theorem resetCore_inputs (s : State) : (resetCore s).inputs = s.inputs := rfl

@[simp] theorem resetCore_lastRead (s : State) : (resetCore s).lastRead = s.lastRead := rfl

/-! ### `initNetwork` -/

@[simp] theorem initNetwork_phase (q : NqState) : (initNetwork q).phase = q.phase := rfl

@[simp] theorem initNetwork_err (q : NqState) : (initNetwork q).err = q.err := rfl

@[simp] theorem initNetwork_busy (q : NqState) : (initNetwork q).busy = q.busy := rfl

@[simp] theorem initNetwork_sticky (q : NqState) : (initNetwork q).sticky = q.sticky := rfl

@[simp] theorem initNetwork_len (q : NqState) : (initNetwork q).len = q.len := rfl

@[simp] theorem initNetwork_mapres (q : NqState) : (initNetwork q).mapres = q.mapres := rfl

@[simp] theorem initNetwork_lengthcount (q : NqState) : (initNetwork q).lengthcount = q.lengthcount := rfl

@[simp] theorem initNetwork_samplefac (q : NqState) : (initNetwork q).samplefac = q.samplefac := rfl

@[simp] theorem initNetwork_alphadec (q : NqState) : (initNetwork q).alphadec = q.alphadec := rfl

@[simp] theorem initNetwork_network (q : NqState) : (initNetwork q).network = q.network.mapIdx fun i _ => initialNeuron i := rfl

@[simp] theorem initNetwork_freq (q : NqState) : (initNetwork q).freq = Ram.fill 256 (toWord (tquot Config.intbias Config.netsize)) := rfl

@[simp] theorem initNetwork_bias (q : NqState) : (initNetwork q).bias = Ram.fill 256 0 := rfl

@[simp] theorem initNetwork_radpower (q : NqState) : (initNetwork q).radpower = q.radpower := rfl

@[simp] theorem initNetwork_netindex (q : NqState) : (initNetwork q).netindex = q.netindex := rfl

@[simp] theorem initNetwork_pal (q : NqState) : (initNetwork q).pal = q.pal := rfl

/-! ### `learnCommit` -/

@[simp] theorem learnCommit_phase (q : NqState) (j : LearnJob) : (learnCommit q j).phase = q.phase := rfl

@[simp] theorem learnCommit_err (q : NqState) (j : LearnJob) : (learnCommit q j).err = q.err := rfl

@[simp] theorem learnCommit_busy (q : NqState) (j : LearnJob) : (learnCommit q j).busy = q.busy := rfl

@[simp] theorem learnCommit_sticky (q : NqState) (j : LearnJob) : (learnCommit q j).sticky = q.sticky := rfl

@[simp] theorem learnCommit_len (q : NqState) (j : LearnJob) : (learnCommit q j).len = q.len := rfl

@[simp] theorem learnCommit_mapres (q : NqState) (j : LearnJob) : (learnCommit q j).mapres = q.mapres := rfl

@[simp] theorem learnCommit_lengthcount (q : NqState) (j : LearnJob) : (learnCommit q j).lengthcount = q.lengthcount := rfl

@[simp] theorem learnCommit_samplefac (q : NqState) (j : LearnJob) : (learnCommit q j).samplefac = trainFactor q.lengthcount.toNat q.samplefac := rfl

@[simp] theorem learnCommit_alphadec (q : NqState) (j : LearnJob) : (learnCommit q j).alphadec = 
    toWord (alphadecOf (trainFactor q.lengthcount.toNat q.samplefac).toNat) := rfl

@[simp] theorem learnCommit_network (q : NqState) (j : LearnJob) : (learnCommit q j).network = j.network := rfl

@[simp] theorem learnCommit_freq (q : NqState) (j : LearnJob) : (learnCommit q j).freq = j.freq := rfl

@[simp] theorem learnCommit_bias (q : NqState) (j : LearnJob) : (learnCommit q j).bias = j.bias := rfl

@[simp] theorem learnCommit_radpower (q : NqState) (j : LearnJob) : (learnCommit q j).radpower = j.radpower := rfl

@[simp] theorem learnCommit_netindex (q : NqState) (j : LearnJob) : (learnCommit q j).netindex = q.netindex := rfl

@[simp] theorem learnCommit_pal (q : NqState) (j : LearnJob) : (learnCommit q j).pal = q.pal := rfl

/-! ### `unbias` -/

@[simp] theorem unbias_phase (q : NqState) : (unbias q).phase = q.phase := rfl

@[simp] theorem unbias_err (q : NqState) : (unbias q).err = q.err := rfl

@[simp] theorem unbias_busy (q : NqState) : (unbias q).busy = q.busy := rfl

@[simp] theorem unbias_sticky (q : NqState) : (unbias q).sticky = q.sticky := rfl

@[simp] theorem unbias_len (q : NqState) : (unbias q).len = q.len := rfl

@[simp] theorem unbias_mapres (q : NqState) : (unbias q).mapres = q.mapres := rfl

@[simp] theorem unbias_lengthcount (q : NqState) : (unbias q).lengthcount = q.lengthcount := rfl

@[simp] theorem unbias_samplefac (q : NqState) : (unbias q).samplefac = q.samplefac := rfl

@[simp] theorem unbias_alphadec (q : NqState) : (unbias q).alphadec = q.alphadec := rfl

@[simp] theorem unbias_network (q : NqState) : (unbias q).network = q.network.mapIdx Neuron.unbias := rfl

@[simp] theorem unbias_freq (q : NqState) : (unbias q).freq = q.freq := rfl

@[simp] theorem unbias_bias (q : NqState) : (unbias q).bias = q.bias := rfl

@[simp] theorem unbias_radpower (q : NqState) : (unbias q).radpower = q.radpower := rfl

@[simp] theorem unbias_netindex (q : NqState) : (unbias q).netindex = q.netindex := rfl

@[simp] theorem unbias_pal (q : NqState) : (unbias q).pal = q.pal := rfl

/-! ### `inxBuild` -/

@[simp] theorem inxBuild_phase (q : NqState) : (inxBuild q).phase = q.phase := rfl

@[simp] theorem inxBuild_err (q : NqState) : (inxBuild q).err = q.err := rfl

@[simp] theorem inxBuild_busy (q : NqState) : (inxBuild q).busy = q.busy := rfl

@[simp] theorem inxBuild_sticky (q : NqState) : (inxBuild q).sticky = q.sticky := rfl

@[simp] theorem inxBuild_len (q : NqState) : (inxBuild q).len = q.len := rfl

@[simp] theorem inxBuild_mapres (q : NqState) : (inxBuild q).mapres = q.mapres := rfl

@[simp] theorem inxBuild_lengthcount (q : NqState) : (inxBuild q).lengthcount = q.lengthcount := rfl

@[simp] theorem inxBuild_samplefac (q : NqState) : (inxBuild q).samplefac = q.samplefac := rfl

@[simp] theorem inxBuild_alphadec (q : NqState) : (inxBuild q).alphadec = q.alphadec := rfl

@[simp] theorem inxBuild_network (q : NqState) : (inxBuild q).network = sortNetwork q.network := rfl

@[simp] theorem inxBuild_freq (q : NqState) : (inxBuild q).freq = q.freq := rfl

@[simp] theorem inxBuild_bias (q : NqState) : (inxBuild q).bias = q.bias := rfl

@[simp] theorem inxBuild_radpower (q : NqState) : (inxBuild q).radpower = q.radpower := rfl

@[simp] theorem inxBuild_netindex (q : NqState) : (inxBuild q).netindex = buildIndex (sortNetwork q.network) q.netindex := rfl

@[simp] theorem inxBuild_pal (q : NqState) : (inxBuild q).pal = q.pal := rfl

/-! ### `colorMap` -/

@[simp] theorem colorMap_phase (o : PaletteOrder) (q : NqState) : (colorMap o q).phase = q.phase := rfl

@[simp] theorem colorMap_err (o : PaletteOrder) (q : NqState) : (colorMap o q).err = q.err := rfl

@[simp] theorem colorMap_busy (o : PaletteOrder) (q : NqState) : (colorMap o q).busy = q.busy := rfl

@[simp] theorem colorMap_sticky (o : PaletteOrder) (q : NqState) : (colorMap o q).sticky = q.sticky := rfl

@[simp] theorem colorMap_len (o : PaletteOrder) (q : NqState) : (colorMap o q).len = q.len := rfl

@[simp] theorem colorMap_mapres (o : PaletteOrder) (q : NqState) : (colorMap o q).mapres = q.mapres := rfl

@[simp] theorem colorMap_lengthcount (o : PaletteOrder) (q : NqState) : (colorMap o q).lengthcount = q.lengthcount := rfl

@[simp] theorem colorMap_samplefac (o : PaletteOrder) (q : NqState) : (colorMap o q).samplefac = q.samplefac := rfl

@[simp] theorem colorMap_alphadec (o : PaletteOrder) (q : NqState) : (colorMap o q).alphadec = q.alphadec := rfl

@[simp] theorem colorMap_network (o : PaletteOrder) (q : NqState) : (colorMap o q).network = q.network := rfl

@[simp] theorem colorMap_freq (o : PaletteOrder) (q : NqState) : (colorMap o q).freq = q.freq := rfl

@[simp] theorem colorMap_bias (o : PaletteOrder) (q : NqState) : (colorMap o q).bias = q.bias := rfl

@[simp] theorem colorMap_radpower (o : PaletteOrder) (q : NqState) : (colorMap o q).radpower = q.radpower := rfl

@[simp] theorem colorMap_netindex (o : PaletteOrder) (q : NqState) : (colorMap o q).netindex = q.netindex := rfl

@[simp] theorem colorMap_pal_cells (o : PaletteOrder) (q : NqState) :
    (colorMap o q).pal.cells = paletteBytes o q.network.cells 256 0 := rfl

/-! ### `encodeCommit` (44_lzw_encode.md R211) -/

@[simp] theorem encodeCommit_nq (s : State) (p : LzPhase) (j : EncodeJob) : (encodeCommit s p j).nq = s.nq := rfl

@[simp] theorem encodeCommit_src (s : State) (p : LzPhase) (j : EncodeJob) : (encodeCommit s p j).src = s.src := rfl

@[simp] theorem encodeCommit_idx (s : State) (p : LzPhase) (j : EncodeJob) : (encodeCommit s p j).idx = s.idx := rfl

@[simp] theorem encodeCommit_pix (s : State) (p : LzPhase) (j : EncodeJob) : (encodeCommit s p j).pix = s.pix := rfl

@[simp] theorem encodeCommit_out (s : State) (p : LzPhase) (j : EncodeJob) : (encodeCommit s p j).out = j.out := rfl

@[simp] theorem encodeCommit_sink (s : State) (p : LzPhase) (j : EncodeJob) : (encodeCommit s p j).sink = j.sink := rfl

@[simp] theorem encodeCommit_paletteOrder (s : State) (p : LzPhase) (j : EncodeJob) : (encodeCommit s p j).paletteOrder = s.paletteOrder := rfl

@[simp] theorem encodeCommit_inputs (s : State) (p : LzPhase) (j : EncodeJob) : (encodeCommit s p j).inputs = s.inputs := rfl

@[simp] theorem encodeCommit_lastRead (s : State) (p : LzPhase) (j : EncodeJob) : (encodeCommit s p j).lastRead = s.lastRead := rfl

@[simp] theorem encodeCommit_lz_phase (s : State) (p : LzPhase) (j : EncodeJob) :
    (encodeCommit s p j).lz.phase = p := rfl

@[simp] theorem encodeCommit_lz_err (s : State) (p : LzPhase) (j : EncodeJob) :
    (encodeCommit s p j).lz.err = s.lz.err := rfl

@[simp] theorem encodeCommit_lz_busy (s : State) (p : LzPhase) (j : EncodeJob) :
    (encodeCommit s p j).lz.busy = s.lz.busy := rfl

@[simp] theorem encodeCommit_lz_sticky (s : State) (p : LzPhase) (j : EncodeJob) :
    (encodeCommit s p j).lz.sticky = s.lz.sticky := rfl

@[simp] theorem encodeCommit_lz_width (s : State) (p : LzPhase) (j : EncodeJob) :
    (encodeCommit s p j).lz.width = s.lz.width := rfl

@[simp] theorem encodeCommit_lz_height (s : State) (p : LzPhase) (j : EncodeJob) :
    (encodeCommit s p j).lz.height = s.lz.height := rfl

@[simp] theorem encodeCommit_lz_pixlen (s : State) (p : LzPhase) (j : EncodeJob) :
    (encodeCommit s p j).lz.pixlen = s.lz.pixlen := rfl

@[simp] theorem encodeCommit_lz_outlen (s : State) (p : LzPhase) (j : EncodeJob) :
    (encodeCommit s p j).lz.outlen = j.outlen := rfl

@[simp] theorem encodeCommit_lz_imgW (s : State) (p : LzPhase) (j : EncodeJob) :
    (encodeCommit s p j).lz.imgW = s.lz.imgW := rfl

@[simp] theorem encodeCommit_lz_imgH (s : State) (p : LzPhase) (j : EncodeJob) :
    (encodeCommit s p j).lz.imgH = s.lz.imgH := rfl

@[simp] theorem encodeCommit_lz_initCodeSize (s : State) (p : LzPhase) (j : EncodeJob) :
    (encodeCommit s p j).lz.initCodeSize = s.lz.initCodeSize := rfl

@[simp] theorem encodeCommit_lz_htab (s : State) (p : LzPhase) (j : EncodeJob) :
    (encodeCommit s p j).lz.htab = j.htab := rfl

@[simp] theorem encodeCommit_lz_codetab (s : State) (p : LzPhase) (j : EncodeJob) :
    (encodeCommit s p j).lz.codetab = j.codetab := rfl

/-! ### `compressStart` -/

@[simp] theorem compressStart_gInitBits (b : Nat) (j : EncodeJob) :
    (compressStart b j).gInitBits = b := rfl

@[simp] theorem compressStart_nBits (b : Nat) (j : EncodeJob) :
    (compressStart b j).nBits = b := rfl

@[simp] theorem compressStart_maxcode (b : Nat) (j : EncodeJob) :
    (compressStart b j).maxcode = 2 ^ b - 1 := rfl

@[simp] theorem compressStart_freeEnt (b : Nat) (j : EncodeJob) :
    (compressStart b j).freeEnt = 2 ^ (b - 1) + 2 := rfl

@[simp] theorem compressStart_clearCode (b : Nat) (j : EncodeJob) :
    (compressStart b j).clearCode = 2 ^ (b - 1) := rfl

@[simp] theorem compressStart_eofCode (b : Nat) (j : EncodeJob) :
    (compressStart b j).eofCode = 2 ^ (b - 1) + 1 := rfl

@[simp] theorem compressStart_clearFlg (b : Nat) (j : EncodeJob) :
    (compressStart b j).clearFlg = false := rfl

@[simp] theorem compressStart_ent (b : Nat) (j : EncodeJob) :
    (compressStart b j).ent = j.ent := rfl

@[simp] theorem compressStart_curPixel (b : Nat) (j : EncodeJob) :
    (compressStart b j).curPixel = j.curPixel := rfl

@[simp] theorem compressStart_curAccum (b : Nat) (j : EncodeJob) :
    (compressStart b j).curAccum = 0 := rfl

@[simp] theorem compressStart_curBits (b : Nat) (j : EncodeJob) :
    (compressStart b j).curBits = 0 := rfl

@[simp] theorem compressStart_packet (b : Nat) (j : EncodeJob) :
    (compressStart b j).packet = [] := rfl

@[simp] theorem compressStart_htab (b : Nat) (j : EncodeJob) :
    (compressStart b j).htab = j.htab := rfl

@[simp] theorem compressStart_codetab (b : Nat) (j : EncodeJob) :
    (compressStart b j).codetab = j.codetab := rfl

@[simp] theorem compressStart_out (b : Nat) (j : EncodeJob) :
    (compressStart b j).out = j.out := rfl

@[simp] theorem compressStart_outlen (b : Nat) (j : EncodeJob) :
    (compressStart b j).outlen = j.outlen := rfl

@[simp] theorem compressStart_sink (b : Nat) (j : EncodeJob) :
    (compressStart b j).sink = j.sink := rfl

/-! ### `clearHash` -/

@[simp] theorem clearHash_gInitBits (j : EncodeJob) :
    (clearHash j).gInitBits = j.gInitBits := rfl

@[simp] theorem clearHash_nBits (j : EncodeJob) :
    (clearHash j).nBits = j.nBits := rfl

@[simp] theorem clearHash_maxcode (j : EncodeJob) :
    (clearHash j).maxcode = j.maxcode := rfl

@[simp] theorem clearHash_freeEnt (j : EncodeJob) :
    (clearHash j).freeEnt = j.freeEnt := rfl

@[simp] theorem clearHash_clearCode (j : EncodeJob) :
    (clearHash j).clearCode = j.clearCode := rfl

@[simp] theorem clearHash_eofCode (j : EncodeJob) :
    (clearHash j).eofCode = j.eofCode := rfl

@[simp] theorem clearHash_clearFlg (j : EncodeJob) :
    (clearHash j).clearFlg = j.clearFlg := rfl

@[simp] theorem clearHash_ent (j : EncodeJob) :
    (clearHash j).ent = j.ent := rfl

@[simp] theorem clearHash_curPixel (j : EncodeJob) :
    (clearHash j).curPixel = j.curPixel := rfl

@[simp] theorem clearHash_curAccum (j : EncodeJob) :
    (clearHash j).curAccum = j.curAccum := rfl

@[simp] theorem clearHash_curBits (j : EncodeJob) :
    (clearHash j).curBits = j.curBits := rfl

@[simp] theorem clearHash_packet (j : EncodeJob) :
    (clearHash j).packet = j.packet := rfl

@[simp] theorem clearHash_htab (j : EncodeJob) :
    (clearHash j).htab = [] := rfl

@[simp] theorem clearHash_codetab (j : EncodeJob) :
    (clearHash j).codetab = j.codetab := rfl

@[simp] theorem clearHash_out (j : EncodeJob) :
    (clearHash j).out = j.out := rfl

@[simp] theorem clearHash_outlen (j : EncodeJob) :
    (clearHash j).outlen = j.outlen := rfl

@[simp] theorem clearHash_sink (j : EncodeJob) :
    (clearHash j).sink = j.sink := rfl

/-! ### `insert` -/

@[simp] theorem insert_gInitBits (i : Nat) (key : BitVec 20) (j : EncodeJob) :
    (insert i key j).gInitBits = j.gInitBits := rfl

@[simp] theorem insert_nBits (i : Nat) (key : BitVec 20) (j : EncodeJob) :
    (insert i key j).nBits = j.nBits := rfl

@[simp] theorem insert_maxcode (i : Nat) (key : BitVec 20) (j : EncodeJob) :
    (insert i key j).maxcode = j.maxcode := rfl

@[simp] theorem insert_freeEnt (i : Nat) (key : BitVec 20) (j : EncodeJob) :
    (insert i key j).freeEnt = j.freeEnt + 1 := rfl

@[simp] theorem insert_clearCode (i : Nat) (key : BitVec 20) (j : EncodeJob) :
    (insert i key j).clearCode = j.clearCode := rfl

@[simp] theorem insert_eofCode (i : Nat) (key : BitVec 20) (j : EncodeJob) :
    (insert i key j).eofCode = j.eofCode := rfl

@[simp] theorem insert_clearFlg (i : Nat) (key : BitVec 20) (j : EncodeJob) :
    (insert i key j).clearFlg = j.clearFlg := rfl

@[simp] theorem insert_ent (i : Nat) (key : BitVec 20) (j : EncodeJob) :
    (insert i key j).ent = j.ent := rfl

@[simp] theorem insert_curPixel (i : Nat) (key : BitVec 20) (j : EncodeJob) :
    (insert i key j).curPixel = j.curPixel := rfl

@[simp] theorem insert_curAccum (i : Nat) (key : BitVec 20) (j : EncodeJob) :
    (insert i key j).curAccum = j.curAccum := rfl

@[simp] theorem insert_curBits (i : Nat) (key : BitVec 20) (j : EncodeJob) :
    (insert i key j).curBits = j.curBits := rfl

@[simp] theorem insert_packet (i : Nat) (key : BitVec 20) (j : EncodeJob) :
    (insert i key j).packet = j.packet := rfl

@[simp] theorem insert_htab (i : Nat) (key : BitVec 20) (j : EncodeJob) :
    (insert i key j).htab = put j.htab i key := rfl

@[simp] theorem insert_codetab (i : Nat) (key : BitVec 20) (j : EncodeJob) :
    (insert i key j).codetab = writeDefault 0 j.codetab i (BitVec.ofNat 12 j.freeEnt) := rfl

@[simp] theorem insert_out (i : Nat) (key : BitVec 20) (j : EncodeJob) :
    (insert i key j).out = j.out := rfl

@[simp] theorem insert_outlen (i : Nat) (key : BitVec 20) (j : EncodeJob) :
    (insert i key j).outlen = j.outlen := rfl

@[simp] theorem insert_sink (i : Nat) (key : BitVec 20) (j : EncodeJob) :
    (insert i key j).sink = j.sink := rfl

/-! ### `encodeStart` (44_lzw_encode.md R211) -/

@[simp] theorem encodeStart_htab (s : State) : (encodeStart s).htab = s.lz.htab := rfl

@[simp] theorem encodeStart_codetab (s : State) : (encodeStart s).codetab = s.lz.codetab := rfl

@[simp] theorem encodeStart_out (s : State) : (encodeStart s).out = s.out := rfl

@[simp] theorem encodeStart_outlen (s : State) : (encodeStart s).outlen = 0 := rfl

@[simp] theorem encodeStart_sink (s : State) : (encodeStart s).sink = s.sink := rfl

@[simp] theorem encodeStart_curPixel (s : State) : (encodeStart s).curPixel = 0 := rfl

/-! ### `updateWidth` changes the width registers only (45_lzw_bitpack.md R245) -/

@[simp] theorem updateWidth_gInitBits (j : EncodeJob) : (updateWidth j).gInitBits = j.gInitBits := by
  unfold updateWidth
  split_ifs <;> rfl

@[simp] theorem updateWidth_freeEnt (j : EncodeJob) : (updateWidth j).freeEnt = j.freeEnt := by
  unfold updateWidth
  split_ifs <;> rfl

@[simp] theorem updateWidth_clearCode (j : EncodeJob) : (updateWidth j).clearCode = j.clearCode := by
  unfold updateWidth
  split_ifs <;> rfl

@[simp] theorem updateWidth_eofCode (j : EncodeJob) : (updateWidth j).eofCode = j.eofCode := by
  unfold updateWidth
  split_ifs <;> rfl

@[simp] theorem updateWidth_ent (j : EncodeJob) : (updateWidth j).ent = j.ent := by
  unfold updateWidth
  split_ifs <;> rfl

@[simp] theorem updateWidth_curPixel (j : EncodeJob) : (updateWidth j).curPixel = j.curPixel := by
  unfold updateWidth
  split_ifs <;> rfl

@[simp] theorem updateWidth_curAccum (j : EncodeJob) : (updateWidth j).curAccum = j.curAccum := by
  unfold updateWidth
  split_ifs <;> rfl

@[simp] theorem updateWidth_curBits (j : EncodeJob) : (updateWidth j).curBits = j.curBits := by
  unfold updateWidth
  split_ifs <;> rfl

@[simp] theorem updateWidth_packet (j : EncodeJob) : (updateWidth j).packet = j.packet := by
  unfold updateWidth
  split_ifs <;> rfl

@[simp] theorem updateWidth_htab (j : EncodeJob) : (updateWidth j).htab = j.htab := by
  unfold updateWidth
  split_ifs <;> rfl

@[simp] theorem updateWidth_codetab (j : EncodeJob) : (updateWidth j).codetab = j.codetab := by
  unfold updateWidth
  split_ifs <;> rfl

@[simp] theorem updateWidth_out (j : EncodeJob) : (updateWidth j).out = j.out := by
  unfold updateWidth
  split_ifs <;> rfl

@[simp] theorem updateWidth_outlen (j : EncodeJob) : (updateWidth j).outlen = j.outlen := by
  unfold updateWidth
  split_ifs <;> rfl

@[simp] theorem updateWidth_sink (j : EncodeJob) : (updateWidth j).sink = j.sink := by
  unfold updateWidth
  split_ifs <;> rfl

end Sys2Proof.Laws
end

