-- ==== Sys2Proof/Laws/Ram.lean ====
section
/-! SUPPORT. Laws/Ram.lean: what each operation on an internal RAM does to each entry. -/

namespace Sys2Proof.Laws

open Sys2Proof.Machine

variable {α β γ : Type} {n : Nat}

theorem mapFrom_getElem? (f : Nat → α → β) (k i : Nat) (l : List α) :
    (mapFrom f k l)[i]? = l[i]?.map (f (k + i)) := by
  induction l generalizing k i with
  | nil => simp [mapFrom]
  | cons x xs ih => cases i <;> simp [mapFrom, ih, Nat.add_assoc, Nat.add_comm 1]

theorem zipMap_getElem? (f : α → β → γ) (i : Nat) (l : List α) (m : List β) :
    (zipMap f l m)[i]? = l[i]?.bind fun x => m[i]?.map (f x) := by
  induction l generalizing i m with
  | nil => simp [zipMap]
  | cons x xs ih => cases m <;> cases i <;> simp [zipMap, ih]

theorem Ram.read_eq_getElem (r : Ram α n) (k : Nat) (d : α) (h : k < n) :
    r.read k d = r.cells[k]'(by rw [r.size_eq]; exact h) := by
  have hk : k < r.cells.length := by rw [r.size_eq]; exact h
  simp [Ram.read, List.getD_eq_getElem?_getD, List.getElem?_eq_getElem hk]

theorem Ram.read_getElem? (r : Ram α n) (k : Nat) (d : α) (h : k < n) : r.cells[k]? = some (r.read k d) := by
  have hk : k < r.cells.length := by rw [r.size_eq]; exact h
  rw [List.getElem?_eq_getElem hk, Ram.read_eq_getElem r k d h]

/-- Past the end a read gives the default. -/
theorem Ram.read_beyond (r : Ram α n) (k : Nat) (d : α) (h : n ≤ k) : r.read k d = d := by
  have hk : r.cells.length ≤ k := by rw [r.size_eq]; exact h
  simp [Ram.read, List.getD_eq_getElem?_getD, List.getElem?_eq_none hk]

theorem Ram.read_mem (r : Ram α n) (k : Nat) (d : α) (h : k < n) : r.read k d ∈ r.cells := by
  rw [Ram.read_eq_getElem r k d h]
  exact List.getElem_mem _

theorem Ram.mem_iff_read (r : Ram α n) (d x : α) : x ∈ r.cells ↔ ∃ k, k < n ∧ r.read k d = x := by
  constructor
  · intro h
    obtain ⟨k, hk, rfl⟩ := List.getElem_of_mem h
    have hn : k < n := by rw [← r.size_eq]; exact hk
    exact ⟨k, hn, Ram.read_eq_getElem r k d hn⟩
  · rintro ⟨k, hk, rfl⟩
    exact Ram.read_mem r k d hk

/-- RAMs that read alike at every entry are the same RAM. -/
theorem Ram.ext_read (r q : Ram α n) (d : α) (h : ∀ k, k < n → r.read k d = q.read k d) : r = q := by
  obtain ⟨l, hl⟩ := r
  obtain ⟨m, hm⟩ := q
  have : l = m := by
    apply List.ext_getElem (hl.trans hm.symm)
    intro k h₁ h₂
    have := h k (by omega)
    rwa [Ram.read_eq_getElem _ _ _ (by omega), Ram.read_eq_getElem _ _ _ (by omega)] at this
  subst this
  rfl

theorem Ram.cells_ext (r q : Ram α n) (h : r.cells = q.cells) : r = q := by
  obtain ⟨l, hl⟩ := r
  obtain ⟨m, hm⟩ := q
  cases h
  rfl

@[simp] theorem Ram.fill_read (a d : α) (k : Nat) (h : k < n) : (Ram.fill n a).read k d = a := by
  simp [Ram.read, Ram.fill, List.getD_eq_getElem?_getD, h]

theorem Ram.mapIdx_read (f : Nat → α → β) (r : Ram α n) (k : Nat) (d : β) (d' : α) (h : k < n) :
    (r.mapIdx f).read k d = f k (r.read k d') := by
  have hr := Ram.read_getElem? r k d' h
  have hm := mapFrom_getElem? f 0 k r.cells
  simp [Ram.read, Ram.mapIdx, List.getD_eq_getElem?_getD] at *
  rw [hm, hr]
  simp

theorem Ram.zipWith_read (f : α → β → γ) (r : Ram α n) (q : Ram β n) (k : Nat) (d : γ) (d₁ : α) (d₂ : β) (h : k < n) :
    (r.zipWith f q).read k d = f (r.read k d₁) (q.read k d₂) := by
  have h₁ := Ram.read_getElem? r k d₁ h
  have h₂ := Ram.read_getElem? q k d₂ h
  have hm := zipMap_getElem? f k r.cells q.cells
  rw [h₁, h₂] at hm
  rw [Ram.read, List.getD_eq_getElem?_getD]
  show ((zipMap f r.cells q.cells)[k]?).getD d = _
  rw [hm]
  rfl

theorem Ram.write_read_same (r : Ram α n) (k : Nat) (v d : α) (h : k < n) : (r.write k v).read k d = v := by
  have hk : k < r.cells.length := by rw [r.size_eq]; exact h
  simp [Ram.read, Ram.write, List.getD_eq_getElem?_getD, hk]

theorem Ram.write_read_other (r : Ram α n) (k i : Nat) (v d : α) (h : i ≠ k) :
    (r.write k v).read i d = r.read i d := by
  simp [Ram.read, Ram.write, List.getD_eq_getElem?_getD, List.getElem?_set_ne (Ne.symm h)]

/-- A write past the end changes nothing. -/
theorem Ram.write_beyond (r : Ram α n) (k : Nat) (v : α) (h : n ≤ k) : r.write k v = r := by
  apply Ram.cells_ext
  exact List.set_eq_of_length_le (by rw [r.size_eq]; exact h)

@[simp] theorem Ram.ofList_cells (l : List α) (h : l.length = n) : (Ram.ofList n l h).cells = l := rfl

@[simp] theorem Ram.fill_cells (a : α) : (Ram.fill n a).cells = List.replicate n a := rfl

theorem Ram.mapIdx_mem (f : Nat → α → β) (r : Ram α n) (y : β) :
    y ∈ (r.mapIdx f).cells ↔ ∃ k, ∃ h : k < r.cells.length, f k r.cells[k] = y := by
  constructor
  · intro hy
    obtain ⟨k, hk, rfl⟩ := List.getElem_of_mem hy
    have hk' : k < r.cells.length := by rw [← length_mapFrom f 0 r.cells]; exact hk
    refine ⟨k, hk', ?_⟩
    have := mapFrom_getElem? f 0 k r.cells
    rw [List.getElem?_eq_getElem hk'] at this
    have h2 : (r.mapIdx f).cells[k]? = some (f k r.cells[k]) := by simpa [Ram.mapIdx] using this
    rw [List.getElem?_eq_getElem hk] at h2
    exact (Option.some.inj h2).symm
  · rintro ⟨k, hk, rfl⟩
    have := mapFrom_getElem? f 0 k r.cells
    rw [List.getElem?_eq_getElem hk] at this
    exact List.mem_of_getElem? (i := k) (by simpa [Ram.mapIdx] using this)

end Sys2Proof.Laws
end

