-- ==== Sys2Proof/Laws/Tables.lean ====
section
/-! SUPPORT. Laws/Tables.lean: the sparse tables and the port buffers: read after write, and that every operation keeps
the canonical form. -/

namespace Sys2Proof.Laws

open Sys2Proof.Machine

variable {α : Type}

/-! ### `find`, `put`, `erase` -/

@[simp] theorem find_nil (a : Nat) : find ([] : List (Nat × α)) a = none := rfl

theorem find_put_same (l : List (Nat × α)) (a : Nat) (v : α) : find (put l a v) a = some v := by
  induction l with
  | nil => simp [put, find]
  | cons e rest ih =>
    obtain ⟨b, w⟩ := e
    unfold put
    split_ifs with h₁ h₂
    · simp [find]
    · simp [find]
    · simp [find, h₂, ih]

theorem find_put_other (l : List (Nat × α)) (a b : Nat) (v : α) (h : b ≠ a) : find (put l a v) b = find l b := by
  induction l with
  | nil => simp [put, find, h]
  | cons e rest ih =>
    obtain ⟨c, w⟩ := e
    unfold put
    split_ifs with h₁ h₂
    · simp [find, h]
    · subst h₂
      simp [find, h]
    · simp [find, ih]

theorem find_erase_same (l : List (Nat × α)) (a : Nat) : find (erase l a) a = none := by
  induction l with
  | nil => rfl
  | cons e rest ih =>
    obtain ⟨b, w⟩ := e
    unfold erase
    split_ifs with h
    · exact ih
    · simp [find, h, ih]

theorem find_erase_other (l : List (Nat × α)) (a b : Nat) (h : b ≠ a) : find (erase l a) b = find l b := by
  induction l with
  | nil => rfl
  | cons e rest ih =>
    obtain ⟨c, w⟩ := e
    unfold erase
    split_ifs with h₁
    · subst h₁
      simp [find, ih, h]
    · simp [find, ih]

theorem mem_of_find (l : List (Nat × α)) (a : Nat) (v : α) (h : find l a = some v) : (a, v) ∈ l := by
  induction l with
  | nil => simp at h
  | cons e rest ih =>
    obtain ⟨b, w⟩ := e
    unfold find at h
    split_ifs at h with h₁
    · cases h
      simp [h₁]
    · exact List.mem_cons_of_mem _ (ih h)

theorem find_of_mem (l : List (Nat × α)) (h : Rising l) (e : Nat × α) (he : e ∈ l) : find l e.1 = some e.2 := by
  induction l with
  | nil => simp at he
  | cons d rest ih =>
    obtain ⟨b, w⟩ := d
    obtain ⟨a, v⟩ := e
    rw [Rising, List.pairwise_cons] at h
    rcases List.mem_cons.mp he with h₁ | h₁
    · cases h₁
      simp [find]
    · have := h.1 _ h₁
      have hne : a ≠ b := by simp at this; omega
      simp [find, hne]
      exact ih h.2 h₁

theorem find_iff_mem (l : List (Nat × α)) (h : Rising l) (a : Nat) (v : α) : find l a = some v ↔ (a, v) ∈ l :=
  ⟨mem_of_find l a v, fun he => find_of_mem l h (a, v) he⟩

theorem find_none_of_not_mem (l : List (Nat × α)) (a : Nat) (h : ∀ e ∈ l, e.1 ≠ a) : find l a = none := by
  cases hf : find l a with
  | none => rfl
  | some v => exact absurd rfl (h _ (mem_of_find l a v hf))

theorem mem_put (l : List (Nat × α)) (a : Nat) (v : α) (e : Nat × α) (h : e ∈ put l a v) : e = (a, v) ∨ e ∈ l := by
  induction l with
  | nil => simpa [put] using h
  | cons d rest ih =>
    obtain ⟨b, w⟩ := d
    unfold put at h
    split_ifs at h with h₁ h₂
    · simpa using h
    · rcases List.mem_cons.mp h with h | h
      · exact .inl h
      · exact .inr (List.mem_cons_of_mem _ h)
    · rcases List.mem_cons.mp h with h | h
      · exact .inr (by simp [h])
      · rcases ih h with h | h
        · exact .inl h
        · exact .inr (List.mem_cons_of_mem _ h)

theorem mem_erase (l : List (Nat × α)) (a : Nat) (e : Nat × α) : e ∈ erase l a ↔ e ∈ l ∧ e.1 ≠ a := by
  induction l with
  | nil => simp [erase]
  | cons d rest ih =>
    obtain ⟨b, w⟩ := d
    unfold erase
    split_ifs with h
    · rw [ih]
      constructor
      · rintro ⟨h₁, h₂⟩
        exact ⟨List.mem_cons_of_mem _ h₁, h₂⟩
      · rintro ⟨h₁, h₂⟩
        rcases List.mem_cons.mp h₁ with h₁ | h₁
        · subst h₁
          exact absurd h.symm h₂
        · exact ⟨h₁, h₂⟩
    · rw [List.mem_cons, List.mem_cons, ih]
      constructor
      · rintro (h₁ | ⟨h₁, h₂⟩)
        · subst h₁
          exact ⟨.inl rfl, fun h' => h h'.symm⟩
        · exact ⟨.inr h₁, h₂⟩
      · rintro ⟨h₁ | h₁, h₂⟩
        · exact .inl h₁
        · exact .inr ⟨h₁, h₂⟩

theorem rising_put (l : List (Nat × α)) (h : Rising l) (a : Nat) (v : α) : Rising (put l a v) := by
  induction l with
  | nil => simp [put, Rising]
  | cons d rest ih =>
    obtain ⟨b, w⟩ := d
    rw [Rising, List.pairwise_cons] at h
    unfold put
    split_ifs with h₁ h₂
    · refine List.pairwise_cons.mpr ⟨?_, List.pairwise_cons.mpr h⟩
      intro e he
      rcases List.mem_cons.mp he with he | he
      · subst he
        exact h₁
      · exact lt_trans h₁ (h.1 e he)
    · subst h₂
      exact List.pairwise_cons.mpr h
    · refine List.pairwise_cons.mpr ⟨?_, ih h.2⟩
      intro e he
      rcases mem_put rest a v e he with he | he
      · subst he
        show b < a
        omega
      · exact h.1 e he

theorem rising_erase (l : List (Nat × α)) (h : Rising l) (a : Nat) : Rising (erase l a) := by
  induction l with
  | nil => simp [erase, Rising]
  | cons d rest ih =>
    obtain ⟨b, w⟩ := d
    rw [Rising, List.pairwise_cons] at h
    unfold erase
    split_ifs with h₁
    · exact ih h.2
    · refine List.pairwise_cons.mpr ⟨?_, ih h.2⟩
      intro e he
      exact h.1 e ((mem_erase rest a e).mp he).1

/-- A key that is listed already keeps its place: the table does not grow; a new key adds one entry. -/
theorem length_put_new (l : List (Nat × α)) (a : Nat) (v : α) (h : find l a = none) :
    (put l a v).length = l.length + 1 := by
  induction l with
  | nil => rfl
  | cons d rest ih =>
    obtain ⟨b, w⟩ := d
    unfold find at h
    unfold put
    split_ifs at h with h₁
    · split_ifs
      · rfl
      · simp [ih h]

/-! ### Tables with a default -/

variable [DecidableEq α]

theorem readDefault_write_same (d : α) (l : List (Nat × α)) (a : Nat) (v : α) :
    readDefault d (writeDefault d l a v) a = v := by
  unfold readDefault writeDefault
  split_ifs with h
  · simp [find_erase_same, h]
  · simp [find_put_same]

theorem readDefault_write_other (d : α) (l : List (Nat × α)) (a b : Nat) (v : α) (h : b ≠ a) :
    readDefault d (writeDefault d l a v) b = readDefault d l b := by
  unfold readDefault writeDefault
  split_ifs with h₁
  · rw [find_erase_other l a b h]
  · rw [find_put_other l a b v h]

theorem writeDefault_rising (d : α) (l : List (Nat × α)) (h : Rising l) (a : Nat) (v : α) :
    Rising (writeDefault d l a v) := by
  unfold writeDefault
  split_ifs
  · exact rising_erase l h a
  · exact rising_put l h a v

theorem mem_writeDefault (d : α) (l : List (Nat × α)) (a : Nat) (v : α) (e : Nat × α)
    (h : e ∈ writeDefault d l a v) : (e = (a, v) ∧ v ≠ d) ∨ e ∈ l := by
  unfold writeDefault at h
  split_ifs at h with h₁
  · exact .inr ((mem_erase l a e).mp h).1
  · rcases mem_put l a v e h with h | h
    · exact .inl ⟨h, h₁⟩
    · exact .inr h

/-! ### Port buffers (20_memory.md R63 to R65) -/

theorem memory_read_write_same (m : Memory) (a : Nat) (v : Byte) : Memory.read (Memory.write m a v) a = v :=
  readDefault_write_same _ m a v

theorem memory_read_write_other (m : Memory) (a b : Nat) (v : Byte) (h : b ≠ a) :
    Memory.read (Memory.write m a v) b = Memory.read m b :=
  readDefault_write_other _ m a b v h

theorem memory_write_wf (m : Memory) (h : Memory.wf m) (a : Nat) (v : Byte) : Memory.wf (Memory.write m a v) := by
  refine ⟨writeDefault_rising _ m h.1 a v, fun e he => ?_⟩
  rcases mem_writeDefault _ m a v e he with ⟨rfl, hv⟩ | he
  · exact hv
  · exact h.2 e he

theorem mem_ofBytes (k : Nat) (vs : List Byte) (e : Host.Cell) (h : e ∈ Memory.ofBytes k vs) :
    k ≤ e.1 ∧ e.1 < k + vs.length ∧ e.2 ≠ unlistedByte := by
  induction vs generalizing k with
  | nil => simp [Memory.ofBytes] at h
  | cons v vs ih =>
    unfold Memory.ofBytes at h
    split_ifs at h with h₁
    · have := ih (k + 1) h
      simp only [List.length_cons]
      exact ⟨by omega, by omega, this.2.2⟩
    · rcases List.mem_cons.mp h with h | h
      · subst h
        simpa using h₁
      · have := ih (k + 1) h
        simp only [List.length_cons]
        exact ⟨by omega, by omega, this.2.2⟩

theorem memory_ofBytes_wf (k : Nat) (vs : List Byte) : Memory.wf (Memory.ofBytes k vs) := by
  refine ⟨?_, fun e he => (mem_ofBytes k vs e he).2.2⟩
  induction vs generalizing k with
  | nil => simp [Memory.ofBytes, Rising]
  | cons v vs ih =>
    unfold Memory.ofBytes
    split_ifs with h
    · exact ih (k + 1)
    · refine List.pairwise_cons.mpr ⟨fun e he => ?_, ih (k + 1)⟩
      have := (mem_ofBytes (k + 1) vs e he).1
      show k < e.1
      omega

theorem memory_read_ofBytes (k i : Nat) (vs : List Byte) :
    Memory.read (Memory.ofBytes k vs) (k + i) = vs.getD i unlistedByte := by
  induction vs generalizing k i with
  | nil => simp [Memory.ofBytes, Memory.read, readDefault]
  | cons v vs ih =>
    have hstep := fun j => ih (k + 1) j
    cases i with
    | zero =>
      unfold Memory.ofBytes
      split_ifs with h
      · have : find (Memory.ofBytes (k + 1) vs) k = none := by
          apply find_none_of_not_mem
          intro e he
          have := (mem_ofBytes (k + 1) vs e he).1
          omega
        simp [Memory.read, readDefault, this, h]
      · simp [Memory.read, readDefault, find]
    | succ i =>
      have hi : k + (i + 1) = k + 1 + i := by omega
      rw [hi]
      unfold Memory.ofBytes
      split_ifs with h
      · rw [ih]
        simp
      · have hne : k + 1 + i ≠ k := by omega
        have := ih (k + 1) i
        simp only [Memory.read, readDefault, find, hne, if_false] at this ⊢
        simpa using this

/-- Right after reset no memory lists anything. -/
theorem unattached_wf : Buffer.wf Buffer.unattached := by
  refine ⟨⟨?_, ?_⟩, ?_⟩ <;> simp [Buffer.unattached, Rising]

theorem buffer_ofBytes_wf (vs : List Byte) (h : vs.length < 2 ^ 32) : Buffer.wf (Buffer.ofBytes vs) := by
  refine ⟨memory_ofBytes_wf 0 vs, fun e he => ?_⟩
  have := (mem_ofBytes 0 vs e he).2.1
  simp only [Buffer.ofBytes, BitVec.toNat_ofNat, Nat.mod_eq_of_lt h]
  omega

/-- An attached buffer reads back, byte by byte, what the host attached (20_memory.md R63 to R65). -/
theorem buffer_ofBytes_get (vs : List Byte) (h : vs.length < 2 ^ 32) :
    (Buffer.ofBytes vs).size.toNat = vs.length ∧ ∀ a : Nat, (Buffer.ofBytes vs).get a = vs[a]? := by
  have hs : (Buffer.ofBytes vs).size.toNat = vs.length := by
    simp only [Buffer.ofBytes, BitVec.toNat_ofNat, Nat.mod_eq_of_lt h]
  refine ⟨hs, fun a => ?_⟩
  unfold Buffer.get
  rw [hs]
  have hm : Memory.read (Buffer.ofBytes vs).mem a = vs.getD a unlistedByte := by
    have := memory_read_ofBytes 0 a vs
    rwa [Nat.zero_add] at this
  split_ifs with ha
  · rw [hm, List.getD_eq_getElem?_getD, List.getElem?_eq_getElem ha, Option.getD_some]
  · rw [List.getElem?_eq_none (by omega)]

theorem buffer_get_some (buf : Buffer) (a : Nat) (v : Byte) :
    buf.get a = some v ↔ a < buf.size.toNat ∧ Memory.read buf.mem a = v := by
  unfold Buffer.get
  split_ifs with h <;> simp [h]

theorem buffer_get_of_lt (buf : Buffer) (a : Nat) (h : a < buf.size.toNat) :
    buf.get a = some (Memory.read buf.mem a) := by simp [Buffer.get, h]

/-- What `SrcRead` answers (R63). -/
theorem srcRead_ok (src : Buffer) (a : Nat) (v : Byte) :
    srcRead src a = .ok v ↔ a < src.size.toNat ∧ Memory.read src.mem a = v := by
  rw [← buffer_get_some]
  unfold srcRead
  cases src.get a <;> simp

theorem srcRead_of_lt (src : Buffer) (a : Nat) (h : a < src.size.toNat) :
    srcRead src a = .ok (Memory.read src.mem a) := (srcRead_ok src a _).mpr ⟨h, rfl⟩

theorem srcRead_beyond (src : Buffer) (a : Nat) (h : src.size.toNat ≤ a) : srcRead src a = .error .srcBeyondEnd := by
  simp [srcRead, Buffer.get, Nat.not_lt.mpr h]

/-- What `PixRead` answers (R65). -/
theorem pixRead_ok (pix : Buffer) (a : Nat) (v : Byte) :
    pixRead pix a = .ok v ↔ a < pix.size.toNat ∧ Memory.read pix.mem a = v := by
  rw [← buffer_get_some]
  unfold pixRead
  cases pix.get a <;> simp

theorem pixRead_of_lt (pix : Buffer) (a : Nat) (h : a < pix.size.toNat) :
    pixRead pix a = .ok (Memory.read pix.mem a) := (pixRead_ok pix a _).mpr ⟨h, rfl⟩

theorem pixRead_beyond (pix : Buffer) (a : Nat) (h : pix.size.toNat ≤ a) : pixRead pix a = .error .pixBeyondEnd := by
  simp [pixRead, Buffer.get, Nat.not_lt.mpr h]

/-- What `IdxWrite` answers (R64). -/
theorem idxWrite_ok (idx t : Buffer) (a : Nat) (v : Byte) :
    idxWrite idx a v = .ok t ↔ a < idx.size.toNat ∧ t = { idx with mem := Memory.write idx.mem a v } := by
  unfold idxWrite
  split_ifs with h <;> simp [h, eq_comm]

theorem idxWrite_wf (idx t : Buffer) (a : Nat) (v : Byte) (h : idx.wf) (ht : idxWrite idx a v = .ok t) : t.wf := by
  obtain ⟨ha, rfl⟩ := (idxWrite_ok idx t a v).mp ht
  refine ⟨memory_write_wf idx.mem h.1 a v, fun e he => ?_⟩
  rcases mem_writeDefault _ idx.mem a v e he with ⟨rfl, _⟩ | he
  · exact ha
  · exact h.2 e he

end Sys2Proof.Laws
end

