-- ==== Sys2Proof/Laws/Commands.lean ====
section
/-! SUPPORT. Laws/Commands.lean: what each command can answer, once: the cases of `exec` when it gives a next state, and
when it does give one. -/

namespace Sys2Proof.Laws

open Sys2Proof.Machine

/-! ### Ends and phases -/

@[simp] theorem raiseError_eq (p : Port) (c : ErrCode) (s : State) : raiseError p c s = .next (endCommand p c s) := rfl

@[simp] theorem complete_eq (p : Port) (s : State) : complete p s = .next (endCommand p .noError s) := rfl

theorem sequenced_allowed (i : Instr) (s : State) (run : State → Host.Outcome State Fault Refusal)
    (h : phaseAllowed i s = true) : sequenced i s run = run s := by simp [sequenced, h]

theorem sequenced_disallowed (i : Instr) (s : State) (run : State → Host.Outcome State Fault Refusal)
    (h : phaseAllowed i s = false) : sequenced i s run = .next (endCommand i.port .sequenceError s) := by
  simp [sequenced, h]

theorem sequenced_next (i : Instr) (s t : State) (run : State → Host.Outcome State Fault Refusal)
    (h : sequenced i s run = .next t) :
    (phaseAllowed i s = true ∧ run s = .next t) ∨
      (phaseAllowed i s = false ∧ t = endCommand i.port .sequenceError s) := by
  unfold sequenced at h
  split_ifs at h with hp
  · exact .inl ⟨hp, h⟩
  · cases h
    exact .inr ⟨by simpa using hp, rfl⟩

/-! ### The quantizer's commands -/

/-- The engine right after an accepted `NQ.INIT` (41_nq_learning.md R120), before the command ends. -/
def initAccepted (sf : Nat) (q : NqState) : NqState :=
  { initNetwork { q with lengthcount := q.len, samplefac := BitVec.ofNat 5 sf } with phase := .constructed }

theorem execNqInit_cases (sf : Nat) (s : State) :
    (lengthAccepted s.nq.len.toNat = false ∧ execNqInit sf s = .next (endCommand .nq .invalidInput s)) ∨
    (lengthAccepted s.nq.len.toNat = true ∧ sampleFactorAccepted sf = false ∧
      execNqInit sf s = .next (endCommand .nq .degenerateParameters s)) ∨
    (lengthAccepted s.nq.len.toNat = true ∧ sampleFactorAccepted sf = true ∧
      execNqInit sf s = .next (endCommand .nq .noError { s with nq := initAccepted sf s.nq })) := by
  unfold execNqInit
  rw [sequenced_allowed _ _ _ rfl]
  cases h₁ : lengthAccepted s.nq.len.toNat <;> cases h₂ : sampleFactorAccepted sf <;> simp [initAccepted]

theorem execNqLearn_cases (s : State) :
    (s.nq.phase ≠ .constructed ∧ execNqLearn s = .next (endCommand .nq .sequenceError s)) ∨
    (s.nq.phase = .constructed ∧ ∃ f, learnRun s.nq s.src = .error f ∧ execNqLearn s = .fault f) ∨
    (s.nq.phase = .constructed ∧ ∃ j, learnRun s.nq s.src = .ok j ∧
      execNqLearn s = .next (endCommand .nq .noError { s with nq := { learnCommit s.nq j with phase := .learned } })) := by
  by_cases hp : s.nq.phase = .constructed
  · unfold execNqLearn learn
    rw [sequenced_allowed _ _ _ (by simp [phaseAllowed, hp])]
    cases h : learnRun s.nq s.src with
    | error f => exact .inr (.inl ⟨hp, f, rfl, rfl⟩)
    | ok j => exact .inr (.inr ⟨hp, j, rfl, rfl⟩)
  · refine .inl ⟨hp, ?_⟩
    unfold execNqLearn
    rw [sequenced_disallowed _ _ _ (by simp [phaseAllowed, hp])]
    rfl

theorem execNqUnbias_cases (s : State) :
    (s.nq.phase ≠ .learned ∧ execNqUnbias s = .next (endCommand .nq .sequenceError s)) ∨
    (s.nq.phase = .learned ∧
      execNqUnbias s = .next (endCommand .nq .noError { s with nq := { unbias s.nq with phase := .unbiased } })) := by
  by_cases hp : s.nq.phase = .learned
  · refine .inr ⟨hp, ?_⟩
    unfold execNqUnbias
    rw [sequenced_allowed _ _ _ (by simp [phaseAllowed, hp])]
    rfl
  · refine .inl ⟨hp, ?_⟩
    unfold execNqUnbias
    rw [sequenced_disallowed _ _ _ (by simp [phaseAllowed, hp])]
    rfl

theorem execNqInxbuild_cases (s : State) :
    (s.nq.phase ≠ .unbiased ∧ execNqInxbuild s = .next (endCommand .nq .sequenceError s)) ∨
    (s.nq.phase = .unbiased ∧
      execNqInxbuild s = .next (endCommand .nq .noError { s with nq := { inxBuild s.nq with phase := .indexed } })) := by
  by_cases hp : s.nq.phase = .unbiased
  · refine .inr ⟨hp, ?_⟩
    unfold execNqInxbuild
    rw [sequenced_allowed _ _ _ (by simp [phaseAllowed, hp])]
    rfl
  · refine .inl ⟨hp, ?_⟩
    unfold execNqInxbuild
    rw [sequenced_disallowed _ _ _ (by simp [phaseAllowed, hp])]
    rfl

/-- The phases in which the palette commands run (30_encoding.md R95). -/
def Indexed (q : NqState) : Prop := q.phase = .indexed ∨ q.phase = .palette

theorem execNqColormap_cases (s : State) :
    (¬ Indexed s.nq ∧ execNqColormap s = .next (endCommand .nq .sequenceError s)) ∨
    (Indexed s.nq ∧
      execNqColormap s =
        .next (endCommand .nq .noError { s with nq := { colorMap s.paletteOrder s.nq with phase := .palette } })) := by
  by_cases hp : Indexed s.nq
  · refine .inr ⟨hp, ?_⟩
    unfold execNqColormap
    rw [sequenced_allowed _ _ _ (by simpa [phaseAllowed, Indexed] using hp)]
    rfl
  · refine .inl ⟨hp, ?_⟩
    unfold execNqColormap
    rw [sequenced_disallowed _ _ _ (by simpa [phaseAllowed, Indexed] using hp)]
    rfl

/-- The engine after the four steps of `NQ.PROCESS` (42_nq_palette.md R168), before the command ends. -/
def processed (o : PaletteOrder) (q : NqState) (j : LearnJob) : NqState :=
  { colorMap o (inxBuild (unbias (learnCommit q j))) with phase := .palette }

theorem execNqProcess_cases (s : State) :
    (s.nq.phase ≠ .constructed ∧ execNqProcess s = .next (endCommand .nq .sequenceError s)) ∨
    (s.nq.phase = .constructed ∧ ∃ f, learnRun s.nq s.src = .error f ∧ execNqProcess s = .fault f) ∨
    (s.nq.phase = .constructed ∧ ∃ j, learnRun s.nq s.src = .ok j ∧
      execNqProcess s = .next (endCommand .nq .noError { s with nq := processed s.paletteOrder s.nq j })) := by
  by_cases hp : s.nq.phase = .constructed
  · unfold execNqProcess learn
    rw [sequenced_allowed _ _ _ (by simp [phaseAllowed, hp])]
    cases h : learnRun s.nq s.src with
    | error f => exact .inr (.inl ⟨hp, f, rfl, rfl⟩)
    | ok j => exact .inr (.inr ⟨hp, j, rfl, rfl⟩)
  · refine .inl ⟨hp, ?_⟩
    unfold execNqProcess
    rw [sequenced_disallowed _ _ _ (by simp [phaseAllowed, hp])]
    rfl

theorem execNqMap_cases (b g r : Nat) (s : State) :
    (¬ Indexed s.nq ∧ execNqMap b g r s = .next (endCommand .nq .sequenceError s)) ∨
    (Indexed s.nq ∧
      execNqMap b g r s = .next (endCommand .nq .noError
        { s with nq := { s.nq with
            mapres := BitVec.ofInt 8 (mapColour s.nq.network s.nq.netindex (Colour.ofOperands b g r)) } })) := by
  by_cases hp : Indexed s.nq
  · refine .inr ⟨hp, ?_⟩
    unfold execNqMap
    rw [sequenced_allowed _ _ _ (by simpa [phaseAllowed, Indexed] using hp)]
    rfl
  · refine .inl ⟨hp, ?_⟩
    unfold execNqMap
    rw [sequenced_disallowed _ _ _ (by simpa [phaseAllowed, Indexed] using hp)]
    rfl

theorem execNqMapbuf_cases (s : State) :
    (¬ Indexed s.nq ∧ execNqMapbuf s = .next (endCommand .nq .sequenceError s)) ∨
    (Indexed s.nq ∧
      ((∃ f, mapBuf s.nq.network s.nq.netindex s.src (s.nq.lengthcount.toNat / 3) 0 s.idx = .error f ∧
          execNqMapbuf s = .fault f) ∨
        (∃ idx, mapBuf s.nq.network s.nq.netindex s.src (s.nq.lengthcount.toNat / 3) 0 s.idx = .ok idx ∧
          execNqMapbuf s = .next (endCommand .nq .noError { s with idx := idx })))) := by
  by_cases hp : Indexed s.nq
  · refine .inr ⟨hp, ?_⟩
    unfold execNqMapbuf
    rw [sequenced_allowed _ _ _ (by simpa [phaseAllowed, Indexed] using hp)]
    cases h : mapBuf s.nq.network s.nq.netindex s.src (s.nq.lengthcount.toNat / 3) 0 s.idx with
    | error f => exact .inl ⟨f, rfl, rfl⟩
    | ok idx => exact .inr ⟨idx, rfl, rfl⟩
  · refine .inl ⟨hp, ?_⟩
    unfold execNqMapbuf
    rw [sequenced_disallowed _ _ _ (by simpa [phaseAllowed, Indexed] using hp)]
    rfl

/-! ### The encoder's commands -/

/-- The engine right after an accepted `LZ.INIT` (44_lzw_encode.md R210), before the command ends. -/
def imageLatched (depth : Nat) (z : LzState) : LzState :=
  { z with imgW := z.width, imgH := z.height, initCodeSize := BitVec.ofNat 4 depth, phase := .ready }

theorem execLzInit_cases (depth : Nat) (s : State) :
    (imageAccepted s.lz.width.toNat s.lz.height.toNat s.lz.pixlen.toNat = false ∧
      execLzInit depth s = .next (endCommand .lz .invalidInput s)) ∨
    (imageAccepted s.lz.width.toNat s.lz.height.toNat s.lz.pixlen.toNat = true ∧ depthAccepted depth = false ∧
      execLzInit depth s = .next (endCommand .lz .degenerateParameters s)) ∨
    (imageAccepted s.lz.width.toNat s.lz.height.toNat s.lz.pixlen.toNat = true ∧ depthAccepted depth = true ∧
      execLzInit depth s = .next (endCommand .lz .noError { s with lz := imageLatched depth s.lz })) := by
  unfold execLzInit
  rw [sequenced_allowed _ _ _ rfl]
  cases h₁ : imageAccepted s.lz.width.toNat s.lz.height.toNat s.lz.pixlen.toNat <;>
    cases h₂ : depthAccepted depth <;> simp [imageLatched]

theorem execLzEncode_cases (s : State) :
    (s.lz.phase ≠ .ready ∧ execLzEncode s = .next (endCommand .lz .sequenceError s)) ∨
    (s.lz.phase = .ready ∧
      ((∃ j, encodeRun s = .ok j ∧ execLzEncode s = .next (endCommand .lz .noError (encodeCommit s .done j))) ∨
        (∃ j, encodeRun s = .error (.ioFailure j) ∧
          execLzEncode s = .next (endCommand .lz .ioFailure (encodeCommit s .aborted j))) ∨
        (∃ f, encodeRun s = .error (.stuck f) ∧ execLzEncode s = .fault f))) := by
  by_cases hp : s.lz.phase = .ready
  · refine .inr ⟨hp, ?_⟩
    unfold execLzEncode
    rw [sequenced_allowed _ _ _ (by simp [phaseAllowed, hp])]
    cases h : encodeRun s with
    | ok j => exact .inl ⟨j, rfl, rfl⟩
    | error e =>
      cases e with
      | ioFailure j => exact .inr (.inl ⟨j, rfl, rfl⟩)
      | stuck f => exact .inr (.inr ⟨f, rfl, rfl⟩)
  · refine .inl ⟨hp, ?_⟩
    unfold execLzEncode
    rw [sequenced_disallowed _ _ _ (by simp [phaseAllowed, hp])]
    rfl

/-! ### One view of both engines -/

/-- A command of the NQE that completes keeps `STICKY` (60_exceptions.md R272). -/
theorem endCommand_ok_nq (s : State) :
    (endCommand .nq .noError s).nq = { s.nq with err := .noError, busy := false } := by simp [endCommand]

/-- A command of the LZE that completes keeps `STICKY` (60_exceptions.md R272). -/
theorem endCommand_ok_lz (s : State) :
    (endCommand .lz .noError s).lz = { s.lz with err := .noError, busy := false } := by simp [endCommand]

/-- What a command of the NQE that goes on leaves in the engine. -/
inductive NqEffect (s : State) : NqState → Prop where
  | error (c : ErrCode) (h : c ≠ .noError) : NqEffect s { s.nq with err := c, sticky := true, busy := false }
  | init (sf : Nat) (hlen : lengthAccepted s.nq.len.toNat = true) (hsf : sampleFactorAccepted sf = true) :
      NqEffect s { initAccepted sf s.nq with err := .noError, busy := false }
  | learn (j : LearnJob) (hp : s.nq.phase = .constructed) (hj : learnRun s.nq s.src = .ok j) :
      NqEffect s { learnCommit s.nq j with phase := .learned, err := .noError, busy := false }
  | unbias (hp : s.nq.phase = .learned) :
      NqEffect s { unbias s.nq with phase := .unbiased, err := .noError, busy := false }
  | inxbuild (hp : s.nq.phase = .unbiased) :
      NqEffect s { inxBuild s.nq with phase := .indexed, err := .noError, busy := false }
  | colormap (hp : Indexed s.nq) :
      NqEffect s { colorMap s.paletteOrder s.nq with phase := .palette, err := .noError, busy := false }
  | process (j : LearnJob) (hp : s.nq.phase = .constructed) (hj : learnRun s.nq s.src = .ok j) :
      NqEffect s { processed s.paletteOrder s.nq j with err := .noError, busy := false }
  | map (b g r : Nat) (hp : Indexed s.nq) :
      NqEffect s { s.nq with
        mapres := BitVec.ofInt 8 (mapColour s.nq.network s.nq.netindex (Colour.ofOperands b g r))
        err := .noError, busy := false }
  | mapbuf (idx : Buffer) (hp : Indexed s.nq)
      (hidx : mapBuf s.nq.network s.nq.netindex s.src (s.nq.lengthcount.toNat / 3) 0 s.idx = .ok idx) :
      NqEffect s { s.nq with err := .noError, busy := false }

/-- A command of the NQE writes the engine, and IDX if it is `NQ.MAPBUF`; nothing else. -/
theorem exec_nq_effect (i : Instr) (s t : State) (hi : i.port = .nq) (h : exec i s = .next t) :
    NqEffect s t.nq ∧ t = { s with nq := t.nq, idx := t.idx } ∧
      (t.idx = s.idx ∨ (i = .nqMapbuf ∧ Indexed s.nq ∧
        mapBuf s.nq.network s.nq.netindex s.src (s.nq.lengthcount.toNat / 3) 0 s.idx = .ok t.idx)) := by
  have herr : ∀ c : ErrCode, c ≠ .noError → (endCommand .nq c s).nq = { s.nq with err := c, sticky := true, busy := false } := by
    intro c hc
    simp [endCommand, hc]
  cases i with
  | nqInit sf =>
    rcases execNqInit_cases sf s with ⟨_, h'⟩ | ⟨_, _, h'⟩ | ⟨h₁, h₂, h'⟩ <;> rw [exec, h'] at h <;> cases h
    · exact ⟨by rw [herr _ (by decide)]; exact .error _ (by decide), rfl, .inl rfl⟩
    · exact ⟨by rw [herr _ (by decide)]; exact .error _ (by decide), rfl, .inl rfl⟩
    · exact ⟨by rw [endCommand_ok_nq]; exact .init sf h₁ h₂, rfl, .inl rfl⟩
  | nqLearn =>
    rcases execNqLearn_cases s with ⟨_, h'⟩ | ⟨_, f, _, h'⟩ | ⟨h₁, j, h₂, h'⟩ <;> rw [exec, h'] at h <;> cases h
    · exact ⟨by rw [herr _ (by decide)]; exact .error _ (by decide), rfl, .inl rfl⟩
    · exact ⟨by rw [endCommand_ok_nq]; exact .learn j h₁ h₂, rfl, .inl rfl⟩
  | nqUnbias =>
    rcases execNqUnbias_cases s with ⟨_, h'⟩ | ⟨h₁, h'⟩ <;> rw [exec, h'] at h <;> cases h
    · exact ⟨by rw [herr _ (by decide)]; exact .error _ (by decide), rfl, .inl rfl⟩
    · exact ⟨by rw [endCommand_ok_nq]; exact .unbias h₁, rfl, .inl rfl⟩
  | nqInxbuild =>
    rcases execNqInxbuild_cases s with ⟨_, h'⟩ | ⟨h₁, h'⟩ <;> rw [exec, h'] at h <;> cases h
    · exact ⟨by rw [herr _ (by decide)]; exact .error _ (by decide), rfl, .inl rfl⟩
    · exact ⟨by rw [endCommand_ok_nq]; exact .inxbuild h₁, rfl, .inl rfl⟩
  | nqColormap =>
    rcases execNqColormap_cases s with ⟨_, h'⟩ | ⟨h₁, h'⟩ <;> rw [exec, h'] at h <;> cases h
    · exact ⟨by rw [herr _ (by decide)]; exact .error _ (by decide), rfl, .inl rfl⟩
    · exact ⟨by rw [endCommand_ok_nq]; exact .colormap h₁, rfl, .inl rfl⟩
  | nqProcess =>
    rcases execNqProcess_cases s with ⟨_, h'⟩ | ⟨_, f, _, h'⟩ | ⟨h₁, j, h₂, h'⟩ <;> rw [exec, h'] at h <;> cases h
    · exact ⟨by rw [herr _ (by decide)]; exact .error _ (by decide), rfl, .inl rfl⟩
    · exact ⟨by rw [endCommand_ok_nq]; exact .process j h₁ h₂, rfl, .inl rfl⟩
  | nqMap b g r =>
    rcases execNqMap_cases b g r s with ⟨_, h'⟩ | ⟨h₁, h'⟩ <;> rw [exec, h'] at h <;> cases h
    · exact ⟨by rw [herr _ (by decide)]; exact .error _ (by decide), rfl, .inl rfl⟩
    · exact ⟨by rw [endCommand_ok_nq]; exact .map b g r h₁, rfl, .inl rfl⟩
  | nqMapbuf =>
    rcases execNqMapbuf_cases s with ⟨_, h'⟩ | ⟨h₁, ⟨f, _, h'⟩ | ⟨idx, h₂, h'⟩⟩ <;> rw [exec, h'] at h <;> cases h
    · exact ⟨by rw [herr _ (by decide)]; exact .error _ (by decide), rfl, .inl rfl⟩
    · exact ⟨by rw [endCommand_ok_nq]; exact .mapbuf idx h₁ h₂, rfl, .inr ⟨rfl, h₁, h₂⟩⟩
  | lzInit depth => cases hi
  | lzEncode => cases hi

/-- What a command of the LZE that goes on leaves in the engine, the stream and the sink. -/
inductive LzEffect (s : State) : LzState → List Byte → Sink → Prop where
  | error (c : ErrCode) (h : c ≠ .noError) :
      LzEffect s { s.lz with err := c, sticky := true, busy := false } s.out s.sink
  | init (depth : Nat) (himg : imageAccepted s.lz.width.toNat s.lz.height.toNat s.lz.pixlen.toNat = true)
      (hd : depthAccepted depth = true) :
      LzEffect s { imageLatched depth s.lz with err := .noError, busy := false } s.out s.sink
  | done (j : EncodeJob) (hp : s.lz.phase = .ready) (hj : encodeRun s = .ok j) :
      LzEffect s { (encodeCommit s .done j).lz with err := .noError, busy := false } j.out j.sink
  | aborted (j : EncodeJob) (hp : s.lz.phase = .ready) (hj : encodeRun s = .error (.ioFailure j)) :
      LzEffect s { (encodeCommit s .aborted j).lz with err := .ioFailure, sticky := true, busy := false } j.out j.sink

/-- A command of the LZE writes the engine, the stream and the sink; nothing else. -/
theorem exec_lz_effect (i : Instr) (s t : State) (hi : i.port = .lz) (h : exec i s = .next t) :
    LzEffect s t.lz t.out t.sink ∧ t = { s with lz := t.lz, out := t.out, sink := t.sink } := by
  have herr : ∀ c : ErrCode, c ≠ .noError → (endCommand .lz c s).lz = { s.lz with err := c, sticky := true, busy := false } := by
    intro c hc
    simp [endCommand, hc]
  cases i with
  | lzInit depth =>
    rcases execLzInit_cases depth s with ⟨_, h'⟩ | ⟨_, _, h'⟩ | ⟨h₁, h₂, h'⟩ <;> rw [exec, h'] at h <;> cases h
    · exact ⟨by rw [herr _ (by decide)]; exact .error _ (by decide), rfl⟩
    · exact ⟨by rw [herr _ (by decide)]; exact .error _ (by decide), rfl⟩
    · refine ⟨?_, rfl⟩
      have := LzEffect.init (s := s) depth h₁ h₂
      simpa [endCommand] using this
  | lzEncode =>
    rcases execLzEncode_cases s with ⟨_, h'⟩ | ⟨h₁, ⟨j, h₂, h'⟩ | ⟨j, h₂, h'⟩ | ⟨f, _, h'⟩⟩ <;>
      rw [exec, h'] at h <;> cases h
    · exact ⟨by rw [herr _ (by decide)]; exact .error _ (by decide), rfl⟩
    · refine ⟨?_, rfl⟩
      have := LzEffect.done (s := s) j h₁ h₂
      simpa [endCommand] using this
    · refine ⟨?_, rfl⟩
      have := LzEffect.aborted (s := s) j h₁ h₂
      simpa [endCommand] using this
  | _ => cases hi

end Sys2Proof.Laws
end

