-- ==== Sys2Proof/Laws/Dictionary.lean ====
section
/-! SUPPORT. Laws/Dictionary.lean: the encoder's hash table: keys and slots (44_lzw_encode.md R215), what a look-up answers
(R214, R217), and that every scan of a table with a free slot ends (R218). -/

namespace Sys2Proof.Laws

open Sys2Proof.Machine Sys2Proof.Safety

/-! ### Keys and slots (R215) -/

theorem fcode_toNat (c ent : Nat) (hc : c < 256) (he : ent < 4096) : (fcode c ent).toNat = c * 4096 + ent := by
  rw [fcode, BitVec.toNat_ofNat]
  simp only [Config.maxbits]
  omega

theorem primarySlot_lt (c ent : Nat) (hc : c < 256) (he : ent < 4096) : primarySlot c ent < 4096 :=
  Nat.xor_lt_two_pow (n := 12) (by simp only [Config.hshift]; omega) he

theorem homeSlot_fcode (c ent : Nat) (hc : c < 256) (he : ent < 4096) : homeSlot (fcode c ent) = primarySlot c ent := by
  rw [homeSlot, fcode_toNat c ent hc he]
  congr 1 <;> omega

/-! ### Look-ups (R214, R217) -/

/-- What a scan answers: a slot that holds the key, or an empty one. -/
theorem probeLoop_answer (t : KeyTable) (key : BitVec 20) (disp n i : Nat) (r : ProbeEnd)
    (h : probeLoop t key disp n i = some r) :
    (∃ k, r = .hit k ∧ find t k = some key) ∨ ∃ k, r = .miss k ∧ find t k = none := by
  induction n generalizing i with
  | zero => cases h
  | succ n ih =>
    unfold probeLoop at h
    split at h
    · cases h
      exact .inr ⟨_, rfl, by assumption⟩
    · rename_i k hk
      split_ifs at h with he
      · cases h
        subst he
        exact .inl ⟨_, rfl, hk⟩
      · exact ih _ h

theorem lookup_answer (t : KeyTable) (key : BitVec 20) (i : Nat) (r : ProbeEnd) (h : lookup t key i = some r) :
    (∃ k, r = .hit k ∧ find t k = some key) ∨ ∃ k, r = .miss k ∧ find t k = none := by
  unfold lookup at h
  split at h
  · cases h
    exact .inr ⟨_, rfl, by assumption⟩
  · rename_i k hk
    split_ifs at h with he
    · cases h
      subst he
      exact .inl ⟨_, rfl, hk⟩
    · exact probeLoop_answer t key _ _ _ r h

/-- The slot a look-up ends at. -/
def endSlot : ProbeEnd → Nat
  | .hit i => i
  | .miss i => i

theorem probeNext_lt (disp i : Nat) (hi : i < 5003) (hd : disp ≤ 5003) : probeNext disp i < 5003 := by
  unfold probeNext
  simp only [Config.hsize]
  split_ifs <;> omega

theorem probeDisp_spec (i : Nat) (hi : i < 5003) : 1 ≤ probeDisp i ∧ probeDisp i ≤ 5002 := by
  unfold probeDisp
  simp only [Config.hsize]
  split_ifs <;> omega

theorem probeLoop_slot (t : KeyTable) (key : BitVec 20) (disp n i : Nat) (r : ProbeEnd) (hi : i < 5003) (hd : disp ≤ 5003)
    (h : probeLoop t key disp n i = some r) : endSlot r < 5003 := by
  induction n generalizing i with
  | zero => cases h
  | succ n ih =>
    have hn := probeNext_lt disp i hi hd
    unfold probeLoop at h
    split at h
    · cases h
      exact hn
    · split_ifs at h
      · cases h
        exact hn
      · exact ih _ hn h

/-- A look-up stays inside the table (R217). -/
theorem lookup_slot (t : KeyTable) (key : BitVec 20) (i : Nat) (r : ProbeEnd) (hi : i < 5003)
    (h : lookup t key i = some r) : endSlot r < 5003 := by
  unfold lookup at h
  split at h
  · cases h
    exact hi
  · split_ifs at h
    · cases h
      exact hi
    · exact probeLoop_slot t key _ _ i r hi (by have := probeDisp_spec i hi; omega) h

/-! ### Every scan ends (R218) -/

/-- Slot number `n` of the scan from `i`. -/
def scanSlot (disp i n : Nat) : Nat := (i + (n + 1) * (5003 - disp)) % 5003

theorem probeNext_eq (disp i : Nat) (hi : i < 5003) (hd : 1 ≤ disp ∧ disp ≤ 5002) :
    probeNext disp i = (i + (5003 - disp)) % 5003 := by
  unfold probeNext
  simp only [Config.hsize]
  split_ifs <;> omega

theorem scanSlot_succ (disp i n : Nat) (hi : i < 5003) (hd : 1 ≤ disp ∧ disp ≤ 5002) :
    scanSlot disp (probeNext disp i) n = scanSlot disp i (n + 1) := by
  rw [probeNext_eq disp i hi hd, scanSlot, scanSlot, Nat.mod_add_mod]
  congr 1
  ring

/-- A scan that has not ended has met only occupied slots. -/
theorem probeLoop_none (t : KeyTable) (key : BitVec 20) (disp n i : Nat) (hi : i < 5003) (hd : 1 ≤ disp ∧ disp ≤ 5002)
    (h : probeLoop t key disp n i = none) (m : Nat) (hm : m < n) : find t (scanSlot disp i m) ≠ none := by
  induction n generalizing i m with
  | zero => omega
  | succ n ih =>
    have hn := probeNext_lt disp i hi (by omega)
    unfold probeLoop at h
    split at h
    · cases h
    · rename_i k hk
      split_ifs at h
      cases m with
      | zero =>
        have : scanSlot disp i 0 = probeNext disp i := by
          rw [probeNext_eq disp i hi hd, scanSlot]
          congr 1
          ring
        rw [this, hk]
        simp
      | succ m =>
        rw [← scanSlot_succ disp i m hi hd]
        exact ih _ hn h m (by omega)

theorem hsize_prime : Nat.Prime 5003 := by norm_num

/-- The table's size is prime, so 5003 steps visit 5003 different slots (R218). -/
theorem scanSlot_injective (disp i m n : Nat) (hd : 1 ≤ disp ∧ disp ≤ 5002) (hm : m < 5003) (hn : n < 5003)
    (h : scanSlot disp i m = scanSlot disp i n) : m = n := by
  have h₁ : (m + 1) * (5003 - disp) ≡ (n + 1) * (5003 - disp) [MOD 5003] := Nat.ModEq.add_left_cancel' i h
  have hc : Nat.gcd 5003 (5003 - disp) = 1 :=
    (Nat.Prime.coprime_iff_not_dvd hsize_prime).mpr (Nat.not_dvd_of_pos_of_lt (by omega) (by omega))
  have h₂ : m + 1 ≡ n + 1 [MOD 5003] := Nat.ModEq.cancel_right_of_coprime hc h₁
  have h₃ : m ≡ n [MOD 5003] := Nat.ModEq.add_right_cancel' 1 h₂
  have := h₃
  rw [Nat.ModEq, Nat.mod_eq_of_lt hm, Nat.mod_eq_of_lt hn] at this
  exact this

/-- A table with a free slot has one the scan meets. -/
theorem scan_meets_empty (t : KeyTable) (hlen : t.length < 5003) (disp i : Nat) (hd : 1 ≤ disp ∧ disp ≤ 5002) :
    ∃ n, n < 5003 ∧ find t (scanSlot disp i n) = none := by
  by_contra hno
  have hno : ∀ n, n < 5003 → find t (scanSlot disp i n) ≠ none := fun n hn he => hno ⟨n, hn, he⟩
  have hsub : (Finset.range 5003).image (scanSlot disp i) ⊆ (t.map Prod.fst).toFinset := by
    intro s hs
    obtain ⟨n, hn, rfl⟩ := Finset.mem_image.mp hs
    obtain ⟨k, hk⟩ := Option.ne_none_iff_exists'.mp (hno n (Finset.mem_range.mp hn))
    exact List.mem_toFinset.mpr (List.mem_map.mpr ⟨_, mem_of_find t _ k hk, rfl⟩)
  have hcard : ((Finset.range 5003).image (scanSlot disp i)).card = 5003 := by
    rw [Finset.card_image_of_injOn, Finset.card_range]
    intro m hm n hn h
    exact scanSlot_injective disp i m n hd (by simpa using hm) (by simpa using hn) h
  have h₁ := Finset.card_le_card hsub
  have h₂ := List.toFinset_card_le (t.map Prod.fst)
  rw [List.length_map] at h₂
  omega

/-- R218: a scan of a table with a free slot ends. -/
theorem probe_ends (t : KeyTable) (key : BitVec 20) (i : Nat) (hlen : t.length < 5003) (hi : i < 5003) :
    ∃ r, lookup t key i = some r := by
  have hd := probeDisp_spec i hi
  have hp : ∃ r, probe t key i = some r := by
    cases h : probe t key i with
    | some r => exact ⟨r, rfl⟩
    | none =>
      obtain ⟨n, hn, he⟩ := scan_meets_empty t hlen (probeDisp i) i hd
      exact absurd he (probeLoop_none t key _ _ i hi hd h n hn)
  unfold lookup
  split
  · exact ⟨_, rfl⟩
  · split_ifs
    · exact ⟨_, rfl⟩
    · exact hp

end Sys2Proof.Laws
end

