-- ==== Sys2Proof/Laws/Encode.lean ====
section
/-! SUPPORT. Laws/Encode.lean: what the encoder's output operations change and what they keep (45_lzw_bitpack.md R240 to R246,
20_memory.md R66), and that they complete on a sink that accepts. -/

namespace Sys2Proof.Laws

open Sys2Proof.Machine Sys2Proof.Safety

/-! ### What sending bytes and bits may change -/

/-- Only the registers of the stream differ: packet buffer, accumulator, OUT, its length, the sink; OUT has grown. -/
structure StreamOnly (j j' : EncodeJob) : Prop where
  rest : j' = { j with
    packet := j'.packet, curAccum := j'.curAccum, curBits := j'.curBits, out := j'.out, outlen := j'.outlen,
    sink := j'.sink }
  grows : ∃ bs, j'.out = j.out ++ bs

theorem StreamOnly.refl (j : EncodeJob) : StreamOnly j j := ⟨rfl, [], by simp⟩

theorem StreamOnly.trans {a b c : EncodeJob} (h₁ : StreamOnly a b) (h₂ : StreamOnly b c) : StreamOnly a c := by
  obtain ⟨r₁, x, g₁⟩ := h₁
  obtain ⟨r₂, y, g₂⟩ := h₂
  refine ⟨?_, x ++ y, by rw [g₂, g₁, List.append_assoc]⟩
  rw [r₂, r₁]

section
variable {j j' : EncodeJob} (h : StreamOnly j j')
include h

theorem StreamOnly.gInitBits : j'.gInitBits = j.gInitBits := by rw [h.rest]
theorem StreamOnly.nBits : j'.nBits = j.nBits := by rw [h.rest]
theorem StreamOnly.maxcode : j'.maxcode = j.maxcode := by rw [h.rest]
theorem StreamOnly.freeEnt : j'.freeEnt = j.freeEnt := by rw [h.rest]
theorem StreamOnly.clearCode : j'.clearCode = j.clearCode := by rw [h.rest]
theorem StreamOnly.eofCode : j'.eofCode = j.eofCode := by rw [h.rest]
theorem StreamOnly.clearFlg : j'.clearFlg = j.clearFlg := by rw [h.rest]
theorem StreamOnly.ent : j'.ent = j.ent := by rw [h.rest]
theorem StreamOnly.curPixel : j'.curPixel = j.curPixel := by rw [h.rest]
theorem StreamOnly.htab : j'.htab = j.htab := by rw [h.rest]
theorem StreamOnly.codetab : j'.codetab = j.codetab := by rw [h.rest]

end

/-! ### One byte, several bytes (20_memory.md R66) -/

theorem draw_accepting (k : Sink) (h : Accepting k) : k.draw.1 = .accept ∧ Accepting k.draw.2 := by
  obtain ⟨script, thereafter⟩ := k
  cases script with
  | nil => exact ⟨h.2, h⟩
  | cons a rest => exact ⟨h.1 a List.mem_cons_self, fun b hb => h.1 b (List.mem_cons_of_mem _ hb), h.2⟩

/-- The sink's answers, one after another, are the answers by number. -/
theorem draw_answer (k : Sink) : k.draw.1 = answer k 0 ∧ ∀ n, answer k.draw.2 n = answer k (n + 1) := by
  obtain ⟨script, thereafter⟩ := k
  cases script with
  | nil => exact ⟨rfl, fun n => rfl⟩
  | cons a rest => exact ⟨rfl, fun n => by simp [answer, Sink.draw, List.getD_eq_getElem?_getD]⟩

theorem outWrite_ok (v : Byte) (j j' : EncodeJob) (h : outWrite v j = .ok j') :
    j.sink.draw.1 = .accept ∧
      j' = { j with sink := j.sink.draw.2, out := j.out ++ [v], outlen := outlenNext j.outlen (j.out.length + 1) } := by
  unfold outWrite at h
  split at h
  · rename_i sink hd
    cases h
    exact ⟨by rw [hd], by rw [hd]⟩
  · cases h

theorem outWrite_accepting (v : Byte) (j : EncodeJob) (h : Accepting j.sink) :
    outWrite v j =
      .ok { j with sink := j.sink.draw.2, out := j.out ++ [v], outlen := outlenNext j.outlen (j.out.length + 1) } := by
  have hd := (draw_accepting j.sink h).1
  unfold outWrite
  split
  · rename_i sink he
    rw [he]
  · rename_i sink he
    rw [he] at hd
    cases hd

/-- A byte the sink fails ends the encode with the registers as they are, the answer drawn (R276). -/
theorem outWrite_fail (v : Byte) (j : EncodeJob) (h : j.sink.draw.1 = .fail) :
    outWrite v j = .error (.ioFailure { j with sink := j.sink.draw.2 }) := by
  unfold outWrite
  split
  · rename_i sink he
    rw [he] at h
    cases h
  · rename_i sink he
    rw [he]

/-- Bytes that were all accepted stand at the end of the stream, in order. -/
theorem outWrites_ok (vs : List Byte) (j j' : EncodeJob) (h : outWrites vs j = .ok j') :
    j' = { j with sink := j'.sink, out := j.out ++ vs, outlen := j'.outlen } := by
  induction vs generalizing j with
  | nil =>
    cases h
    simp
  | cons v vs ih =>
    unfold outWrites at h
    split at h
    · rename_i j₁ h₁
      have e₁ := (outWrite_ok v j j₁ h₁).2
      have e₂ := ih j₁ h
      rw [e₂, e₁]
      simp
    · cases h

theorem outWrites_accepting (vs : List Byte) (j : EncodeJob) (h : Accepting j.sink) :
    ∃ j', outWrites vs j = .ok j' ∧ Accepting j'.sink := by
  induction vs generalizing j with
  | nil => exact ⟨j, rfl, h⟩
  | cons v vs ih =>
    unfold outWrites
    rw [outWrite_accepting v j h]
    exact ih _ (draw_accepting j.sink h).2

/-! ### Sub-blocks (45_lzw_bitpack.md R243, R244) -/

/-- What a flush sends: a count byte and the payload, or nothing. -/
def block (payload : List Byte) : List Byte :=
  if payload = [] then [] else BitVec.ofNat 8 payload.length :: payload

theorem flushChar_ok (j j' : EncodeJob) (h : flushChar j = .ok j') :
    j' = { j with packet := [], sink := j'.sink, out := j.out ++ block j.packet, outlen := j'.outlen } := by
  unfold flushChar at h
  split_ifs at h with hp
  · split at h
    · rename_i j₁ h₁
      cases h
      have e := outWrites_ok _ j j₁ h₁
      have hne : j.packet ≠ [] := by
        intro hn
        simp [hn] at hp
      rw [block, if_neg hne]
      exact congrArg (fun x : EncodeJob => { x with packet := [] }) e
    · cases h
  · cases h
    have hn : j.packet = [] := List.eq_nil_of_length_eq_zero (by omega)
    simp only [block, hn, if_true, List.append_nil]
    exact congrArg (fun p => { j with packet := p }) hn

theorem flushChar_accepting (j : EncodeJob) (h : Accepting j.sink) :
    ∃ j', flushChar j = .ok j' ∧ Accepting j'.sink := by
  unfold flushChar
  split_ifs
  · obtain ⟨j₁, h₁, ha⟩ := outWrites_accepting (BitVec.ofNat 8 j.packet.length :: j.packet) j h
    rw [h₁]
    exact ⟨_, rfl, ha⟩
  · exact ⟨j, rfl, h⟩

theorem flushChar_stream (j j' : EncodeJob) (h : flushChar j = .ok j') : StreamOnly j j' := by
  have e := flushChar_ok j j' h
  refine ⟨?_, block j.packet, by rw [e]⟩
  rw [e]

theorem flushChar_packet (j j' : EncodeJob) (h : flushChar j = .ok j') : j'.packet = [] := by
  rw [flushChar_ok j j' h]

theorem charOut_stream (b : Byte) (j j' : EncodeJob) (h : charOut b j = .ok j') : StreamOnly j j' := by
  unfold charOut at h
  simp only at h
  split_ifs at h
  · obtain ⟨r, bs, g⟩ := flushChar_stream _ j' h
    exact ⟨by rw [r], bs, g⟩
  · cases h
    exact ⟨rfl, [], by simp⟩

theorem charOut_packet (b : Byte) (j j' : EncodeJob) (hp : j.packet.length < 254) (h : charOut b j = .ok j') :
    j'.packet.length < 254 := by
  unfold charOut at h
  simp only at h
  split_ifs at h with hc
  · rw [flushChar_packet _ j' h]
    simp
  · cases h
    simp only [Config.packetCap] at hc
    simp only [List.length_append, List.length_cons, List.length_nil] at hc ⊢
    omega

theorem charOut_accepting (b : Byte) (j : EncodeJob) (h : Accepting j.sink) :
    ∃ j', charOut b j = .ok j' ∧ Accepting j'.sink := by
  unfold charOut
  simp only
  split_ifs
  · exact flushChar_accepting _ h
  · exact ⟨_, rfl, h⟩

/-! ### Bits (45_lzw_bitpack.md R241, R246) -/

theorem shiftByte_ok (j j' : EncodeJob) (h : shiftByte j = .ok j') :
    ∃ j₁, charOut (BitVec.ofNat 8 j.curAccum) j = .ok j₁ ∧
      j' = { j₁ with curAccum := j₁.curAccum / 2 ^ 8, curBits := j₁.curBits - 8 } := by
  unfold shiftByte at h
  split at h
  · rename_i j₁ h₁
    cases h
    exact ⟨j₁, h₁, rfl⟩
  · cases h

theorem charOut_bits (b : Byte) (j j' : EncodeJob) (h : charOut b j = .ok j') :
    j'.curAccum = j.curAccum ∧ j'.curBits = j.curBits := by
  unfold charOut at h
  simp only at h
  split_ifs at h
  · rw [flushChar_ok _ j' h]
    exact ⟨rfl, rfl⟩
  · cases h
    exact ⟨rfl, rfl⟩

theorem shiftByte_stream (j j' : EncodeJob) (h : shiftByte j = .ok j') : StreamOnly j j' := by
  obtain ⟨j₁, h₁, rfl⟩ := shiftByte_ok j j' h
  obtain ⟨r, bs, g⟩ := charOut_stream _ j j₁ h₁
  exact ⟨by rw [r], bs, g⟩

/-- One byte leaves the accumulator: 8 bits fewer. -/
theorem shiftByte_bits (j j' : EncodeJob) (h : shiftByte j = .ok j') :
    j'.curBits = j.curBits - 8 ∧ j'.curAccum = j.curAccum / 256 := by
  obtain ⟨j₁, h₁, rfl⟩ := shiftByte_ok j j' h
  obtain ⟨ha, hb⟩ := charOut_bits _ j j₁ h₁
  exact ⟨by simp only [hb], by simp only [ha]; norm_num⟩

theorem shiftByte_packet (j j' : EncodeJob) (hp : j.packet.length < 254) (h : shiftByte j = .ok j') :
    j'.packet.length < 254 := by
  obtain ⟨j₁, h₁, rfl⟩ := shiftByte_ok j j' h
  exact charOut_packet _ j j₁ hp h₁

theorem shiftByte_accepting (j : EncodeJob) (h : Accepting j.sink) :
    ∃ j', shiftByte j = .ok j' ∧ Accepting j'.sink := by
  obtain ⟨j₁, h₁, ha⟩ := charOut_accepting (BitVec.ofNat 8 j.curAccum) j h
  unfold shiftByte
  rw [h₁]
  exact ⟨_, rfl, ha⟩

theorem drainBytes_stream (n : Nat) (j j' : EncodeJob) (h : drainBytes n j = .ok j') : StreamOnly j j' := by
  induction n generalizing j with
  | zero =>
    cases h
    exact .refl _
  | succ n ih =>
    unfold drainBytes at h
    split_ifs at h
    · split at h
      · rename_i j₁ h₁
        exact (shiftByte_stream j j₁ h₁).trans (ih j₁ h)
      · cases h
    · cases h
      exact .refl _

/-- Enough rounds leave fewer than 8 bits (R241). -/
theorem drainBytes_bits (n : Nat) (j j' : EncodeJob) (hn : j.curBits ≤ n) (hp : j.packet.length < 254)
    (h : drainBytes n j = .ok j') : j'.curBits ≤ 7 ∧ j'.packet.length < 254 := by
  induction n generalizing j with
  | zero =>
    cases h
    exact ⟨by omega, hp⟩
  | succ n ih =>
    unfold drainBytes at h
    split_ifs at h
    · split at h
      · rename_i j₁ h₁
        have hb := (shiftByte_bits j j₁ h₁).1
        exact ih j₁ (by omega) (shiftByte_packet j j₁ hp h₁) h
      · cases h
    · cases h
      exact ⟨by omega, hp⟩

theorem drainBytes_accepting (n : Nat) (j : EncodeJob) (h : Accepting j.sink) :
    ∃ j', drainBytes n j = .ok j' ∧ Accepting j'.sink := by
  induction n generalizing j with
  | zero => exact ⟨j, rfl, h⟩
  | succ n ih =>
    unfold drainBytes
    split_ifs
    · obtain ⟨j₁, h₁, ha⟩ := shiftByte_accepting j h
      rw [h₁]
      exact ih j₁ ha
    · exact ⟨j, rfl, h⟩

theorem drainBits_stream (n : Nat) (j j' : EncodeJob) (h : drainBits n j = .ok j') : StreamOnly j j' := by
  induction n generalizing j with
  | zero =>
    cases h
    exact .refl _
  | succ n ih =>
    unfold drainBits at h
    split_ifs at h
    · split at h
      · rename_i j₁ h₁
        exact (shiftByte_stream j j₁ h₁).trans (ih j₁ h)
      · cases h
    · cases h
      exact .refl _

theorem drainBits_accepting (n : Nat) (j : EncodeJob) (h : Accepting j.sink) :
    ∃ j', drainBits n j = .ok j' ∧ Accepting j'.sink := by
  induction n generalizing j with
  | zero => exact ⟨j, rfl, h⟩
  | succ n ih =>
    unfold drainBits
    split_ifs
    · obtain ⟨j₁, h₁, ha⟩ := shiftByte_accepting j h
      rw [h₁]
      exact ih j₁ ha
    · exact ⟨j, rfl, h⟩

/-- Enough rounds leave no bit (R246). -/
theorem drainBits_bits (n : Nat) (j j' : EncodeJob) (hn : j.curBits ≤ n) (h : drainBits n j = .ok j') :
    j'.curBits = 0 := by
  induction n generalizing j with
  | zero =>
    cases h
    omega
  | succ n ih =>
    unfold drainBits at h
    split_ifs at h
    · split at h
      · rename_i j₁ h₁
        have hb := (shiftByte_bits j j₁ h₁).1
        exact ih j₁ (by omega) h
      · cases h
    · cases h
      omega

/-! ### Codes (45_lzw_bitpack.md R240, R241, R245) -/

theorem pack_stream (code : Nat) (j j' : EncodeJob) (h : pack code j = .ok j') : StreamOnly j j' := by
  obtain ⟨r, bs, g⟩ := drainBytes_stream _ _ j' h
  exact ⟨by rw [r], bs, g⟩

theorem pack_bits (code : Nat) (j j' : EncodeJob) (hp : j.packet.length < 254) (h : pack code j = .ok j') :
    j'.curBits ≤ 7 ∧ j'.packet.length < 254 := by
  refine drainBytes_bits _ _ j' ?_ ?_ h
  · exact le_rfl
  · exact hp

theorem pack_accepting (code : Nat) (j : EncodeJob) (h : Accepting j.sink) :
    ∃ j', pack code j = .ok j' ∧ Accepting j'.sink := drainBytes_accepting _ _ h

theorem finalFlush_ok (j j' : EncodeJob) (h : finalFlush j = .ok j') :
    StreamOnly j j' ∧ j'.packet = [] ∧ j'.curBits = 0 := by
  unfold finalFlush at h
  split at h
  · rename_i j₁ h₁
    have s₁ := drainBits_stream _ j j₁ h₁
    have e := flushChar_ok _ j' h
    obtain ⟨r, bs, g⟩ := flushChar_stream _ j' h
    have s₂ : StreamOnly j₁ j' := ⟨by rw [r], bs, g⟩
    exact ⟨s₁.trans s₂, by rw [e], by rw [e]⟩
  · cases h

theorem finalFlush_accepting (j : EncodeJob) (h : Accepting j.sink) :
    ∃ j', finalFlush j = .ok j' ∧ Accepting j'.sink := by
  obtain ⟨j₁, h₁, ha⟩ := drainBits_accepting j.curBits j h
  unfold finalFlush
  rw [h₁]
  exact flushChar_accepting _ ha

/-- What `Output` does to the registers: those of the stream, then the width by `UpdateWidth` (R240). -/
theorem output_ok (code : Nat) (j j' : EncodeJob) (hp : j.packet.length < 254) (h : output code j = .ok j') :
    ∃ j₁ j₂, StreamOnly j j₁ ∧ j₂ = updateWidth j₁ ∧ StreamOnly j₂ j' ∧ j'.curBits ≤ 7 ∧ j'.packet.length < 254 := by
  unfold output at h
  split at h
  · rename_i j₁ h₁
    have s := pack_stream code j j₁ h₁
    have b := pack_bits code j j₁ hp h₁
    split_ifs at h
    · obtain ⟨s₂, hq, hb⟩ := finalFlush_ok _ j' h
      exact ⟨j₁, _, s, rfl, s₂, by omega, by simp [hq]⟩
    · cases h
      exact ⟨j₁, _, s, rfl, .refl _, by simpa using b.1, by simpa using b.2⟩
  · cases h

/-- `UpdateWidth` reads nothing of the stream (R245). -/
theorem StreamOnly.updateWidth_eq {j j' : EncodeJob} (h : StreamOnly j j') :
    (updateWidth j').nBits = (updateWidth j).nBits ∧ (updateWidth j').maxcode = (updateWidth j).maxcode ∧
      (updateWidth j').clearFlg = (updateWidth j).clearFlg := by
  unfold updateWidth
  rw [h.freeEnt, h.maxcode, h.clearFlg, h.gInitBits, h.nBits]
  split_ifs <;> simp [h.clearFlg, h.maxcode, h.nBits]

/-- The registers after `Output`: the width registers by `UpdateWidth`, fewer than 8 bits pending, the packet buffer not
full, everything else as it was (R240, R243, R245, R252). -/
theorem output_registers (code : Nat) (j j' : EncodeJob) (hp : j.packet.length < 254) (h : output code j = .ok j') :
    (j'.nBits = (updateWidth j).nBits ∧ j'.maxcode = (updateWidth j).maxcode ∧
      j'.clearFlg = (updateWidth j).clearFlg) ∧
    (j'.gInitBits = j.gInitBits ∧ j'.freeEnt = j.freeEnt ∧ j'.clearCode = j.clearCode ∧ j'.eofCode = j.eofCode) ∧
    (j'.ent = j.ent ∧ j'.curPixel = j.curPixel ∧ j'.htab = j.htab ∧ j'.codetab = j.codetab) ∧
    (∃ bs, j'.out = j.out ++ bs) ∧ j'.curBits ≤ 7 ∧ j'.packet.length < 254 := by
  obtain ⟨j₁, j₂, s₁, rfl, s₂, hb, hq⟩ := output_ok code j j' hp h
  obtain ⟨e₁, e₂, e₃⟩ := s₁.updateWidth_eq
  refine ⟨⟨?_, ?_, ?_⟩, ⟨?_, ?_, ?_, ?_⟩, ⟨?_, ?_, ?_, ?_⟩, ?_, hb, hq⟩
  · rw [s₂.nBits, e₁]
  · rw [s₂.maxcode, e₂]
  · rw [s₂.clearFlg, e₃]
  · rw [s₂.gInitBits, updateWidth_gInitBits, s₁.gInitBits]
  · rw [s₂.freeEnt, updateWidth_freeEnt, s₁.freeEnt]
  · rw [s₂.clearCode, updateWidth_clearCode, s₁.clearCode]
  · rw [s₂.eofCode, updateWidth_eofCode, s₁.eofCode]
  · rw [s₂.ent, updateWidth_ent, s₁.ent]
  · rw [s₂.curPixel, updateWidth_curPixel, s₁.curPixel]
  · rw [s₂.htab, updateWidth_htab, s₁.htab]
  · rw [s₂.codetab, updateWidth_codetab, s₁.codetab]
  · obtain ⟨x, gx⟩ := s₁.grows
    obtain ⟨y, gy⟩ := s₂.grows
    exact ⟨x ++ y, by rw [gy, updateWidth_out, gx, List.append_assoc]⟩

theorem updateWidth_sink_accepting (j : EncodeJob) (h : Accepting j.sink) : Accepting (updateWidth j).sink := by
  simpa using h

theorem output_accepting (code : Nat) (j : EncodeJob) (h : Accepting j.sink) :
    ∃ j', output code j = .ok j' ∧ Accepting j'.sink := by
  obtain ⟨j₁, h₁, ha⟩ := pack_accepting code j h
  unfold output
  rw [h₁]
  simp only
  split_ifs
  · exact finalFlush_accepting _ (updateWidth_sink_accepting j₁ ha)
  · exact ⟨_, rfl, updateWidth_sink_accepting j₁ ha⟩

end Sys2Proof.Laws
end

