-- ==== Sys2Proof/Laws/Train.lean ====
section
/-! SUPPORT. Laws/Train.lean: what one sample of `NQ.LEARN` does to the network, the frequencies and the biases, and what
the whole sample loop keeps (41_nq_learning.md R122 to R140). -/

namespace Sys2Proof.Laws

open Sys2Proof.Machine Sys2Proof.Safety

/-! ### Integers in 32-bit registers (00_scope.md R10, R11) -/

/-- An integer in the range of a 32-bit signed register is stored exactly. -/
theorem toWord_toInt (x : Int) (h₁ : -2147483648 ≤ x) (h₂ : x < 2147483648) : (toWord x).toInt = x := by
  rw [toWord, BitVec.toInt_ofInt, Int.bmod_def]
  split_ifs <;> omega

theorem toWord_self (w : Word) : toWord w.toInt = w := by simp [toWord]

/-- A truncated fraction of `d` lies between 0 and `d`. -/
theorem tquot_fraction (f k d : Int) (h0 : 0 ≤ f) (h1 : f ≤ k) (hk : 0 < k) :
    (0 ≤ d → 0 ≤ tquot (f * d) k ∧ tquot (f * d) k ≤ d) ∧ (d ≤ 0 → d ≤ tquot (f * d) k ∧ tquot (f * d) k ≤ 0) := by
  have key : ∀ e : Int, 0 ≤ e → 0 ≤ (f * e).tdiv k ∧ (f * e).tdiv k ≤ e := by
    intro e he
    have hfe : 0 ≤ f * e := mul_nonneg h0 he
    rw [Int.tdiv_eq_ediv_of_nonneg hfe]
    refine ⟨Int.ediv_nonneg hfe hk.le, Int.ediv_le_of_le_mul hk ?_⟩
    rw [mul_comm e k]
    exact mul_le_mul_of_nonneg_right h1 he
  refine ⟨key d, fun hd => ?_⟩
  have := key (-d) (by omega)
  rw [mul_neg, Int.neg_tdiv] at this
  unfold tquot
  omega

theorem tquot_zero (k : Int) : tquot 0 k = 0 := by simp [tquot]

/-! ### Moves (R137 to R140) -/

/-- A lane in 0 to 4080 moved by a fraction stays between itself and the sample's lane (R137). -/
theorem moveLane_between (f scale : Int) (x : Word) (s : Int) (h0 : 0 ≤ f) (h1 : f ≤ scale) (hk : 0 < scale)
    (hx : 0 ≤ x.toInt ∧ x.toInt ≤ 4080) (hs : 0 ≤ s ∧ s ≤ 4080) :
    (moveLane f scale x s).toInt = x.toInt - tquot (f * (x.toInt - s)) scale ∧
      min x.toInt s ≤ (moveLane f scale x s).toInt ∧ (moveLane f scale x s).toInt ≤ max x.toInt s := by
  have hq := tquot_fraction f scale (x.toInt - s) h0 h1 hk
  have hb : -4080 ≤ tquot (f * (x.toInt - s)) scale ∧ tquot (f * (x.toInt - s)) scale ≤ 4080 := by omega
  have he : (moveLane f scale x s).toInt = x.toInt - tquot (f * (x.toInt - s)) scale :=
    toWord_toInt _ (by omega) (by omega)
  rw [he]
  omega

/-- A whole fraction moves a lane onto the sample (R137). -/
theorem moveLane_whole (k : Int) (x : Word) (s : Int) (hk : 0 < k) (hx : 0 ≤ x.toInt ∧ x.toInt ≤ 4080)
    (hs : 0 ≤ s ∧ s ≤ 4080) : (moveLane k k x s).toInt = s := by
  rw [(moveLane_between k k x s hk.le le_rfl hk hx hs).1, tquot, Int.mul_tdiv_cancel_left _ hk.ne']
  omega

/-- A move by nothing changes nothing. -/
theorem moveLane_zero (k : Int) (x : Word) (s : Int) : moveLane 0 k x s = x := by
  simp [moveLane, tquot, toWord]

theorem moveToward_zero (k : Int) (c : Colour) (x : Neuron) : x.moveToward 0 k c = x := by
  simp [Neuron.moveToward, moveLane_zero]

@[simp] theorem moveToward_index (f k : Int) (c : Colour) (x : Neuron) : (x.moveToward f k c).index = x.index := rfl

/-- A colour of a sample: each lane in 0 to 4080 (R129). -/
def ColourIn (hi : Int) (c : Colour) : Prop := (0 ≤ c.b ∧ c.b ≤ hi) ∧ (0 ≤ c.g ∧ c.g ≤ hi) ∧ (0 ≤ c.r ∧ c.r ≤ hi)

theorem moveToward_lanes (f k : Int) (c : Colour) (x : Neuron) (h0 : 0 ≤ f) (h1 : f ≤ k) (hk : 0 < k)
    (hx : LanesIn 4080 x) (hc : ColourIn 4080 c) : LanesIn 4080 (x.moveToward f k c) := by
  obtain ⟨hb, hg, hr⟩ := hx
  obtain ⟨hcb, hcg, hcr⟩ := hc
  have b := moveLane_between f k x.b c.b h0 h1 hk hb hcb
  have g := moveLane_between f k x.g c.g h0 h1 hk hg hcg
  have r := moveLane_between f k x.r c.r h0 h1 hk hr hcr
  refine ⟨⟨?_, ?_⟩, ⟨?_, ?_⟩, ⟨?_, ?_⟩⟩ <;> simp only [Neuron.moveToward] <;> omega

theorem alterSingle_read (alpha : Nat) (j : Int) (c : Colour) (network : Ram Neuron 256) (k : Nat) (h : k < 256) :
    (alterSingle alpha j c network).read k Neuron.zero =
      if (k : Int) = j then (network.read k Neuron.zero).moveToward alpha Config.initalpha c
      else network.read k Neuron.zero :=
  Ram.mapIdx_read _ _ _ _ _ h

theorem alterNeigh_read (rad : Nat) (j : Int) (c : Colour) (radpower : Ram Word 32) (network : Ram Neuron 256) (k : Nat)
    (h : k < 256) :
    (alterNeigh rad j c radpower network).read k Neuron.zero =
      if 1 ≤ ((k : Int) - j).natAbs ∧ ((k : Int) - j).natAbs < rad then
        (network.read k Neuron.zero).moveToward (radpower.read ((k : Int) - j).natAbs 0).toInt Config.alpharadbias c
      else network.read k Neuron.zero :=
  Ram.mapIdx_read _ _ _ _ _ h

/-! ### The contest (R132 to R136) -/

theorem addAt_read (pos v : Int) (r : Ram Word 256) (k : Nat) (h : k < 256) :
    (addAt pos v r).read k 0 = if (k : Int) = pos then toWord ((r.read k 0).toInt + v) else r.read k 0 :=
  Ram.mapIdx_read _ _ _ _ _ h

theorem contest_freq_read (c : Colour) (network : Ram Neuron 256) (freq bias : Ram Word 256) (k : Nat) (h : k < 256) :
    (contest c network freq bias).freq.read k 0 =
      if (k : Int) = (contestScan c 0 network.cells bias.cells ContestBest.start).bestpos then
        toWord ((leakFreq (freq.read k 0)).toInt + Config.beta)
      else leakFreq (freq.read k 0) := by
  simp only [contest]
  rw [addAt_read _ _ _ _ h, Ram.mapIdx_read _ _ _ _ 0 h]

theorem contest_bias_read (c : Colour) (network : Ram Neuron 256) (freq bias : Ram Word 256) (k : Nat) (h : k < 256) :
    (contest c network freq bias).bias.read k 0 =
      if (k : Int) = (contestScan c 0 network.cells bias.cells ContestBest.start).bestpos then
        toWord ((leakBias (freq.read k 0) (bias.read k 0)).toInt + -(Config.betagamma : Int))
      else leakBias (freq.read k 0) (bias.read k 0) := by
  simp only [contest]
  rw [addAt_read _ _ _ _ h, Ram.zipWith_read _ _ _ _ _ 0 0 h]

/-- The leak alone keeps the relation of R136, and leaves room for the credit. -/
theorem leak_keeps (freq bias : Word) (h : LeakRelation freq bias) :
    (leakFreq freq).toInt = freq.toInt - freq.toInt / 1024 ∧
      (leakBias freq bias).toInt = bias.toInt + freq.toInt / 1024 * 1024 := by
  obtain ⟨h₁, ⟨h₂, h₃⟩, h₄, h₅⟩ := h
  refine ⟨?_, ?_⟩
  · rw [leakFreq, betafreq, asr, toWord_toInt] <;> norm_num [Config.betashift] <;> omega
  · rw [leakBias, betafreq, asr, toWord_toInt] <;> norm_num [Config.betashift, Config.gammashift] <;> omega

theorem contest_keeps_leak_relation (c : Colour) (network : Ram Neuron 256) (freq bias : Ram Word 256) (k : Nat)
    (h : k < 256) (hr : LeakRelation (freq.read k 0) (bias.read k 0)) :
    LeakRelation ((contest c network freq bias).freq.read k 0) ((contest c network freq bias).bias.read k 0) := by
  obtain ⟨hf, hb⟩ := leak_keeps _ _ hr
  obtain ⟨h₁, ⟨h₂, h₃⟩, h₄, h₅⟩ := hr
  rw [contest_freq_read c network freq bias k h, contest_bias_read c network freq bias k h]
  split_ifs with hp
  · have e₁ : (toWord ((leakFreq (freq.read k 0)).toInt + (Config.beta : Int))).toInt =
        (freq.read k 0).toInt - (freq.read k 0).toInt / 1024 + 64 := by
      rw [toWord_toInt] <;> rw [hf] <;> norm_num [Config.beta] <;> omega
    have e₂ : (toWord ((leakBias (freq.read k 0) (bias.read k 0)).toInt + -(Config.betagamma : Int))).toInt =
        (bias.read k 0).toInt + (freq.read k 0).toInt / 1024 * 1024 - 65536 := by
      rw [toWord_toInt] <;> rw [hb] <;> norm_num [Config.betagamma] <;> omega
    refine ⟨?_, ⟨?_, ?_⟩, ?_, ?_⟩ <;> simp only [e₁, e₂] <;> omega
  · refine ⟨?_, ⟨?_, ?_⟩, ?_, ?_⟩ <;> simp only [hf, hb] <;> omega

/-! ### Samples and the walk (R124 to R129) -/

theorem readTriple_of_lt (src : Buffer) (a : Nat) (h : a + 3 ≤ src.size.toNat) :
    readTriple src a = .ok ⟨(Memory.read src.mem a).toNat, (Memory.read src.mem (a + 1)).toNat,
      (Memory.read src.mem (a + 2)).toNat⟩ := by
  have h0 : a < src.size.toNat := by omega
  have h1 : a + 1 < src.size.toNat := by omega
  have h2 : a + 2 < src.size.toNat := by omega
  simp [readTriple, srcRead, Buffer.get, h0, h1, h2]

theorem readTriple_beyond (src : Buffer) (a : Nat) (h : src.size.toNat ≤ a) : readTriple src a = .error .srcBeyondEnd := by
  have : ¬ a < src.size.toNat := by omega
  simp [readTriple, srcRead, Buffer.get, this]

/-- A pixel that does not lie wholly inside SRC cannot be read. -/
theorem readTriple_short (src : Buffer) (a : Nat) (h : src.size.toNat < a + 3) : readTriple src a = .error .srcBeyondEnd := by
  unfold readTriple
  by_cases h0 : a < src.size.toNat
  · rw [srcRead_of_lt src a h0]
    by_cases h1 : a + 1 < src.size.toNat
    · rw [srcRead_of_lt src (a + 1) h1, srcRead_beyond src (a + 2) (by omega)]
    · rw [srcRead_beyond src (a + 1) (by omega)]
  · rw [srcRead_beyond src a (by omega)]

/-- A triple that could be read is a pixel of bytes. -/
theorem readTriple_ok (src : Buffer) (a : Nat) (c : Colour) (h : readTriple src a = .ok c) : ColourIn 255 c := by
  unfold readTriple at h
  split at h <;> simp at h
  subst h
  rename_i b g r _ _ _
  have hb := b.isLt
  have hg := g.isLt
  have hr := r.isLt
  simp only [ColourIn]
  omega

theorem fetchSample_ok (src : Buffer) (pix : Nat) (c : Colour) (h : fetchSample src pix = .ok c) : ColourIn 4080 c := by
  unfold fetchSample at h
  cases h' : readTriple src pix with
  | error f => simp [h'] at h
  | ok d =>
    have hd := readTriple_ok src pix d h'
    simp [h'] at h
    subst h
    obtain ⟨hb, hg, hr⟩ := hd
    simp only [ColourIn]
    norm_num [Config.netbiasshift]
    omega

theorem fetchSample_of_lt (src : Buffer) (pix : Nat) (h : pix + 3 ≤ src.size.toNat) : ∃ c, fetchSample src pix = .ok c := by
  simp [fetchSample, readTriple_of_lt src pix h]

/-- The stride is a whole number of pixels and no longer than the image (R127). -/
theorem selectStep_spec (len : Nat) (h3 : len % 3 = 0) (h0 : len ≠ 0) : selectStep len % 3 = 0 ∧ selectStep len ≤ len := by
  unfold selectStep
  by_cases hs : len < 1509
  · rw [if_pos hs]
    exact ⟨rfl, by omega⟩
  · rw [if_neg hs]
    have hle : ∀ p : Nat, p ≤ 503 → 3 * p % 3 = 0 ∧ 3 * p ≤ len := fun p hp => ⟨Nat.mul_mod_right 3 p, by omega⟩
    split_ifs <;> exact hle _ (by norm_num)

/-- The walk stays on whole pixels inside the image (R128, R131). -/
theorem nextPix_spec (len pix : Nat) (h3 : len % 3 = 0) (h0 : len ≠ 0) (hp : pix % 3 = 0) (hin : pix + 3 ≤ len) :
    nextPix (selectStep len) len pix % 3 = 0 ∧ nextPix (selectStep len) len pix + 3 ≤ len := by
  obtain ⟨hs, hle⟩ := selectStep_spec len h3 h0
  unfold nextPix
  split_ifs <;> omega

/-- Sample number `k` is at `k` strides, taken around the image (R128, R131). -/
theorem nextPix_walk (step len k : Nat) (h0 : 0 < len) (hs : step ≤ len) :
    nextPix step len (k * step % len) = (k + 1) * step % len := by
  have hlt : k * step % len < len := Nat.mod_lt _ h0
  have he : (k + 1) * step % len = (k * step % len + step) % len := by rw [Nat.add_mul, one_mul, Nat.mod_add_mod]
  rw [he]
  generalize k * step % len = p at hlt
  unfold nextPix
  split_ifs with h
  · rw [Nat.mod_eq_sub_mod h, Nat.mod_eq_of_lt (by omega)]
  · rw [Nat.mod_eq_of_lt (by omega)]

/-! ### The taper (R126) -/

theorem radpowerEntry_toInt (rad alpha k : Nat) (hk : k < rad) (hr : rad ≤ 32) (ha : alpha ≤ 1024) :
    (radpowerEntry rad alpha k).toInt = (alpha * ((rad * rad - k * k) * 256 / (rad * rad)) : Nat) ∧
      0 ≤ (radpowerEntry rad alpha k).toInt ∧ (radpowerEntry rad alpha k).toInt ≤ 262144 := by
  have hkk : k * k ≤ rad * rad := Nat.mul_le_mul hk.le hk.le
  have hrr : 0 < rad * rad := Nat.mul_pos (by omega) (by omega)
  have hq : (rad * rad - k * k) * 256 / (rad * rad) ≤ 256 :=
    Nat.div_le_of_le_mul (by rw [mul_comm (rad * rad)]; rw [mul_comm]; exact Nat.mul_le_mul_left _ (Nat.sub_le _ _))
  have hm : alpha * ((rad * rad - k * k) * 256 / (rad * rad)) ≤ 262144 :=
    (Nat.mul_le_mul ha hq).trans (by norm_num)
  have he : (alpha : Int) * tquot (((rad : Int) * rad - (k : Int) * k) * Config.radbias) ((rad : Int) * rad) =
      (alpha * ((rad * rad - k * k) * 256 / (rad * rad)) : Nat) := by
    have hn : ((rad : Int) * rad - (k : Int) * k) * Config.radbias = (((rad * rad - k * k) * 256 : Nat) : Int) := by
      push_cast [Nat.cast_sub hkk]
      rfl
    rw [tquot, hn, Int.tdiv_eq_ediv_of_nonneg (by positivity)]
    push_cast
    rfl
  have ht : (radpowerEntry rad alpha k).toInt = (alpha * ((rad * rad - k * k) * 256 / (rad * rad)) : Nat) := by
    rw [radpowerEntry, toWord_toInt] <;> rw [he] <;> omega
  refine ⟨ht, ?_, ?_⟩ <;> rw [ht] <;> omega

theorem setRadpower_read (rad alpha : Nat) (radpower : Ram Word 32) (k : Nat) (h : k < 32) :
    (setRadpower rad alpha radpower).read k 0 = if k < rad then radpowerEntry rad alpha k else radpower.read k 0 :=
  Ram.mapIdx_read _ _ _ _ _ h

/-- The taper of a whole radius writes every entry, whatever the RAM held before. -/
theorem setRadpower_all (alpha : Nat) (r r' : Ram Word 32) : setRadpower 32 alpha r = setRadpower 32 alpha r' := by
  apply Ram.ext_read _ _ 0
  intro k hk
  rw [setRadpower_read _ _ _ _ hk, setRadpower_read _ _ _ _ hk, if_pos hk, if_pos hk]

/-! ### The running job -/

/-- What the sample loop keeps; `index` is the lane 3 of every neuron (R138). -/
structure LearnInv (index : Nat → Word) (j : LearnJob) : Prop where
  lanes : ∀ k, k < 256 → LanesIn 4080 (j.network.read k Neuron.zero)
  index : ∀ k, k < 256 → (j.network.read k Neuron.zero).index = index k
  alpha : j.alpha ≤ 1024
  radius : j.radius ≤ 2048
  rad : j.rad ≤ 32
  taper : ∀ m, m < j.rad → 0 ≤ (j.radpower.read m 0).toInt ∧ (j.radpower.read m 0).toInt ≤ 262144

/-- The walk stands on a whole pixel inside an image of `len` bytes (R131). -/
def OnPixel (len : Nat) (j : LearnJob) : Prop := j.pix % 3 = 0 ∧ j.pix + 3 ≤ len

theorem radOf_le (radius : Nat) (h : radius ≤ 2048) : radOf radius ≤ 32 := by
  unfold radOf
  simp only [Config.radiusbiasshift]
  split_ifs <;> omega

theorem setRadpower_taper (rad alpha : Nat) (r : Ram Word 32) (hr : rad ≤ 32) (ha : alpha ≤ 1024) (m : Nat) (hm : m < rad) :
    0 ≤ ((setRadpower rad alpha r).read m 0).toInt ∧ ((setRadpower rad alpha r).read m 0).toInt ≤ 262144 := by
  rw [setRadpower_read _ _ _ _ (by omega), if_pos hm]
  exact (radpowerEntry_toInt rad alpha m hm hr ha).2

theorem alterSingle_lanes (alpha : Nat) (j : Int) (c : Colour) (network : Ram Neuron 256) (ha : alpha ≤ 1024)
    (hc : ColourIn 4080 c) (hl : ∀ k, k < 256 → LanesIn 4080 (network.read k Neuron.zero)) (k : Nat) (hk : k < 256) :
    LanesIn 4080 ((alterSingle alpha j c network).read k Neuron.zero) := by
  rw [alterSingle_read _ _ _ _ _ hk]
  split_ifs
  · exact moveToward_lanes _ _ c _ (by omega) (by norm_num [Config.initalpha]; omega) (by norm_num) (hl k hk) hc
  · exact hl k hk

theorem alterNeigh_lanes (rad : Nat) (j : Int) (c : Colour) (radpower : Ram Word 32) (network : Ram Neuron 256)
    (hc : ColourIn 4080 c)
    (ht : ∀ m, m < rad → 0 ≤ (radpower.read m 0).toInt ∧ (radpower.read m 0).toInt ≤ 262144)
    (hl : ∀ k, k < 256 → LanesIn 4080 (network.read k Neuron.zero)) (k : Nat) (hk : k < 256) :
    LanesIn 4080 ((alterNeigh rad j c radpower network).read k Neuron.zero) := by
  rw [alterNeigh_read _ _ _ _ _ _ hk]
  split_ifs with h
  · have := ht _ h.2
    exact moveToward_lanes _ _ c _ this.1 this.2 (by norm_num) (hl k hk) hc
  · exact hl k hk

theorem trainOn_keeps (index : Nat → Word) (c : Colour) (j : LearnJob) (h : LearnInv index j)
    (hc : ColourIn 4080 c) : LearnInv index (trainOn c j) := by
  have hs := alterSingle_lanes j.alpha (contest c j.network j.freq j.bias).winner c j.network h.alpha hc h.lanes
  have hi : ∀ k, k < 256 →
      ((alterSingle j.alpha (contest c j.network j.freq j.bias).winner c j.network).read k Neuron.zero).index = index k := by
    intro k hk
    rw [alterSingle_read _ _ _ _ _ hk]
    split_ifs
    · exact h.index k hk
    · exact h.index k hk
  refine ⟨?_, ?_, h.alpha, h.radius, h.rad, h.taper⟩
  · intro k hk
    simp only [trainOn]
    split_ifs
    · exact alterNeigh_lanes _ _ c _ _ hc h.taper hs k hk
    · exact hs k hk
  · intro k hk
    simp only [trainOn]
    split_ifs
    · rw [alterNeigh_read _ _ _ _ _ _ hk]
      split_ifs
      · exact hi k hk
      · exact hi k hk
    · exact hi k hk

theorem cycleDecay_keeps (index : Nat → Word) (alphadec : Nat) (j : LearnJob) (h : LearnInv index j) :
    LearnInv index (cycleDecay alphadec j) := by
  have ha : j.alpha - j.alpha / alphadec ≤ 1024 := le_trans (Nat.sub_le _ _) h.alpha
  have hr : j.radius - j.radius / Config.radiusdec ≤ 2048 := le_trans (Nat.sub_le _ _) h.radius
  unfold cycleDecay
  by_cases hd : j.i % (if j.delta = 0 then 1 else j.delta) = 0
  · simp only [if_pos hd]
    exact ⟨h.lanes, h.index, ha, hr, radOf_le _ hr, fun m hm => setRadpower_taper _ _ _ (radOf_le _ hr) ha m hm⟩
  · simp only [if_neg hd]
    exact ⟨h.lanes, h.index, h.alpha, h.radius, h.rad, h.taper⟩

theorem cycleDecay_network (alphadec : Nat) (j : LearnJob) : (cycleDecay alphadec j).network = j.network := by
  unfold cycleDecay
  by_cases hd : j.i % (if j.delta = 0 then 1 else j.delta) = 0
  · simp only [if_pos hd]
  · simp only [if_neg hd]

theorem cycleDecay_pix (alphadec : Nat) (j : LearnJob) : (cycleDecay alphadec j).pix = j.pix := by
  unfold cycleDecay
  by_cases hd : j.i % (if j.delta = 0 then 1 else j.delta) = 0
  · simp only [if_pos hd]
  · simp only [if_neg hd]

theorem cycleDecay_freq (alphadec : Nat) (j : LearnJob) : (cycleDecay alphadec j).freq = j.freq := by
  unfold cycleDecay
  by_cases hd : j.i % (if j.delta = 0 then 1 else j.delta) = 0
  · simp only [if_pos hd]
  · simp only [if_neg hd]

theorem cycleDecay_bias (alphadec : Nat) (j : LearnJob) : (cycleDecay alphadec j).bias = j.bias := by
  unfold cycleDecay
  by_cases hd : j.i % (if j.delta = 0 then 1 else j.delta) = 0
  · simp only [if_pos hd]
  · simp only [if_neg hd]

/-- The relation of R136, of every neuron of a running job. -/
def LeakAll (j : LearnJob) : Prop := ∀ k, k < 256 → LeakRelation (j.freq.read k 0) (j.bias.read k 0)

theorem trainOn_keeps_leak (c : Colour) (j : LearnJob) (h : LeakAll j) : LeakAll (trainOn c j) :=
  fun k hk => contest_keeps_leak_relation c j.network j.freq j.bias k hk (h k hk)

theorem learnLoop_keeps_leak (src : Buffer) (step len alphadec n : Nat) (j j' : LearnJob) (h : LeakAll j)
    (hj : learnLoop src step len alphadec n j = .ok j') : LeakAll j' := by
  induction n generalizing j with
  | zero =>
    cases hj
    exact h
  | succ n ih =>
    unfold learnLoop at hj
    cases hc : fetchSample src j.pix with
    | error f => simp [hc] at hj
    | ok c =>
      simp only [hc] at hj
      refine ih _ ?_ hj
      intro k hk
      rw [cycleDecay_freq, cycleDecay_bias]
      exact trainOn_keeps_leak c j h k hk

/-- One round of the loop: the sample, then the walk and the decay. -/
theorem learnRound_keeps (p i alphadec : Nat) (index : Nat → Word) (c : Colour) (j : LearnJob) (h : LearnInv index j)
    (hc : ColourIn 4080 c) : LearnInv index (cycleDecay alphadec { trainOn c j with pix := p, i := i }) := by
  have ht := trainOn_keeps index c j h hc
  exact cycleDecay_keeps index alphadec _ ⟨ht.lanes, ht.index, ht.alpha, ht.radius, ht.rad, ht.taper⟩

theorem learnLoop_keeps (src : Buffer) (step len alphadec n : Nat) (index : Nat → Word) (j j' : LearnJob)
    (h : LearnInv index j) (hj : learnLoop src step len alphadec n j = .ok j') : LearnInv index j' := by
  induction n generalizing j with
  | zero =>
    cases hj
    exact h
  | succ n ih =>
    unfold learnLoop at hj
    cases hc : fetchSample src j.pix with
    | error f => simp [hc] at hj
    | ok c =>
      simp only [hc] at hj
      exact ih _ (learnRound_keeps _ _ alphadec index c j h (fetchSample_ok src _ c hc)) hj

/-- With the whole image attached no sample is beyond the end (R131). -/
theorem learnLoop_completes (src : Buffer) (len alphadec n : Nat) (j : LearnJob) (h3 : len % 3 = 0) (h0 : len ≠ 0)
    (h : OnPixel len j) (hs : len ≤ src.size.toNat) :
    ∃ j', learnLoop src (selectStep len) len alphadec n j = .ok j' := by
  induction n generalizing j with
  | zero => exact ⟨j, rfl⟩
  | succ n ih =>
    obtain ⟨c, hc⟩ := fetchSample_of_lt src j.pix (le_trans h.2 hs)
    unfold learnLoop
    rw [hc]
    refine ih _ ?_
    rw [OnPixel, cycleDecay_pix]
    exact nextPix_spec len j.pix h3 h0 h.1 h.2

theorem learnStart_inv (q : NqState) (n : Nat) (hl : ∀ k, k < 256 → LanesIn 4080 (q.network.read k Neuron.zero)) :
    LearnInv (fun k => (q.network.read k Neuron.zero).index) (learnStart q n) := by
  have hr : Config.initradius ≤ 2048 := le_rfl
  exact ⟨hl, fun _ _ => rfl, le_rfl, hr, radOf_le _ hr, fun m hm => setRadpower_taper _ _ _ (radOf_le _ hr) le_rfl m hm⟩

/-- The whole training run keeps every lane in its range and lane 3 as it was (R138, R151). -/
theorem learnRun_keeps (q : NqState) (src : Buffer) (j : LearnJob)
    (hl : ∀ k, k < 256 → LanesIn 4080 (q.network.read k Neuron.zero)) (hj : learnRun q src = .ok j) :
    LearnInv (fun k => (q.network.read k Neuron.zero).index) j :=
  learnLoop_keeps _ _ _ _ _ _ _ _ (learnStart_inv q _ hl) hj

theorem learnRun_completes (q : NqState) (src : Buffer) (h3 : q.lengthcount.toNat % 3 = 0) (h0 : q.lengthcount.toNat ≠ 0)
    (hs : q.lengthcount.toNat ≤ src.size.toNat) : ∃ j, learnRun q src = .ok j := by
  refine learnLoop_completes src _ _ _ _ h3 h0 ⟨rfl, ?_⟩ hs
  show 0 + 3 ≤ _
  omega

theorem learnRun_keeps_leak (q : NqState) (src : Buffer) (j : LearnJob)
    (h : ∀ k, k < 256 → LeakRelation (q.freq.read k 0) (q.bias.read k 0)) (hj : learnRun q src = .ok j) : LeakAll j :=
  learnLoop_keeps_leak _ _ _ _ _ (learnStart q _) _ h hj

/-! ### The network by phases -/

/-- A property of every neuron, by entry or by position. -/
theorem forall_cells_iff (network : Ram Neuron 256) (P : Neuron → Prop) :
    (∀ x ∈ network.cells, P x) ↔ ∀ k, k < 256 → P (network.read k Neuron.zero) := by
  constructor
  · exact fun h k hk => h _ (Ram.read_mem network k Neuron.zero hk)
  · intro h x hx
    obtain ⟨k, hk, rfl⟩ := (Ram.mem_iff_read network Neuron.zero x).mp hx
    exact h k hk

/-- Neuron `i` of the initial network (R121). -/
theorem initNetwork_read (q : NqState) (k : Nat) (h : k < 256) :
    (initNetwork q).network.read k Neuron.zero =
      ⟨BitVec.ofNat 32 (16 * k), BitVec.ofNat 32 (16 * k), BitVec.ofNat 32 (16 * k), 0⟩ := by
  have hv : toWord (tquot ((k : Int) * 2 ^ (Config.netbiasshift + 8)) Config.netsize) = BitVec.ofNat 32 (16 * k) := by
    have : tquot ((k : Int) * 2 ^ (Config.netbiasshift + 8)) Config.netsize = (16 * k : Nat) := by
      rw [tquot, Int.tdiv_eq_ediv_of_nonneg (by positivity)]
      norm_num
      omega
    rw [this]
    rfl
  show ((q.network.mapIdx fun i _ => initialNeuron i).read k Neuron.zero) = _
  rw [Ram.mapIdx_read _ _ _ _ Neuron.zero h, initialNeuron, hv]

theorem initNetwork_lanes (q : NqState) : ∀ x ∈ (initNetwork q).network.cells, LanesIn 4080 x ∧ x.index = 0 := by
  rw [forall_cells_iff]
  intro k hk
  rw [initNetwork_read q k hk]
  have hv : (BitVec.ofNat 32 (16 * k)).toInt = 16 * k := by
    rw [BitVec.toInt_eq_toNat_cond, BitVec.toNat_ofNat]
    split_ifs <;> omega
  refine ⟨?_, rfl⟩
  simp only [LanesIn, hv]
  omega

/-- What `NQ.LEARN` leaves in a network of biased lanes (10_state.md R25, R151). -/
theorem learnRun_lanes (q : NqState) (src : Buffer) (j : LearnJob)
    (h : ∀ x ∈ q.network.cells, LanesIn 4080 x ∧ x.index = 0) (hj : learnRun q src = .ok j) :
    ∀ x ∈ j.network.cells, LanesIn 4080 x ∧ x.index = 0 := by
  rw [forall_cells_iff] at h ⊢
  have hk := learnRun_keeps q src j (fun k hk => (h k hk).1) hj
  exact fun k h256 => ⟨hk.lanes k h256, (hk.index k h256).trans (h k h256).2⟩

end Sys2Proof.Laws
end

