-- ==== Sys2Proof/Laws/Palette.lean ====
section
/-! SUPPORT. Laws/Palette.lean: what `NQ.UNBIAS`, `NQ.INXBUILD` and `NQ.COLORMAP` leave (42_nq_palette.md R160 to R167): the
bytes and positions, the sorted network, the closed form of `netindex`, the palette entry of each neuron. -/

namespace Sys2Proof.Laws

open Sys2Proof.Machine Sys2Proof.Safety

/-! ### NQ.UNBIAS (R160) -/

theorem unbias_read (q : NqState) (k : Nat) (h : k < 256) :
    (unbias q).network.read k Neuron.zero = (q.network.read k Neuron.zero).unbias k :=
  Ram.mapIdx_read _ _ _ _ _ h

/-- Sixteen times out of fixed point: the floor of the lane by 16. -/
theorem asr_word (x : Word) : (toWord (asr x.toInt Config.netbiasshift)).toInt = x.toInt / 16 := by
  have h := x.le_two_mul_toInt
  have h' := x.two_mul_toInt_lt
  rw [asr, toWord_toInt] <;> norm_num [Config.netbiasshift] at * <;> omega

theorem neuron_unbias_lanes (k : Nat) (x : Neuron) (h : LanesIn 4080 x) : LanesIn 255 (x.unbias k) := by
  obtain ⟨hb, hg, hr⟩ := h
  simp only [LanesIn, Neuron.unbias, asr_word]
  omega

theorem neuron_unbias_index (k : Nat) (x : Neuron) (h : k < 256) : (x.unbias k).index.toInt = k :=
  toWord_toInt _ (by omega) (by omega)

/-- What `NQ.UNBIAS` leaves (R160): bytes in lanes 0 to 2, the positions in lane 3. -/
theorem unbias_shape (q : NqState) (h : ∀ x ∈ q.network.cells, LanesIn 4080 x) :
    (∀ x ∈ (unbias q).network.cells, LanesIn 255 x) ∧
      (unbias q).network.cells.map (fun x => x.index.toInt) = (List.range 256).map Int.ofNat := by
  rw [forall_cells_iff] at h ⊢
  refine ⟨fun k hk => by rw [unbias_read q k hk]; exact neuron_unbias_lanes k _ (h k hk), ?_⟩
  apply List.ext_getElem
  · rw [List.length_map, List.length_map, List.length_range]
    exact (unbias q).network.size_eq
  · intro k h₁ h₂
    have hk : k < 256 := by simpa using h₂
    have hr := unbias_read q k hk
    rw [Ram.read_eq_getElem _ _ _ hk] at hr
    rw [List.getElem_map, hr, neuron_unbias_index k _ hk]
    simp

/-! ### The sort (R163) -/

/-- What the inner scan finds: nothing below `smallval`, or a neuron with the least green of all. -/
theorem scanSmallest_spec (xs : List Neuron) (j : Nat) (sv : Int) (small : Option (Nat × Neuron)) :
    (scanSmallest j xs sv small = small ∧ ∀ z ∈ xs, sv ≤ z.green) ∨
      ∃ i y, scanSmallest j xs sv small = some (j + i, y) ∧ xs[i]? = some y ∧ y.green < sv ∧
        ∀ z ∈ xs, y.green ≤ z.green := by
  induction xs generalizing j sv small with
  | nil => exact .inl ⟨rfl, by simp⟩
  | cons x xs ih =>
    unfold scanSmallest
    split_ifs with h
    · right
      rcases ih (j + 1) x.green (some (j, x)) with ⟨h₁, h₂⟩ | ⟨i, y, h₁, h₂, h₃, h₄⟩
      · refine ⟨0, x, by simpa using h₁, rfl, h, fun z hz => ?_⟩
        rcases List.mem_cons.mp hz with rfl | hz
        · exact le_rfl
        · exact h₂ z hz
      · refine ⟨i + 1, y, by rw [h₁]; congr 2; omega, by simpa using h₂, by omega, fun z hz => ?_⟩
        rcases List.mem_cons.mp hz with rfl | hz
        · exact h₃.le
        · exact h₄ z hz
    · rcases ih (j + 1) sv small with ⟨h₁, h₂⟩ | ⟨i, y, h₁, h₂, h₃, h₄⟩
      · refine .inl ⟨h₁, fun z hz => ?_⟩
        rcases List.mem_cons.mp hz with rfl | hz
        · omega
        · exact h₂ z hz
      · refine .inr ⟨i + 1, y, by rw [h₁]; congr 2; omega, by simpa using h₂, h₃, fun z hz => ?_⟩
        rcases List.mem_cons.mp hz with rfl | hz
        · omega
        · exact h₄ z hz

/-- Putting `x` in the place of an entry and that entry in front is a rearrangement. -/
theorem perm_swap_front (xs : List Neuron) (i : Nat) (x y : Neuron) (h : xs[i]? = some y) :
    (y :: xs.set i x).Perm (x :: xs) := by
  induction xs generalizing i with
  | nil => simp at h
  | cons z zs ih =>
    cases i with
    | zero =>
      simp only [List.getElem?_cons_zero, Option.some.injEq] at h
      subst h
      exact List.Perm.swap _ _ _
    | succ i =>
      have h' : zs[i]? = some y := by simpa using h
      calc (y :: (z :: zs).set (i + 1) x).Perm (z :: y :: zs.set i x) := by
              simpa using List.Perm.swap z y (zs.set i x)
        _ |>.Perm (z :: x :: zs) := (ih i h').cons z
        _ |>.Perm (x :: z :: zs) := List.Perm.swap _ _ _

theorem swapSmallest_spec (x : Neuron) (xs : List Neuron) :
    ((swapSmallest x xs).1 :: (swapSmallest x xs).2).Perm (x :: xs) ∧
      ∀ z ∈ (swapSmallest x xs).2, (swapSmallest x xs).1.green ≤ z.green := by
  unfold swapSmallest
  rcases scanSmallest_spec xs 0 x.green none with ⟨h₁, h₂⟩ | ⟨i, y, h₁, h₂, h₃, h₄⟩
  · rw [h₁]
    exact ⟨List.Perm.refl _, h₂⟩
  · rw [h₁, Nat.zero_add]
    refine ⟨perm_swap_front xs i x y h₂, fun z hz => ?_⟩
    rcases List.mem_or_eq_of_mem_set hz with hz | rfl
    · exact h₄ z hz
    · exact h₃.le

theorem selectionSort_perm (n : Nat) (l : List Neuron) : (selectionSort n l).Perm l := by
  induction n generalizing l with
  | zero => exact List.Perm.refl _
  | succ n ih =>
    cases l with
    | nil => exact List.Perm.refl _
    | cons x xs => exact ((ih _).cons _).trans (swapSmallest_spec x xs).1

theorem selectionSort_sorted (n : Nat) (l : List Neuron) (h : l.length ≤ n) :
    (selectionSort n l).Pairwise (fun x y => x.green ≤ y.green) := by
  induction n generalizing l with
  | zero =>
    have : l = [] := List.eq_nil_of_length_eq_zero (by omega)
    subst this
    exact List.Pairwise.nil
  | succ n ih =>
    cases l with
    | nil => exact List.Pairwise.nil
    | cons x xs =>
      refine List.pairwise_cons.mpr ⟨fun z hz => ?_, ih _ ?_⟩
      · exact (swapSmallest_spec x xs).2 z ((selectionSort_perm n _).mem_iff.mp hz)
      · rw [length_swapSmallest]
        simpa using h

theorem sortNetwork_perm (network : Ram Neuron 256) : (sortNetwork network).cells.Perm network.cells :=
  selectionSort_perm _ _

theorem sortNetwork_sorted (network : Ram Neuron 256) :
    (sortNetwork network).cells.Pairwise (fun x y => x.g.toInt ≤ y.g.toInt) :=
  selectionSort_sorted _ _ (by rw [network.size_eq])

/-! ### Counting greens -/

/-- How many neurons of a list have a green below `v`. -/
def countBelow (l : List Neuron) (v : Int) : Nat := (l.filter fun x => decide (x.g.toInt < v)).length

theorem greensBelow_eq (network : Ram Neuron 256) (v : Int) : greensBelow network v = countBelow network.cells v := rfl

theorem countBelow_perm (l m : List Neuron) (h : l.Perm m) (v : Int) : countBelow l v = countBelow m v :=
  (h.filter _).length_eq

theorem countBelow_le (l : List Neuron) (v : Int) : countBelow l v ≤ l.length := List.length_filter_le _ _

theorem countBelow_mono (l : List Neuron) (v w : Int) (h : v ≤ w) : countBelow l v ≤ countBelow l w := by
  unfold countBelow
  induction l with
  | nil => simp
  | cons x xs ih =>
    simp only [List.filter_cons]
    by_cases h₁ : x.g.toInt < v
    · have h₂ : x.g.toInt < w := by omega
      simpa [h₁, h₂] using ih
    · by_cases h₂ : x.g.toInt < w
      · simp only [h₁, h₂, decide_true, decide_false, if_true, List.length_cons]
        exact le_trans ih (Nat.le_succ _)
      · simpa [h₁, h₂] using ih

theorem countBelow_all (l : List Neuron) (v : Int) (h : ∀ x ∈ l, x.g.toInt < v) : countBelow l v = l.length := by
  unfold countBelow
  rw [List.filter_eq_self.mpr]
  intro x hx
  simpa using h x hx

theorem countBelow_none (l : List Neuron) (v : Int) (h : ∀ x ∈ l, v ≤ x.g.toInt) : countBelow l v = 0 := by
  unfold countBelow
  rw [List.filter_eq_nil_iff.mpr]
  · rfl
  · intro x hx
    simpa using h x hx

/-- A sorted list: the positions below the count are the ones below the green. -/
theorem sorted_lt_iff (l : List Neuron) (hs : l.Pairwise (fun x y => x.g.toInt ≤ y.g.toInt)) (v : Int) (p : Nat)
    (x : Neuron) (hx : l[p]? = some x) : x.g.toInt < v ↔ p < countBelow l v := by
  induction l generalizing p with
  | nil => simp at hx
  | cons y ys ih =>
    rw [List.pairwise_cons] at hs
    by_cases hy : y.g.toInt < v
    · have hc : countBelow (y :: ys) v = countBelow ys v + 1 := by simp [countBelow, hy]
      cases p with
      | zero =>
        have hx' : y = x := by simpa using hx
        rw [hc, ← hx']
        simp [hy]
      | succ p =>
        rw [hc, ih hs.2 p (by simpa using hx)]
        omega
    · have hle : ∀ z ∈ y :: ys, v ≤ z.g.toInt := by
        intro z hz
        rcases List.mem_cons.mp hz with rfl | hz
        · omega
        · have := hs.1 z hz
          omega
      rw [countBelow_none _ _ hle]
      have := hle x (List.mem_of_getElem? hx)
      omega

/-! ### The index (R164) -/

/-- The closed form of R164, present and absent greens alike: the midpoint of the first position with this green or
more and the first with a greater green, the latter at most 255. -/
def indexEntry (l : List Neuron) (v : Int) : Nat := (countBelow l v + min (countBelow l (v + 1)) 255) / 2

theorem indexAt_read (v : Int) (x : Nat) (t : Ram Byte 256) (k : Nat) (h : k < 256) :
    (indexAt v x t).read k 0 = if (k : Int) = v then BitVec.ofNat 8 x else t.read k 0 :=
  Ram.mapIdx_read _ _ _ _ _ h

theorem indexBetween_read (lo hi : Int) (x : Nat) (t : Ram Byte 256) (k : Nat) (h : k < 256) :
    (indexBetween lo hi x t).read k 0 = if lo < (k : Int) ∧ (k : Int) < hi then BitVec.ofNat 8 x else t.read k 0 :=
  Ram.mapIdx_read _ _ _ _ _ h

/-- What holds of the bucketing before position `i` of the sorted list `l`. -/
structure IndexInv (l : List Neuron) (i : Nat) (k : IndexJob) : Prop where
  low : 0 ≤ k.previouscol
  high : k.previouscol ≤ 255
  start : k.startpos = countBelow l k.previouscol
  first : i = 0 → k.previouscol = 0
  last : ∀ x, l[i - 1]? = some x → 0 < i → x.g.toInt = k.previouscol
  done : ∀ v : Nat, (v : Int) < k.previouscol → (k.netindex.read v 0).toNat = indexEntry l v

theorem indexStep_inv (l : List Neuron) (hs : l.Pairwise (fun x y => x.g.toInt ≤ y.g.toInt))
    (hg : ∀ x ∈ l, 0 ≤ x.g.toInt ∧ x.g.toInt ≤ 255) (hn : l.length ≤ 256) (i : Nat) (x : Neuron) (hx : l[i]? = some x)
    (k : IndexJob) (h : IndexInv l i k) : IndexInv l (i + 1) (indexStep i x.green k) := by
  have hxg := hg x (List.mem_of_getElem? hx)
  have hi : i < l.length := by
    by_contra hc
    rw [List.getElem?_eq_none (by omega)] at hx
    cases hx
  -- the green before this position is `previouscol`, and no green before it is larger
  have hprev : 0 < i → ∃ y, l[i - 1]? = some y ∧ y.g.toInt = k.previouscol := by
    intro h0
    have : i - 1 < l.length := by omega
    exact ⟨l[i - 1], List.getElem?_eq_getElem this, h.last _ (List.getElem?_eq_getElem this) h0⟩
  have hge : k.previouscol ≤ x.green := by
    by_cases h0 : i = 0
    · rw [h.first h0]
      exact hxg.1
    · obtain ⟨y, hy, hyg⟩ := hprev (by omega)
      by_contra hc
      have h₁ := (sorted_lt_iff l hs k.previouscol i x hx).mp (by simpa [Neuron.green] using hc)
      have h₂ := (sorted_lt_iff l hs k.previouscol (i - 1) y hy).mpr (by omega)
      omega
  unfold indexStep
  split_ifs with hne
  · have hlt : k.previouscol < x.g.toInt := by
      have : x.g.toInt ≠ k.previouscol := hne
      have : k.previouscol ≤ x.g.toInt := hge
      omega
    -- every green above `previouscol` and up to this one starts at this position
    have hfirst : ∀ v : Int, k.previouscol < v → v ≤ x.g.toInt → countBelow l v = i := by
      intro v h₁ h₂
      have ha : ¬ i < countBelow l v := by
        rw [← sorted_lt_iff l hs v i x hx]
        omega
      have hb : 0 < i → i - 1 < countBelow l v := by
        intro h0
        obtain ⟨y, hy, hyg⟩ := hprev h0
        rw [← sorted_lt_iff l hs v (i - 1) y hy]
        omega
      omega
    refine ⟨hxg.1, hxg.2, (hfirst _ hlt le_rfl).symm, by omega, ?_, ?_⟩
    · intro y hy _
      rw [Nat.add_sub_cancel, hx] at hy
      cases hy
      rfl
    · intro v hv
      have hv256 : v < 256 := by
        have : (v : Int) < x.g.toInt := hv
        omega
      have hvx : (v : Int) < x.g.toInt := hv
      have hgreen : x.green = x.g.toInt := rfl
      simp only [indexBetween_read _ _ _ _ _ hv256, indexAt_read _ _ _ _ hv256]
      have hc := hfirst (k.previouscol + 1) (by omega) (by omega)
      split_ifs with h₁ h₂
      · have e₁ := hfirst v h₁.1 (by omega)
        have e₂ := hfirst (v + 1) (by omega) (by omega)
        rw [indexEntry, e₁, e₂, BitVec.toNat_ofNat]
        omega
      · have hst := h.start
        have hle : countBelow l k.previouscol ≤ i := by
          rw [← hc]
          exact countBelow_mono _ _ _ (by omega)
        rw [indexEntry, h₂, hc, hst, BitVec.toNat_ofNat]
        omega
      · exact h.done v (by omega)
  · have he : x.g.toInt = k.previouscol := by simpa [Neuron.green] using hne
    refine ⟨h.low, h.high, h.start, by omega, ?_, h.done⟩
    intro y hy _
    rw [Nat.add_sub_cancel, hx] at hy
    cases hy
    exact he

theorem indexLoop_inv (l : List Neuron) (hs : l.Pairwise (fun x y => x.g.toInt ≤ y.g.toInt))
    (hg : ∀ x ∈ l, 0 ≤ x.g.toInt ∧ x.g.toInt ≤ 255) (hn : l.length ≤ 256) (i : Nat) (rest : List Neuron)
    (hr : l.drop i = rest) (k : IndexJob) (h : IndexInv l i k) (hi : i ≤ l.length) :
    IndexInv l l.length (indexLoop i rest k) := by
  induction rest generalizing i k with
  | nil =>
    have : l.length ≤ i := by simpa using hr
    have : i = l.length := by omega
    subst this
    exact h
  | cons x xs ih =>
    have hlt : i < l.length := by
      by_contra hc
      rw [List.drop_eq_nil_of_le (by omega)] at hr
      cases hr
    have hx : l[i]? = some x := by
      rw [← List.head?_drop, hr]
      rfl
    refine ih (i + 1) ?_ _ (indexStep_inv l hs hg hn i x hx k h) (by omega)
    rw [← List.drop_drop, hr]
    rfl

/-- `netindex` after the bucketing of a sorted network of byte greens (R164); what the table held before is gone. -/
theorem buildIndex_read (sorted : Ram Neuron 256) (t : Ram Byte 256)
    (hs : sorted.cells.Pairwise (fun x y => x.g.toInt ≤ y.g.toInt))
    (hg : ∀ x ∈ sorted.cells, 0 ≤ x.g.toInt ∧ x.g.toInt ≤ 255) (v : Nat) (hv : v < 256) :
    ((buildIndex sorted t).read v 0).toNat = indexEntry sorted.cells v := by
  have hlen := sorted.size_eq
  have h0 : IndexInv sorted.cells 0 ⟨0, 0, t⟩ :=
    ⟨le_rfl, by norm_num, (countBelow_none _ _ fun x hx => (hg x hx).1).symm, fun _ => rfl, by omega, by
      intro v hv
      simp at hv
      omega⟩
  have h := indexLoop_inv sorted.cells hs hg (by omega) 0 sorted.cells rfl _ h0 (by omega)
  rw [hlen] at h
  set k := indexLoop 0 sorted.cells ⟨0, 0, t⟩ with hk
  -- every green is at most the last one
  have hall : ∀ w : Int, k.previouscol < w → countBelow sorted.cells w = 256 := by
    intro w hw
    refine (countBelow_all _ _ fun x hx => ?_).trans hlen
    obtain ⟨p, hp, rfl⟩ := List.getElem_of_mem hx
    have h255 : 255 < sorted.cells.length := by omega
    have hlast := h.last _ (List.getElem?_eq_getElem h255) (by norm_num)
    have h₁ := (sorted_lt_iff sorted.cells hs w 255 _ (List.getElem?_eq_getElem h255)).mp (by omega)
    exact (sorted_lt_iff sorted.cells hs w p _ (List.getElem?_eq_getElem hp)).mpr (by omega)
  have hle := countBelow_le sorted.cells k.previouscol
  show ((indexFinish k).read v 0).toNat = _
  unfold indexFinish
  rw [indexBetween_read _ _ _ _ _ hv, indexAt_read _ _ _ _ hv]
  split_ifs with h₁ h₂
  · rw [indexEntry, hall v h₁.1, hall (v + 1) (by omega)]
    rfl
  · have hst := h.start
    rw [indexEntry, h₂, hall (k.previouscol + 1) (by omega), hst, BitVec.toNat_ofNat]
    norm_num [Config.maxnetpos]
    omega
  · refine h.done v ?_
    by_contra hc
    apply h₁
    simp only [Config.netsize]
    omega

/-- The bucketing writes every entry: the table before does not show (R164). -/
theorem buildIndex_all (sorted : Ram Neuron 256) (t t' : Ram Byte 256)
    (hs : sorted.cells.Pairwise (fun x y => x.g.toInt ≤ y.g.toInt))
    (hg : ∀ x ∈ sorted.cells, 0 ≤ x.g.toInt ∧ x.g.toInt ≤ 255) : buildIndex sorted t = buildIndex sorted t' := by
  apply Ram.ext_read _ _ 0
  intro k hk
  apply BitVec.eq_of_toNat_eq
  rw [buildIndex_read _ _ hs hg k hk, buildIndex_read _ _ hs hg k hk]

/-- Lane 3 is a permutation of the positions (10_state.md R30, R163). -/
abbrev IndexPerm (network : Ram Neuron 256) : Prop :=
  (network.cells.map fun x => x.index.toInt).Perm ((List.range 256).map Int.ofNat)

/-- What `NQ.INXBUILD` leaves in the network (R163). -/
theorem inxBuild_shape (q : NqState) (h : ∀ x ∈ q.network.cells, LanesIn 255 x) (hi : IndexPerm q.network) :
    (∀ x ∈ (inxBuild q).network.cells, LanesIn 255 x) ∧ IndexPerm (inxBuild q).network ∧
      (inxBuild q).network.cells.Pairwise (fun x y => x.g.toInt ≤ y.g.toInt) := by
  have hp := sortNetwork_perm q.network
  exact ⟨fun x hx => h x (hp.mem_iff.mp hx), (hp.map _).trans hi, sortNetwork_sorted _⟩

/-- What `NQ.INXBUILD` leaves in `netindex`: a split of the sorted positions by green (43_nq_map.md R192). -/
theorem inxBuild_splits (q : NqState) (h : ∀ x ∈ q.network.cells, LanesIn 255 x) (g : Nat) (hg : g < 256) (p : Nat)
    (hp : p < 256) :
    (((inxBuild q).netindex.read g 0).toNat ≤ p → p < 255 →
        (g : Int) ≤ ((inxBuild q).network.read p Neuron.zero).g.toInt) ∧
      (p < ((inxBuild q).netindex.read g 0).toNat → ((inxBuild q).network.read p Neuron.zero).g.toInt ≤ g) := by
  have hs := sortNetwork_sorted q.network
  have hgr : ∀ x ∈ (sortNetwork q.network).cells, 0 ≤ x.g.toInt ∧ x.g.toInt ≤ 255 :=
    fun x hx => (h x ((sortNetwork_perm _).mem_iff.mp hx)).2.1
  have hb := buildIndex_read (sortNetwork q.network) q.netindex hs hgr g hg
  have hx := Ram.read_getElem? (sortNetwork q.network) p Neuron.zero hp
  have h₁ := sorted_lt_iff _ hs g p _ hx
  have h₂ := sorted_lt_iff _ hs (g + 1) p _ hx
  have hm := countBelow_mono (sortNetwork q.network).cells g (g + 1) (by omega)
  rw [inxBuild, indexEntry] at *
  simp only [hb]
  constructor
  · intro h₃ h₄
    by_contra hc
    have := h₁.mp (by omega)
    omega
  · intro h₃
    have := h₂.mpr (by omega)
    omega

/-! ### The palette (R166, R167) -/

/-- `inverseEntry` finds the one position whose lane 3 is `k`. -/
theorem inverseEntry_spec (k n : Nat) (xs : List Neuron) (found : Option Nat) :
    (inverseEntry k n xs found = found ∧ ∀ x ∈ xs, x.index.toInt ≠ k) ∨
      ∃ i x, inverseEntry k n xs found = some (n + i) ∧ xs[i]? = some x ∧ x.index.toInt = k := by
  induction xs generalizing n found with
  | nil => exact .inl ⟨rfl, by simp⟩
  | cons y ys ih =>
    unfold inverseEntry
    rcases ih (n + 1) (if y.index.toInt = k then some n else found) with ⟨h₁, h₂⟩ | ⟨i, x, h₁, h₂, h₃⟩
    · by_cases hy : y.index.toInt = k
      · refine .inr ⟨0, y, ?_, rfl, hy⟩
        rw [h₁, if_pos hy]
        rfl
      · refine .inl ⟨by rw [h₁, if_neg hy], fun x hx => ?_⟩
        rcases List.mem_cons.mp hx with rfl | hx
        · exact hy
        · exact h₂ x hx
    · exact .inr ⟨i + 1, x, by rw [h₁]; congr 1; omega, by simpa using h₂, h₃⟩

theorem paletteTriple_length (o : PaletteOrder) (x : Neuron) : (paletteTriple o x).length = 3 := by cases o <;> rfl

theorem paletteBytes_getElem? (o : PaletteOrder) (l : List Neuron) (n k i c : Nat) (hi : i < n) (hc : c < 3) :
    (paletteBytes o l n k)[3 * i + c]? = (paletteTriple o (l.getD (palettePosition l (k + i)) Neuron.zero))[c]? := by
  induction n generalizing k i with
  | zero => omega
  | succ n ih =>
    unfold paletteBytes
    cases i with
    | zero =>
      rw [List.getElem?_append_left (by rw [paletteTriple_length]; omega)]
      simp
    | succ i =>
      rw [List.getElem?_append_right (by rw [paletteTriple_length]; omega), paletteTriple_length]
      have : 3 * (i + 1) + c - 3 = 3 * i + c := by omega
      rw [this, ih (k + 1) i (by omega)]
      congr 4
      omega

theorem setWidth_byte (w : Word) (h : 0 ≤ w.toInt ∧ w.toInt ≤ 255) : ((w.setWidth 8).toNat : Int) = w.toInt := by
  have hw := w.isLt
  rw [BitVec.toInt_eq_toNat_cond] at h ⊢
  rw [BitVec.toNat_setWidth]
  split_ifs at h ⊢ <;> omega

/-- The palette entry that a neuron's lane 3 names shows that neuron, where lane 3 tells the neurons apart. -/
theorem colorMap_shows (o : PaletteOrder) (q : NqState) (x : Neuron) (k : Nat) (hk : k < 256)
    (hx : x ∈ q.network.cells) (hi : x.index.toInt = k) (hl : LanesIn 255 x)
    (huniq : ∀ y ∈ q.network.cells, y.index.toInt = k → y = x) : PaletteShows o (colorMap o q).pal k x := by
  have hpos : q.network.cells.getD (palettePosition q.network.cells k) Neuron.zero = x := by
    unfold palettePosition
    rcases inverseEntry_spec k 0 q.network.cells none with ⟨_, h₂⟩ | ⟨i, y, h₁, h₂, h₃⟩
    · exact absurd hi (h₂ x hx)
    · rw [h₁]
      simp only [Nat.zero_add, List.getD_eq_getElem?_getD, h₂, Option.getD_some]
      exact huniq y (List.mem_of_getElem? h₂) h₃
  have hread : ∀ c, c < 3 → (colorMap o q).pal.read (3 * k + c) 0 = ((paletteTriple o x)[c]?).getD 0 := by
    intro c hc
    rw [Ram.read, List.getD_eq_getElem?_getD]
    show ((paletteBytes o q.network.cells 256 0)[3 * k + c]?).getD 0 = _
    rw [paletteBytes_getElem? o q.network.cells 256 0 k c hk hc, Nat.zero_add, hpos]
  have h0 := hread 0 (by norm_num)
  have h1 := hread 1 (by norm_num)
  have h2 := hread 2 (by norm_num)
  obtain ⟨hb, hg, hr⟩ := hl
  cases o <;> simp only [PaletteShows, Nat.add_zero] at * <;> rw [h0, h1, h2] <;>
    simp only [paletteTriple, List.getElem?_cons_zero, List.getElem?_cons_succ, Option.getD_some]
  · exact ⟨setWidth_byte _ hr, setWidth_byte _ hg, setWidth_byte _ hb⟩
  · exact ⟨setWidth_byte _ hb, setWidth_byte _ hg, setWidth_byte _ hr⟩

/-- Where lane 3 is a permutation, a lane-3 value names its neuron. -/
theorem index_unique (network : Ram Neuron 256) (hi : IndexPerm network) (x y : Neuron) (hx : x ∈ network.cells)
    (hy : y ∈ network.cells) (h : y.index.toInt = x.index.toInt) : y = x := by
  have hnd : (network.cells.map fun x => x.index.toInt).Nodup :=
    hi.nodup_iff.mpr (List.nodup_range.map fun a b h => by simpa using h)
  exact List.inj_on_of_nodup_map hnd hy hx h

/-- Where lane 3 is a permutation, every lane-3 value is a position. -/
theorem index_lt (network : Ram Neuron 256) (hi : IndexPerm network) (x : Neuron) (hx : x ∈ network.cells) :
    x.index.toNat < 256 ∧ x.index.toInt = x.index.toNat := by
  have hm : x.index.toInt ∈ (List.range 256).map Int.ofNat :=
    hi.mem_iff.mp (List.mem_map_of_mem (f := fun x : Neuron => x.index.toInt) hx)
  obtain ⟨k, hk, he⟩ := List.mem_map.mp hm
  have hk : k < 256 := by simpa using hk
  have hlt := x.index.isLt
  have he' : x.index.toInt = k := he.symm
  rw [BitVec.toInt_eq_toNat_cond] at he' ⊢
  split_ifs at he' ⊢ <;> omega

/-- Where lane 3 is a permutation, every position is some neuron's. -/
theorem index_surjective (network : Ram Neuron 256) (hi : IndexPerm network) (k : Nat) (hk : k < 256) :
    ∃ x ∈ network.cells, x.index.toNat = k := by
  have hm : (k : Int) ∈ network.cells.map fun x => x.index.toInt :=
    hi.mem_iff.mpr (List.mem_map.mpr ⟨k, by simpa using hk, rfl⟩)
  obtain ⟨x, hx, he⟩ := List.mem_map.mp hm
  have := (index_lt network hi x hx).2
  exact ⟨x, hx, by omega⟩

/-- After `NQ.COLORMAP` each neuron's colour stands in the entry its lane 3 names (R167). -/
theorem colorMap_current (o : PaletteOrder) (q : NqState) (hl : ∀ x ∈ q.network.cells, LanesIn 255 x)
    (hi : IndexPerm q.network) (x : Neuron) (hx : x ∈ q.network.cells) :
    PaletteShows o (colorMap o q).pal x.index.toNat x := by
  obtain ⟨h₁, h₂⟩ := index_lt q.network hi x hx
  refine colorMap_shows o q x _ h₁ hx h₂ (hl x hx) fun y hy he => ?_
  exact index_unique q.network hi x y hx hy (he.trans h₂.symm)

/-- The palette does not depend on what `PAL` held before (R166). -/
theorem colorMap_pal (o : PaletteOrder) (q q' : NqState) (h : q'.network = q.network) :
    (colorMap o q').pal = (colorMap o q).pal := by
  apply Ram.cells_ext
  rw [colorMap, colorMap]
  simp [h]

end Sys2Proof.Laws
end

