-- ==== Sys2Proof/Laws/PerInstr.lean ====
section
/-! SUPPORT. Laws/PerInstr.lean: the family `OpcodeField`, one lemma per command: the word of a command carries its opcode in
bits 31:24 and its operands in bits 23:0 (30_encoding.md R90 to R95). -/

namespace Sys2Proof.Laws

/-- The word of a command that has one: opcode and operands stand in their fields. -/
def OpcodeField.Statement (i : Instr) : Prop :=
  i.wellFormed = true → field (encode i) 31 24 = i.opcode ∧ field (encode i) 23 0 = i.operandBits

/-- An opcode of 8 bits above 24 operand bits: both are read back. -/
theorem field_of_parts (op bits : Nat) (ho : op < 256) (hb : bits < 16777216) :
    field (BitVec.ofNat 32 (op * 2 ^ 24 + bits)) 31 24 = op ∧ field (BitVec.ofNat 32 (op * 2 ^ 24 + bits)) 23 0 = bits := by
  simp only [field, BitVec.toNat_ofNat]
  omega

theorem OpcodeField.nqInit (sf : Nat) : OpcodeField.Statement (.nqInit sf) := fun h => by
  have hsf : sf < 32 := by simpa [Instr.wellFormed] using h
  exact field_of_parts 0x10 sf (by norm_num) (by omega)

theorem OpcodeField.nqLearn : OpcodeField.Statement .nqLearn := fun _ => field_of_parts 0x11 0 (by norm_num) (by norm_num)

theorem OpcodeField.nqUnbias : OpcodeField.Statement .nqUnbias := fun _ => field_of_parts 0x12 0 (by norm_num) (by norm_num)

theorem OpcodeField.nqInxbuild : OpcodeField.Statement .nqInxbuild :=
  fun _ => field_of_parts 0x13 0 (by norm_num) (by norm_num)

theorem OpcodeField.nqColormap : OpcodeField.Statement .nqColormap :=
  fun _ => field_of_parts 0x14 0 (by norm_num) (by norm_num)

theorem OpcodeField.nqProcess : OpcodeField.Statement .nqProcess :=
  fun _ => field_of_parts 0x15 0 (by norm_num) (by norm_num)

theorem OpcodeField.nqMap (b g r : Nat) : OpcodeField.Statement (.nqMap b g r) := fun h => by
  have hbgr : (b < 256 ∧ g < 256) ∧ r < 256 := by simpa [Instr.wellFormed] using h
  exact field_of_parts 0x16 (r * 2 ^ 16 + g * 2 ^ 8 + b) (by norm_num) (by omega)

theorem OpcodeField.nqMapbuf : OpcodeField.Statement .nqMapbuf :=
  fun _ => field_of_parts 0x17 0 (by norm_num) (by norm_num)

theorem OpcodeField.lzInit (depth : Nat) : OpcodeField.Statement (.lzInit depth) := fun h => by
  have hd : depth < 16 := by simpa [Instr.wellFormed] using h
  exact field_of_parts 0x20 depth (by norm_num) (by omega)

theorem OpcodeField.lzEncode : OpcodeField.Statement .lzEncode := fun _ => field_of_parts 0x21 0 (by norm_num) (by norm_num)

end Sys2Proof.Laws
end

