-- ==== Sys2Proof/Laws/Search.lean ====
section
/-! SUPPORT. Laws/Search.lean: what the pruned search of `Map` returns (43_nq_map.md R191, R192): the first neuron of the
visiting order among those at the least distance. -/

namespace Sys2Proof.Laws

open Sys2Proof.Machine Sys2Proof.Safety

/-- A candidate replaces the best when it is strictly nearer, whatever lane settles it (R191). -/
theorem consider_eq (c : Colour) (x : Neuron) (m : MapBest) :
    m.consider c x = if (dist x c : Int) < m.bestd then ⟨dist x c, x.index.toInt⟩ else m := by
  have hd : dist x c = (x.g.toInt - c.g).natAbs + (x.b.toInt - c.b).natAbs + (x.r.toInt - c.r).natAbs := by
    unfold Machine.dist
    omega
  unfold MapBest.consider
  simp only [hd]
  split_ifs with h₁ h₂ <;> first | rfl | (exfalso; omega)

/-- The signed green distance on either side is at most the distance. -/
theorem green_le_dist (x : Neuron) (c : Colour) : x.g.toInt - c.g ≤ dist x c ∧ c.g - x.g.toInt ≤ dist x c := by
  unfold Machine.dist
  omega

/-- What the best candidate is, once the positions of a rank below `n` are settled. -/
def BestBelow (l : List Neuron) (c : Colour) (i0 n : Nat) (m : MapBest) : Prop :=
  (n = 0 ∧ m = ⟨Config.mapInitDist, -1⟩) ∨
    ∃ p x, l[p]? = some x ∧ visitRank i0 p < n ∧ m = ⟨dist x c, x.index.toInt⟩ ∧
      ∀ q y, l[q]? = some y → visitRank i0 q < n →
        dist x c ≤ dist y c ∧ (dist y c = dist x c → visitRank i0 p ≤ visitRank i0 q)

/-- A position of the next rank that is not strictly nearer, or that there is none, settles nothing new. -/
theorem BestBelow.skip {l : List Neuron} {c : Colour} {i0 n : Nat} {m : MapBest} (h : BestBelow l c i0 n m) (hn : 0 < n)
    (hq : ∀ q y, l[q]? = some y → visitRank i0 q = n → m.bestd ≤ dist y c) : BestBelow l c i0 (n + 1) m := by
  rcases h with ⟨h, _⟩ | ⟨p, x, hx, hr, rfl, hmin⟩
  · omega
  · refine .inr ⟨p, x, hx, by omega, rfl, fun q y hy hrq => ?_⟩
    by_cases he : visitRank i0 q = n
    · have := hq q y hy he
      simp only at this
      exact ⟨by omega, fun _ => by omega⟩
    · exact hmin q y hy (by omega)

/-- The position of the next rank is considered. -/
theorem BestBelow.consider {l : List Neuron} {c : Colour} {i0 n : Nat} {m : MapBest} (h : BestBelow l c i0 n m)
    (hfar : ∀ x ∈ l, (dist x c : Int) < Config.mapInitDist) (q : Nat) (y : Neuron) (hy : l[q]? = some y)
    (hq : visitRank i0 q = n) (huniq : ∀ q', visitRank i0 q' = n → q' = q) :
    BestBelow l c i0 (n + 1) (m.consider c y) := by
  rw [consider_eq]
  have hnew : ∀ q' y', l[q']? = some y' → visitRank i0 q' = n → y' = y := by
    intro q' y' hy' hr
    rw [huniq q' hr, hy] at hy'
    exact (Option.some.inj hy').symm
  rcases h with ⟨h₀, rfl⟩ | ⟨p, x, hx, hr, rfl, hmin⟩
  · rw [if_pos (hfar y (List.mem_of_getElem? hy))]
    refine .inr ⟨q, y, hy, by omega, rfl, fun q' y' hy' hr => ?_⟩
    rw [hnew q' y' hy' (by omega)]
    exact ⟨le_rfl, fun _ => by omega⟩
  · split_ifs with hlt
    · simp only at hlt
      refine .inr ⟨q, y, hy, by omega, rfl, fun q' y' hy' hr' => ?_⟩
      by_cases he : visitRank i0 q' = n
      · rw [hnew q' y' hy' he]
        exact ⟨le_rfl, fun _ => by omega⟩
      · have := (hmin q' y' hy' (by omega)).1
        exact ⟨by omega, fun _ => by omega⟩
    · simp only at hlt
      refine .inr ⟨p, x, hx, by omega, rfl, fun q' y' hy' hr' => ?_⟩
      by_cases he : visitRank i0 q' = n
      · rw [hnew q' y' hy' he]
        exact ⟨by omega, fun _ => by omega⟩
      · exact hmin q' y' hy' (by omega)

/-- What one side of the search still has to look at: everything from `ps` on, or nothing, because nothing there is
strictly nearer than the best. -/
def SideLeft (c : Colour) (left rest : List Neuron) (m : MapBest) : Prop :=
  left = rest ∨ (left = [] ∧ ∀ x ∈ rest, m.bestd ≤ dist x c)

theorem consider_le (c : Colour) (x : Neuron) (m : MapBest) : (m.consider c x).bestd ≤ m.bestd := by
  rw [consider_eq]
  split_ifs with h
  · exact h.le
  · exact le_rfl

theorem mapSide_cons (c : Colour) (diff : Neuron → Int) (x : Neuron) (rest : List Neuron) (m : MapBest) :
    mapSide c diff (x :: rest) m = if diff x ≥ m.bestd then ([], m) else (rest, m.consider c x) := rfl

theorem mapSide_le (c : Colour) (diff : Neuron → Int) (left : List Neuron) (m : MapBest) :
    (mapSide c diff left m).2.bestd ≤ m.bestd := by
  cases left with
  | nil => exact le_rfl
  | cons x rest =>
    rw [mapSide_cons]
    split_ifs
    · exact le_rfl
    · exact consider_le c x m

theorem SideLeft.mono {c : Colour} {left rest : List Neuron} {m m' : MapBest}
    (h : SideLeft c left rest m) (hle : m'.bestd ≤ m.bestd) : SideLeft c left rest m' := by
  rcases h with h | ⟨h₁, h₂⟩
  · exact .inl h
  · exact .inr ⟨h₁, fun x hx => hle.trans (h₂ x hx)⟩

/-- One look on one side: `rest` is what the side would see if it never stopped; its first entry has the rank `n`. -/
theorem mapSide_spec (l : List Neuron) (c : Colour) (diff : Neuron → Int) (i0 n : Nat) (left rest : List Neuron)
    (m : MapBest) (hfar : ∀ x ∈ l, (dist x c : Int) < Config.mapInitDist) (hb : BestBelow l c i0 n m)
    (hl : SideLeft c left rest m) (hmem : ∀ x ∈ rest, x ∈ l)
    (hdiff : ∀ x ∈ rest, diff x ≤ dist x c) (hsort : rest.Pairwise (fun x y => diff x ≤ diff y))
    (hfirst : ∀ q y, l[q]? = some y → visitRank i0 q = n → rest.head? = some y)
    (hat : ∀ y, rest.head? = some y → ∃ q, l[q]? = some y ∧ visitRank i0 q = n ∧ ∀ q', visitRank i0 q' = n → q' = q)
    (hn : n = 0 → rest ≠ []) :
    BestBelow l c i0 (n + 1) (mapSide c diff left m).2 ∧
      SideLeft c (mapSide c diff left m).1 rest.tail (mapSide c diff left m).2 := by
  have hpos : (∃ x ∈ rest, m.bestd ≤ (dist x c : Int)) → 0 < n := by
    rintro ⟨x, hx, hle⟩
    rcases hb with ⟨_, rfl⟩ | ⟨p, y, _, hr, _⟩
    · have := hfar x (hmem x hx)
      simp only at hle
      omega
    · omega
  cases rest with
  | nil =>
    have hleft : left = [] := by
      rcases hl with h | ⟨h, _⟩ <;> exact h
    have h0 : 0 < n := Nat.pos_of_ne_zero fun h => hn h rfl
    subst hleft
    refine ⟨hb.skip h0 fun q y hy hr => ?_, .inl rfl⟩
    have := hfirst q y hy hr
    cases this
  | cons x xs =>
    obtain ⟨q, hq, hr, huniq⟩ := hat x rfl
    rcases hl with rfl | ⟨rfl, hstop⟩
    · rw [mapSide_cons]
      split_ifs with hge
      · have hall : ∀ y ∈ x :: xs, m.bestd ≤ (dist y c : Int) := by
          intro y hy
          have h₁ := hdiff y hy
          have h₂ : diff x ≤ diff y := by
            rcases List.mem_cons.mp hy with rfl | hy
            · exact le_rfl
            · exact (List.pairwise_cons.mp hsort).1 y hy
          omega
        have h0 := hpos ⟨x, List.mem_cons_self, hall x List.mem_cons_self⟩
        refine ⟨hb.skip h0 fun q' y hy hr' => ?_, .inr ⟨rfl, fun y hy => hall y (List.mem_cons_of_mem _ hy)⟩⟩
        have := hfirst q' y hy hr'
        cases this
        exact hall x List.mem_cons_self
      · exact ⟨hb.consider hfar q x hq hr huniq, .inl rfl⟩
    · have h0 := hpos ⟨x, List.mem_cons_self, hstop x List.mem_cons_self⟩
      refine ⟨hb.skip h0 fun q' y hy hr' => ?_, .inr ⟨rfl, fun y hy => hstop y (List.mem_cons_of_mem _ hy)⟩⟩
      have := hfirst q' y hy hr'
      cases this
      exact hstop x List.mem_cons_self

theorem visitRank_up (i0 r p : Nat) : visitRank i0 p = 2 * r ↔ p = i0 + r := by
  unfold visitRank
  split_ifs <;> omega

theorem visitRank_down (i0 r p : Nat) : visitRank i0 p = 2 * r + 1 ↔ r < i0 ∧ p = i0 - 1 - r := by
  unfold visitRank
  split_ifs <;> omega

/-- What the downward side would see from round `r` on. -/
def downFrom (l : List Neuron) (n : Nat) : List Neuron := (l.take n).reverse

theorem downFrom_head (l : List Neuron) (n : Nat) (hn : n ≤ l.length) :
    (downFrom l n).head? = if n = 0 then none else l[n - 1]? := by
  unfold downFrom
  rw [List.head?_reverse, List.getLast?_take]
  split_ifs with h
  · rfl
  · have : n - 1 < l.length := by omega
    rw [List.getElem?_eq_getElem this]
    rfl

theorem downFrom_tail (l : List Neuron) (n : Nat) (hn : n ≤ l.length) : (downFrom l n).tail = downFrom l (n - 1) := by
  unfold downFrom
  cases n with
  | zero => rfl
  | succ n =>
    rw [List.take_add_one, List.getElem?_eq_getElem (by omega), List.reverse_append]
    rfl

/-- The rounds from `r` on settle every position. -/
theorem mapLoop_spec (l : List Neuron) (c : Colour) (i0 : Nat) (hi0 : i0 < l.length)
    (hfar : ∀ x ∈ l, (dist x c : Int) < Config.mapInitDist)
    (hup : (l.drop i0).Pairwise (fun x y => x.g.toInt ≤ y.g.toInt))
    (hdown : (l.take i0).Pairwise (fun x y => x.g.toInt ≤ y.g.toInt)) (k r : Nat) (up down : List Neuron) (m : MapBest)
    (hb : BestBelow l c i0 (2 * r) m) (hu : SideLeft c up (l.drop (i0 + r)) m)
    (hd : SideLeft c down (downFrom l (i0 - r)) m) :
    BestBelow l c i0 (2 * (r + k)) (mapLoop c k up down m) := by
  induction k generalizing r up down m with
  | zero => exact hb
  | succ k ih =>
    have hmemU : ∀ x ∈ l.drop (i0 + r), x ∈ l := fun x hx => List.mem_of_mem_drop hx
    have hmemD : ∀ x ∈ downFrom l (i0 - r), x ∈ l := fun x hx => List.mem_of_mem_take (List.mem_reverse.mp hx)
    have hsU : (l.drop (i0 + r)).Pairwise (fun x y => x.g.toInt - c.g ≤ y.g.toInt - c.g) := by
      rw [← List.drop_drop]
      exact (hup.sublist (List.drop_sublist _ _)).imp fun h => by omega
    have hsD : (downFrom l (i0 - r)).Pairwise (fun x y => c.g - x.g.toInt ≤ c.g - y.g.toInt) := by
      unfold downFrom
      rw [List.pairwise_reverse]
      have : l.take (i0 - r) = (l.take i0).take (i0 - r) := by rw [List.take_take]; congr 1; omega
      rw [this]
      exact (hdown.sublist (List.take_sublist _ _)).imp fun h => by omega
    have hheadU : (l.drop (i0 + r)).head? = l[i0 + r]? := List.head?_drop
    have h₁ := mapSide_spec l c (fun x => x.g.toInt - c.g) i0 (2 * r) up (l.drop (i0 + r)) m hfar hb hu hmemU
      (fun x _ => (green_le_dist x c).1) hsU
      (fun q y hy hr => by rw [hheadU, ← (visitRank_up i0 r q).mp hr]; exact hy)
      (fun y hy => ⟨i0 + r, hheadU ▸ hy, (visitRank_up i0 r _).mpr rfl, fun q' h => (visitRank_up i0 r q').mp h⟩)
      (fun h => by
        have : r = 0 := by omega
        subst this
        intro he
        have := List.drop_eq_nil_iff.mp he
        omega)
    have hd' := hd.mono (mapSide_le c (fun x => x.g.toInt - c.g) up m)
    have hheadD := downFrom_head l (i0 - r) (by omega)
    have h₂ := mapSide_spec l c (fun x => c.g - x.g.toInt) i0 (2 * r + 1) down (downFrom l (i0 - r)) _ hfar h₁.1 hd' hmemD
      (fun x _ => (green_le_dist x c).2) hsD
      (fun q y hy hr => by
        obtain ⟨h, rfl⟩ := (visitRank_down i0 r q).mp hr
        rw [hheadD, if_neg (by omega)]
        have : i0 - r - 1 = i0 - 1 - r := by omega
        rw [this]
        exact hy)
      (fun y hy => by
        rw [hheadD] at hy
        split_ifs at hy with h
        refine ⟨i0 - r - 1, hy, (visitRank_down i0 r _).mpr ⟨by omega, by omega⟩, fun q' hq' => ?_⟩
        have := (visitRank_down i0 r q').mp hq'
        omega)
      (fun h => by omega)
    have hu' := h₁.2.mono (mapSide_le c (fun x => c.g - x.g.toInt) down
      (mapSide c (fun x => x.g.toInt - c.g) up m).2)
    rw [List.tail_drop] at hu'
    rw [downFrom_tail _ _ (by omega)] at h₂
    have := ih (r + 1) _ _ _ h₂.1 hu' (by
      have he : i0 - (r + 1) = i0 - r - 1 := by omega
      rw [he]
      exact h₂.2)
    have he : r + 1 + k = r + (k + 1) := by omega
    rw [he] at this
    exact this

/-- `Map` over a sorted network of bytes, wherever `netindex` starts it (R192): lane 3 of the neuron that is first in the visiting order
among those at the least distance. -/
theorem mapColour_spec (network : Ram Neuron 256) (netindex : Ram Byte 256) (c : Colour)
    (hl : ∀ x ∈ network.cells, LanesIn 255 x) (hs : network.cells.Pairwise (fun x y => x.g.toInt ≤ y.g.toInt))
    (hc : ColourIn 255 c) :
    ∃ p, p < 256 ∧ mapColour network netindex c = (network.read p Neuron.zero).index.toInt ∧
      ∀ n, n < 256 →
        dist (network.read p Neuron.zero) c ≤ dist (network.read n Neuron.zero) c ∧
        (dist (network.read n Neuron.zero) c = dist (network.read p Neuron.zero) c →
          visitRank (netindex.read c.g.toNat 0).toNat p ≤ visitRank (netindex.read c.g.toNat 0).toNat n) := by
  have hlen := network.size_eq
  have hi0 : (netindex.read c.g.toNat 0).toNat < network.cells.length := by
    have := (netindex.read c.g.toNat 0).isLt
    omega
  have hfar : ∀ x ∈ network.cells, (dist x c : Int) < Config.mapInitDist := by
    intro x hx
    obtain ⟨hb, hg, hr⟩ := hl x hx
    obtain ⟨cb, cg, cr⟩ := hc
    simp only [Machine.dist, Config.mapInitDist]
    omega
  have h := mapLoop_spec network.cells c (netindex.read c.g.toNat 0).toNat hi0 hfar
    (hs.sublist (List.drop_sublist _ _)) (hs.sublist (List.take_sublist _ _)) Config.netsize 0 _ _
    ⟨Config.mapInitDist, -1⟩ (.inl ⟨rfl, rfl⟩) (.inl rfl) (.inl rfl)
  have hrank : ∀ p, p < 256 → visitRank (netindex.read c.g.toNat 0).toNat p < 2 * (0 + Config.netsize) := by
    intro p hp
    have := (netindex.read c.g.toNat 0).isLt
    simp only [visitRank, Config.netsize]
    split_ifs <;> omega
  rcases h with ⟨h, _⟩ | ⟨p, x, hx, _, hm, hmin⟩
  · simp [Config.netsize] at h
  · have hp : p < 256 := by
      by_contra hn
      rw [List.getElem?_eq_none (by omega)] at hx
      cases hx
    have hxp : network.read p Neuron.zero = x := by
      rw [Ram.read_getElem? network p Neuron.zero hp] at hx
      exact Option.some.inj hx
    refine ⟨p, hp, ?_, fun n hn => ?_⟩
    · rw [hxp]
      have := congrArg MapBest.best hm
      exact this
    · rw [hxp]
      exact hmin n _ (Ram.read_getElem? network n Neuron.zero hn) (hrank n hn)

end Sys2Proof.Laws
end

