-- ==== Sys2Proof/Laws/Step.lean ====
section
/-! SUPPORT. Laws/Step.lean: everything one step can do, said once, and what follows for a property that every command and
every host action keeps. -/

namespace Sys2Proof.Laws

open Sys2Proof.Machine

/-! ### The cases of a step -/

/-- What an action of the host does when the machine goes on; `s` is the state without that action. -/
inductive ActionCase (s : State) : HostAction → State → Prop where
  | command (p : Port) (w : Word) (i : Instr) (t : State) (hb : s.busy p = false) (hd : decode p w = .ok i)
      (he : exec i s = .next t) : ActionCase s (.write .word (cmdOffset p) w) t
  | illegal (p : Port) (w : Word) (e : Illegal) (hb : s.busy p = false) (hd : decode p w = .error e) :
      ActionCase s (.write .word (cmdOffset p) w) (endCommand p .illegalCommand s)
  | discardNq (w : Word) (hb : s.nq.busy = true) :
      ActionCase s (.write .word (cmdOffset .nq) w) { s with nq := { s.nq with sticky := true } }
  | discardLz (w : Word) (hb : s.lz.busy = true) :
      ActionCase s (.write .word (cmdOffset .lz) w) { s with lz := { s.lz with sticky := true } }
  | writeLen (v : Word) : ActionCase s (.write .word 0x008 v) { s with nq := { s.nq with len := v } }
  | writeWidth (v : Word) : ActionCase s (.write .word 0x108 v) { s with lz := { s.lz with width := v.setWidth 16 } }
  | writeHeight (v : Word) : ActionCase s (.write .word 0x10C v) { s with lz := { s.lz with height := v.setWidth 16 } }
  | writePixlen (v : Word) : ActionCase s (.write .word 0x110 v) { s with lz := { s.lz with pixlen := v } }
  | writeIgnored (o : BitVec 12) (v : Word) : ActionCase s (.write .word o v) s
  | read (o : BitVec 12) (v : Word) (hv : windowRead s o.toNat = .ok v) :
      ActionCase s (.read .word o) { s with lastRead := some v }
  | attachSrc (bytes : List Byte) (h : bytes.length < 2 ^ 32) :
      ActionCase s (.attachSrc bytes) { s with src := Buffer.ofBytes bytes }
  | attachIdx (bytes : List Byte) (h : bytes.length < 2 ^ 32) :
      ActionCase s (.attachIdx bytes) { s with idx := Buffer.ofBytes bytes }
  | attachPix (bytes : List Byte) (h : bytes.length < 2 ^ 32) :
      ActionCase s (.attachPix bytes) { s with pix := Buffer.ofBytes bytes }
  | idxToPix : ActionCase s .idxToPix { s with pix := s.idx }
  | connectSink (sink : Sink) : ActionCase s (.connectSink sink) { s with sink := sink, out := [] }
  | reset : ActionCase s .reset (resetCore s)

/-- Where a word written to a command register goes (30_encoding.md R99, 70_reset_and_hazards.md R310). -/
theorem submit_next (p : Port) (w : Word) (s t : State) (h : submit p w s = .next t) :
    (s.busy p = true ∧ discardCommand p s = .next t) ∨
    (s.busy p = false ∧ ∃ i, decode p w = .ok i ∧ exec i s = .next t) ∨
    (s.busy p = false ∧ ∃ e, decode p w = .error e ∧ t = endCommand p .illegalCommand s) := by
  unfold submit runWord at h
  split_ifs at h with hb
  · exact .inl ⟨hb, h⟩
  · have hb : s.busy p = false := by simpa using hb
    cases hd : decode p w with
    | ok i => exact .inr (.inl ⟨hb, i, rfl, by simpa [hd] using h⟩)
    | error e => exact .inr (.inr ⟨hb, e, rfl, by simpa [hd, eq_comm] using h⟩)

theorem submit_case (p : Port) (w : Word) (s t : State) (h : submit p w s = .next t) :
    ActionCase s (.write .word (cmdOffset p) w) t := by
  rcases submit_next p w s t h with ⟨hb, h⟩ | ⟨hb, i, hd, h⟩ | ⟨hb, e, hd, rfl⟩
  · cases p <;> cases h
    · exact .discardNq w hb
    · exact .discardLz w hb
  · exact .command p w i t hb hd h
  · exact .illegal p w e hb hd

/-- Which register an offset names (10_state.md R22). -/
theorem csrAt_cases (o : Nat) :
    (o = 0x000 ∧ csrAt o = some .nqCmd) ∨ (o = 0x004 ∧ csrAt o = some .nqStatus) ∨ (o = 0x008 ∧ csrAt o = some .nqLen) ∨
    (o = 0x00C ∧ csrAt o = some .nqMapres) ∨ (o = 0x100 ∧ csrAt o = some .lzCmd) ∨
    (o = 0x104 ∧ csrAt o = some .lzStatus) ∨ (o = 0x108 ∧ csrAt o = some .lzWidth) ∨
    (o = 0x10C ∧ csrAt o = some .lzHeight) ∨ (o = 0x110 ∧ csrAt o = some .lzPixlen) ∨
    (o = 0x114 ∧ csrAt o = some .lzOutlen) ∨
    ((0x400 ≤ o ∧ o ≤ 0x6FC ∧ o % 4 = 0) ∧ csrAt o = some (.palW ((o - 0x400) / 4))) ∨
    ((o ∉ [0x000, 0x004, 0x008, 0x00C, 0x100, 0x104, 0x108, 0x10C, 0x110, 0x114] ∧
      (o % 4 = 0 → o < 0x400 ∨ 0x6FC < o)) ∧ csrAt o = none) := by
  by_cases h0 : o = 0x000
  · subst h0
    exact .inl ⟨rfl, rfl⟩
  by_cases h1 : o = 0x004
  · subst h1
    exact .inr (.inl ⟨rfl, rfl⟩)
  by_cases h2 : o = 0x008
  · subst h2
    exact .inr (.inr (.inl ⟨rfl, rfl⟩))
  by_cases h3 : o = 0x00C
  · subst h3
    exact .inr (.inr (.inr (.inl ⟨rfl, rfl⟩)))
  by_cases h4 : o = 0x100
  · subst h4
    exact .inr (.inr (.inr (.inr (.inl ⟨rfl, rfl⟩))))
  by_cases h5 : o = 0x104
  · subst h5
    exact .inr (.inr (.inr (.inr (.inr (.inl ⟨rfl, rfl⟩)))))
  by_cases h6 : o = 0x108
  · subst h6
    exact .inr (.inr (.inr (.inr (.inr (.inr (.inl ⟨rfl, rfl⟩))))))
  by_cases h7 : o = 0x10C
  · subst h7
    exact .inr (.inr (.inr (.inr (.inr (.inr (.inr (.inl ⟨rfl, rfl⟩)))))))
  by_cases h8 : o = 0x110
  · subst h8
    exact .inr (.inr (.inr (.inr (.inr (.inr (.inr (.inr (.inl ⟨rfl, rfl⟩))))))))
  by_cases h9 : o = 0x114
  · subst h9
    exact .inr (.inr (.inr (.inr (.inr (.inr (.inr (.inr (.inr (.inl ⟨rfl, rfl⟩)))))))))
  by_cases hp : 0x400 ≤ o ∧ o ≤ 0x6FC ∧ o % 4 = 0
  · have hc : csrAt o = some (.palW ((o - 0x400) / 4)) := by
      simp only [csrAt, h0, h1, h2, h3, h4, h5, h6, h7, h8, h9, if_false, if_pos hp]
    iterate 10 refine .inr ?_
    exact .inl ⟨hp, hc⟩
  · have hc : csrAt o = none := by
      simp only [csrAt, h0, h1, h2, h3, h4, h5, h6, h7, h8, h9, if_false, if_neg hp]
    iterate 11 refine .inr ?_
    refine ⟨⟨?_, fun h4 => ?_⟩, hc⟩
    · simp [h0, h1, h2, h3, h4, h5, h6, h7, h8, h9]
    · by_contra hn
      exact hp ⟨by omega, by omega, h4⟩

theorem ofNat_of_toNat (o : BitVec 12) (n : Nat) (h : o.toNat = n) : o = BitVec.ofNat 12 n := by
  subst h
  simp

theorem hostWrite_case (width : AccessWidth) (o : BitVec 12) (v : Word) (s t : State)
    (h : hostWrite width o v s = .next t) : ActionCase s (.write width o v) t := by
  unfold hostWrite at h
  split_ifs at h with ha
  have hw : width = .word := by
    simp only [accessSupported, Bool.and_eq_true, decide_eq_true_eq] at ha
    exact ha.1
  subst hw
  rcases csrAt_cases o.toNat with ⟨ho, hc⟩ | ⟨ho, hc⟩ | ⟨ho, hc⟩ | ⟨ho, hc⟩ | ⟨ho, hc⟩ | ⟨ho, hc⟩ | ⟨ho, hc⟩ |
    ⟨ho, hc⟩ | ⟨ho, hc⟩ | ⟨ho, hc⟩ | ⟨ho, hc⟩ | ⟨ho, hc⟩ <;> rw [hc] at h <;> simp only [csrWrite] at h
  · rw [ofNat_of_toNat o _ ho]
    exact submit_case .nq v s t h
  · cases h
    exact .writeIgnored o v
  · cases h
    rw [ofNat_of_toNat o _ ho]
    exact .writeLen v
  · cases h
    exact .writeIgnored o v
  · rw [ofNat_of_toNat o _ ho]
    exact submit_case .lz v s t h
  · cases h
    exact .writeIgnored o v
  · cases h
    rw [ofNat_of_toNat o _ ho]
    exact .writeWidth v
  · cases h
    rw [ofNat_of_toNat o _ ho]
    exact .writeHeight v
  · cases h
    rw [ofNat_of_toNat o _ ho]
    exact .writePixlen v
  · cases h
    exact .writeIgnored o v
  · cases h
    exact .writeIgnored o v
  · cases h
    exact .writeIgnored o v

theorem hostRead_case (width : AccessWidth) (o : BitVec 12) (s t : State)
    (h : hostRead width o s = .next t) : ActionCase s (.read width o) t := by
  unfold hostRead at h
  split_ifs at h with ha
  have hw : width = .word := by
    simp only [accessSupported, Bool.and_eq_true, decide_eq_true_eq] at ha
    exact ha.1
  subst hw
  cases hv : windowRead s o.toNat with
  | ok v =>
    rw [hv] at h
    cases h
    exact .read o v hv
  | error f =>
    rw [hv] at h
    cases h

theorem hostAction_case (a : HostAction) (s t : State) (h : hostAction a s = .next t) : ActionCase s a t := by
  have hlen : ∀ bytes : List Byte, attachable bytes = true → bytes.length < 2 ^ 32 := by
    intro bytes hb
    simpa [attachable] using hb
  cases a with
  | write width o v => exact hostWrite_case width o v s t h
  | read width o => exact hostRead_case width o s t h
  | attachSrc bytes =>
    simp only [hostAction] at h
    split_ifs at h with hb
    cases h
    exact .attachSrc bytes (hlen bytes hb)
  | attachIdx bytes =>
    simp only [hostAction] at h
    split_ifs at h with hb
    cases h
    exact .attachIdx bytes (hlen bytes hb)
  | attachPix bytes =>
    simp only [hostAction] at h
    split_ifs at h with hb
    cases h
    exact .attachPix bytes (hlen bytes hb)
  | idxToPix =>
    cases h
    exact .idxToPix
  | connectSink sink =>
    cases h
    exact .connectSink sink
  | reset =>
    cases h
    exact .reset

theorem step_idle (s : State) (h : s.inputs = []) : step s = .next s := by
  simp [step, takeAction, h]

theorem step_action (s : State) (a : HostAction) (rest : List HostAction) (h : s.inputs = a :: rest) :
    step s = hostAction a { s with inputs := rest } := by
  simp [step, takeAction, h]

/-- Everything a step that goes on can do: nothing, where the host does nothing, or the host's next action. -/
theorem step_cases (s t : State) (h : step s = .next t) :
    (s.inputs = [] ∧ t = s) ∨
      ∃ a rest, s.inputs = a :: rest ∧ ActionCase { s with inputs := rest } a t := by
  cases hi : s.inputs with
  | nil =>
    rw [step_idle s hi] at h
    cases h
    exact .inl ⟨rfl, rfl⟩
  | cons a rest =>
    rw [step_action s a rest hi] at h
    exact .inr ⟨a, rest, rfl, hostAction_case a _ t h⟩

/-! ### Writing a command register -/

@[simp] theorem csrAt_cmdOffset (p : Port) : csrAt (cmdOffset p).toNat = some (match p with | .nq => .nqCmd | .lz => .lzCmd) := by
  cases p <;> rfl

/-- A write of a command register is a submission (10_state.md R23, R38). -/
theorem hostWrite_command (p : Port) (w : Word) (s : State) : hostWrite .word (cmdOffset p) w s = submit p w s := by
  cases p <;> rfl

theorem submit_decoded (p : Port) (w : Word) (s : State) (i : Instr) (hb : s.busy p = false) (hd : decode p w = .ok i) :
    submit p w s = exec i s := by
  simp [submit, runWord, hb, hd]

theorem submit_illegal (p : Port) (w : Word) (s : State) (e : Illegal) (hb : s.busy p = false)
    (hd : decode p w = .error e) : submit p w s = .next (endCommand p .illegalCommand s) := by
  simp [submit, runWord, hb, hd]

/-! ### Properties that every step keeps -/

/-- A command answers on the port of its opcode (30_encoding.md R95, R96). -/
theorem decode_port (p : Port) (w : Word) (i : Instr) (h : decode p w = .ok i) : i.port = p := by
  cases p with
  | nq =>
    simp only [decode, decodeNq] at h
    split at h <;> (try simp only [decodeN, decodeS, decodeC] at h) <;> (try split_ifs at h) <;> cases h <;> rfl
  | lz =>
    simp only [decode, decodeLz] at h
    split at h <;> (try simp only [decodeN, decodeD] at h) <;> (try split_ifs at h) <;> cases h <;> rfl

/-- How a step changes the NQE: not at all; its status or its length; to the state after reset; or by a command. -/
theorem step_nq (s t : State) (h : step s = .next t) :
    t.nq = s.nq ∨ (∃ v, t.nq = { s.nq with len := v }) ∨
      t.nq = { s.nq with sticky := true } ∨
      (t.nq = NqState.reset ∧ s.inputs.head? = some .reset) ∨
      ∃ s₀ : State, s₀.nq = s.nq ∧ s₀.src = s.src ∧ s₀.idx = s.idx ∧ s₀.paletteOrder = s.paletteOrder ∧
        t.paletteOrder = s.paletteOrder ∧ NqEffect s₀ t.nq := by
  rcases step_cases s t h with ⟨_, rfl⟩ | ⟨a, rest, hi, ha⟩
  · exact .inl rfl
  · cases ha with
    | command p w i t hb hd he =>
      cases p with
      | nq =>
        obtain ⟨h₁, h₂, _⟩ := exec_nq_effect i _ t (decode_port _ _ _ hd) he
        refine .inr (.inr (.inr (.inr ⟨{ s with inputs := rest }, rfl, rfl, rfl, rfl, ?_, h₁⟩)))
        rw [h₂]
      | lz =>
        obtain ⟨_, h₂⟩ := exec_lz_effect i _ t (decode_port _ _ _ hd) he
        left
        rw [h₂]
    | illegal p w e hb hd =>
      cases p with
      | nq =>
        refine .inr (.inr (.inr (.inr ⟨{ s with inputs := rest }, rfl, rfl, rfl, rfl, rfl, ?_⟩)))
        have := NqEffect.error (s := { s with inputs := rest }) .illegalCommand (by decide)
        simpa [endCommand] using this
      | lz => exact .inl rfl
    | discardNq w hb => exact .inr (.inr (.inl rfl))
    | writeLen v => exact .inr (.inl ⟨v, rfl⟩)
    | reset => exact .inr (.inr (.inr (.inl ⟨rfl, by simp [hi]⟩)))
    | _ => exact .inl rfl

/-- How a step changes the LZE. -/
theorem step_lz (s t : State) (h : step s = .next t) :
    t.lz = s.lz ∨ (∃ w h' x, t.lz = { s.lz with width := w, height := h', pixlen := x }) ∨
      t.lz = { s.lz with sticky := true } ∨
      (t.lz = LzState.reset ∧ s.inputs.head? = some .reset) ∨
      ∃ s₀ : State, s₀.lz = s.lz ∧ s₀.pix = s.pix ∧ s₀.out = s.out ∧ s₀.sink = s.sink ∧
        LzEffect s₀ t.lz t.out t.sink := by
  rcases step_cases s t h with ⟨_, rfl⟩ | ⟨a, rest, hi, ha⟩
  · exact .inl rfl
  · cases ha with
    | command p w i t hb hd he =>
      cases p with
      | nq =>
        obtain ⟨_, h₂, _⟩ := exec_nq_effect i _ t (decode_port _ _ _ hd) he
        left
        rw [h₂]
      | lz =>
        obtain ⟨h₁, _⟩ := exec_lz_effect i _ t (decode_port _ _ _ hd) he
        exact .inr (.inr (.inr (.inr ⟨{ s with inputs := rest }, rfl, rfl, rfl, rfl, h₁⟩)))
    | illegal p w e hb hd =>
      cases p with
      | nq => exact .inl rfl
      | lz =>
        refine .inr (.inr (.inr (.inr ⟨{ s with inputs := rest }, rfl, rfl, rfl, rfl, ?_⟩)))
        have := LzEffect.error (s := { s with inputs := rest }) .illegalCommand (by decide)
        simpa [endCommand] using this
    | discardLz w hb => exact .inr (.inr (.inl rfl))
    | writeWidth v => exact .inr (.inl ⟨_, s.lz.height, s.lz.pixlen, rfl⟩)
    | writeHeight v => exact .inr (.inl ⟨s.lz.width, _, s.lz.pixlen, rfl⟩)
    | writePixlen v => exact .inr (.inl ⟨s.lz.width, s.lz.height, v, rfl⟩)
    | reset => exact .inr (.inr (.inr (.inl ⟨rfl, by simp [hi]⟩)))
    | _ => exact .inl rfl

end Sys2Proof.Laws
end

