-- ==== Sys2Proof/Tests/Slice0.lean ====
section
/-! SUPPORT. Tests/Slice0.lean: the model against the spec's own examples (95_test_vectors.md), the words of 30_encoding.md, and
for every obligation with hypotheses a state and operands that meet them. Expected values come from the spec's text. -/

namespace Sys2Proof.Tests

open Sys2Proof.Machine Sys2Proof.Safety

/-! ### WellFormed smoke: an ill-formed command for each check (95_test_vectors.md §3.2, last row) -/

theorem test_refuses_sample_factor_of_six_bits : (Instr.nqInit 32).wellFormed = false := by decide

theorem test_refuses_depth_of_five_bits : (Instr.lzInit 16).wellFormed = false := by decide

theorem test_refuses_blue_of_nine_bits : (Instr.nqMap 256 0 0).wellFormed = false := by decide

theorem test_refuses_green_of_nine_bits : (Instr.nqMap 0 256 0).wellFormed = false := by decide

theorem test_refuses_red_of_nine_bits : (Instr.nqMap 0 0 256).wellFormed = false := by decide

theorem test_accepts_largest_operands :
    (Instr.nqInit 31).wellFormed = true ∧ (Instr.lzInit 15).wellFormed = true ∧
      (Instr.nqMap 255 255 255).wellFormed = true := by decide

/-! ### Decoding, each word written out bit by bit from the formats of R91 to R95 -/

/-- Format S: op 0x10, zero, sf = 11110. -/
theorem test_decodes_nqInit : decode .nq 0b00010000000000000000000000011110 = .ok (.nqInit 30) := by decide

/-- Format N: op 0x11. -/
theorem test_decodes_nqLearn : decode .nq 0b00010001000000000000000000000000 = .ok .nqLearn := by decide

/-- Format N: op 0x12. -/
theorem test_decodes_nqUnbias : decode .nq 0b00010010000000000000000000000000 = .ok .nqUnbias := by decide

/-- Format N: op 0x13. -/
theorem test_decodes_nqInxbuild : decode .nq 0b00010011000000000000000000000000 = .ok .nqInxbuild := by decide

/-- Format N: op 0x14. -/
theorem test_decodes_nqColormap : decode .nq 0b00010100000000000000000000000000 = .ok .nqColormap := by decide

/-- Format N: op 0x15. -/
theorem test_decodes_nqProcess : decode .nq 0b00010101000000000000000000000000 = .ok .nqProcess := by decide

/-- Format C: op 0x16, r = 00000000, g = 11111110, b = 11111111 (`nq.map 255, 254, 0`). -/
theorem test_decodes_nqMap : decode .nq 0b00010110000000001111111011111111 = .ok (.nqMap 255 254 0) := by decide

/-- Format N: op 0x17. -/
theorem test_decodes_nqMapbuf : decode .nq 0b00010111000000000000000000000000 = .ok .nqMapbuf := by decide

/-- Format D: op 0x20, zero, depth = 1000. -/
theorem test_decodes_lzInit : decode .lz 0b00100000000000000000000000001000 = .ok (.lzInit 8) := by decide

/-- Format N: op 0x21. -/
theorem test_decodes_lzEncode : decode .lz 0b00100001000000000000000000000000 = .ok .lzEncode := by decide

/-- The illegal words of 95_test_vectors.md §3.2 and V-ERR-7, 8, 9, 10, 19. -/
theorem test_illegal_words :
    decode .nq 0x11000001 = .error .zeroFieldNotZero ∧ decode .nq 0x10000020 = .error .zeroFieldNotZero ∧
      decode .nq 0x17800000 = .error .zeroFieldNotZero ∧ decode .lz 0x21000100 = .error .zeroFieldNotZero ∧
      decode .lz 0x20000012 = .error .zeroFieldNotZero ∧ decode .nq 0x20000002 = .error .opcodeNotOfPort ∧
      decode .nq 0x00000000 = .error .opcodeNotOfPort ∧ decode .nq 0x0F000000 = .error .opcodeNotOfPort ∧
      decode .nq 0x18000000 = .error .opcodeNotOfPort ∧ decode .lz 0x22000000 = .error .opcodeNotOfPort ∧
      decode .nq 0xFF000000 = .error .opcodeNotOfPort := by decide

/-- The host's view: a table word is decoded on its opcode's port, and `withFetchWord` makes it the next step. -/
theorem test_table_words :
    decodeTableWord 32 0x161E140A = some (.nqMap 10 20 30) ∧ decodeTableWord 32 0x20000002 = some (.lzInit 2) ∧
      decodeTableWord 32 0x22000000 = none := by decide

/-! ### Small states -/

/-- Whether a step goes on to a state with a property. -/
def goesTo (o : Host.Outcome State Fault Refusal) (p : State → Bool) : Bool :=
  match o with
  | .next t => p t
  | .fault _ => false
  | .refused _ => false

/-- Whether a step stops with a fault. -/
def faultsWith (o : Host.Outcome State Fault Refusal) (f : Fault) : Bool :=
  match o with
  | .next _ => false
  | .fault g => decide (g = f)
  | .refused _ => false

/-- The image black1 of 95_test_vectors.md attached, one byte of IDX, `NQ_LEN` = 3. -/
def black1 : State :=
  { State.reset with
    src := Buffer.ofBytes [0, 0, 0]
    idx := Buffer.ofBytes [7]
    nq := { NqState.reset with len := 3 } }

/-- black1 after `nq.init 1`. -/
def constructed : State := { black1 with nq := Laws.initAccepted 1 black1.nq }

/-- The initial network with its phase at `LEARNED`. -/
def learned : State := { constructed with nq := { constructed.nq with phase := .learned } }

/-- Neuron `i` = (i, i, i, i). -/
def unbiased : State := { learned with nq := { unbias learned.nq with phase := .unbiased } }

/-- Neuron `i` = (i, i, i, i) with the index of V-NQ-9: `netindex[v]` = `v`. -/
def indexed : State :=
  { unbiased with nq := { unbiased.nq with
      phase := .indexed, netindex := unbiased.nq.netindex.mapIdx fun k _ => BitVec.ofNat 8 k } }

/-- An encoder ready for an image of one row. -/
def ready (depth : Nat) (pixels : List Byte) : State :=
  { State.reset with
    pix := Buffer.ofBytes pixels
    lz := { LzState.reset with
      phase := .ready, imgW := BitVec.ofNat 16 pixels.length, imgH := 1, initCodeSize := BitVec.ofNat 4 depth } }

/-- The host's next action. -/
def hosting (s : State) (a : HostAction) : State := { s with inputs := [a] }

/-! ### NQ.INIT (V-NQ-1, V-ERR-3, V-ERR-25) -/

theorem test_nqInit_builds_the_diagonal :
    goesTo (exec (.nqInit 1) black1) (fun t =>
      decide (t.nq.network.read 128 Neuron.zero = ⟨2048, 2048, 2048, 0⟩ ∧
        t.nq.network.read 255 Neuron.zero = ⟨4080, 4080, 4080, 0⟩ ∧ t.nq.freq.read 255 0 = 256 ∧
        t.nq.statusWord = 0x001)) = true := by decide +kernel

theorem test_nqInit_checks_length_first :
    goesTo (exec (.nqInit 0) { black1 with nq := { black1.nq with len := 4 } })
      (fun t => decide (t.nq.statusWord = 0x210)) = true := by decide +kernel

/-! ### NQ.LEARN (V-NQ-4) -/

theorem test_nqLearn_moves_the_neighbours :
    goesTo (exec .nqLearn constructed) (fun t =>
      decide ((t.nq.network.cells.take 8).map (fun x => x.g.toNat) = [0, 1, 1, 1, 1, 3, 4, 6] ∧
        (t.nq.network.read 32 Neuron.zero).b = 512 ∧ t.nq.statusWord = 0x002)) = true := by decide +kernel

theorem test_nqLearn_credits_the_winner :
    goesTo (exec .nqLearn constructed) (fun t =>
      decide (t.nq.freq.read 0 0 = 320 ∧ (t.nq.bias.read 0 0).toInt = -65536 ∧ t.nq.freq.read 1 0 = 256 ∧
        t.nq.bias.read 1 0 = 0 ∧ t.nq.samplefac = 1 ∧ t.nq.alphadec = 30)) = true := by decide +kernel

/-! ### NQ.UNBIAS (V-NQ-8) and NQ.INXBUILD (V-NQ-9, V-NQ-11's first entry) -/

theorem test_nqUnbias_numbers_the_neurons :
    goesTo (exec .nqUnbias learned) (fun t =>
      decide (t.nq.network.read 128 Neuron.zero = ⟨128, 128, 128, 128⟩ ∧ t.nq.statusWord = 0x003)) = true := by
  decide +kernel

theorem test_nqInxbuild_of_distinct_greens :
    goesTo (exec .nqInxbuild unbiased) (fun t =>
      decide (t.nq.netindex.read 0 0 = 0 ∧ t.nq.netindex.read 77 0 = 77 ∧ t.nq.netindex.read 255 0 = 255 ∧
        t.nq.network = unbiased.nq.network)) = true := by decide +kernel

/-- R164: all 256 neurons with green 0 give `netindex[0]` = 127, every other entry 255. -/
theorem test_index_of_one_green :
    (buildIndex (Ram.fill 256 Neuron.zero) (Ram.fill 256 9)).cells = 127 :: List.replicate 255 255 := by decide +kernel

/-! ### NQ.COLORMAP and NQ.PROCESS (V-NQ-10) -/

/-- Two unequal colours with lane 3 swapped: R166 orders entries by lane 3, R68 the bytes by the parameter. -/
theorem test_nqColormap_orders_entries_by_lane3 :
    goesTo (exec .nqColormap
      { indexed with nq := { indexed.nq with
          network := (indexed.nq.network.write 0 ⟨1, 2, 3, 1⟩).write 1 ⟨4, 5, 6, 0⟩ } }) (fun t =>
      decide (t.nq.pal.cells.take 6 = [6, 5, 4, 3, 2, 1] ∧ t.nq.statusWord = 0x005)) = true := by decide +kernel

theorem test_nqProcess_of_black1 :
    goesTo (exec .nqProcess constructed) (fun t =>
      decide (palWord t.nq.pal 7 = 0x01010000 ∧ palWord t.nq.pal 32 = 0x2B2B2B2A ∧ palWord t.nq.pal 191 = 0xFFFFFFFE ∧
        t.nq.statusWord = 0x005)) = true := by decide +kernel

/-! ### NQ.MAP and NQ.MAPBUF (R190 to R194 on the grey ramp: an exact colour maps to itself) -/

theorem test_nqMap_exact_colour :
    goesTo (exec (.nqMap 128 128 128) indexed) (fun t => decide (t.nq.mapres = 128 ∧ t.nq.statusWord = 0x004)) = true := by
  decide +kernel

theorem test_nqMap_takes_its_operands_in_order :
    goesTo (exec (.nqMap 10 20 30)
      { indexed with nq := { indexed.nq with network := indexed.nq.network.write 20 ⟨10, 20, 30, 99⟩ } })
      (fun t => decide (t.nq.mapres = 99)) = true := by decide +kernel

theorem test_nqMapbuf_writes_the_index :
    goesTo (exec .nqMapbuf { indexed with src := Buffer.ofBytes [200, 200, 200] })
      (fun t => decide (t.idx.get 0 = some 200 ∧ t.nq.mapres = 0)) = true := by decide +kernel

theorem test_nqMapbuf_stops_beyond_idx :
    faultsWith (exec .nqMapbuf { indexed with idx := Buffer.unattached }) .idxBeyondEnd = true := by decide +kernel

/-! ### LZ.INIT (V-ERR-15, V-ERR-17) -/

theorem test_lzInit_latches :
    goesTo (exec (.lzInit 2) { State.reset with lz := { LzState.reset with width := 4, height := 1, pixlen := 4 } })
      (fun t => decide (t.lz.statusWord = 0x001 ∧ t.lz.imgW = 4 ∧ t.lz.imgH = 1 ∧ t.lz.initCodeSize = 2)) = true := by
  decide +kernel

theorem test_lzInit_refuses_depth_nine :
    goesTo (exec (.lzInit 9) { State.reset with lz := { LzState.reset with width := 4, height := 1, pixlen := 4 } })
      (fun t => decide (t.lz.statusWord = 0x220)) = true := by decide +kernel

/-! ### LZ.ENCODE (V-LZ-1, V-LZ-8, V-ERR-22) -/

/-- V-LZ-8: a collision, a probe, and a hit found by probing. -/
theorem test_lzEncode_probes :
    goesTo (exec .lzEncode (ready 8 [16, 0, 0, 1, 0, 1])) (fun t =>
      decide (t.out = [0x08, 0x08, 0x00, 0x21, 0x00, 0x00, 0x10, 0x80, 0x60, 0x40, 0x00] ∧ t.lz.outlen = 11 ∧
        t.lz.statusWord = 0x002)) = true := by decide +kernel

/-- V-ERR-22: the sink fails the fourth byte of V-LZ-1's stream. -/
theorem test_lzEncode_stops_at_a_failing_sink :
    goesTo (exec .lzEncode { ready 2 [0, 0, 1, 1] with sink := ⟨[.accept, .accept, .accept, .fail], .accept⟩ }) (fun t =>
      decide (t.out = [0x02, 0x03, 0x04] ∧ t.lz.outlen = 3 ∧ t.lz.statusWord = 0x233)) = true := by decide +kernel

/-! ### Steps: reset, reads, discarded and illegal words -/

/-- V-ERR-10: an LZ word on the NQ port. -/
theorem test_step_illegal_word :
    goesTo (step (hosting State.reset (.write .word 0x000 0x20000002)))
      (fun t => decide (t.nq.statusWord = 0x240 ∧ t.lz.statusWord = 0)) = true := by decide +kernel

/-- V-ERR-26, V-ERR-27: a palette read without a palette faults; a byte access is refused. -/
theorem test_step_reads_that_stop :
    faultsWith (step (hosting State.reset (.read .word 0x400))) .paletteNotReady = true ∧
      (match step (hosting State.reset (.read .byte 0x005)) with
        | .refused r => decide (r = .unsupportedAccess)
        | .next _ => false
        | .fault _ => false) = true := by decide +kernel

/-- V-ERR-29: bits 31:16 of `LZ_WIDTH` are not stored. -/
theorem test_step_width_has_sixteen_bits :
    goesTo (step (hosting State.reset (.write .word 0x108 0x00010004))) (fun t => decide (t.lz.width = 4)) = true := by
  decide +kernel

/-- `withFetchWord`: the very next step runs the word. -/
theorem test_withFetchWord_runs_the_word :
    goesTo (step (State.reset.withFetchWord 32 0x21000000)) (fun t => decide (t.lz.statusWord = 0x250)) = true := by
  decide +kernel

/-! ### The assembler (30_encoding.md R100 to R102) -/

theorem test_assembles_a_map_line :
    assembleText "nq.map 10, 20, 30 ; a colour".toList = some [.write .word 0x000 0x161E140A] := by decide +kernel

theorem test_refuses_an_operand_that_does_not_fit : assembleText "lz.init 16".toList = none := by decide +kernel

theorem test_assembles_lz_gif :
    assembleText "lz.gif 2".toList = some [.write .word 0x100 0x20000002, .write .word 0x100 0x21000000] := by
  decide +kernel

/-! ### The decoder of R229 on the source's scenario (V-LZ-1) -/

theorem test_gifDecode_of_the_scenario : gifDecode [0x02, 0x03, 0x04, 0x12, 0x05, 0x00] = some [0, 0, 1, 1] := by
  decide +kernel

/-! ### States that meet the invariants, for the witnesses -/

/-- `unbiased` after `NQ.INXBUILD`. -/
def sorted : State := { unbiased with nq := { inxBuild unbiased.nq with phase := .indexed } }

/-- `sorted` after `NQ.COLORMAP`. -/
def painted : State := { sorted with nq := { colorMap .rgb sorted.nq with phase := .palette } }

theorem shape_constructed : NetworkShape constructed.nq := Laws.initNetwork_lanes _

theorem shape_learned : NetworkShape learned.nq := Laws.initNetwork_lanes _

theorem shape_unbiased : NetworkShape unbiased.nq :=
  Laws.unbias_shape learned.nq fun x hx => (shape_learned x hx).1

theorem perm_unbiased : Laws.IndexPerm unbiased.nq.network := by
  have h : unbiased.nq.network.cells.map (fun x => x.index.toInt) = (List.range 256).map Int.ofNat := shape_unbiased.2
  rw [Laws.IndexPerm, h]

theorem shape_sorted : NetworkShape sorted.nq := Laws.inxBuild_shape unbiased.nq shape_unbiased.1 perm_unbiased

theorem splits_sorted : IndexSplits sorted.nq := fun _ => Laws.inxBuild_splits unbiased.nq shape_unbiased.1

theorem shape_painted : NetworkShape painted.nq := shape_sorted

theorem splits_painted : IndexSplits painted.nq := fun _ => splits_sorted (.inl rfl)

theorem palette_painted : PaletteCurrent painted :=
  fun _ x hx => Laws.colorMap_current .rgb sorted.nq shape_sorted.1 shape_sorted.2.1 x hx

theorem leak_black1 (q : NqState) (hf : q.freq = constructed.nq.freq) (hb : q.bias = constructed.nq.bias) :
    LeakyFrequency q := by
  intro _ k hk
  rw [hf, hb]
  have hf : constructed.nq.freq.read k 0 = 256 := Laws.Ram.fill_read _ _ k hk
  have hb : constructed.nq.bias.read k 0 = 0 := Laws.Ram.fill_read _ _ k hk
  rw [hf, hb]
  unfold LeakRelation
  decide

theorem canonical_empty_dictionary : KeysCanonical [] ∧ CodesCanonical [] := by
  simp [KeysCanonical, CodesCanonical, Rising]

theorem memory_of (s : State) (hs : s.src.wf) (hi : s.idx.wf) (hp : s.pix.wf) (hl : s.lz.htab = [])
    (hc : s.lz.codetab = []) : MemoryCanonical s :=
  ⟨hs, hi, hp, hl ▸ canonical_empty_dictionary.1, hc ▸ canonical_empty_dictionary.2⟩

theorem memory_painted : MemoryCanonical painted :=
  memory_of _ (Laws.buffer_ofBytes_wf _ (by decide)) (Laws.buffer_ofBytes_wf _ (by decide)) Laws.unattached_wf rfl rfl

/-- Every invariant holds together in a state with a palette. -/
theorem inv_painted : Inv painted where
  memory := memory_painted
  job := fun _ => by decide
  leak := leak_black1 _ rfl rfl
  shape := shape_painted
  splits := splits_painted
  palette := palette_painted
  image := fun h => absurd rfl h
  notBusy := ⟨rfl, rfl⟩

theorem memory_ready (depth : Nat) (pixels : List Byte) (h : pixels.length < 2 ^ 32) :
    MemoryCanonical (ready depth pixels) :=
  memory_of _ Laws.unattached_wf Laws.unattached_wf (Laws.buffer_ofBytes_wf _ h) rfl rfl

theorem accepting_reset : Accepting State.reset.sink := ⟨by simp [State.reset], rfl⟩

/-! ### Witnesses: encoding and the host's port -/

theorem witness_IllegalCommandsExactly :
    (State.reset.busy .nq = false ∧ State.reset.busy .lz = false ∧ (∃ e, decode .nq 0x18000000 = .error e) ∧
      (∃ e, decode .lz 0x20000010 = .error e)) ∧
    (lengthAccepted black1.nq.len.toNat = true ∧ ((0 : Nat) = 0 ∨ (0 : Nat) = 31) ∧ ((31 : Nat) = 0 ∨ (31 : Nat) = 31)) ∧
    (∃ s : State, imageAccepted s.lz.width.toNat s.lz.height.toNat s.lz.pixlen.toNat = true ∧
      ((1 : Nat) < 2 ∨ 8 < (1 : Nat)) ∧ ((9 : Nat) < 2 ∨ 8 < (9 : Nat))) :=
  ⟨⟨rfl, rfl, ⟨_, rfl⟩, ⟨_, rfl⟩⟩, by decide,
    ⟨{ State.reset with lz := { LzState.reset with width := 4, height := 1, pixlen := 4 } }, by decide⟩⟩

theorem witness_WrongPortIsIllegal :
    ((Instr.lzInit 15).wellFormed = true ∧ Port.nq ≠ (Instr.lzInit 15).port ∧ State.reset.busy .nq = false) ∧
      ((Instr.nqMap 255 0 255).wellFormed = true ∧ Port.lz ≠ (Instr.nqMap 255 0 255).port ∧
        State.reset.busy .lz = false) := by decide

theorem witness_AssemblerSpellsCommands :
    (Instr.nqInit 31).wellFormed = true ∧ (Instr.nqInit 32).wellFormed = false ∧ 31 < 32 ∧ 15 < 16 := by decide

theorem witness_StepRunsDecodedCommand :
    (∃ (s : State) (rest : List HostAction), s.busy .nq = false ∧ decode .nq 0x161E140A = .ok (.nqMap 10 20 30) ∧
      s.inputs = .write .word (cmdOffset .nq) 0x161E140A :: rest) ∧
    ∃ (s : State) (rest : List HostAction), s.busy .lz = false ∧ decode .lz 0x21000000 = .ok .lzEncode ∧
      s.inputs = .write .word (cmdOffset .lz) 0x21000000 :: rest :=
  ⟨⟨hosting painted (.write .word 0x000 0x161E140A), [], rfl, by decide, rfl⟩,
    ⟨hosting (ready 2 [0]) (.write .word 0x100 0x21000000), [], rfl, by decide, rfl⟩⟩

theorem witness_BusyWriteIsDiscarded :
    (∃ (s : State) (w : Word) (rest : List HostAction), s.nq.busy = true ∧ s.inputs = .write .word 0x000 w :: rest) ∧
    (∃ (s : State) (w : Word) (rest : List HostAction), s.lz.busy = true ∧ s.inputs = .write .word 0x100 w :: rest) ∧
    (∃ s t : State, NotBusy s ∧ s.inputs ≠ [] ∧ step s = .next t) :=
  ⟨⟨{ State.reset with nq := { NqState.reset with busy := true }, inputs := [.write .word 0x000 7] }, 7, [], rfl, rfl⟩,
    ⟨{ State.reset with lz := { LzState.reset with busy := true }, inputs := [.write .word 0x100 7] }, 7, [], rfl, rfl⟩,
    ⟨hosting State.reset .reset, _, ⟨rfl, rfl⟩, by decide, rfl⟩⟩

theorem attaches_long (n : Nat) :
    ∃ bytes : List Byte, n ≤ bytes.length ∧ (∃ s : State, s.inputs = [.attachSrc bytes]) ∧
      (∃ s : State, s.inputs = [.attachIdx bytes]) ∧ ∃ s : State, s.inputs = [.attachPix bytes] :=
  ⟨List.replicate n 0, List.length_replicate.ge, ⟨hosting State.reset (.attachSrc _), rfl⟩,
    ⟨hosting State.reset (.attachIdx _), rfl⟩, ⟨hosting State.reset (.attachPix _), rfl⟩⟩

theorem witness_StepTakesOneAction :
    State.reset.inputs = [] ∧
    (∃ (s t : State) (a : HostAction) (rest : List HostAction), s.inputs = a :: rest ∧ step s = .next t) ∧
    (∃ (s : State) (rest : List HostAction), (AccessWidth.byte ≠ .word ∨ (0x005 : BitVec 12).toNat % 4 ≠ 0) ∧
      s.inputs = .read .byte 0x005 :: rest) ∧
    (∃ (s : State) (v : Word) (rest : List HostAction), (AccessWidth.word ≠ .word ∨ (0x00A : BitVec 12).toNat % 4 ≠ 0) ∧
      s.inputs = .write .word 0x00A v :: rest) ∧
    (∀ bytes ∈ ([[], [1, 0, 2]] : List (List Byte)), bytes.length < 2 ^ 32 ∧
      (∃ s : State, s.inputs = [.attachSrc bytes]) ∧ (∃ s : State, s.inputs = [.attachIdx bytes]) ∧
      ∃ s : State, s.inputs = [.attachPix bytes]) ∧
    (∃ bytes : List Byte, 2 ^ 32 ≤ bytes.length ∧ (∃ s : State, s.inputs = [.attachSrc bytes]) ∧
      (∃ s : State, s.inputs = [.attachIdx bytes]) ∧ ∃ s : State, s.inputs = [.attachPix bytes]) ∧
    (∃ s : State, s.inputs = [.idxToPix]) ∧ ∃ (s : State) (k : Sink), s.inputs = [.connectSink k] ∧ s.out ≠ [] :=
  ⟨rfl, ⟨hosting State.reset .idxToPix, _, _, [], rfl, rfl⟩,
    ⟨hosting State.reset (.read .byte 0x005), [], by decide, rfl⟩,
    ⟨hosting State.reset (.write .word 0x00A 1), 1, [], by decide, rfl⟩,
    fun bytes h => ⟨by revert bytes; decide, ⟨hosting State.reset (.attachSrc bytes), rfl⟩,
      ⟨hosting State.reset (.attachIdx bytes), rfl⟩, ⟨hosting State.reset (.attachPix bytes), rfl⟩⟩,
    attaches_long _,
    ⟨hosting State.reset .idxToPix, rfl⟩,
    ⟨{ hosting State.reset (.connectSink ⟨[.fail], .accept⟩) with out := [1] }, _, rfl, by decide⟩⟩

/-- Every register of the map, an unmapped offset, and both ends of the palette window. -/
theorem witness_ReadsHaveNoSideEffect :
    ∀ o ∈ ([0x000, 0x004, 0x008, 0x00C, 0x010, 0x100, 0x104, 0x108, 0x10C, 0x110, 0x114, 0x118, 0x3FC, 0x400, 0x6FC,
        0x700, 0xFFC] : List (BitVec 12)),
      ∃ (s : State) (rest : List HostAction), o.toNat % 4 = 0 ∧ s.inputs = .read .word o :: rest ∧
        (0x400 ≤ o.toNat → o.toNat ≤ 0x6FC → s.nq.phase = .palette) := by
  intro o ho
  fin_cases ho <;> exact ⟨hosting painted (.read .word _), [], by decide, rfl, fun _ _ => rfl⟩

theorem witness_PaletteWindowReads :
    (∃ (s : State) (rest : List HostAction), (0 : Nat) < 192 ∧ (0x400 : BitVec 12).toNat = 0x400 + 4 * 0 ∧
      s.inputs = .read .word 0x400 :: rest ∧ s.nq.phase = .palette) ∧
    (∃ (s : State) (rest : List HostAction), (191 : Nat) < 192 ∧ (0x6FC : BitVec 12).toNat = 0x400 + 4 * 191 ∧
      s.inputs = .read .word 0x6FC :: rest ∧ s.nq.phase = .palette) ∧
    (∃ (s : State) (rest : List HostAction), (0 : Nat) < 192 ∧ (0x400 : BitVec 12).toNat = 0x400 + 4 * 0 ∧
      s.inputs = .read .word 0x400 :: rest ∧ s.nq.phase ≠ .palette) ∧
    (∃ (s : State) (v : Word) (rest : List HostAction), (0x6FC : BitVec 12).toNat = 0x400 + 4 * 191 ∧
      s.inputs = .write .word 0x6FC v :: rest) :=
  ⟨⟨hosting painted (.read .word 0x400), [], by decide, by decide, rfl, rfl⟩,
    ⟨hosting painted (.read .word 0x6FC), [], by decide, by decide, rfl, rfl⟩,
    ⟨hosting State.reset (.read .word 0x400), [], by decide, by decide, rfl, by decide⟩,
    ⟨hosting State.reset (.write .word 0x6FC 1), 1, [], by decide, rfl⟩⟩

/-- The four writable registers, a read-only one, an unmapped offset, the palette window. -/
theorem witness_WritesStoreOnlyTheirRegister :
    ∀ o ∈ ([0x004, 0x008, 0x00C, 0x104, 0x108, 0x10C, 0x110, 0x114, 0x118, 0x400, 0x6FC, 0x700] : List (BitVec 12)),
      ∃ (s : State) (v : Word) (rest : List HostAction), o.toNat % 4 = 0 ∧ o.toNat ≠ 0x000 ∧ o.toNat ≠ 0x100 ∧
        s.inputs = .write .word o v :: rest := by
  intro o ho
  fin_cases ho <;>
    exact ⟨hosting State.reset (.write .word _ 0x12345678), _, [], by decide, by decide, by decide, rfl⟩

theorem witness_ResetValues :
    (∃ t : State, t = State.reset) ∧
    (∃ (t s : State) (rest : List HostAction), s.inputs = .reset :: rest ∧ step s = .next t ∧ s.nq.phase = .palette) :=
  ⟨⟨_, rfl⟩, ⟨_, hosting painted .reset, [], rfl, rfl, rfl⟩⟩

theorem witness_UnspecifiedValuesNeverObserved :
    ∃ s s' : State, SameButUnspecified s s' ∧ NetworkShape s.nq ∧ s'.nq.alphadec ≠ s.nq.alphadec ∧
      s'.nq.network ≠ s.nq.network ∧ s'.lz.codetab ≠ s.lz.codetab ∧ s.inputs ≠ [] := by
  refine ⟨hosting black1 (.write .word 0x000 0x10000001),
    { hosting black1 (.write .word 0x000 0x10000001) with
      nq := { black1.nq with alphadec := 77, network := Ram.fill 256 ⟨1, 2, 3, 4⟩, netindex := Ram.fill 256 5 }
      lz := { black1.lz with codetab := [(3, 9)], imgW := 8 } }, ?_, trivial, by decide, by decide +kernel, by decide,
    by decide⟩
  refine ⟨⟨rfl, rfl, rfl, rfl, rfl, rfl, ?_, ?_, ?_, ?_, ?_, ?_, ?_⟩, ⟨rfl, rfl, rfl, rfl, rfl, rfl, rfl, rfl, ?_, ?_, ?_⟩,
    rfl, rfl, rfl, rfl, rfl, rfl, rfl, rfl⟩ <;> intro h <;> first | exact absurd rfl h | cases h <;> contradiction

/-! ### Witnesses: invariants and whole-machine rules -/

/-- The state with all invariants, with a command to run next. -/
theorem witness_StepKeepsMemoryCanonical : ∃ s t : State, MemoryCanonical s ∧ s.inputs ≠ [] ∧ step s = .next t := by
  refine ⟨hosting painted (.attachPix [1, 0, 2]), _, ?_, by decide, rfl⟩
  exact ⟨memory_painted.src, memory_painted.idx, memory_painted.pix, memory_painted.htab, memory_painted.codetab⟩

theorem witness_LeakyFrequencyKept :
    (∃ s t : State, LeakyFrequency s.nq ∧ s.nq.phase ≠ .empty ∧ s.inputs ≠ [] ∧ step s = .next t) ∧
    (∀ k, k < 256 → LeakRelation (constructed.nq.freq.read k 0) (constructed.nq.bias.read k 0)) :=
  ⟨⟨hosting learned (.write .word 0x008 6), _, leak_black1 _ rfl rfl, by decide, by decide, rfl⟩,
    leak_black1 constructed.nq rfl rfl (by decide)⟩

theorem witness_StepKeepsNetworkShape :
    ∃ s t : State, NetworkShape s.nq ∧ s.nq.phase = .palette ∧ s.inputs ≠ [] ∧ step s = .next t :=
  ⟨hosting painted (.write .word 0x008 6), _, shape_painted, rfl, by decide, rfl⟩

theorem witness_StepKeepsIndexAndPalette :
    ∃ s t : State, NetworkShape s.nq ∧ step s = .next t ∧ IndexSplits s.nq ∧ PaletteCurrent s ∧ s.nq.phase = .palette :=
  ⟨hosting painted (.write .word 0x008 6), _, shape_painted, rfl, splits_painted, palette_painted, rfl⟩

theorem image_ready : ImageAccepted (ready 2 [0, 0, 1, 1]).lz := fun _ => by decide

theorem witness_StepKeepsJobsAccepted :
    ∃ s t : State, JobAccepted s.nq ∧ ImageAccepted s.lz ∧ s.nq.phase ≠ .empty ∧ s.lz.phase ≠ .empty ∧
      s.inputs ≠ [] ∧ step s = .next t :=
  ⟨{ hosting painted (.write .word 0x008 6) with lz := (ready 2 [0, 0, 1, 1]).lz }, _, fun _ => by decide, image_ready,
    by decide, by decide, by decide, rfl⟩

theorem witness_PhaseTransitions :
    (∃ s t : State, step s = .next t ∧ t.nq.phase ≠ s.nq.phase) ∧ ∃ s t : State, step s = .next t ∧ t.lz.phase ≠ s.lz.phase :=
  ⟨⟨hosting painted .reset, _, rfl, by decide⟩, ⟨hosting (ready 2 [0]) .reset, _, rfl, by decide⟩⟩

theorem witness_StickyClearedOnlyByReset :
    (∃ s t : State, step s = .next t ∧ s.sticky .nq = true ∧ s.inputs.head? ≠ some .reset) ∧
      ∃ s t : State, step s = .next t ∧ s.sticky .lz = true ∧ s.inputs.head? ≠ some .reset :=
  ⟨⟨{ hosting State.reset (.write .word 0x008 6) with nq := { NqState.reset with sticky := true } }, _, rfl, rfl, by decide⟩,
    ⟨{ hosting State.reset (.write .word 0x110 6) with lz := { LzState.reset with sticky := true } }, _, rfl, rfl,
      by decide⟩⟩

/-- Every command goes on somewhere, completing or with an error. -/
theorem witness_CommandEndWritesStatus :
    (∃ t, exec (.nqInit 1) black1 = .next t) ∧ (∃ t, exec (.nqInit 0) black1 = .next t) ∧
      (∃ t, exec .nqLearn State.reset = .next t) ∧ (∃ t, exec .nqUnbias learned = .next t) ∧
      (∃ t, exec .nqInxbuild unbiased = .next t) ∧ (∃ t, exec .nqColormap sorted = .next t) ∧
      (∃ t, exec .nqProcess State.reset = .next t) ∧ (∃ t, exec (.nqMap 1 2 3) sorted = .next t) ∧
      (∃ t, exec .nqMapbuf State.reset = .next t) ∧ (∃ t, exec (.lzInit 2) State.reset = .next t) ∧
      (∃ t, exec .lzEncode State.reset = .next t) :=
  ⟨⟨_, rfl⟩, ⟨_, rfl⟩, ⟨_, rfl⟩, ⟨_, rfl⟩, ⟨_, rfl⟩, ⟨_, rfl⟩, ⟨_, rfl⟩, ⟨_, rfl⟩, ⟨_, rfl⟩, ⟨_, rfl⟩, ⟨_, rfl⟩⟩

theorem witness_ErrorsArePrecise :
    (∃ t, exec .nqLearn State.reset = .next t ∧ t.err (Instr.nqLearn).port ≠ .noError ∧
      t.err (Instr.nqLearn).port ≠ .ioFailure) ∧
    (∃ t, exec .lzEncode State.reset = .next t ∧ t.err (Instr.lzEncode).port ≠ .noError ∧
      t.err (Instr.lzEncode).port ≠ .ioFailure) ∧
    (State.reset.busy .nq = false ∧ (∃ e, decode .nq 0xFF000000 = .error e) ∧
      ∃ t, submit .nq 0xFF000000 State.reset = .next t) :=
  ⟨⟨_, rfl, by decide, by decide⟩, ⟨_, rfl, by decide, by decide⟩, ⟨rfl, ⟨_, rfl⟩, ⟨_, rfl⟩⟩⟩

theorem witness_EnginesCommute :
    ∃ s a b : State, (Instr.nqInit 1).port = .nq ∧ (Instr.lzInit 2).port = .lz ∧ exec (.nqInit 1) s = .next a ∧
      exec (.lzInit 2) s = .next b ∧ a.nq.phase = .constructed ∧ b.lz.phase = .ready :=
  ⟨{ black1 with lz := { LzState.reset with width := 4, height := 1, pixlen := 4 } }, _, _, rfl, rfl, rfl, rfl, rfl, rfl⟩

theorem witness_LengthsAreLatched :
    (∃ t, (∀ sf, Instr.nqUnbias ≠ .nqInit sf) ∧ (∀ d, Instr.nqUnbias ≠ .lzInit d) ∧ exec .nqUnbias learned = .next t) ∧
    (∃ t, (∀ sf, Instr.lzEncode ≠ .nqInit sf) ∧ (∀ d, Instr.lzEncode ≠ .lzInit d) ∧ exec .lzEncode State.reset = .next t) :=
  ⟨⟨_, by simp, by simp, rfl⟩, ⟨_, by simp, by simp, rfl⟩⟩

theorem witness_NqCommandFrame :
    (∃ t, (Instr.nqMap 1 2 3).port = .nq ∧ exec (.nqMap 1 2 3) sorted = .next t ∧ Instr.nqMap 1 2 3 ≠ .nqMapbuf) ∧
      ∃ t, (Instr.nqMapbuf).port = .nq ∧ exec .nqMapbuf State.reset = .next t :=
  ⟨⟨_, rfl, rfl, by simp⟩, ⟨_, rfl, rfl⟩⟩

theorem encodes_ready : ∃ t, exec .lzEncode (ready 2 [0, 0, 1, 1]) = .next t ∧ t.lz.phase = .done := by
  have h : goesTo (exec .lzEncode (ready 2 [0, 0, 1, 1])) (fun t => decide (t.lz.phase = .done)) = true := by
    decide +kernel
  revert h
  cases exec .lzEncode (ready 2 [0, 0, 1, 1]) with
  | next t => exact fun h => ⟨t, rfl, by simpa [goesTo] using h⟩
  | fault f => exact fun h => by cases h
  | refused r => exact fun h => by cases h

theorem witness_LzCommandFrame :
    (∃ t, (Instr.lzEncode).port = .lz ∧ exec .lzEncode (ready 2 [0, 0, 1, 1]) = .next t) ∧
      ∃ t, (Instr.lzInit 2).port = .lz ∧ exec (.lzInit 2) State.reset = .next t ∧ Instr.lzInit 2 ≠ .lzEncode :=
  ⟨encodes_ready.imp fun _ h => ⟨rfl, h.1⟩, ⟨_, rfl, rfl, by simp⟩⟩

/-! ### Witnesses: errors and stops -/

theorem witness_CommandsOutOfSequence :
    State.reset.nq.phase ≠ .constructed ∧ State.reset.nq.phase ≠ .learned ∧ State.reset.nq.phase ≠ .unbiased ∧
      State.reset.nq.phase ≠ .indexed ∧ State.reset.nq.phase ≠ .palette ∧ State.reset.lz.phase ≠ .ready := by decide

/-- Both ends of every range of the checks. -/
theorem witness_InitErrorPriority :
    (∀ n ∈ [0, 4, 0x80000001], n = 0 ∨ n % 3 ≠ 0 ∨ 0x7FFFFFFF < n) ∧
    (∀ n ∈ [3, 0x7FFFFFFE], n ≠ 0 ∧ n % 3 = 0 ∧ n ≤ 0x7FFFFFFF ∧ ∀ sf ∈ [0, 31], sf < 1 ∨ 30 < sf) ∧
    (∃ s : State, s.lz.width.toNat * s.lz.height.toNat = 0) ∧
    (∃ s : State, s.lz.width.toNat * s.lz.height.toNat ≠ 0 ∧ s.lz.pixlen.toNat ≠ s.lz.width.toNat * s.lz.height.toNat) ∧
    (∃ s : State, s.lz.width.toNat * s.lz.height.toNat ≠ 0 ∧ s.lz.pixlen.toNat = s.lz.width.toNat * s.lz.height.toNat ∧
      ∀ d ∈ [1, 9], d < 2 ∨ 8 < d) :=
  ⟨by decide, by decide, ⟨State.reset, rfl⟩,
    ⟨{ State.reset with lz := { LzState.reset with width := 4, height := 1, pixlen := 5 } }, by decide⟩,
    ⟨{ State.reset with lz := { LzState.reset with width := 65535, height := 65535, pixlen := 4294836225 } }, by decide⟩⟩

theorem witness_MissingBuffersStick :
    (∃ s : State, s.nq.phase = .constructed ∧ JobAccepted s.nq ∧ s.nq.lengthcount.toNat < 1509 ∧
      s.src.size.toNat < s.nq.lengthcount.toNat ∧ s.src.size ≠ 0) ∧
    (∃ s : State, s.nq.phase = .constructed ∧ JobAccepted s.nq ∧ s.nq.lengthcount.toNat = 1509 ∧
      ∃ k, k < 1509 / (3 * s.nq.samplefac.toNat) ∧ s.src.size.toNat < k * selectStep 1509 % 1509 + 3) ∧
    (∃ s : State, s.nq.phase = .constructed ∧ JobAccepted s.nq ∧ s.nq.lengthcount.toNat = 3 ∧
      ∀ k, k < 3 / (3 * 1) → k * selectStep 3 % 3 + 3 ≤ s.src.size.toNat) ∧
    (∃ s : State, (s.nq.phase = .indexed ∨ s.nq.phase = .palette) ∧ JobAccepted s.nq ∧ s.src.size ≠ 0 ∧
      s.src.size.toNat < s.nq.lengthcount.toNat ∧ s.src.size.toNat / 3 ≤ s.idx.size.toNat) ∧
    (∃ s : State, (s.nq.phase = .indexed ∨ s.nq.phase = .palette) ∧ JobAccepted s.nq ∧
      s.idx.size.toNat < s.nq.lengthcount.toNat / 3 ∧ s.idx.size.toNat < s.src.size.toNat / 3) ∧
    (∃ s : State, s.lz.phase = .ready ∧ ImageAccepted s.lz ∧ answer s.sink 0 = .accept ∧ s.pix.size = 0) ∧
    (∃ s : State, s.lz.phase = .ready ∧ ImageAccepted s.lz ∧ Accepting s.sink ∧ s.pix.size ≠ 0 ∧
      s.pix.size.toNat < s.lz.pixels) :=
  ⟨⟨{ constructed with src := Buffer.ofBytes [0, 0] }, rfl, fun _ => by decide, by decide, by decide, by decide⟩,
    ⟨{ constructed with
        src := Buffer.ofBytes [0, 0, 0], nq := { constructed.nq with lengthcount := 1509, samplefac := 30 } },
      rfl, fun _ => by decide, by decide, 1, by decide, by decide⟩,
    ⟨constructed, rfl, fun _ => by decide, by decide, by decide⟩,
    ⟨{ sorted with src := Buffer.ofBytes [0, 0] }, .inl rfl, fun _ => by decide, by decide, by decide, by decide⟩,
    ⟨{ painted with idx := Buffer.unattached }, .inr rfl, fun _ => by decide, by decide, by decide⟩,
    ⟨{ ready 2 [0, 0, 1, 1] with pix := Buffer.unattached }, rfl, image_ready, rfl, rfl⟩,
    ⟨{ ready 2 [0, 0, 1, 1] with pix := Buffer.ofBytes [0, 0, 1] }, rfl, image_ready, accepting_reset, by decide,
      by decide⟩⟩

/-! ### Witnesses: the quantizer -/

/-- The smallest and the largest length, the smallest and the largest sample factor. -/
theorem witness_NqInitBuildsGreyNetwork :
    (∃ s : State, s.nq.len.toNat ≠ 0 ∧ s.nq.len.toNat % 3 = 0 ∧ s.nq.len.toNat ≤ 0x7FFFFFFF ∧ s.nq.len.toNat = 3) ∧
    (∃ s : State, s.nq.len.toNat ≠ 0 ∧ s.nq.len.toNat % 3 = 0 ∧ s.nq.len.toNat ≤ 0x7FFFFFFF ∧
      s.nq.len.toNat = 0x7FFFFFFE) ∧
    ∀ sf ∈ [1, 30], 1 ≤ sf ∧ sf ≤ 30 :=
  ⟨⟨black1, by decide⟩, ⟨{ black1 with nq := { black1.nq with len := 0x7FFFFFFE } }, by decide⟩, by decide⟩

theorem witness_NqLearnCompletes :
    constructed.nq.phase = .constructed ∧ JobAccepted constructed.nq ∧
      constructed.nq.lengthcount.toNat ≤ constructed.src.size.toNat := ⟨rfl, fun _ => by decide, by decide⟩

/-- A colour off the grey diagonal, the example of R135 and R140. -/
theorem witness_OnePixelTraining : ∃ s : State,
    s.nq.phase = .constructed ∧ s.nq.lengthcount = 3 ∧
      (∀ i, i < 256 → s.nq.network.read i Neuron.zero =
        ⟨BitVec.ofNat 32 (16 * i), BitVec.ofNat 32 (16 * i), BitVec.ofNat 32 (16 * i), 0⟩) ∧
      (∀ i, i < 256 → s.nq.freq.read i 0 = 256 ∧ s.nq.bias.read i 0 = 0) ∧
      s.src.get 0 = some 100 ∧ s.src.get 1 = some 50 ∧ s.src.get 2 = some 200 :=
  ⟨{ constructed with src := Buffer.ofBytes [100, 50, 200] }, rfl, rfl, fun i hi => Laws.initNetwork_read _ i hi,
    fun i hi => ⟨Laws.Ram.fill_read _ _ i hi, Laws.Ram.fill_read _ _ i hi⟩, by decide, by decide, by decide⟩

/-- Neuron 0 selected often before: the sample (0, 0, 0) finds it nearest, and its bias sends the update to neuron 1. -/
theorem witness_ContestFindsFirstMinima :
    (∀ v ∈ ([0, 4080] : List Int), 0 ≤ v ∧ v ≤ 4080) ∧ (∀ x ∈ constructed.nq.network.cells, LanesIn 4080 x) ∧
    ∃ freq bias : Ram Word 256, (∀ b ∈ bias.cells, -67894272 ≤ b.toInt ∧ b.toInt ≤ 0) ∧
      (∀ k, k < 256 → LeakRelation (freq.read k 0) (bias.read k 0)) ∧
      (contestScan ⟨0, 0, 0⟩ 0 constructed.nq.network.cells bias.cells ContestBest.start).bestpos = 0 ∧
      (contestScan ⟨0, 0, 0⟩ 0 constructed.nq.network.cells bias.cells ContestBest.start).bestbiaspos = 1 ∧
      ∃ j : LearnJob, j.network = constructed.nq.network ∧ j.bias = bias := by
  have leak : ∀ k, k < 256 →
      LeakRelation (((Ram.fill 256 256).write 0 5376 : Ram Word 256).read k 0)
        (((Ram.fill 256 0).write 0 0xFFB00000 : Ram Word 256).read k 0) := by
    intro k hk
    by_cases h0 : k = 0
    · subst h0
      rw [Laws.Ram.write_read_same _ _ _ _ hk, Laws.Ram.write_read_same _ _ _ _ hk]
      unfold LeakRelation
      decide +kernel
    · rw [Laws.Ram.write_read_other _ _ _ _ _ h0, Laws.Ram.write_read_other _ _ _ _ _ h0, Laws.Ram.fill_read _ _ k hk,
        Laws.Ram.fill_read _ _ k hk]
      unfold LeakRelation
      decide +kernel
  refine ⟨by decide, fun x hx => (shape_constructed x hx).1, _, _, fun b hb => ?_, leak, by decide +kernel,
    by decide +kernel, { learnStart constructed.nq 1 with bias := _ }, rfl, rfl⟩
  obtain ⟨k, hk, rfl⟩ := (Laws.Ram.mem_iff_read _ 0 b).mp hb
  exact (leak k hk).2.2

theorem witness_FrequencySum :
    (∃ (s t : State), exec (.nqInit 1) s = .next t ∧ t.nq.err = .noError) ∧
    (∀ x ∈ constructed.nq.network.cells, LanesIn 4080 x) ∧
    (∀ k, k < 256 → LeakRelation (constructed.nq.freq.read k 0) (constructed.nq.bias.read k 0)) ∧
    ∀ k, k < 256 → constructed.nq.freq.read k 0 = 256 :=
  ⟨⟨black1, _, rfl, rfl⟩, fun x hx => (shape_constructed x hx).1, leak_black1 constructed.nq rfl rfl (by decide),
    fun k hk => Laws.Ram.fill_read _ _ k hk⟩

theorem witness_MeaningsAreTheSpecLoops : ∀ i ∈ ([-1, 255] : List Int), -1 ≤ i ∧ i ≤ 255 := by decide

theorem witness_AlterSingleMovesTowardSample :
    (∀ alpha ∈ [0, 1024], alpha ≤ 1024) ∧ (∀ j ∈ [0, 255], j < 256) ∧ (∀ v ∈ ([0, 4080] : List Int), 0 ≤ v ∧ v ≤ 4080) ∧
      (∀ x ∈ constructed.nq.network.cells, LanesIn 4080 x) ∧
      ∃ old : Neuron, old = constructed.nq.network.read 255 Neuron.zero :=
  ⟨by decide, by decide, by decide, fun x hx => (shape_constructed x hx).1, ⟨_, rfl⟩⟩

theorem witness_TaperValues : (∀ rad ∈ [0, 32], rad ≤ 32) ∧ (∀ alpha ∈ [0, 1024], alpha ≤ 1024) ∧ 31 < 32 := by decide

/-- One pixel, the last length below 1509, the first at it; then lengths that 499 divides, 499 and 491, all three, all
four. -/
theorem witness_SampleWalkStaysInside :
    (∀ len ∈ [3, 1506, 1509, 2994, 735027, 357958149, 503 * 357958149],
      len % 3 = 0 ∧ len ≠ 0 ∧ ∀ pix ∈ [0, len - 3], pix % 3 = 0 ∧ pix + 3 ≤ len) ∧
    1509 / 3 % 499 ≠ 0 ∧ (2994 / 3 % 499 = 0 ∧ 2994 / 3 % 491 ≠ 0) ∧
    (735027 / 3 % 499 = 0 ∧ 735027 / 3 % 491 = 0 ∧ 735027 / 3 % 487 ≠ 0) ∧
    (357958149 / 3 % 499 = 0 ∧ 357958149 / 3 % 491 = 0 ∧ 357958149 / 3 % 487 = 0) := by
  decide

theorem witness_NqUnbiasTakesOutOfFixedPoint : learned.nq.phase = .learned := rfl

theorem witness_NqInxbuildSortsByGreen : unbiased.nq.phase = .unbiased := rfl

theorem witness_NetindexContent :
    (∀ x ∈ unbiased.nq.network.cells, LanesIn 255 x) ∧
    (∃ x ∈ unbiased.nq.network.cells, x.g.toInt = ((255 : Nat) : Int)) ∧
    (∀ x ∈ (Ram.fill 256 Neuron.zero : Ram Neuron 256).cells, LanesIn 255 x ∧ x.g.toInt ≠ ((255 : Nat) : Int)) := by
  refine ⟨shape_unbiased.1, ⟨_, Laws.Ram.read_mem _ 255 Neuron.zero (by decide), by decide +kernel⟩, fun x hx => ?_⟩
  have : x = Neuron.zero := List.eq_of_mem_replicate hx
  subst this
  exact ⟨by unfold LanesIn; decide, by decide⟩

theorem witness_NqColormapWritesPalette :
    ((sorted.nq.phase = .indexed ∨ sorted.nq.phase = .palette) ∧ NetworkShape sorted.nq) ∧
      ((painted.nq.phase = .indexed ∨ painted.nq.phase = .palette) ∧ NetworkShape painted.nq) :=
  ⟨⟨.inl rfl, shape_sorted⟩, ⟨.inr rfl, shape_painted⟩⟩

theorem witness_ProcessIsTheFourSteps :
    constructed.nq.phase = .constructed ∧ JobAccepted constructed.nq ∧
      constructed.nq.lengthcount.toNat ≤ constructed.src.size.toNat := witness_NqLearnCompletes

theorem witness_NqMapFindsNearest :
    (∀ v ∈ [0, 255], v < 256) ∧ (sorted.nq.phase = .indexed ∨ sorted.nq.phase = .palette) ∧ NetworkShape sorted.nq :=
  ⟨by decide, .inl rfl, shape_sorted⟩

theorem witness_ExactColourMapsToItself :
    (sorted.nq.phase = .indexed ∨ sorted.nq.phase = .palette) ∧ NetworkShape sorted.nq ∧
      ∃ x ∈ sorted.nq.network.cells, ∀ y ∈ sorted.nq.network.cells, y.b = x.b → y.g = x.g → y.r = x.r → y = x := by
  refine ⟨.inl rfl, shape_sorted, _, Laws.Ram.read_mem _ 0 Neuron.zero (by decide), fun y hy _ hg _ => ?_⟩
  have hp := Laws.sortNetwork_perm unbiased.nq.network
  have hx := Laws.Ram.read_mem sorted.nq.network 0 Neuron.zero (by decide)
  -- in `unbiased`, every neuron's green is its lane 3
  have key : ∀ z ∈ unbiased.nq.network.cells, z.index = z.g := by decide +kernel
  have h₁ := key y (hp.mem_iff.mp hy)
  have h₂ := key _ (hp.mem_iff.mp hx)
  exact Laws.index_unique sorted.nq.network shape_sorted.2.1 _ y hx hy (by rw [h₁, h₂, hg])

theorem witness_MapResultIndexesPalette : (∀ v ∈ [0, 255], v < 256) ∧ painted.nq.phase = .palette ∧ Inv painted :=
  ⟨by decide, rfl, inv_painted⟩

theorem witness_NqMapbufMapsEveryPixel :
    (sorted.nq.phase = .indexed ∨ sorted.nq.phase = .palette) ∧
      sorted.nq.lengthcount.toNat ≤ sorted.src.size.toNat ∧
      sorted.nq.lengthcount.toNat / 3 ≤ sorted.idx.size.toNat := ⟨.inl rfl, by decide, by decide⟩

/-! ### Witnesses: the encoder -/

theorem witness_LzInitLatchesImage :
    (∃ s : State, s.lz.width.toNat * s.lz.height.toNat ≠ 0 ∧
      s.lz.pixlen.toNat = s.lz.width.toNat * s.lz.height.toNat) ∧ ∀ d ∈ [2, 8], 2 ≤ d ∧ d ≤ 8 :=
  ⟨⟨{ State.reset with lz := { LzState.reset with width := 4, height := 1, pixlen := 4 } }, by decide⟩, by decide⟩

theorem witness_LzEncodeCompletes :
    (ready 2 [0, 0, 1, 1]).lz.phase = .ready ∧ ImageAccepted (ready 2 [0, 0, 1, 1]).lz ∧
      (ready 2 [0, 0, 1, 1]).lz.pixels ≤ (ready 2 [0, 0, 1, 1]).pix.size.toNat ∧
      Accepting (ready 2 [0, 0, 1, 1]).sink := ⟨rfl, image_ready, by decide, accepting_reset⟩

theorem pixels_ready (a : Nat) (h : a < (ready 2 [0, 0, 1, 1]).lz.pixels) :
    ∃ v, (ready 2 [0, 0, 1, 1]).pix.get a = some v ∧
      v.toNat < 2 ^ (ready 2 [0, 0, 1, 1]).lz.initCodeSize.toNat := by
  have h4 : a < 4 := h
  interval_cases a <;> exact ⟨_, rfl, by decide⟩

theorem witness_StreamShape :
    (ready 2 [0, 0, 1, 1]).lz.phase = .ready ∧ ImageAccepted (ready 2 [0, 0, 1, 1]).lz ∧
      Accepting (ready 2 [0, 0, 1, 1]).sink ∧
      ∀ a, a < (ready 2 [0, 0, 1, 1]).lz.pixels → ∃ v, (ready 2 [0, 0, 1, 1]).pix.get a = some v ∧
        v.toNat < 2 ^ (ready 2 [0, 0, 1, 1]).lz.initCodeSize.toNat := ⟨rfl, image_ready, accepting_reset, pixels_ready⟩

theorem witness_StreamRoundTrip :
    (ready 2 [0, 0, 1, 1]).lz.phase = .ready ∧ ImageAccepted (ready 2 [0, 0, 1, 1]).lz ∧
      Accepting (ready 2 [0, 0, 1, 1]).sink ∧
      ∀ a, a < (ready 2 [0, 0, 1, 1]).lz.pixels → ∃ v, (ready 2 [0, 0, 1, 1]).pix.get a = some v ∧
        v.toNat < 2 ^ (ready 2 [0, 0, 1, 1]).lz.initCodeSize.toNat := witness_StreamShape

/-- A sink that accepts the whole stream of V-LZ-1, and one that fails its first byte. -/
theorem witness_SinkFailureLeavesPrefix :
    ∃ (s full : State) (stream : List Byte), s.lz.phase = .ready ∧
      exec .lzEncode { s with sink := ⟨[], .accept⟩ } = .next full ∧ full.lz.phase = .done ∧ full.out = s.out ++ stream ∧
      (∀ k, k < stream.length → answer (⟨[], .accept⟩ : Sink) k = .accept) ∧
      ((∀ k, k < 0 → answer (⟨[.fail], .accept⟩ : Sink) k = .accept) ∧ answer (⟨[.fail], .accept⟩ : Sink) 0 = .fail) := by
  obtain ⟨t, ht, hp⟩ := encodes_ready
  exact ⟨ready 2 [0, 0, 1, 1], t, t.out, rfl, ht, hp, rfl, fun _ _ => rfl, fun k hk => absurd hk (by omega), rfl⟩

theorem witness_StreamDependsOnImageOnly :
    (∃ s s' t : State, s.lz.phase = .ready ∧ s'.lz.phase = .ready ∧ s'.lz.initCodeSize = s.lz.initCodeSize ∧
      s'.lz.pixels = s.lz.pixels ∧ (∀ a, a < s.lz.pixels → s'.pix.get a = s.pix.get a) ∧ s'.sink = s.sink ∧
      exec .lzEncode s = .next t ∧ s'.lz.codetab ≠ s.lz.codetab ∧ s'.out ≠ s.out) ∧
    (∃ (s s' : State) (f : Fault), s.lz.phase = .ready ∧ s'.lz.phase = .ready ∧
      s'.lz.initCodeSize = s.lz.initCodeSize ∧ s'.lz.pixels = s.lz.pixels ∧
      (∀ a, a < s.lz.pixels → s'.pix.get a = s.pix.get a) ∧ s'.sink = s.sink ∧ exec .lzEncode s = .fault f ∧
      s'.out ≠ s.out) := by
  refine ⟨?_, { ready 2 [0, 0, 1, 1] with pix := Buffer.unattached },
    { ready 2 [0, 0, 1, 1] with pix := Buffer.unattached, out := [9] }, .pixBeyondEnd, rfl, rfl, rfl, rfl,
    fun _ _ => rfl, rfl, rfl, by decide⟩
  obtain ⟨t, ht, _⟩ := encodes_ready
  exact ⟨ready 2 [0, 0, 1, 1],
    { ready 2 [0, 0, 1, 1] with
      out := [9], lz := { (ready 2 [0, 0, 1, 1]).lz with imgW := 2, imgH := 2, codetab := [(0, 5)] } },
    t, rfl, rfl, rfl, rfl, fun _ _ => rfl, rfl, ht, by decide, by decide⟩

/-- A running encode of depth 2 right after its CLEAR. -/
def fresh : EncodeJob := clearHash { compressStart 3 (encodeStart (ready 2 [0, 0, 1, 1])) with ent := 0 }

theorem inv_fresh : EncodeInv 2 fresh where
  depthLow := by decide
  depthHigh := by decide
  gInitBits := rfl
  clearCode := rfl
  eofCode := rfl
  clearFlg := rfl
  ent := by decide
  freeLow := by decide
  freeHigh := by decide
  bitsLow := by decide
  bitsHigh := by decide
  maxcode := by decide
  freeFits := by decide
  curBits := by decide
  packet := by decide
  keys := canonical_empty_dictionary.1
  codes := canonical_empty_dictionary.2
  count := by decide
  live := by decide

/-- The first `n` slots hold a key. -/
def fullKeys (n : Nat) : KeyTable := (List.range n).map fun i => (i, 0)

/-- Slot `i` holds the code `i + 6`. -/
def fullCodes (n : Nat) : CodeTable := (List.range n).map fun i => (i, BitVec.ofNat 12 (i + 6))

/-- A running encode of depth 2 with codes of twelve bits and `n` keys, code `6 + i` in slot `i`. -/
def crowded (n : Nat) : EncodeJob :=
  { fresh with nBits := 12, maxcode := n + 6, freeEnt := n + 6, htab := fullKeys n, codetab := fullCodes n }

theorem rising_range {α : Type} (n : Nat) (f : Nat → α) : Rising ((List.range n).map fun i => (i, f i)) := by
  rw [Rising, List.pairwise_map]
  exact List.pairwise_lt_range

theorem fullKeys_canonical (n : Nat) (hn : n ≤ 4090) : KeysCanonical (fullKeys n) := by
  refine ⟨rising_range n _, fun e he => ?_⟩
  obtain ⟨i, hi, rfl⟩ := List.mem_map.mp he
  have := List.mem_range.mp hi
  simp only [Config.hsize]
  omega

theorem fullCodes_canonical (n : Nat) (hn : n ≤ 4090) : CodesCanonical (fullCodes n) := by
  refine ⟨rising_range n _, fun e he => ?_⟩
  obtain ⟨i, hi, rfl⟩ := List.mem_map.mp he
  have hlt := List.mem_range.mp hi
  refine ⟨by simp only [Config.hsize]; omega, fun h => ?_⟩
  have h' := congrArg BitVec.toNat h
  rw [BitVec.toNat_ofNat] at h'
  simp at h'
  omega

theorem fullCodes_codeAt (n i : Nat) (hn : n ≤ 4090) (hi : i < n) : codeAt (fullCodes n) i = i + 6 := by
  have hf := Laws.find_of_mem (fullCodes n) (fullCodes_canonical n hn).1 (i, BitVec.ofNat 12 (i + 6))
    (List.mem_map.mpr ⟨i, List.mem_range.mpr hi, rfl⟩)
  rw [codeAt, readDefault, hf, Option.getD_some, BitVec.toNat_ofNat]
  omega

/-- With 4090 keys the code space is used up. -/
theorem inv_crowded (n : Nat) (hn : n = 4090) : EncodeInv 2 (crowded n) where
  depthLow := inv_fresh.depthLow
  depthHigh := inv_fresh.depthHigh
  gInitBits := rfl
  clearCode := rfl
  eofCode := rfl
  clearFlg := rfl
  ent := inv_fresh.ent
  freeLow := show 4 + 2 ≤ n + 6 by omega
  freeHigh := show n + 6 ≤ 4096 by omega
  bitsLow := show 3 ≤ 12 by omega
  bitsHigh := show 12 ≤ 12 by omega
  maxcode := (show n + 6 = 4096 by omega).trans (if_pos rfl).symm
  freeFits := show n + 6 ≤ n + 6 + 1 by omega
  curBits := inv_fresh.curBits
  packet := inv_fresh.packet
  keys := fullKeys_canonical n (by omega)
  codes := fullCodes_canonical n (by omega)
  count := show (fullKeys n).length = n + 6 - (4 + 2) by
    rw [fullKeys, List.length_map, List.length_range]; omega
  live := fun e he => by
    obtain ⟨i, hi, rfl⟩ := List.mem_map.mp (show e ∈ fullKeys n from he)
    have hlt := List.mem_range.mp hi
    have hc : codeAt (crowded n).codetab i = i + 6 := fullCodes_codeAt n i (by omega) hlt
    have h₁ : (crowded n).clearCode = 4 := rfl
    have h₂ : (crowded n).freeEnt = n + 6 := rfl
    rw [h₁, h₂]
    show 4 + 2 ≤ codeAt (crowded n).codetab i ∧ codeAt (crowded n).codetab i < n + 6
    rw [hc]
    omega

theorem witness_EncoderRegistersKept :
    (∃ j j' : EncodeJob, (2 ≤ 2 ∧ 8 ≤ 8 ∧ 255 < 256) ∧ CodesCanonical j.codetab ∧
      output (2 ^ 2) (clearHash { compressStart (2 + 1) j with ent := 255 }) = .ok j') ∧
    (∃ j' : EncodeJob, EncodeInv 2 fresh ∧ 0 < 256 ∧ takePixel 0 fresh = .ok j') ∧
    (∃ n, EncodeInv 2 (crowded n) ∧ Accepting (crowded n).sink ∧ (crowded n).freeEnt = 4096) := by
  refine ⟨?_, ?_, 4090, inv_crowded _ rfl, accepting_reset, rfl⟩
  · obtain ⟨j', h, _⟩ := Laws.output_accepting (2 ^ 2)
      (clearHash { compressStart (2 + 1) (encodeStart (ready 2 [0])) with ent := 255 }) accepting_reset
    exact ⟨encodeStart (ready 2 [0]), j', by decide, canonical_empty_dictionary.2, h⟩
  · obtain ⟨j', h, _⟩ := Laws.output_accepting 0 fresh accepting_reset
    have hfree := (Laws.output_registers 0 fresh j' (by decide) h).2.1.2.1
    refine ⟨insert 0 (fcode 0 0) { j' with ent := 0 }, inv_fresh, by decide, ?_⟩
    show miss 0 0 (fcode 0 0) fresh = .ok (insert 0 (fcode 0 0) { j' with ent := 0 })
    unfold miss
    rw [show fresh.ent = 0 from rfl, h]
    simp only
    rw [if_pos]
    rw [hfree]
    decide

theorem witness_DictionaryKeysAreFound :
    (255 < 256 ∧ 4095 < 4096) ∧
    ∃ (t : KeyTable) (key : BitVec 20) (i : Nat), KeysCanonical t ∧ Findable t ∧
      lookup t key (homeSlot key) = some (.miss i) ∧ t ≠ [] := by
  refine ⟨by decide, [(16, fcode 1 0)], fcode 0 16, 32, ?_, ?_, by decide, by decide⟩
  · exact ⟨by simp [Rising], by simp [Config.hsize]⟩
  · intro e he
    have : e = (16, fcode 1 0) := by simpa using he
    subst this
    decide

theorem witness_ScansEnd :
    ∃ t : KeyTable, KeysCanonical t ∧ t.length < 5003 ∧ t ≠ [] ∧ (0 < 5003 ∧ 5002 < 5003) :=
  ⟨[(16, fcode 1 0)], ⟨by simp [Rising], by simp [Config.hsize]⟩, by decide, by decide, by decide⟩

theorem packet_length (n m : Nat) (h : n < m) : (List.replicate n (0 : Byte)).length < m :=
  List.length_replicate.trans_lt h

theorem witness_PackAppendsCodeBits :
    (∃ j : EncodeJob, 4095 < 2 ^ j.nBits ∧ j.nBits ≤ 12 ∧ j.curBits ≤ 7 ∧ j.curAccum < 2 ^ j.curBits ∧
      j.packet.length < 254 ∧ Accepting j.sink) ∧
    ∃ j : EncodeJob, 0 < 2 ^ j.nBits ∧ j.nBits ≤ 12 ∧ j.curBits ≤ 7 ∧ j.curAccum < 2 ^ j.curBits ∧
      j.packet.length < 254 ∧ Accepting j.sink :=
  ⟨⟨{ fresh with nBits := 12, curBits := 7, curAccum := 127, packet := List.replicate 253 0 }, by decide, by decide,
      by decide, by decide, packet_length 253 254 (by decide), accepting_reset⟩,
    ⟨{ fresh with curBits := 0, curAccum := 0, packet := [] }, by decide, by decide, by decide, by decide, by decide,
      accepting_reset⟩⟩

theorem witness_SubBlocksOfAtMost254 :
    (∃ j : EncodeJob, Accepting j.sink ∧ j.packet.length < 254 ∧ j.packet.length < 253) ∧
      (∃ j : EncodeJob, Accepting j.sink ∧ j.packet.length < 254 ∧ j.packet.length = 253) :=
  ⟨⟨{ fresh with packet := List.replicate 252 0 }, accepting_reset, packet_length 252 254 (by decide),
      packet_length 252 253 (by decide)⟩,
    ⟨{ fresh with packet := List.replicate 253 0 }, accepting_reset, packet_length 253 254 (by decide),
      List.length_replicate⟩⟩

end Sys2Proof.Tests
end

/-! The rules of 10_state.md on the registers: the palette window (O10), the moves of the phases (O20), and `STICKY`
(O21). -/

namespace Sys2Proof.Proofs

open Sys2Proof.Machine Sys2Proof.Laws

/-! ### The palette window (10_state.md R37, 20_memory.md R67) -/

theorem csrAt_palette (w : Nat) (hw : w < 192) : csrAt (0x400 + 4 * w) = some (.palW w) := by
  have hword : (0x400 + 4 * w - 0x400) / 4 = w := by omega
  simp (disch := omega) only [csrAt, if_neg, if_pos, hword]

theorem accessSupported_palette (w : Nat) (offset : BitVec 12) (ho : offset.toNat = 0x400 + 4 * w) :
    accessSupported .word offset = true := by
  simp only [accessSupported, decide_true, Bool.true_and, decide_eq_true_eq]
  omega

theorem hostRead_palette_shown (s : State) (w : Nat) (offset : BitVec 12) (hw : w < 192)
    (ho : offset.toNat = 0x400 + 4 * w) (hp : s.nq.phase = .palette) :
    hostRead .word offset s = .next { s with lastRead := some (palWord s.nq.pal w) } := by
  simp [hostRead, windowRead, csrRead, accessSupported_palette w offset ho, ho, csrAt_palette w hw, hp]

theorem hostRead_palette_notReady (s : State) (w : Nat) (offset : BitVec 12) (hw : w < 192)
    (ho : offset.toNat = 0x400 + 4 * w) (hp : s.nq.phase ≠ .palette) :
    hostRead .word offset s = .fault .paletteNotReady := by
  simp [hostRead, windowRead, csrRead, accessSupported_palette w offset ho, ho, csrAt_palette w hw, hp]

theorem hostWrite_palette (s : State) (w : Nat) (offset : BitVec 12) (v : Word) (hw : w < 192)
    (ho : offset.toNat = 0x400 + 4 * w) : hostWrite .word offset v s = .next s := by
  simp [hostWrite, csrWrite, accessSupported_palette w offset ho, ho, csrAt_palette w hw]

/-- The four bytes stand in the word without overlap, the first lowest. -/
theorem palWord_byte (pal : Ram Byte 768) (w j : Nat) (hj : j < 4) :
    (palWord pal w).toNat / 2 ^ (8 * j) % 256 = (pal.read (4 * w + j) 0).toNat := by
  have h0 := (pal.read (4 * w) 0).isLt
  have h1 := (pal.read (4 * w + 1) 0).isLt
  have h2 := (pal.read (4 * w + 2) 0).isLt
  have h3 := (pal.read (4 * w + 3) 0).isLt
  simp only [palWord, BitVec.toNat_ofNat]
  interval_cases j
  · simp only [Nat.add_zero]
    omega
  · omega
  · omega
  · omega

/-- Settles O10: the offset names `PAL_W` w, so that the read returns its word, whose four bytes are the palette's, or
faults by the phase, and the write is ignored. -/
theorem paletteWindowReads : Obligations.PaletteWindowReads := by
  intro s w offset rest hw ho
  refine ⟨fun hi => ⟨fun hp => ⟨palWord s.nq.pal w, ?_, fun j hj => palWord_byte s.nq.pal w j hj⟩, fun hp => ?_⟩,
    fun v hi => ?_⟩ <;> rw [step_action s _ rest hi]
  · exact hostRead_palette_shown { s with inputs := rest } w offset hw ho hp
  · exact hostRead_palette_notReady { s with inputs := rest } w offset hw ho hp
  · exact hostWrite_palette { s with inputs := rest } w offset v hw ho

/-! ### Phases (10_state.md R25, R41) -/

@[simp] theorem initAccepted_phase (sf : Nat) (q : NqState) : (initAccepted sf q).phase = .constructed := rfl

@[simp] theorem initAccepted_sticky (sf : Nat) (q : NqState) : (initAccepted sf q).sticky = q.sticky := rfl

@[simp] theorem processed_phase (o : PaletteOrder) (q : NqState) (j : LearnJob) :
    (processed o q j).phase = .palette := rfl

@[simp] theorem processed_sticky (o : PaletteOrder) (q : NqState) (j : LearnJob) :
    (processed o q j).sticky = q.sticky := rfl

@[simp] theorem imageLatched_phase (depth : Nat) (z : LzState) : (imageLatched depth z).phase = .ready := rfl

@[simp] theorem imageLatched_sticky (depth : Nat) (z : LzState) : (imageLatched depth z).sticky = z.sticky := rfl

/-- How a command of the NQE may move the phase (R25). -/
def NqPhaseMove (p p' : NqPhase) : Prop :=
  p' = p ∨ p' = .constructed ∨ (p = .constructed ∧ p' = .learned) ∨ (p = .learned ∧ p' = .unbiased) ∨
    (p = .unbiased ∧ p' = .indexed) ∨ (p = .indexed ∧ p' = .palette) ∨ (p = .constructed ∧ p' = .palette)

/-- How a command of the LZE may move the phase (R41). -/
def LzPhaseMove (p p' : LzPhase) : Prop :=
  p' = p ∨ p' = .ready ∨ (p = .ready ∧ (p' = .done ∨ p' = .aborted))

theorem nqEffect_phase (s : State) (q : NqState) (h : NqEffect s q) : NqPhaseMove s.nq.phase q.phase := by
  unfold NqPhaseMove
  cases h with
  | error c hc => exact .inl rfl
  | init sf hlen hsf => simp
  | learn j hp hj => simp [hp]
  | unbias hp => simp [hp]
  | inxbuild hp => simp [hp]
  | colormap hp => rcases hp with hp | hp <;> simp [hp]
  | process j hp hj => simp [hp]
  | map b g r hp => exact .inl rfl
  | mapbuf idx hp hidx => exact .inl rfl

theorem lzEffect_phase (s : State) (z : LzState) (out : List Byte) (sink : Sink) (h : LzEffect s z out sink) :
    LzPhaseMove s.lz.phase z.phase := by
  unfold LzPhaseMove
  cases h with
  | error c hc => exact .inl rfl
  | init depth himg hd => simp
  | done j hp hj => simp [hp]
  | aborted j hp hj => simp [hp]

theorem step_nq_phase (s t : State) (h : step s = .next t) :
    (t.nq.phase = .empty ∧ s.inputs.head? = some .reset) ∨ NqPhaseMove s.nq.phase t.nq.phase := by
  rcases step_nq s t h with hq | ⟨v, hq⟩ | hq | ⟨hq, hr⟩ | ⟨s₀, hs, _, _, _, _, he⟩
  · exact .inr (.inl (by rw [hq]))
  · exact .inr (.inl (by rw [hq]))
  · exact .inr (.inl (by rw [hq]))
  · exact .inl ⟨by rw [hq]; rfl, hr⟩
  · exact .inr (hs ▸ nqEffect_phase s₀ t.nq he)

theorem step_lz_phase (s t : State) (h : step s = .next t) :
    (t.lz.phase = .empty ∧ s.inputs.head? = some .reset) ∨ LzPhaseMove s.lz.phase t.lz.phase := by
  rcases step_lz s t h with hz | ⟨_, _, _, hz⟩ | hz | ⟨hz, hr⟩ | ⟨s₀, hs, _, _, _, he⟩
  · exact .inr (.inl (by rw [hz]))
  · exact .inr (.inl (by rw [hz]))
  · exact .inr (.inl (by rw [hz]))
  · exact .inl ⟨by rw [hz]; rfl, hr⟩
  · exact .inr (hs ▸ lzEffect_phase s₀ t.lz t.out t.sink he)

/-- Settles O20: the reset input leaves `EMPTY`, and every other step moves each phase as a command of its engine does. -/
theorem phaseTransitions : Obligations.PhaseTransitions := by
  intro s t h
  exact ⟨or_left_comm.mp (step_nq_phase s t h), or_left_comm.mp (step_lz_phase s t h)⟩

/-! ### `STICKY` (10_state.md R24, R39, 60_exceptions.md R272) -/

theorem nqEffect_keeps_sticky (s : State) (q : NqState) (h : NqEffect s q) (hs : s.nq.sticky = true) :
    q.sticky = true := by
  cases h with
  | error c hc => rfl
  | _ => simpa using hs

theorem lzEffect_keeps_sticky (s : State) (z : LzState) (out : List Byte) (sink : Sink) (h : LzEffect s z out sink)
    (hs : s.lz.sticky = true) : z.sticky = true := by
  cases h with
  | error c hc => rfl
  | init depth himg hd => simpa using hs
  | done j hp hj => simpa using hs
  | aborted j hp hj => rfl

theorem step_keeps_nq_sticky (s t : State) (h : step s = .next t) (hs : s.nq.sticky = true)
    (hr : s.inputs.head? ≠ some .reset) : t.nq.sticky = true := by
  rcases step_nq s t h with hq | ⟨v, hq⟩ | hq | ⟨_, hreset⟩ | ⟨s₀, hs₀, _, _, _, _, he⟩
  · rw [hq, hs]
  · rw [hq, hs]
  · rw [hq]
  · exact absurd hreset hr
  · exact nqEffect_keeps_sticky s₀ t.nq he (by rw [hs₀, hs])

theorem step_keeps_lz_sticky (s t : State) (h : step s = .next t) (hs : s.lz.sticky = true)
    (hr : s.inputs.head? ≠ some .reset) : t.lz.sticky = true := by
  rcases step_lz s t h with hz | ⟨_, _, _, hz⟩ | hz | ⟨_, hreset⟩ | ⟨s₀, hs₀, _, _, _, he⟩
  · rw [hz, hs]
  · rw [hz, hs]
  · rw [hz]
  · exact absurd hreset hr
  · exact lzEffect_keeps_sticky s₀ t.lz t.out t.sink he (by rw [hs₀, hs])

/-- Settles O21: a command never clears `STICKY`, and no action of the host but reset does. -/
theorem stickyClearedOnlyByReset : Obligations.StickyClearedOnlyByReset := by
  intro s t p h hs hr
  cases p with
  | nq => exact step_keeps_nq_sticky s t h hs hr
  | lz => exact step_keeps_lz_sticky s t h hs hr

end Sys2Proof.Proofs

/-! The encoder's operations, said once for the rules that speak of its whole run: how each is composed, what it may
change however it ends, and what it keeps. -/

namespace Sys2Proof.Proofs

open Sys2Proof.Machine Sys2Proof.Safety Sys2Proof.Laws

/-! ### Composition: each operation as a sequence (`Except.bind`) of smaller ones -/

theorem outWrites_cons (v : Byte) (vs : List Byte) (j : EncodeJob) :
    outWrites (v :: vs) j = (outWrite v j).bind (outWrites vs) := by
  rw [outWrites]
  cases outWrite v j <;> rfl

theorem flushChar_bind (j : EncodeJob) :
    flushChar j = if j.packet.length > 0 then
      (outWrites (BitVec.ofNat 8 j.packet.length :: j.packet) j).bind fun w => .ok { w with packet := [] } else .ok j := by
  rw [flushChar]
  cases outWrites (BitVec.ofNat 8 j.packet.length :: j.packet) j <;> rfl

theorem charOut_eq (b : Byte) (j : EncodeJob) :
    charOut b j = if (j.packet ++ [b]).length ≥ Config.packetCap then flushChar { j with packet := j.packet ++ [b] }
      else .ok { j with packet := j.packet ++ [b] } := rfl

theorem shiftByte_bind (j : EncodeJob) :
    shiftByte j = (charOut (BitVec.ofNat 8 j.curAccum) j).bind fun w =>
      .ok { w with curAccum := w.curAccum / 2 ^ 8, curBits := w.curBits - 8 } := by
  rw [shiftByte]
  cases charOut (BitVec.ofNat 8 j.curAccum) j <;> rfl

theorem drainBytes_succ (n : Nat) (j : EncodeJob) :
    drainBytes (n + 1) j = if j.curBits ≥ 8 then (shiftByte j).bind (drainBytes n) else .ok j := by
  rw [drainBytes]
  cases shiftByte j <;> rfl

theorem drainBits_succ (n : Nat) (j : EncodeJob) :
    drainBits (n + 1) j = if j.curBits > 0 then (shiftByte j).bind (drainBits n) else .ok j := by
  rw [drainBits]
  cases shiftByte j <;> rfl

theorem finalFlush_bind (j : EncodeJob) :
    finalFlush j = (drainBits j.curBits j).bind fun w => flushChar { w with curBits := 0 } := by
  rw [finalFlush]
  cases drainBits j.curBits j <;> rfl

theorem output_bind (code : Nat) (j : EncodeJob) :
    output code j = (pack code j).bind fun w =>
      if code = w.eofCode then finalFlush (updateWidth w) else .ok (updateWidth w) := by
  rw [output]
  cases pack code j <;> rfl

/-- What follows the code a miss sends (R214, R225): the pair gets a code, or the block is cleared. -/
def allocate (c i : Nat) (key : BitVec 20) (j : EncodeJob) : EncodeStep :=
  if j.freeEnt < Config.maxmaxcode then .ok (insert i key { j with ent := c }) else clearBlock { j with ent := c }

theorem miss_bind (c i : Nat) (key : BitVec 20) (j : EncodeJob) :
    miss c i key j = (output j.ent j).bind (allocate c i key) := by
  rw [miss]
  cases output j.ent j <;> rfl

theorem takePixel_hit (c i : Nat) (j : EncodeJob)
    (h : lookup j.htab (fcode c j.ent) (primarySlot c j.ent) = some (.hit i)) :
    takePixel c j = .ok { j with ent := codeAt j.codetab i } := by
  rw [takePixel, h]

theorem takePixel_miss (c i : Nat) (j : EncodeJob)
    (h : lookup j.htab (fcode c j.ent) (primarySlot c j.ent) = some (.miss i)) :
    takePixel c j = miss c i (fcode c j.ent) j := by
  rw [takePixel, h]

theorem takePixel_endless (c : Nat) (j : EncodeJob)
    (h : lookup j.htab (fcode c j.ent) (primarySlot c j.ent) = none) :
    takePixel c j = .error (.stuck .probeEndless) := by
  rw [takePixel, h]

theorem mainLoop_zero (pix : Buffer) (j : EncodeJob) :
    mainLoop pix 0 j = (output j.ent j).bind fun w => output w.eofCode w := by
  rw [mainLoop]
  cases output j.ent j <;> rfl

theorem mainLoop_succ (pix : Buffer) (n : Nat) (j : EncodeJob) (v : Byte) (h : pixRead pix j.curPixel = .ok v) :
    mainLoop pix (n + 1) j = (takePixel v.toNat { j with curPixel := j.curPixel + 1 }).bind (mainLoop pix n) := by
  rw [mainLoop, nextPixel, h]
  dsimp only
  cases takePixel v.toNat { j with curPixel := j.curPixel + 1 } <;> rfl

theorem mainLoop_stuck (pix : Buffer) (n : Nat) (j : EncodeJob) (f : Fault) (h : pixRead pix j.curPixel = .error f) :
    mainLoop pix (n + 1) j = .error (.stuck f) := by
  rw [mainLoop, nextPixel, h]

/-- The registers when `Compress` sends its clear code, the first pixel being `c` (R213). -/
def firstPrefix (initBits c : Nat) (j : EncodeJob) : EncodeJob :=
  clearHash { compressStart initBits j with curPixel := j.curPixel + 1, ent := c }

theorem compress_succ (pix : Buffer) (n initBits : Nat) (j : EncodeJob) (v : Byte)
    (h : pixRead pix j.curPixel = .ok v) :
    compress pix (n + 1) initBits j =
      (output (2 ^ (initBits - 1)) (firstPrefix initBits v.toNat j)).bind (mainLoop pix n) := by
  have hp : pixRead pix (compressStart initBits j).curPixel = .ok v := h
  rw [compress, nextPixel, hp]
  dsimp only
  change (match output (2 ^ (initBits - 1)) (firstPrefix initBits v.toNat j) with
    | .error h => Except.error h
    | .ok j => mainLoop pix n j) = _
  cases output (2 ^ (initBits - 1)) (firstPrefix initBits v.toNat j) <;> rfl

theorem compress_stuck (pix : Buffer) (n initBits : Nat) (j : EncodeJob) (f : Fault)
    (h : pixRead pix j.curPixel = .error f) : compress pix (n + 1) initBits j = .error (.stuck f) := by
  have hp : pixRead pix (compressStart initBits j).curPixel = .error f := h
  rw [compress, nextPixel, hp]

theorem encodeRun_bind (s : State) :
    encodeRun s = (outWrite (s.lz.initCodeSize.setWidth 8) (encodeStart s)).bind fun w =>
      (compress s.pix s.lz.pixels (s.lz.initCodeSize.toNat + 1) w).bind (outWrite 0) := by
  rw [encodeRun]
  cases outWrite (s.lz.initCodeSize.setWidth 8) (encodeStart s) with
  | error h => rfl
  | ok w =>
    dsimp only [Except.bind]
    cases compress s.pix s.lz.pixels (s.lz.initCodeSize.toNat + 1) w <;> rfl

/-! ### A property of the registers however an operation ends -/

/-- `P` holds of the registers an operation ends with, be it by a sink failure; a stuck engine leaves none. -/
def Ends (P : EncodeJob → Prop) : EncodeStep → Prop
  | .ok j => P j
  | .error (.ioFailure j) => P j
  | .error (.stuck _) => True

theorem Ends.mono {P Q : EncodeJob → Prop} {r : EncodeStep} (h : Ends P r) (hq : ∀ j, P j → Q j) : Ends Q r := by
  match r, h with
  | .ok j, h => exact hq j h
  | .error (.ioFailure j), h => exact hq j h
  | .error (.stuck _), _ => exact trivial

theorem Ends.bind {P Q : EncodeJob → Prop} {r : EncodeStep} {f : EncodeJob → EncodeStep} (h : Ends P r)
    (hf : ∀ j, P j → Ends Q (f j)) (hq : ∀ j, P j → Q j) : Ends Q (r.bind f) := by
  match r, h with
  | .ok j, h => exact hf j h
  | .error (.ioFailure j), h => exact hq j h
  | .error (.stuck _), _ => exact trivial

/-! ### Sending: only the registers of the stream and of the width change -/

/-- Between `j` and `j'` only output was sent: the packet buffer, the accumulator, OUT, its length, the sink and the width
registers may differ, and OUT has grown. -/
structure Sends (j j' : EncodeJob) : Prop where
  rest : j' = { j with
    nBits := j'.nBits, maxcode := j'.maxcode, clearFlg := j'.clearFlg, packet := j'.packet, curAccum := j'.curAccum,
    curBits := j'.curBits, out := j'.out, outlen := j'.outlen, sink := j'.sink }
  grows : j.out <+: j'.out

theorem Sends.refl (j : EncodeJob) : Sends j j := ⟨rfl, List.prefix_rfl⟩

theorem Sends.trans {a b c : EncodeJob} (h₁ : Sends a b) (h₂ : Sends b c) : Sends a c :=
  ⟨by rw [h₂.rest, h₁.rest], h₁.grows.trans h₂.grows⟩

section
variable {j j' : EncodeJob} (h : Sends j j')
include h

theorem Sends.freeEnt : j'.freeEnt = j.freeEnt := by rw [h.rest]
theorem Sends.clearCode : j'.clearCode = j.clearCode := by rw [h.rest]
theorem Sends.ent : j'.ent = j.ent := by rw [h.rest]
theorem Sends.curPixel : j'.curPixel = j.curPixel := by rw [h.rest]
theorem Sends.htab : j'.htab = j.htab := by rw [h.rest]
theorem Sends.codetab : j'.codetab = j.codetab := by rw [h.rest]

end

/-- Sending, then sending on. -/
theorem Ends.thenSends {j : EncodeJob} {r : EncodeStep} {f : EncodeJob → EncodeStep} (h : Ends (Sends j) r)
    (hf : ∀ w, Ends (Sends w) (f w)) : Ends (Sends j) (r.bind f) :=
  h.bind (fun w hw => (hf w).mono fun _ => hw.trans) fun _ => id

theorem outWrite_sends (v : Byte) (j : EncodeJob) : Ends (Sends j) (outWrite v j) := by
  rw [outWrite]
  split
  · exact ⟨rfl, List.prefix_append _ _⟩
  · exact ⟨rfl, List.prefix_rfl⟩

theorem outWrites_sends (vs : List Byte) (j : EncodeJob) : Ends (Sends j) (outWrites vs j) := by
  induction vs generalizing j with
  | nil => exact .refl j
  | cons v vs ih =>
    rw [outWrites_cons]
    exact (outWrite_sends v j).thenSends ih

theorem flushChar_sends (j : EncodeJob) : Ends (Sends j) (flushChar j) := by
  rw [flushChar_bind]
  split_ifs
  · exact (outWrites_sends _ j).thenSends fun w => ⟨rfl, List.prefix_rfl⟩
  · exact .refl j

theorem charOut_sends (b : Byte) (j : EncodeJob) : Ends (Sends j) (charOut b j) := by
  have hb : Sends j { j with packet := j.packet ++ [b] } := ⟨rfl, List.prefix_rfl⟩
  rw [charOut_eq]
  split_ifs
  · exact (flushChar_sends _).mono fun _ => hb.trans
  · exact hb

theorem shiftByte_sends (j : EncodeJob) : Ends (Sends j) (shiftByte j) := by
  rw [shiftByte_bind]
  exact (charOut_sends _ j).thenSends fun w => ⟨rfl, List.prefix_rfl⟩

theorem drainBytes_sends (n : Nat) (j : EncodeJob) : Ends (Sends j) (drainBytes n j) := by
  induction n generalizing j with
  | zero => exact .refl j
  | succ n ih =>
    rw [drainBytes_succ]
    split_ifs
    · exact (shiftByte_sends j).thenSends ih
    · exact .refl j

theorem drainBits_sends (n : Nat) (j : EncodeJob) : Ends (Sends j) (drainBits n j) := by
  induction n generalizing j with
  | zero => exact .refl j
  | succ n ih =>
    rw [drainBits_succ]
    split_ifs
    · exact (shiftByte_sends j).thenSends ih
    · exact .refl j

theorem pack_sends (code : Nat) (j : EncodeJob) : Ends (Sends j) (pack code j) := by
  have hc : Sends j
      { j with curAccum := accumulate j.curAccum j.curBits code, curBits := j.curBits + j.nBits } :=
    ⟨rfl, List.prefix_rfl⟩
  exact (drainBytes_sends _ _).mono fun _ => hc.trans

theorem finalFlush_sends (j : EncodeJob) : Ends (Sends j) (finalFlush j) := by
  rw [finalFlush_bind]
  refine (drainBits_sends _ j).thenSends fun w => ?_
  have hw : Sends w { w with curBits := 0 } := ⟨rfl, List.prefix_rfl⟩
  exact (flushChar_sends _).mono fun _ => hw.trans

theorem updateWidth_sends (j : EncodeJob) : Sends j (updateWidth j) := by
  unfold updateWidth
  split_ifs <;> exact ⟨rfl, List.prefix_rfl⟩

theorem output_sends (code : Nat) (j : EncodeJob) : Ends (Sends j) (output code j) := by
  rw [output_bind]
  refine (pack_sends code j).thenSends fun w => ?_
  split_ifs
  · exact (finalFlush_sends _).mono fun _ => (updateWidth_sends w).trans
  · exact updateWidth_sends w

/-! ### Properties that every pixel keeps -/

/-- The registers with which a block clear sends its clear code, `c` being the new `ent` (R225, R250). -/
def clearedFor (c : Nat) (j : EncodeJob) : EncodeJob :=
  { j with ent := c, htab := [], freeEnt := j.clearCode + 2, clearFlg := true }

theorem clearBlock_eq (c : Nat) (j : EncodeJob) :
    clearBlock { j with ent := c } = output j.clearCode (clearedFor c j) := rfl

/-- What a property must survive to hold of the registers after every pixel (R214, R224, R225): sending, and the three
ways a pixel changes `ent` and the dictionary. -/
structure PixelInvariant (P : EncodeJob → Prop) : Prop where
  sends : ∀ {j j'}, P j → Sends j j' → P j'
  hit : ∀ {c i j}, P j → lookup j.htab (fcode c j.ent) (primarySlot c j.ent) = some (.hit i) →
    P { j with ent := codeAt j.codetab i }
  insert : ∀ {c i j j'}, P j → c < 256 → lookup j.htab (fcode c j.ent) (primarySlot c j.ent) = some (.miss i) →
    Sends j j' → j'.freeEnt < Config.maxmaxcode → P (insert i (fcode c j.ent) { j' with ent := c })
  clear : ∀ {c j}, P j → c < 256 → P (clearedFor c j)

section
variable {P : EncodeJob → Prop} (hP : PixelInvariant P)
include hP

theorem PixelInvariant.output (code : Nat) (j : EncodeJob) (h : P j) : Ends P (output code j) :=
  (output_sends code j).mono fun _ => hP.sends h

theorem PixelInvariant.takePixel (c : Nat) (j : EncodeJob) (h : P j) (hc : c < 256) : Ends P (takePixel c j) := by
  cases hl : lookup j.htab (fcode c j.ent) (primarySlot c j.ent) with
  | none =>
    rw [takePixel_endless c j hl]
    exact trivial
  | some r =>
    cases r with
    | hit i =>
      rw [takePixel_hit c i j hl]
      exact hP.hit h hl
    | miss i =>
      rw [takePixel_miss c i j hl, miss_bind]
      refine (output_sends _ j).bind (fun w hw => ?_) fun w => hP.sends h
      unfold allocate
      split_ifs with hf
      · exact hP.insert h hc hl hw hf
      · rw [clearBlock_eq]
        exact hP.output _ _ (hP.clear (hP.sends h hw) hc)

theorem PixelInvariant.mainLoop (hread : ∀ j, P j → P { j with curPixel := j.curPixel + 1 }) (pix : Buffer) (n : Nat)
    (j : EncodeJob) (h : P j) : Ends P (mainLoop pix n j) := by
  induction n generalizing j with
  | zero =>
    rw [mainLoop_zero]
    exact (hP.output _ j h).bind (fun w hw => hP.output _ w hw) fun _ => id
  | succ n ih =>
    cases hv : pixRead pix j.curPixel with
    | error f =>
      rw [mainLoop_stuck pix n j f hv]
      exact trivial
    | ok v =>
      rw [mainLoop_succ pix n j v hv]
      exact (hP.takePixel v.toNat _ (hread j h) v.isLt).bind ih fun _ => id

theorem PixelInvariant.compress (hread : ∀ j, P j → P { j with curPixel := j.curPixel + 1 }) (pix : Buffer)
    (n initBits : Nat) (j : EncodeJob) (h : ∀ c, c < 256 → P (firstPrefix initBits c j)) :
    Ends P (compress pix n initBits j) := by
  cases n with
  | zero => exact trivial
  | succ n =>
    cases hv : pixRead pix j.curPixel with
    | error f =>
      rw [compress_stuck pix n initBits j f hv]
      exact trivial
    | ok v =>
      rw [compress_succ pix n initBits j v hv]
      exact (hP.output _ _ (h v.toNat v.isLt)).bind (hP.mainLoop hread pix n) fun _ => id

end

/-! ### The dictionary RAMs stay canonical (10_state.md R45) -/

/-- The dictionary RAMs are canonical, and `ent` is a code, so that its look-ups stay inside the table (R215). -/
structure DictionaryOk (j : EncodeJob) : Prop where
  keys : KeysCanonical j.htab
  codes : CodesCanonical j.codetab
  ent : j.ent < 4096

theorem keysCanonical_nil : KeysCanonical [] := ⟨List.Pairwise.nil, by simp⟩

theorem codesCanonical_nil : CodesCanonical [] := ⟨List.Pairwise.nil, by simp⟩

theorem keysCanonical_put (t : KeyTable) (h : KeysCanonical t) (i : Nat) (key : BitVec 20) (hi : i < 5003) :
    KeysCanonical (put t i key) := by
  refine ⟨rising_put t h.1 i key, fun e he => ?_⟩
  rcases mem_put t i key e he with rfl | he
  · exact hi
  · exact h.2 e he

theorem codesCanonical_write (t : CodeTable) (h : CodesCanonical t) (i : Nat) (code : BitVec 12) (hi : i < 5003) :
    CodesCanonical (writeDefault 0 t i code) := by
  refine ⟨writeDefault_rising 0 t h.1 i code, fun e he => ?_⟩
  rcases mem_writeDefault 0 t i code e he with ⟨rfl, hv⟩ | he
  · exact ⟨hi, hv⟩
  · exact h.2 e he

theorem codeAt_lt (t : CodeTable) (i : Nat) : codeAt t i < 4096 := (readDefault 0 t i).isLt

/-- A pixel's look-up ends inside the table, `ent` being a code (R215, R217). -/
theorem lookup_pixel_slot (t : KeyTable) (c ent : Nat) (r : ProbeEnd) (hc : c < 256) (he : ent < 4096)
    (h : lookup t (fcode c ent) (primarySlot c ent) = some r) : endSlot r < 5003 :=
  lookup_slot t _ _ r (by have := primarySlot_lt c ent hc he; omega) h

theorem dictionaryOk_invariant : PixelInvariant DictionaryOk where
  sends h hs := ⟨hs.htab ▸ h.keys, hs.codetab ▸ h.codes, hs.ent ▸ h.ent⟩
  hit h _ := ⟨h.keys, h.codes, codeAt_lt _ _⟩
  insert {c i j j'} h hc hl hs _ := by
    have hi : i < 5003 := lookup_pixel_slot _ c _ _ hc h.ent hl
    exact ⟨keysCanonical_put _ (hs.htab ▸ h.keys) i _ hi, codesCanonical_write _ (hs.codetab ▸ h.codes) i _ hi, by
      show c < 4096
      omega⟩
  clear {c j} h hc := ⟨keysCanonical_nil, h.codes, by
      show c < 4096
      omega⟩

/-- A running encode keeps `codetab`'s form and starts `htab` anew, so that it ends with both canonical. -/
theorem encodeRun_dictionary (s : State) (hk : KeysCanonical s.lz.htab) (hc : CodesCanonical s.lz.codetab) :
    Ends DictionaryOk (encodeRun s) := by
  have hstart : DictionaryOk (encodeStart s) := ⟨hk, hc, by show 0 < 4096; omega⟩
  rw [encodeRun_bind]
  refine ((outWrite_sends _ _).mono fun _ => dictionaryOk_invariant.sends hstart).bind (fun w hw => ?_) fun _ => id
  have hfirst : ∀ c, c < 256 → DictionaryOk (firstPrefix (s.lz.initCodeSize.toNat + 1) c w) := fun c hc =>
    ⟨keysCanonical_nil, hw.codes, by
      show c < 4096
      omega⟩
  refine (dictionaryOk_invariant.compress (fun j h => ⟨h.keys, h.codes, h.ent⟩) _ _ _ w hfirst).bind
    (fun u hu => ?_) fun _ => id
  exact (outWrite_sends 0 u).mono fun _ => dictionaryOk_invariant.sends hu

/-! ### Every step keeps the memories canonical (20_memory.md R60) -/

/-- `NQ.MAPBUF` writes IDX byte by byte, each inside the buffer (R64). -/
theorem mapBuf_wf (network : Ram Neuron 256) (netindex : Ram Byte 256) (src : Buffer) (n k : Nat) (idx t : Buffer)
    (h : idx.wf) (ht : mapBuf network netindex src n k idx = .ok t) : t.wf := by
  induction n generalizing k idx with
  | zero =>
    cases ht
    exact h
  | succ n ih =>
    rw [mapBuf] at ht
    cases hc : readTriple src (3 * k) with
    | error f => simp [hc] at ht
    | ok c =>
      cases hi : idxWrite idx k (BitVec.ofInt 8 (mapColour network netindex c)) with
      | error f => simp [hc, hi] at ht
      | ok idx' =>
        simp only [hc, hi] at ht
        exact ih (k + 1) idx' (idxWrite_wf idx idx' k _ h hi) ht

theorem nqCommand_keeps_canonical (i : Instr) (s t : State) (hi : i.port = .nq) (h : MemoryCanonical s)
    (he : exec i s = .next t) : MemoryCanonical t := by
  obtain ⟨_, hframe, hidx⟩ := exec_nq_effect i s t hi he
  have hwf : t.idx.wf := by
    rcases hidx with hidx | ⟨_, _, hmap⟩
    · rw [hidx]
      exact h.idx
    · exact mapBuf_wf _ _ _ _ _ _ _ h.idx hmap
  rw [hframe]
  exact ⟨h.src, hwf, h.pix, h.htab, h.codetab⟩

theorem lzEffect_keeps_dictionary (s : State) (z : LzState) (out : List Byte) (sink : Sink)
    (h : LzEffect s z out sink) (hk : KeysCanonical s.lz.htab) (hc : CodesCanonical s.lz.codetab) :
    KeysCanonical z.htab ∧ CodesCanonical z.codetab := by
  have hrun := encodeRun_dictionary s hk hc
  cases h with
  | error c hne => exact ⟨hk, hc⟩
  | init depth himg hd => exact ⟨hk, hc⟩
  | done j hp hj =>
    rw [hj] at hrun
    exact ⟨hrun.keys, hrun.codes⟩
  | aborted j hp hj =>
    rw [hj] at hrun
    exact ⟨hrun.keys, hrun.codes⟩

theorem lzCommand_keeps_canonical (i : Instr) (s t : State) (hi : i.port = .lz) (h : MemoryCanonical s)
    (he : exec i s = .next t) : MemoryCanonical t := by
  obtain ⟨heff, hframe⟩ := exec_lz_effect i s t hi he
  obtain ⟨hk, hc⟩ := lzEffect_keeps_dictionary s t.lz t.out t.sink heff h.htab h.codetab
  rw [hframe]
  exact ⟨h.src, h.idx, h.pix, hk, hc⟩

theorem command_keeps_canonical (i : Instr) (s t : State) (h : MemoryCanonical s) (he : exec i s = .next t) :
    MemoryCanonical t := by
  cases hp : i.port with
  | nq => exact nqCommand_keeps_canonical i s t hp h he
  | lz => exact lzCommand_keeps_canonical i s t hp h he

theorem endCommand_keeps_canonical (p : Port) (c : ErrCode) (s : State) (h : MemoryCanonical s) :
    MemoryCanonical (endCommand p c s) := by
  cases p <;> exact ⟨h.src, h.idx, h.pix, h.htab, h.codetab⟩

theorem action_keeps_canonical (s t : State) (a : HostAction) (h : MemoryCanonical s) (ha : ActionCase s a t) :
    MemoryCanonical t := by
  cases ha with
  | command p w i t hb hd he => exact command_keeps_canonical i s t h he
  | illegal p w e hb hd => exact endCommand_keeps_canonical p _ s h
  | attachSrc bytes hlen => exact ⟨buffer_ofBytes_wf bytes hlen, h.idx, h.pix, h.htab, h.codetab⟩
  | attachIdx bytes hlen => exact ⟨h.src, buffer_ofBytes_wf bytes hlen, h.pix, h.htab, h.codetab⟩
  | attachPix bytes hlen => exact ⟨h.src, h.idx, buffer_ofBytes_wf bytes hlen, h.htab, h.codetab⟩
  | idxToPix => exact ⟨h.src, h.idx, h.idx, h.htab, h.codetab⟩
  | reset => exact ⟨h.src, h.idx, h.pix, keysCanonical_nil, codesCanonical_nil⟩
  | _ => exact ⟨h.src, h.idx, h.pix, h.htab, h.codetab⟩

/-- Settles O15: attached buffers and written bytes are in canonical form, and every operation of an encode, failing or
not, leaves both dictionary RAMs so. -/
theorem stepKeepsMemoryCanonical : Obligations.StepKeepsMemoryCanonical := by
  intro s t h hstep
  rcases step_cases s t hstep with ⟨_, rfl⟩ | ⟨a, rest, _, ha⟩
  · exact h
  · exact action_keeps_canonical { s with inputs := rest } t a ⟨h.src, h.idx, h.pix, h.htab, h.codetab⟩ ha

end Sys2Proof.Proofs

/-! The host's side of 20_memory.md: what a CSR read returns (O9), what a CSR write stores (O11), and that a step takes
one action of the host (O8). -/

namespace Sys2Proof.Proofs

open Sys2Proof.Machine Sys2Proof.Laws

/-! ### Supported and refused accesses (20_memory.md R61) -/

theorem accessSupported_aligned (offset : BitVec 12) (h : offset.toNat % 4 = 0) :
    accessSupported .word offset = true := by
  simp [accessSupported, h]

theorem accessSupported_refused (width : AccessWidth) (offset : BitVec 12)
    (h : width ≠ .word ∨ offset.toNat % 4 ≠ 0) : accessSupported width offset = false := by
  rcases h with h | h <;> simp [accessSupported, h]

theorem hostRead_refused (width : AccessWidth) (offset : BitVec 12) (s : State)
    (h : width ≠ .word ∨ offset.toNat % 4 ≠ 0) : hostRead width offset s = .refused .unsupportedAccess := by
  simp [hostRead, accessSupported_refused width offset h]

theorem hostWrite_refused (width : AccessWidth) (offset : BitVec 12) (v : Word) (s : State)
    (h : width ≠ .word ∨ offset.toNat % 4 ≠ 0) : hostWrite width offset v s = .refused .unsupportedAccess := by
  simp [hostWrite, accessSupported_refused width offset h]

/-! ### Reads (20_memory.md R62) -/

theorem windowRead_mapped (s : State) (o : Nat) (r : Csr) (h : csrAt o = some r) : windowRead s o = csrRead s r := by
  rw [windowRead, h]

theorem windowRead_unmapped (s : State) (o : Nat) (h : csrAt o = none) : windowRead s o = .ok 0 := by
  rw [windowRead, h]

/-- The host's actions still to come are not read. -/
theorem csrRead_inputs (s : State) (rest : List HostAction) (r : Csr) :
    csrRead { s with inputs := rest } r = csrRead s r := by
  cases r <;> rfl

theorem windowRead_inputs (s : State) (rest : List HostAction) (o : Nat) :
    windowRead { s with inputs := rest } o = windowRead s o := by
  cases h : csrAt o with
  | none => rw [windowRead_unmapped _ o h, windowRead_unmapped s o h]
  | some r => rw [windowRead_mapped _ o r h, windowRead_mapped s o r h, csrRead_inputs]

theorem step_read (s : State) (offset : BitVec 12) (rest : List HostAction) (v : Word) (h4 : offset.toNat % 4 = 0)
    (hi : s.inputs = .read .word offset :: rest) (hv : windowRead s offset.toNat = .ok v) :
    step s = .next { s with inputs := rest, lastRead := some v } := by
  rw [step_action s _ rest hi, hostAction, hostRead, if_pos (accessSupported_aligned offset h4), windowRead_inputs, hv]

/-- Settles O9: the word is that of the register the offset names, which no offset but those listed gives another value
than 0, and only the host's copy of it changes. -/
theorem readsHaveNoSideEffect : Obligations.ReadsHaveNoSideEffect := by
  intro s offset rest h4 hi hpal
  have hread := fun v => step_read s offset rest v h4 hi
  have hreg := windowRead_mapped s offset.toNat
  rcases csrAt_cases offset.toNat with ⟨ho, hc⟩ | ⟨ho, hc⟩ | ⟨ho, hc⟩ | ⟨ho, hc⟩ | ⟨ho, hc⟩ | ⟨ho, hc⟩ | ⟨ho, hc⟩ |
    ⟨ho, hc⟩ | ⟨ho, hc⟩ | ⟨ho, hc⟩ | ⟨⟨hlo, hhi, _⟩, hc⟩ | ⟨⟨ho, _⟩, hc⟩
  · exact ⟨0, hread _ (hreg _ hc), by simp [ho]⟩
  · exact ⟨s.nq.statusWord, hread _ (hreg _ hc), by simp [ho]⟩
  · exact ⟨s.nq.len, hread _ (hreg _ hc), by simp [ho]⟩
  · exact ⟨s.nq.mapres.setWidth 32, hread _ (hreg _ hc), by simp [ho]; omega⟩
  · exact ⟨0, hread _ (hreg _ hc), by simp [ho]⟩
  · exact ⟨s.lz.statusWord, hread _ (hreg _ hc), by simp [ho]⟩
  · exact ⟨s.lz.width.setWidth 32, hread _ (hreg _ hc), by simp [ho]; omega⟩
  · exact ⟨s.lz.height.setWidth 32, hread _ (hreg _ hc), by simp [ho]; omega⟩
  · exact ⟨s.lz.pixlen, hread _ (hreg _ hc), by simp [ho]⟩
  · exact ⟨s.lz.outlen, hread _ (hreg _ hc), by simp [ho]⟩
  · refine ⟨_, hread _ ((hreg _ hc).trans (if_pos (hpal hlo hhi))), ?_⟩
    refine ⟨fun _ h => ?_, ?_, ?_, ?_, ?_, ?_, ?_, ?_, ?_⟩ <;> omega
  · refine ⟨0, hread _ (windowRead_unmapped s _ hc), ?_⟩
    simp only [List.mem_cons, not_or] at ho
    simp [ho]

/-! ### Writes (20_memory.md R62) -/

theorem hostWrite_mapped (offset : BitVec 12) (v : Word) (s : State) (r : Csr) (h4 : offset.toNat % 4 = 0)
    (hc : csrAt offset.toNat = some r) : hostWrite .word offset v s = csrWrite v s r := by
  rw [hostWrite, if_pos (accessSupported_aligned offset h4), hc]

theorem hostWrite_unmapped (offset : BitVec 12) (v : Word) (s : State) (h4 : offset.toNat % 4 = 0)
    (hc : csrAt offset.toNat = none) : hostWrite .word offset v s = .next s := by
  rw [hostWrite, if_pos (accessSupported_aligned offset h4), hc]

/-- The value goes to the writable register the offset names, if any. -/
def storedAt (o : Nat) (v : Word) (s : State) : State :=
  { s with
    nq := { s.nq with len := if o = 0x008 then v else s.nq.len }
    lz := { s.lz with
      width := if o = 0x108 then BitVec.ofNat 16 (v.toNat % 2 ^ 16) else s.lz.width
      height := if o = 0x10C then BitVec.ofNat 16 (v.toNat % 2 ^ 16) else s.lz.height
      pixlen := if o = 0x110 then v else s.lz.pixlen } }

theorem storedAt_other (o : Nat) (v : Word) (s : State) (h : o ∉ [0x008, 0x108, 0x10C, 0x110]) :
    storedAt o v s = s := by
  simp only [List.mem_cons, not_or] at h
  simp [storedAt, h]

/-- The low half of a word, as the image registers store it (10_state.md R40). -/
theorem setWidth_low_half (v : Word) : v.setWidth 16 = BitVec.ofNat 16 (v.toNat % 2 ^ 16) := by
  apply BitVec.eq_of_toNat_eq
  simp

theorem hostWrite_stores (offset : BitVec 12) (v : Word) (s : State) (h4 : offset.toNat % 4 = 0)
    (hnq : offset.toNat ≠ 0x000) (hlz : offset.toNat ≠ 0x100) :
    hostWrite .word offset v s = .next (storedAt offset.toNat v s) := by
  have hreg := fun r => hostWrite_mapped offset v s r h4
  rcases csrAt_cases offset.toNat with ⟨ho, _⟩ | ⟨ho, hc⟩ | ⟨ho, hc⟩ | ⟨ho, hc⟩ | ⟨ho, _⟩ | ⟨ho, hc⟩ | ⟨ho, hc⟩ |
    ⟨ho, hc⟩ | ⟨ho, hc⟩ | ⟨ho, hc⟩ | ⟨⟨hlo, _, _⟩, hc⟩ | ⟨⟨ho, _⟩, hc⟩
  · exact absurd ho hnq
  · rw [hreg _ hc, ho]
    rfl
  · rw [hreg _ hc, ho]
    rfl
  · rw [hreg _ hc, ho]
    rfl
  · exact absurd ho hlz
  · rw [hreg _ hc, ho]
    rfl
  · rw [hreg _ hc, ho, csrWrite, setWidth_low_half]
    rfl
  · rw [hreg _ hc, ho, csrWrite, setWidth_low_half]
    rfl
  · rw [hreg _ hc, ho]
    rfl
  · rw [hreg _ hc, ho]
    rfl
  · rw [hreg _ hc, storedAt_other]
    · rfl
    · simp only [List.mem_cons, List.not_mem_nil, or_false]
      omega
  · rw [hostWrite_unmapped offset v s h4 hc, storedAt_other]
    intro h
    simp only [List.mem_cons, List.not_mem_nil, or_false] at h ho
    omega

/-- Settles O11: of the registers an offset can name only the four writable ones take the value. -/
theorem writesStoreOnlyTheirRegister : Obligations.WritesStoreOnlyTheirRegister := by
  intro s offset v rest h4 hnq hlz hi
  refine ⟨storedAt offset.toNat v { s with inputs := rest }, ?_, rfl⟩
  rw [step_action s _ rest hi]
  exact hostWrite_stores offset v { s with inputs := rest } h4 hnq hlz

/-! ### One action per step (20_memory.md R79, 60_exceptions.md R288) -/

theorem command_keeps_host (i : Instr) (s t : State) (h : exec i s = .next t) :
    t.inputs = s.inputs ∧ t.paletteOrder = s.paletteOrder := by
  cases hp : i.port with
  | nq =>
    obtain ⟨_, hframe, _⟩ := exec_nq_effect i s t hp h
    rw [hframe]
    exact ⟨rfl, rfl⟩
  | lz =>
    obtain ⟨_, hframe⟩ := exec_lz_effect i s t hp h
    rw [hframe]
    exact ⟨rfl, rfl⟩

theorem action_keeps_host (s t : State) (a : HostAction) (h : ActionCase s a t) :
    t.inputs = s.inputs ∧ t.paletteOrder = s.paletteOrder := by
  cases h with
  | command p w i t hb hd he => exact command_keeps_host i s t he
  | illegal p w e hb hd => cases p <;> exact ⟨rfl, rfl⟩
  | _ => exact ⟨rfl, rfl⟩

/-- An attached buffer that a port can address, on each of the three ports (20_memory.md R63 to R65). -/
theorem step_attach (s : State) (bytes : List Byte) (rest : List HostAction) (h : bytes.length < 2 ^ 32) :
    (s.inputs = .attachSrc bytes :: rest → step s = .next { s with inputs := rest, src := Buffer.ofBytes bytes }) ∧
      (s.inputs = .attachIdx bytes :: rest → step s = .next { s with inputs := rest, idx := Buffer.ofBytes bytes }) ∧
      (s.inputs = .attachPix bytes :: rest → step s = .next { s with inputs := rest, pix := Buffer.ofBytes bytes }) := by
  have ha : attachable bytes = true := decide_eq_true h
  refine ⟨fun hi => ?_, fun hi => ?_, fun hi => ?_⟩ <;> rw [step_action s _ rest hi, hostAction, if_pos ha]

theorem step_attach_tooLarge (s : State) (bytes : List Byte) (rest : List HostAction) (h : 2 ^ 32 ≤ bytes.length)
    (hi : s.inputs = .attachSrc bytes :: rest ∨ s.inputs = .attachIdx bytes :: rest ∨
      s.inputs = .attachPix bytes :: rest) : step s = .refused .bufferTooLarge := by
  have ha : ¬ attachable bytes = true := by simpa [attachable] using h
  rcases hi with hi | hi | hi <;> rw [step_action s _ rest hi, hostAction, if_neg ha]

/-- Settles O8: a step is the host's next action, whose cases say what it refuses and what it leaves. -/
theorem stepTakesOneAction : Obligations.StepTakesOneAction := by
  refine ⟨step_idle, ?_, ?_, ?_, step_attach_tooLarge, ?_⟩
  · intro s t a rest hi h
    rw [step_action s a rest hi] at h
    exact action_keeps_host _ t a (hostAction_case a _ t h)
  · intro s width offset v rest hw
    refine ⟨fun hi => ?_, fun hi => ?_⟩ <;> rw [step_action s _ rest hi]
    · exact hostRead_refused width offset _ hw
    · exact hostWrite_refused width offset v _ hw
  · intro s bytes rest h
    obtain ⟨hsize, hbytes⟩ := buffer_ofBytes_get bytes h
    exact ⟨Buffer.ofBytes bytes, hsize, hbytes, step_attach s bytes rest h⟩
  · intro s k rest
    exact ⟨fun hi => step_action s _ rest hi, fun hi => step_action s _ rest hi⟩

end Sys2Proof.Proofs

/-! The failing sink of 20_memory.md R66 and 60_exceptions.md R276 (O54): an encode on any sink runs side by side with the
one on a sink that accepts everything, up to the first byte its own sink fails. -/

namespace Sys2Proof.Proofs

open Sys2Proof.Machine Sys2Proof.Safety Sys2Proof.Laws

/-! ### OUT only grows -/

theorem grows_invariant (out : List Byte) : PixelInvariant fun j => out <+: j.out where
  sends h hs := h.trans hs.grows
  hit h _ := h
  insert h _ _ hs _ := h.trans hs.grows
  clear h _ := h

theorem allocate_grows (c i : Nat) (key : BitVec 20) (j : EncodeJob) :
    Ends (fun w => j.out <+: w.out) (allocate c i key j) := by
  unfold allocate
  split_ifs
  · exact List.prefix_rfl
  · rw [clearBlock_eq]
    exact (output_sends _ _).mono fun _ => Sends.grows

theorem mainLoop_grows (pix : Buffer) (n : Nat) (j : EncodeJob) :
    Ends (fun w => j.out <+: w.out) (mainLoop pix n j) :=
  (grows_invariant j.out).mainLoop (fun _ h => h) pix n j List.prefix_rfl

theorem compress_grows (pix : Buffer) (n initBits : Nat) (j : EncodeJob) :
    Ends (fun w => j.out <+: w.out) (compress pix n initBits j) :=
  (grows_invariant j.out).compress (fun _ h => h) pix n initBits j fun _ _ => List.prefix_rfl

/-! ### Two runs side by side -/

/-- The sink that accepts every byte. -/
def acceptAll : Sink := ⟨[], .accept⟩

/-- Since OUT was `base` the sink `k` has accepted exactly the bytes `bs`, and they are counted (R66, R43). -/
structure Delivered (k : Sink) (base bs : List Byte) (j : EncodeJob) : Prop where
  out : j.out = base ++ bs
  accepted : ∀ i, i < bs.length → answer k i = .accept
  count : bs.length < 2 ^ 32 → j.outlen.toNat = bs.length

/-- A run on `acceptAll` has the registers `a` where the run on `k` has the same ones, but its sink is `k'`: what is left
of `k`. -/
def InStep (k : Sink) (base : List Byte) (a : EncodeJob) (k' : Sink) : Prop :=
  a.sink = acceptAll ∧ ∃ bs, Delivered k base bs a ∧ ∀ i, answer k' i = answer k (bs.length + i)

/-- The results `ra` on `acceptAll` and `rb` on `k`: still in step; or `rb` failed at the first byte that `k` fails, which
`ra` went on to deliver; or both stuck alike. -/
def SideBySide (k : Sink) (base : List Byte) (ra : EncodeStep) : EncodeStep → Prop
  | .ok b => ∃ a k', ra = .ok a ∧ b = { a with sink := k' } ∧ InStep k base a k'
  | .error (.ioFailure b) => ∃ bs v, Delivered k base bs b ∧ answer k bs.length = .fail ∧
      ∀ a, ra = .ok a → base ++ bs ++ [v] <+: a.out
  | .error (.stuck f) => ra = .error (.stuck f)

section
variable {k k' : Sink} {base : List Byte} {a : EncodeJob}

/-- Only the sink and the registers of OUT matter. -/
theorem InStep.congr (h : InStep k base a k') (a' : EncodeJob) (hs : a'.sink = a.sink) (ho : a'.out = a.out)
    (hl : a'.outlen = a.outlen) : InStep k base a' k' := by
  obtain ⟨hsink, bs, hd, hk⟩ := h
  exact ⟨hs.trans hsink, bs, ⟨ho.trans hd.out, hd.accepted, hl ▸ hd.count⟩, hk⟩

theorem InStep.sideBySide (h : InStep k base a k') :
    SideBySide k base (.ok a) (.ok { a with sink := k' }) :=
  ⟨a, k', rfl, rfl, h⟩

theorem SideBySide.bind {ra rb : EncodeStep} {f : EncodeJob → EncodeStep} (h : SideBySide k base ra rb)
    (hf : ∀ a k', InStep k base a k' → SideBySide k base (f a) (f { a with sink := k' }))
    (hg : ∀ a, Ends (fun w => a.out <+: w.out) (f a)) : SideBySide k base (ra.bind f) (rb.bind f) := by
  match rb, h with
  | .ok _, ⟨a, k', ha, hb, hin⟩ =>
    rw [ha, hb]
    exact hf a k' hin
  | .error (.ioFailure b), ⟨bs, v, hd, hfail, hlater⟩ =>
    refine ⟨bs, v, hd, hfail, fun w hw => ?_⟩
    match ra, hw with
    | .ok a, hw =>
      have hgrow := hg a
      rw [show f a = .ok w from hw] at hgrow
      exact (hlater a rfl).trans hgrow
  | .error (.stuck _), h =>
    rw [show ra = _ from h]
    rfl

theorem outWrite_accept (v : Byte) (j : EncodeJob) (h : j.sink.draw.1 = .accept) :
    outWrite v j =
      .ok { j with sink := j.sink.draw.2, out := j.out ++ [v], outlen := outlenNext j.outlen (j.out.length + 1) } := by
  rw [outWrite, ← Prod.eta j.sink.draw, h]

theorem outlenNext_toNat (outlen : Word) (count n : Nat) (h : n < 2 ^ 32 → outlen.toNat = n) (hn : n + 1 < 2 ^ 32) :
    (outlenNext outlen count).toNat = n + 1 := by
  have := h (by omega)
  rw [outlenNext, if_pos (by omega), BitVec.toNat_add, this]
  exact Nat.mod_eq_of_lt hn

theorem outWrite_sideBySide (v : Byte) (h : InStep k base a k') :
    SideBySide k base (outWrite v a) (outWrite v { a with sink := k' }) := by
  obtain ⟨hsink, bs, hd, hk⟩ := h
  obtain ⟨hdraw, hrest⟩ := draw_answer k'
  have hnow : k'.draw.1 = answer k bs.length := hdraw.trans (hk 0)
  have ha := outWrite_accept v a (by rw [hsink]; rfl)
  rw [hsink, show acceptAll.draw.2 = acceptAll from rfl] at ha
  cases hans : answer k bs.length with
  | accept =>
    rw [ha, outWrite_accept v { a with sink := k' } (hnow.trans hans)]
    refine ⟨_, k'.draw.2, rfl, rfl, rfl, bs ++ [v], ⟨?_, ?_, ?_⟩, fun i => ?_⟩
    · show a.out ++ [v] = base ++ (bs ++ [v])
      rw [hd.out, List.append_assoc]
    · intro i hi
      rw [List.length_append, List.length_singleton] at hi
      rcases Nat.lt_succ_iff_lt_or_eq.mp hi with hi | rfl
      · exact hd.accepted i hi
      · exact hans
    · rw [List.length_append, List.length_singleton]
      exact outlenNext_toNat a.outlen _ _ hd.count
    · rw [hrest, hk, List.length_append, List.length_singleton]
      congr 1
      omega
  | fail =>
    rw [ha, outWrite_fail v { a with sink := k' } (hnow.trans hans)]
    refine ⟨bs, v, ⟨hd.out, hd.accepted, hd.count⟩, hans, fun w hw => ?_⟩
    cases hw
    rw [← hd.out]

/-! ### Every operation of the encoder, side by side -/

theorem outWrites_sideBySide (vs : List Byte) (h : InStep k base a k') :
    SideBySide k base (outWrites vs a) (outWrites vs { a with sink := k' }) := by
  induction vs generalizing a k' with
  | nil => exact h.sideBySide
  | cons v vs ih =>
    rw [outWrites_cons, outWrites_cons]
    exact (outWrite_sideBySide v h).bind (fun _ _ => ih) fun w => (outWrites_sends vs w).mono fun _ => Sends.grows

theorem flushChar_sideBySide (h : InStep k base a k') :
    SideBySide k base (flushChar a) (flushChar { a with sink := k' }) := by
  rw [flushChar_bind, flushChar_bind]
  dsimp only
  split_ifs
  · exact (outWrites_sideBySide _ h).bind (fun w _ hw => (hw.congr { w with packet := [] } rfl rfl rfl).sideBySide)
      fun _ => List.prefix_rfl
  · exact h.sideBySide

theorem charOut_sideBySide (b : Byte) (h : InStep k base a k') :
    SideBySide k base (charOut b a) (charOut b { a with sink := k' }) := by
  have hb : InStep k base { a with packet := a.packet ++ [b] } k' := h.congr _ rfl rfl rfl
  rw [charOut_eq, charOut_eq]
  dsimp only
  split_ifs
  · exact flushChar_sideBySide hb
  · exact hb.sideBySide

theorem shiftByte_sideBySide (h : InStep k base a k') :
    SideBySide k base (shiftByte a) (shiftByte { a with sink := k' }) := by
  rw [shiftByte_bind, shiftByte_bind]
  refine (charOut_sideBySide _ h).bind (fun w _ hw => ?_) fun _ => List.prefix_rfl
  exact (hw.congr { w with curAccum := w.curAccum / 2 ^ 8, curBits := w.curBits - 8 } rfl rfl rfl).sideBySide

theorem drainBytes_sideBySide (n : Nat) (h : InStep k base a k') :
    SideBySide k base (drainBytes n a) (drainBytes n { a with sink := k' }) := by
  induction n generalizing a k' with
  | zero => exact h.sideBySide
  | succ n ih =>
    rw [drainBytes_succ, drainBytes_succ]
    dsimp only
    split_ifs
    · exact (shiftByte_sideBySide h).bind (fun _ _ => ih) fun w => (drainBytes_sends n w).mono fun _ => Sends.grows
    · exact h.sideBySide

theorem drainBits_sideBySide (n : Nat) (h : InStep k base a k') :
    SideBySide k base (drainBits n a) (drainBits n { a with sink := k' }) := by
  induction n generalizing a k' with
  | zero => exact h.sideBySide
  | succ n ih =>
    rw [drainBits_succ, drainBits_succ]
    dsimp only
    split_ifs
    · exact (shiftByte_sideBySide h).bind (fun _ _ => ih) fun w => (drainBits_sends n w).mono fun _ => Sends.grows
    · exact h.sideBySide

theorem finalFlush_sideBySide (h : InStep k base a k') :
    SideBySide k base (finalFlush a) (finalFlush { a with sink := k' }) := by
  rw [finalFlush_bind, finalFlush_bind]
  refine (drainBits_sideBySide a.curBits h).bind (fun w _ hw => ?_) fun w => ?_
  · exact flushChar_sideBySide (a := { w with curBits := 0 }) (hw.congr _ rfl rfl rfl)
  · exact (flushChar_sends { w with curBits := 0 }).mono fun _ => Sends.grows

/-- `UpdateWidth` neither reads nor writes the sink. -/
theorem updateWidth_sink_update (j : EncodeJob) (k : Sink) :
    updateWidth { j with sink := k } = { updateWidth j with sink := k } := by
  unfold updateWidth
  split_ifs <;> rfl

theorem output_sideBySide (code : Nat) (h : InStep k base a k') :
    SideBySide k base (output code a) (output code { a with sink := k' }) := by
  rw [output_bind, output_bind]
  refine SideBySide.bind (drainBytes_sideBySide _ (h.congr _ rfl rfl rfl)) (fun w k'' hw => ?_) fun w => ?_
  · have hu : InStep k base (updateWidth w) k'' := hw.congr _ (by simp) (by simp) (by simp)
    rw [updateWidth_sink_update w k'']
    dsimp only
    split_ifs
    · exact finalFlush_sideBySide hu
    · exact hu.sideBySide
  · split_ifs
    · exact (finalFlush_sends _).mono fun _ hw => (updateWidth_sends w).grows.trans hw.grows
    · exact (updateWidth_sends w).grows

theorem allocate_sideBySide (c i : Nat) (key : BitVec 20) (h : InStep k base a k') :
    SideBySide k base (allocate c i key a) (allocate c i key { a with sink := k' }) := by
  unfold allocate
  dsimp only
  split_ifs
  · exact (h.congr (insert i key { a with ent := c }) rfl rfl rfl).sideBySide
  · exact output_sideBySide (a := clearedFor c a) _ (h.congr _ rfl rfl rfl)

theorem takePixel_sideBySide (c : Nat) (h : InStep k base a k') :
    SideBySide k base (takePixel c a) (takePixel c { a with sink := k' }) := by
  cases hl : lookup a.htab (fcode c a.ent) (primarySlot c a.ent) with
  | none =>
    rw [takePixel_endless c a hl, takePixel_endless c { a with sink := k' } hl]
    exact rfl
  | some r =>
    cases r with
    | hit i =>
      rw [takePixel_hit c i a hl, takePixel_hit c i { a with sink := k' } hl]
      exact (h.congr { a with ent := codeAt a.codetab i } rfl rfl rfl).sideBySide
    | miss i =>
      rw [takePixel_miss c i a hl, takePixel_miss c i { a with sink := k' } hl, miss_bind, miss_bind]
      exact (output_sideBySide a.ent h).bind (fun _ _ => allocate_sideBySide c i _) (allocate_grows c i _)

theorem mainLoop_sideBySide (pix : Buffer) (n : Nat) (h : InStep k base a k') :
    SideBySide k base (mainLoop pix n a) (mainLoop pix n { a with sink := k' }) := by
  induction n generalizing a k' with
  | zero =>
    rw [mainLoop_zero, mainLoop_zero]
    exact (output_sideBySide a.ent h).bind (fun w _ => output_sideBySide w.eofCode) fun w =>
      (output_sends _ w).mono fun _ => Sends.grows
  | succ n ih =>
    cases hv : pixRead pix a.curPixel with
    | error f =>
      rw [mainLoop_stuck pix n a f hv, mainLoop_stuck pix n { a with sink := k' } f hv]
      exact rfl
    | ok v =>
      rw [mainLoop_succ pix n a v hv, mainLoop_succ pix n { a with sink := k' } v hv]
      exact (takePixel_sideBySide (a := { a with curPixel := a.curPixel + 1 }) v.toNat (h.congr _ rfl rfl rfl)).bind
        (fun _ _ => ih) (mainLoop_grows pix n)

theorem compress_sideBySide (pix : Buffer) (n initBits : Nat) (h : InStep k base a k') :
    SideBySide k base (compress pix n initBits a) (compress pix n initBits { a with sink := k' }) := by
  cases n with
  | zero => exact rfl
  | succ n =>
    cases hv : pixRead pix a.curPixel with
    | error f =>
      rw [compress_stuck pix n initBits a f hv, compress_stuck pix n initBits { a with sink := k' } f hv]
      exact rfl
    | ok v =>
      rw [compress_succ pix n initBits a v hv, compress_succ pix n initBits { a with sink := k' } v hv]
      exact (output_sideBySide (a := firstPrefix initBits v.toNat a) _ (h.congr _ rfl rfl rfl)).bind
        (fun _ _ => mainLoop_sideBySide pix n) (mainLoop_grows pix n)

end

/-- The whole encode on any sink, beside the one on a sink that accepts everything. -/
theorem encodeRun_sideBySide (s : State) :
    SideBySide s.sink s.out (encodeRun { s with sink := acceptAll }) (encodeRun s) := by
  have hstart : InStep s.sink s.out (encodeStart { s with sink := acceptAll }) s.sink :=
    ⟨rfl, [], ⟨(List.append_nil _).symm, by simp, fun _ => rfl⟩, fun i => by simp⟩
  rw [encodeRun_bind, encodeRun_bind s]
  refine (outWrite_sideBySide _ hstart).bind (fun w k' hw => ?_) fun w => ?_
  · exact (compress_sideBySide s.pix _ _ hw).bind (fun _ _ => outWrite_sideBySide 0) fun u =>
      (outWrite_sends 0 u).mono fun _ => Sends.grows
  · exact (compress_grows _ _ _ w).bind (fun u hu => (outWrite_sends 0 u).mono fun _ hs => hu.trans hs.grows) fun _ => id

/-! ### How `LZ.ENCODE` ends -/

theorem exec_lzEncode_of_ok (s : State) (j : EncodeJob) (hp : s.lz.phase = .ready) (hj : encodeRun s = .ok j) :
    exec .lzEncode s = .next (endCommand .lz .noError (encodeCommit s .done j)) := by
  rw [exec, execLzEncode, sequenced_allowed _ _ _ (by simp [phaseAllowed, hp]), hj]
  rfl

theorem exec_lzEncode_of_ioFailure (s : State) (j : EncodeJob) (hp : s.lz.phase = .ready)
    (hj : encodeRun s = .error (.ioFailure j)) :
    exec .lzEncode s = .next (endCommand .lz .ioFailure (encodeCommit s .aborted j)) := by
  rw [exec, execLzEncode, sequenced_allowed _ _ _ (by simp [phaseAllowed, hp]), hj]
  rfl

theorem exec_lzEncode_of_stuck (s : State) (f : Fault) (hp : s.lz.phase = .ready)
    (hj : encodeRun s = .error (.stuck f)) : exec .lzEncode s = .fault f := by
  rw [exec, execLzEncode, sequenced_allowed _ _ _ (by simp [phaseAllowed, hp]), hj]

/-- An encode that leaves the phase `DONE` ran to its end, and its stream is OUT. -/
theorem encodeRun_of_done (s t : State) (hp : s.lz.phase = .ready) (h : exec .lzEncode s = .next t)
    (hd : t.lz.phase = .done) : ∃ j, encodeRun s = .ok j ∧ t.out = j.out := by
  cases hj : encodeRun s with
  | ok j =>
    rw [exec_lzEncode_of_ok s j hp hj] at h
    cases h
    exact ⟨j, rfl, rfl⟩
  | error e =>
    cases e with
    | ioFailure j =>
      rw [exec_lzEncode_of_ioFailure s j hp hj] at h
      cases h
      cases hd
    | stuck f =>
      rw [exec_lzEncode_of_stuck s f hp hj] at h
      cases h

/-- On a sink that accepts the bytes `acceptAll` gets, the encode ends as on `acceptAll`. -/
theorem encodeRun_all_accepted (s : State) (a : EncodeJob) (stream : List Byte)
    (ha : encodeRun { s with sink := acceptAll } = .ok a) (hout : a.out = s.out ++ stream)
    (hacc : ∀ i, i < stream.length → answer s.sink i = .accept) :
    ∃ b, encodeRun s = .ok b ∧ b.out = s.out ++ stream := by
  have h := encodeRun_sideBySide s
  rw [ha] at h
  match hb : encodeRun s, h with
  | .ok b, ⟨_, _, ha', hba, _⟩ =>
    cases ha'
    exact ⟨b, rfl, by rw [hba, hout]⟩
  | .error (.ioFailure b), ⟨bs, v, _, hfail, hlater⟩ =>
    have hpre := hlater a rfl
    rw [hout, List.append_assoc, List.prefix_append_right_inj] at hpre
    have hlen := hpre.length_le
    rw [List.length_append, List.length_singleton] at hlen
    rw [hacc _ (by omega)] at hfail
    cases hfail

/-- On a sink whose first failure is byte number `n` of those `acceptAll` gets, the encode delivers and counts the `n`
bytes before it. -/
theorem encodeRun_first_failure (s : State) (a : EncodeJob) (stream : List Byte) (n : Nat)
    (ha : encodeRun { s with sink := acceptAll } = .ok a) (hout : a.out = s.out ++ stream) (hn : n < stream.length)
    (hacc : ∀ i, i < n → answer s.sink i = .accept) (hfail : answer s.sink n = .fail) :
    ∃ b, encodeRun s = .error (.ioFailure b) ∧ b.out = s.out ++ stream.take n ∧ (n < 2 ^ 32 → b.outlen.toNat = n) := by
  have h := encodeRun_sideBySide s
  rw [ha] at h
  match hb : encodeRun s, h with
  | .ok b, ⟨_, _, ha', _, _, bs, hd, _⟩ =>
    cases ha'
    have hbs : bs = stream := List.append_cancel_left (hd.out.symm.trans hout)
    have := hd.accepted n (hbs ▸ hn)
    rw [hfail] at this
    cases this
  | .error (.ioFailure b), ⟨bs, v, hd, hfail', hlater⟩ =>
    have hpre := hlater a rfl
    rw [hout, List.append_assoc, List.prefix_append_right_inj] at hpre
    have hbn : bs.length = n := by
      rcases Nat.lt_trichotomy bs.length n with hlt | heq | hgt
      · rw [hacc _ hlt] at hfail'
        cases hfail'
      · exact heq
      · rw [hd.accepted n hgt] at hfail
        cases hfail
    have hbs : bs = stream.take n := by
      have := List.prefix_iff_eq_take.mp ((List.prefix_append bs [v]).trans hpre)
      rwa [hbn] at this
    exact ⟨b, rfl, by rw [hd.out, hbs], hbn ▸ hd.count⟩

/-- Settles O54: the run on the given sink stays beside the accepting one up to the first failure. -/
theorem sinkFailureLeavesPrefix : Obligations.SinkFailureLeavesPrefix := by
  intro s full stream hp hfull hdone hout
  obtain ⟨a, ha, hfa⟩ := encodeRun_of_done { s with sink := acceptAll } full hp hfull hdone
  have haout : a.out = s.out ++ stream := hfa.symm.trans hout
  refine ⟨fun hacc => ?_, fun n hn hacc hfail => ?_⟩
  · obtain ⟨b, hb, hbout⟩ := encodeRun_all_accepted s a stream ha haout hacc
    exact ⟨_, exec_lzEncode_of_ok s b hp hb, hbout, rfl, rfl⟩
  · obtain ⟨b, hb, hbout, hcount⟩ := encodeRun_first_failure s a stream n ha haout hn hacc hfail
    exact ⟨_, exec_lzEncode_of_ioFailure s b hp hb, hbout, rfl, rfl, by simp [endCommand], hcount⟩

end Sys2Proof.Proofs

/-! Port accesses beyond the attached buffer (20_memory.md R63 to R65, 70_reset_and_hazards.md R312, R313): where each
command is stuck (O30). -/

namespace Sys2Proof.Proofs

open Sys2Proof.Machine Sys2Proof.Safety Sys2Proof.Laws

/-! ### `NQ.LEARN` and `NQ.PROCESS`: the samples' pixels (41_nq_learning.md R124, R127, R128) -/

/-- A pixel that does not lie wholly inside SRC gives no sample. -/
theorem fetchSample_short (src : Buffer) (p : Nat) (h : src.size.toNat < p + 3) :
    fetchSample src p = .error .srcBeyondEnd := by
  rw [fetchSample, readTriple_short src p h]

section
variable {src : Buffer} {step len alphadec : Nat} (h0 : 0 < len) (hs : step ≤ len)
include h0 hs

/-- After the round of sample number `k` the walk stands at sample number `k + 1`. -/
theorem learnRound_pix (c : Colour) (i k : Nat) (j : LearnJob) (hj : j.pix = k * step % len) :
    (cycleDecay alphadec { trainOn c j with pix := nextPix step len (trainOn c j).pix, i := i }).pix =
      (k + 1) * step % len := by
  rw [cycleDecay_pix]
  show nextPix step len j.pix = _
  rw [hj]
  exact nextPix_walk step len k h0 hs

/-- The loop at sample number `k` is stuck where one of the `n` samples to come lies beyond SRC. -/
theorem learnLoop_stuck (n k : Nat) (j : LearnJob) (hj : j.pix = k * step % len)
    (h : ∃ i, k ≤ i ∧ i < k + n ∧ src.size.toNat < i * step % len + 3) :
    learnLoop src step len alphadec n j = .error .srcBeyondEnd := by
  induction n generalizing k j with
  | zero =>
    obtain ⟨i, hlo, hhi, _⟩ := h
    omega
  | succ n ih =>
    obtain ⟨i, hlo, hhi, hshort⟩ := h
    rw [learnLoop]
    by_cases hfit : j.pix + 3 ≤ src.size.toNat
    · obtain ⟨c, hc⟩ := fetchSample_of_lt src j.pix hfit
      have hne : i ≠ k := by
        rintro rfl
        omega
      rw [hc]
      exact ih (k + 1) _ (learnRound_pix h0 hs c _ k j hj) ⟨i, by omega, by omega, hshort⟩
    · rw [fetchSample_short src j.pix (by omega)]

/-- The loop at sample number `k` goes on where all of the `n` samples to come lie inside SRC. -/
theorem learnLoop_inside (n k : Nat) (j : LearnJob) (hj : j.pix = k * step % len)
    (h : ∀ i, k ≤ i → i < k + n → i * step % len + 3 ≤ src.size.toNat) :
    ∃ j', learnLoop src step len alphadec n j = .ok j' := by
  induction n generalizing k j with
  | zero => exact ⟨j, rfl⟩
  | succ n ih =>
    obtain ⟨c, hc⟩ := fetchSample_of_lt src j.pix (hj ▸ h k le_rfl (by omega))
    rw [learnLoop, hc]
    exact ih (k + 1) _ (learnRound_pix h0 hs c _ k j hj) fun i hlo hhi => h i (by omega) (by omega)

end

/-- Training starts at sample number 0. -/
theorem learnStart_pix (q : NqState) (n step len : Nat) : (learnStart q n).pix = 0 * step % len := by
  rw [Nat.zero_mul, Nat.zero_mod]
  rfl

/-- The number of samples a training run takes (R123, R124). -/
def sampleCount (q : NqState) : Nat :=
  q.lengthcount.toNat / (3 * if q.lengthcount.toNat < 1509 then 1 else q.samplefac.toNat)

theorem samplePixels_trainFactor (q : NqState) :
    samplePixels q.lengthcount.toNat (trainFactor q.lengthcount.toNat q.samplefac).toNat = sampleCount q := by
  unfold samplePixels trainFactor sampleCount
  split_ifs <;> rfl

section
variable {q : NqState} {src : Buffer} (h3 : q.lengthcount.toNat % 3 = 0) (h0 : q.lengthcount.toNat ≠ 0)
include h3 h0

theorem learnRun_stuck
    (h : ∃ k, k < sampleCount q ∧
      src.size.toNat < k * selectStep q.lengthcount.toNat % q.lengthcount.toNat + 3) :
    learnRun q src = .error .srcBeyondEnd := by
  obtain ⟨k, hk, hshort⟩ := h
  refine learnLoop_stuck (Nat.pos_of_ne_zero h0) (selectStep_spec _ h3 h0).2 _ 0 _ (learnStart_pix q _ _ _)
    ⟨k, Nat.zero_le k, ?_, hshort⟩
  rwa [samplePixels_trainFactor, Nat.zero_add]

theorem learnRun_inside
    (h : ∀ k, k < sampleCount q →
      k * selectStep q.lengthcount.toNat % q.lengthcount.toNat + 3 ≤ src.size.toNat) :
    ∃ j, learnRun q src = .ok j := by
  refine learnLoop_inside (Nat.pos_of_ne_zero h0) (selectStep_spec _ h3 h0).2 _ 0 _ (learnStart_pix q _ _ _)
    fun k _ hk => h k ?_
  rwa [samplePixels_trainFactor, Nat.zero_add] at hk

/-- Below 1509 bytes training visits every pixel, the last one included (R123, R127). -/
theorem last_pixel_sampled (hsmall : q.lengthcount.toNat < 1509) :
    q.lengthcount.toNat / 3 - 1 < sampleCount q ∧
      (q.lengthcount.toNat / 3 - 1) * selectStep q.lengthcount.toNat % q.lengthcount.toNat + 3 = q.lengthcount.toNat := by
  have hstep : selectStep q.lengthcount.toNat = 3 := if_pos hsmall
  rw [hstep, sampleCount, if_pos hsmall, Nat.mod_eq_of_lt (by omega)]
  omega

end

theorem exec_train_stuck (s : State) (hp : s.nq.phase = .constructed)
    (h : learnRun s.nq s.src = .error .srcBeyondEnd) :
    exec .nqLearn s = .fault .srcBeyondEnd ∧ exec .nqProcess s = .fault .srcBeyondEnd := by
  constructor
  · rw [exec, execNqLearn, sequenced_allowed _ _ _ (by simp [phaseAllowed, hp]), learn, h]
  · rw [exec, execNqProcess, sequenced_allowed _ _ _ (by simp [phaseAllowed, hp]), learn, h]

theorem exec_train_completes (s : State) (j : LearnJob) (hp : s.nq.phase = .constructed)
    (h : learnRun s.nq s.src = .ok j) : (∃ t, exec .nqLearn s = .next t) ∧ ∃ t, exec .nqProcess s = .next t := by
  constructor
  · rw [exec, execNqLearn, sequenced_allowed _ _ _ (by simp [phaseAllowed, hp]), learn, h]
    exact ⟨_, rfl⟩
  · rw [exec, execNqProcess, sequenced_allowed _ _ _ (by simp [phaseAllowed, hp]), learn, h]
    exact ⟨_, rfl⟩

/-! ### `NQ.MAPBUF`: one pixel of SRC, one byte of IDX at a time (43_nq_map.md R193) -/

theorem idxWrite_of_lt (idx : Buffer) (a : Nat) (v : Byte) (h : a < idx.size.toNat) :
    idxWrite idx a v = .ok { idx with mem := Memory.write idx.mem a v } := if_pos h

theorem idxWrite_beyond (idx : Buffer) (a : Nat) (v : Byte) (h : idx.size.toNat ≤ a) :
    idxWrite idx a v = .error .idxBeyondEnd := if_neg (Nat.not_lt.mpr h)

section
variable (network : Ram Neuron 256) (netindex : Ram Byte 256) (src : Buffer)

/-- The first pixel not wholly inside SRC has number `SRC_SIZE / 3`; IDX has room for all before it. -/
theorem mapBuf_srcBeyond (n k : Nat) (idx : Buffer) (hk : k ≤ src.size.toNat / 3) (hn : src.size.toNat / 3 < k + n)
    (hidx : src.size.toNat / 3 ≤ idx.size.toNat) :
    mapBuf network netindex src n k idx = .error .srcBeyondEnd := by
  induction n generalizing k idx with
  | zero => omega
  | succ n ih =>
    rw [mapBuf]
    by_cases hshort : src.size.toNat < 3 * k + 3
    · rw [readTriple_short src _ hshort]
    · rw [readTriple_of_lt src _ (by omega)]
      dsimp only
      rw [idxWrite_of_lt idx k _ (by omega)]
      exact ih (k + 1) _ (by omega) (by omega) hidx

/-- The first byte beyond IDX has offset `IDX_SIZE`; every pixel up to that one lies inside SRC. -/
theorem mapBuf_idxBeyond (n k : Nat) (idx : Buffer) (hk : k ≤ idx.size.toNat) (hn : idx.size.toNat < k + n)
    (hsrc : idx.size.toNat < src.size.toNat / 3) :
    mapBuf network netindex src n k idx = .error .idxBeyondEnd := by
  induction n generalizing k idx with
  | zero => omega
  | succ n ih =>
    rw [mapBuf, readTriple_of_lt src _ (by omega)]
    dsimp only
    by_cases hfull : idx.size.toNat ≤ k
    · rw [idxWrite_beyond idx k _ hfull]
    · rw [idxWrite_of_lt idx k _ (by omega)]
      exact ih (k + 1) _ (show k + 1 ≤ idx.size.toNat by omega) (show idx.size.toNat < k + 1 + n by omega) hsrc

end

theorem exec_nqMapbuf_stuck (s : State) (f : Fault) (hp : Indexed s.nq)
    (h : mapBuf s.nq.network s.nq.netindex s.src (s.nq.lengthcount.toNat / 3) 0 s.idx = .error f) :
    exec .nqMapbuf s = .fault f := by
  rw [exec, execNqMapbuf, sequenced_allowed _ _ _ (by simpa [phaseAllowed, Indexed] using hp), h]

/-! ### `LZ.ENCODE`: one byte of PIX a pixel (44_lzw_encode.md R212) -/

/-- The dictionary never holds more keys than codes are allocated, so that it always has a free slot (R218, R224). -/
structure Roomy (j : EncodeJob) : Prop where
  keys : j.htab.length ≤ j.freeEnt
  free : j.freeEnt ≤ 4096
  cleared : j.clearCode + 2 ≤ 4096
  ent : j.ent < 4096

theorem roomy_invariant : PixelInvariant Roomy where
  sends {j j'} h hs := by
    refine ⟨?_, ?_, ?_, ?_⟩
    · rw [hs.htab, hs.freeEnt]
      exact h.keys
    · rw [hs.freeEnt]
      exact h.free
    · rw [hs.clearCode]
      exact h.cleared
    · rw [hs.ent]
      exact h.ent
  hit h _ := ⟨h.keys, h.free, h.cleared, codeAt_lt _ _⟩
  insert {c i j j'} h hc hl hs hf := by
    have hnew : find j.htab i = none := by
      rcases lookup_answer _ _ _ _ hl with ⟨k, hk, _⟩ | ⟨k, hk, hnone⟩
      · cases hk
      · cases hk
        exact hnone
    refine ⟨?_, hf, ?_, show c < 4096 by omega⟩
    · show (put j'.htab i _).length ≤ j'.freeEnt + 1
      rw [hs.htab, hs.freeEnt, length_put_new _ _ _ hnew]
      exact Nat.succ_le_succ h.keys
    · show j'.clearCode + 2 ≤ 4096
      rw [hs.clearCode]
      exact h.cleared
  clear {c j} h hc := ⟨Nat.zero_le _, h.cleared, h.cleared, show c < 4096 by omega⟩

theorem curPixel_invariant (n : Nat) : PixelInvariant fun j => j.curPixel = n where
  sends h hs := hs.curPixel.trans h
  hit h _ := h
  insert h _ _ hs _ := hs.curPixel.trans h
  clear h _ := h

theorem allocate_accepting (c i : Nat) (key : BitVec 20) (j : EncodeJob) (h : Accepting j.sink) :
    ∃ j', allocate c i key j = .ok j' ∧ Accepting j'.sink := by
  unfold allocate
  split_ifs
  · exact ⟨_, rfl, h⟩
  · exact output_accepting _ (clearedFor c j) h

/-- On a sink that accepts, a pixel goes through whenever the dictionary has a free slot (R218). -/
theorem takePixel_accepting (c : Nat) (j : EncodeJob) (hr : Roomy j) (hc : c < 256) (h : Accepting j.sink) :
    ∃ j', takePixel c j = .ok j' ∧ Accepting j'.sink := by
  have hslot := primarySlot_lt c j.ent hc hr.ent
  have hroom : j.htab.length < 5003 :=
    Nat.lt_of_le_of_lt (hr.keys.trans hr.free) (by omega)
  obtain ⟨r, hl⟩ := probe_ends j.htab (fcode c j.ent) (primarySlot c j.ent) hroom (by omega)
  cases r with
  | hit i => exact ⟨_, takePixel_hit c i j hl, h⟩
  | miss i =>
    obtain ⟨w, hw, ha⟩ := output_accepting j.ent j h
    rw [takePixel_miss c i j hl, miss_bind, hw]
    exact allocate_accepting c i _ w ha

/-- The main loop is stuck where fewer bytes of PIX are left than pixels. -/
theorem mainLoop_beyond (pix : Buffer) (n : Nat) (j : EncodeJob) (hr : Roomy j) (h : Accepting j.sink)
    (hcur : j.curPixel ≤ pix.size.toNat) (hshort : pix.size.toNat < j.curPixel + n) :
    mainLoop pix n j = .error (.stuck .pixBeyondEnd) := by
  induction n generalizing j with
  | zero => omega
  | succ n ih =>
    by_cases hend : pix.size.toNat ≤ j.curPixel
    · exact mainLoop_stuck pix n j _ (pixRead_beyond pix _ hend)
    · rw [mainLoop_succ pix n j _ (pixRead_of_lt pix j.curPixel (by omega))]
      generalize Memory.read pix.mem j.curPixel = v
      have hr' : Roomy { j with curPixel := j.curPixel + 1 } := ⟨hr.keys, hr.free, hr.cleared, hr.ent⟩
      obtain ⟨w, hw, ha⟩ := takePixel_accepting v.toNat _ hr' v.isLt h
      have hroomy := roomy_invariant.takePixel v.toNat _ hr' v.isLt
      have hpixel := (curPixel_invariant (j.curPixel + 1)).takePixel v.toNat { j with curPixel := j.curPixel + 1 } rfl
        v.isLt
      rw [hw] at hroomy hpixel ⊢
      replace hpixel : w.curPixel = j.curPixel + 1 := hpixel
      exact ih w hroomy ha (by omega) (by omega)

/-- The registers when `Compress` sends its clear code: nothing in the dictionary, no code allocated (R213). -/
theorem firstPrefix_roomy (depth c : Nat) (j : EncodeJob) (hd : depth ≤ 8) (hc : c < 256) :
    Roomy (firstPrefix (depth + 1) c j) := by
  have hpow : 2 ^ depth ≤ 2 ^ 8 := Nat.pow_le_pow_right (by omega) hd
  refine ⟨Nat.zero_le _, ?_, ?_, show c < 4096 by omega⟩
  · show 2 ^ depth + 2 ≤ 4096
    omega
  · show 2 ^ depth + 2 ≤ 4096
    omega

/-- An image of more pixels than PIX has bytes cannot be compressed on a sink that accepts. -/
theorem compress_beyond (pix : Buffer) (n depth : Nat) (j : EncodeJob) (hd : depth ≤ 8) (h : Accepting j.sink)
    (hcur : j.curPixel = 0) (hshort : pix.size.toNat < n) :
    compress pix n (depth + 1) j = .error (.stuck .pixBeyondEnd) := by
  cases n with
  | zero => omega
  | succ n =>
    by_cases hend : pix.size.toNat ≤ j.curPixel
    · exact compress_stuck pix n _ j _ (pixRead_beyond pix _ hend)
    · rw [compress_succ pix n _ j _ (pixRead_of_lt pix j.curPixel (by omega))]
      generalize Memory.read pix.mem j.curPixel = v
      have hfirst := firstPrefix_roomy depth v.toNat j hd v.isLt
      obtain ⟨w, hw, ha⟩ := output_accepting (2 ^ (depth + 1 - 1)) (firstPrefix (depth + 1) v.toNat j) h
      have hroomy := roomy_invariant.output (2 ^ (depth + 1 - 1)) _ hfirst
      have hpixel := (curPixel_invariant 1).output (2 ^ (depth + 1 - 1)) (firstPrefix (depth + 1) v.toNat j)
        (show j.curPixel + 1 = 1 by omega)
      rw [hw] at hroomy hpixel ⊢
      replace hpixel : w.curPixel = 1 := hpixel
      exact mainLoop_beyond pix n w hroomy ha (by omega) (by omega)

/-- With nothing attached at PIX an encode whose header is accepted is stuck at its first pixel. -/
theorem encodeRun_pix_empty (s : State) (h : answer s.sink 0 = .accept) (hpix : s.pix.size = 0) (hne : s.lz.pixels ≠ 0) :
    encodeRun s = .error (.stuck .pixBeyondEnd) := by
  obtain ⟨n, hn⟩ := Nat.exists_eq_succ_of_ne_zero hne
  rw [encodeRun_bind, outWrite_accept _ _ ((draw_answer s.sink).1.trans h), hn]
  show (compress s.pix (n + 1) _ _).bind (outWrite 0) = _
  rw [compress_stuck _ _ _ _ .pixBeyondEnd (pixRead_beyond _ _ (by simp [hpix]))]
  rfl

theorem encodeRun_pix_short (s : State) (h : Accepting s.sink) (hshort : s.pix.size.toNat < s.lz.pixels)
    (hd : s.lz.initCodeSize.toNat ≤ 8) : encodeRun s = .error (.stuck .pixBeyondEnd) := by
  rw [encodeRun_bind, outWrite_accepting _ _ (show Accepting (encodeStart s).sink from h)]
  show (compress s.pix s.lz.pixels _ _).bind (outWrite 0) = _
  rw [compress_beyond _ _ _ _ hd (draw_accepting s.sink h).2 rfl hshort]
  rfl

/-! ### The statement -/

/-- Settles O30: training at the first sample outside SRC, `NQ.MAPBUF` at the first pixel outside SRC or byte outside IDX,
`LZ.ENCODE` at the first pixel outside PIX, which it comes to because every look-up before it ends. -/
theorem missingBuffersStick : Obligations.MissingBuffersStick := by
  intro s
  refine ⟨fun hp hjob => ?_, fun hp hjob => ?_, fun hp himg => ?_⟩
  · obtain ⟨⟨h0, h3, _⟩, _⟩ := hjob (by simp [hp])
    refine ⟨fun hsmall hshort => exec_train_stuck s hp (learnRun_stuck h3 h0 ?_), ?_⟩
    · obtain ⟨hlast, hpos⟩ := last_pixel_sampled h3 h0 hsmall
      exact ⟨_, hlast, by omega⟩
    · rintro _ _ rfl rfl
      refine ⟨fun h => exec_train_stuck s hp (learnRun_stuck h3 h0 h), fun h => ?_⟩
      obtain ⟨j, hj⟩ := learnRun_inside h3 h0 h
      exact exec_train_completes s j hp hj
  · obtain ⟨⟨_, h3, _⟩, _⟩ := hjob (by rcases hp with hp | hp <;> simp [hp])
    refine ⟨fun hsrc hidx => exec_nqMapbuf_stuck s _ hp ?_, fun hidx hsrc => exec_nqMapbuf_stuck s _ hp ?_⟩
    · exact mapBuf_srcBeyond _ _ _ _ 0 s.idx (Nat.zero_le _) (by omega) hidx
    · exact mapBuf_idxBeyond _ _ _ _ 0 s.idx (Nat.zero_le _) (by omega) hsrc
  · obtain ⟨hne, _, hd⟩ := himg (by simp [hp])
    exact ⟨fun h hpix => exec_lzEncode_of_stuck s _ hp (encodeRun_pix_empty s h hpix hne),
      fun h hshort => exec_lzEncode_of_stuck s _ hp (encodeRun_pix_short s h hshort hd)⟩

end Sys2Proof.Proofs

/-! The command words of 30_encoding.md: decoding and encoding (O1, O2), illegal words (O3, O4), the assembler (O5), and
what a submitted word does (O6, O28). -/

namespace Sys2Proof.Proofs

open Sys2Proof.Machine Sys2Proof.Safety Sys2Proof.Laws

/-! ### Fields of a word (30_encoding.md R90 to R94) -/

theorem field_lt (w : Word) (hi lo : Nat) : field w hi lo < 2 ^ (hi + 1 - lo) := Nat.mod_lt _ (by positivity)

/-- A word is its opcode and its operand bits. -/
theorem encode_eq_of_fields (i : Instr) (w : Word) (hop : field w 31 24 = i.opcode)
    (hbits : field w 23 0 = i.operandBits) : encode i = w := by
  have hw := w.isLt
  refine BitVec.eq_of_toNat_eq ?_
  simp only [encode, BitVec.toNat_ofNat, ← hop, ← hbits, field]
  omega

theorem fields_encode (i : Instr) (h : i.wellFormed = true) :
    field (encode i) 31 24 = i.opcode ∧ field (encode i) 23 0 = i.operandBits := by
  cases i with
  | nqInit sf => exact OpcodeField.nqInit sf h
  | nqLearn => exact OpcodeField.nqLearn h
  | nqUnbias => exact OpcodeField.nqUnbias h
  | nqInxbuild => exact OpcodeField.nqInxbuild h
  | nqColormap => exact OpcodeField.nqColormap h
  | nqProcess => exact OpcodeField.nqProcess h
  | nqMap b g r => exact OpcodeField.nqMap b g r h
  | nqMapbuf => exact OpcodeField.nqMapbuf h
  | lzInit depth => exact OpcodeField.lzInit depth h
  | lzEncode => exact OpcodeField.lzEncode h

/-! ### The four formats (30_encoding.md R91 to R94) -/

theorem decodeN_ok_iff (w : Word) (i j : Instr) : decodeN w i = .ok j ↔ field w 23 0 = 0 ∧ i = j := by
  unfold decodeN
  split_ifs with h <;> simp [h]

theorem decodeS_ok_iff (w : Word) (i : Instr) :
    decodeS w = .ok i ↔ field w 23 5 = 0 ∧ .nqInit (field w 4 0) = i := by
  unfold decodeS
  split_ifs with h <;> simp [h]

theorem decodeD_ok_iff (w : Word) (i : Instr) :
    decodeD w = .ok i ↔ field w 23 4 = 0 ∧ .lzInit (field w 3 0) = i := by
  unfold decodeD
  split_ifs with h <;> simp [h]

theorem decodeC_ok_iff (w : Word) (i : Instr) :
    decodeC w = .ok i ↔ .nqMap (field w 7 0) (field w 15 8) (field w 23 16) = i := by simp [decodeC]

theorem decodeN_illegal_iff (w : Word) (i : Instr) : (∃ e, decodeN w i = .error e) ↔ field w 23 0 ≠ 0 := by
  unfold decodeN
  split_ifs with h <;> simp [h]

theorem decodeS_illegal_iff (w : Word) : (∃ e, decodeS w = .error e) ↔ field w 23 5 ≠ 0 := by
  unfold decodeS
  split_ifs with h <;> simp [h]

theorem decodeD_illegal_iff (w : Word) : (∃ e, decodeD w = .error e) ↔ field w 23 4 ≠ 0 := by
  unfold decodeD
  split_ifs with h <;> simp [h]

theorem decodeC_legal (w : Word) : ¬ ∃ e, decodeC w = .error e := by simp [decodeC]

/-! ### The opcode map (30_encoding.md R95) -/

/-- The commands of format N (R91): those without operands. -/
def operandless : List Instr :=
  [.nqLearn, .nqUnbias, .nqInxbuild, .nqColormap, .nqProcess, .nqMapbuf, .lzEncode]

theorem operandless_fits : ∀ i ∈ operandless, i.wellFormed = true ∧ i.operandBits = 0 := by decide

theorem operandless_nq_opcode : ∀ i ∈ operandless, i.port = .nq →
    0x11 ≤ i.opcode ∧ i.opcode ≤ 0x17 ∧ i.opcode ≠ 0x16 := by decide

theorem operandless_lz_opcode : ∀ i ∈ operandless, i.port = .lz → i.opcode = 0x21 := by decide

/-- The opcodes of a port. -/
def OpcodeOfPort : Port → Nat → Prop
  | .nq, op => 0x10 ≤ op ∧ op ≤ 0x17
  | .lz, op => op = 0x20 ∨ op = 0x21

theorem opcode_ofPort (i : Instr) : OpcodeOfPort i.port i.opcode := by
  cases i <;> simp [OpcodeOfPort, Instr.port, Instr.opcode]

/-- No opcode belongs to both ports. -/
theorem opcodeOfPort_unique (p q : Port) (op : Nat) (hp : OpcodeOfPort p op) (hq : OpcodeOfPort q op) : p = q := by
  cases p with
  | nq =>
    cases q with
    | nq => rfl
    | lz =>
      simp only [OpcodeOfPort] at hp hq
      omega
  | lz =>
    cases q with
    | nq =>
      simp only [OpcodeOfPort] at hp hq
      omega
    | lz => rfl

/-- What decoding answers on a port: the word's opcode is none of the port's, or says which format reads the word. -/
inductive DecodeCase (w : Word) : Port → Except Illegal Instr → Prop where
  | formatS (hop : field w 31 24 = 0x10) : DecodeCase w .nq (decodeS w)
  | formatC (hop : field w 31 24 = 0x16) : DecodeCase w .nq (decodeC w)
  | formatD (hop : field w 31 24 = 0x20) : DecodeCase w .lz (decodeD w)
  | formatN (p : Port) (i : Instr) (hi : i ∈ operandless) (hp : i.port = p) (hop : field w 31 24 = i.opcode) :
      DecodeCase w p (decodeN w i)
  | notOfPort (p : Port) (hop : ¬ OpcodeOfPort p (field w 31 24)) : DecodeCase w p (.error .opcodeNotOfPort)

theorem decode_case (p : Port) (w : Word) : DecodeCase w p (decode p w) := by
  cases p with
  | nq =>
    simp only [decode, decodeNq]
    split
    next hop => exact .formatS hop
    next hop => exact .formatN .nq .nqLearn (by decide) rfl hop
    next hop => exact .formatN .nq .nqUnbias (by decide) rfl hop
    next hop => exact .formatN .nq .nqInxbuild (by decide) rfl hop
    next hop => exact .formatN .nq .nqColormap (by decide) rfl hop
    next hop => exact .formatN .nq .nqProcess (by decide) rfl hop
    next hop => exact .formatC hop
    next hop => exact .formatN .nq .nqMapbuf (by decide) rfl hop
    next =>
      refine .notOfPort .nq ?_
      rintro ⟨hlo, hhi⟩
      interval_cases field w 31 24 <;> contradiction
  | lz =>
    simp only [decode, decodeLz]
    split
    next hop => exact .formatD hop
    next hop => exact .formatN .lz .lzEncode (by decide) rfl hop
    next h20 h21 => exact .notOfPort .lz fun hop => hop.elim h20 h21

/-! ### Decoding against encoding (R98) -/

/-- A command that a word decodes to fits, and the word is its encoding. -/
theorem DecodeCase.encode_of_ok {w : Word} {p : Port} {r : Except Illegal Instr} (hcase : DecodeCase w p r) (i : Instr)
    (h : r = .ok i) : i.wellFormed = true ∧ encode i = w := by
  cases hcase with
  | formatS hop =>
    obtain ⟨hzero, rfl⟩ := (decodeS_ok_iff w i).mp h
    have hsf := field_lt w 4 0
    refine ⟨by simpa [Instr.wellFormed] using hsf, encode_eq_of_fields _ w hop ?_⟩
    simp only [Instr.operandBits, field] at hzero ⊢
    omega
  | formatC hop =>
    obtain rfl := (decodeC_ok_iff w i).mp h
    have hb := field_lt w 7 0
    have hg := field_lt w 15 8
    have hr := field_lt w 23 16
    refine ⟨by simpa [Instr.wellFormed] using ⟨⟨hb, hg⟩, hr⟩, encode_eq_of_fields _ w hop ?_⟩
    simp only [Instr.operandBits, field]
    omega
  | formatD hop =>
    obtain ⟨hzero, rfl⟩ := (decodeD_ok_iff w i).mp h
    have hd := field_lt w 3 0
    refine ⟨by simpa [Instr.wellFormed] using hd, encode_eq_of_fields _ w hop ?_⟩
    simp only [Instr.operandBits, field] at hzero ⊢
    omega
  | formatN _ i hi _ hop =>
    obtain ⟨hzero, rfl⟩ := (decodeN_ok_iff w i _).mp h
    obtain ⟨hwf, hbits⟩ := operandless_fits i hi
    exact ⟨hwf, encode_eq_of_fields i w hop (hzero.trans hbits.symm)⟩
  | notOfPort => cases h

theorem decode_formatS (w : Word) (hop : field w 31 24 = 0x10) : decode .nq w = decodeS w := by
  simp [decode, decodeNq, hop]

theorem decode_formatC (w : Word) (hop : field w 31 24 = 0x16) : decode .nq w = decodeC w := by
  simp [decode, decodeNq, hop]

theorem decode_formatD (w : Word) (hop : field w 31 24 = 0x20) : decode .lz w = decodeD w := by
  simp [decode, decodeLz, hop]

/-- The word of a command that fits decodes, on the command's port, to the command. -/
theorem decode_encode (i : Instr) (h : i.wellFormed = true) : decode i.port (encode i) = .ok i := by
  obtain ⟨hop, hbits⟩ := fields_encode i h
  cases i with
  | nqInit sf =>
    have hsf : sf < 32 := by simpa [Instr.wellFormed] using h
    refine (decode_formatS _ hop).trans ((decodeS_ok_iff _ _).mpr ?_)
    simp only [field, Instr.operandBits, Instr.nqInit.injEq] at hbits ⊢
    omega
  | nqMap b g r =>
    have hbgr : (b < 256 ∧ g < 256) ∧ r < 256 := by simpa [Instr.wellFormed] using h
    refine (decode_formatC _ hop).trans ((decodeC_ok_iff _ _).mpr ?_)
    simp only [field, Instr.operandBits, Instr.nqMap.injEq] at hbits ⊢
    omega
  | lzInit depth =>
    have hd : depth < 16 := by simpa [Instr.wellFormed] using h
    refine (decode_formatD _ hop).trans ((decodeD_ok_iff _ _).mpr ?_)
    simp only [field, Instr.operandBits, Instr.lzInit.injEq] at hbits ⊢
    omega
  | nqLearn | nqUnbias | nqInxbuild | nqColormap | nqProcess | nqMapbuf | lzEncode => rfl

/-- Settles O1: what a word decodes to encodes to that word, format by format, and a command's word decodes to it. -/
theorem decodeEncodeAgree : Obligations.DecodeEncodeAgree := by
  intro p w i
  constructor
  · intro h
    obtain ⟨hwf, hw⟩ := (decode_case p w).encode_of_ok i h
    exact ⟨hwf, decode_port p w i h, hw⟩
  · rintro ⟨hwf, rfl, rfl⟩
    exact decode_encode i hwf

/-- Settles O2: each word is the encoding of its command, and the last one has a bit of its `zero` field set. -/
theorem specWordsDecode : Obligations.SpecWordsDecode :=
  ⟨decode_encode (.nqInit 10) rfl, decode_encode .nqLearn rfl, decode_encode .nqUnbias rfl, decode_encode .nqInxbuild rfl,
    decode_encode .nqColormap rfl, decode_encode .nqProcess rfl, decode_encode (.nqMap 0 0 255) rfl,
    decode_encode (.nqMap 10 20 30) rfl, decode_encode .nqMapbuf rfl, decode_encode (.lzInit 2) rfl,
    decode_encode .lzEncode rfl, rfl⟩

/-! ### Illegal words (30_encoding.md R96, R97) -/

theorem DecodeCase.illegal_nq_iff {w : Word} {r : Except Illegal Instr} (hcase : DecodeCase w .nq r) :
    (∃ e, r = .error e) ↔
      ((field w 31 24 < 0x10 ∨ 0x17 < field w 31 24) ∨ (field w 31 24 = 0x10 ∧ field w 23 5 ≠ 0) ∨
        (field w 31 24 ≠ 0x10 ∧ field w 31 24 ≠ 0x16 ∧ field w 23 0 ≠ 0)) := by
  cases hcase with
  | formatS hop =>
    rw [decodeS_illegal_iff]
    omega
  | formatC hop =>
    rw [iff_false_left (decodeC_legal w)]
    omega
  | formatN _ i hi hp hop =>
    have hrange := operandless_nq_opcode i hi hp
    rw [decodeN_illegal_iff]
    omega
  | notOfPort _ hop =>
    refine iff_of_true ⟨_, rfl⟩ (.inl ?_)
    simp only [OpcodeOfPort] at hop
    omega

theorem DecodeCase.illegal_lz_iff {w : Word} {r : Except Illegal Instr} (hcase : DecodeCase w .lz r) :
    (∃ e, r = .error e) ↔
      ((field w 31 24 ≠ 0x20 ∧ field w 31 24 ≠ 0x21) ∨ (field w 31 24 = 0x20 ∧ field w 23 4 ≠ 0) ∨
        (field w 31 24 = 0x21 ∧ field w 23 0 ≠ 0)) := by
  cases hcase with
  | formatD hop =>
    rw [decodeD_illegal_iff]
    omega
  | formatN _ i hi hp hop =>
    have hlast := operandless_lz_opcode i hi hp
    rw [decodeN_illegal_iff]
    omega
  | notOfPort _ hop =>
    refine iff_of_true ⟨_, rfl⟩ (.inl ?_)
    simp only [OpcodeOfPort] at hop
    omega

/-- A word that carries an opcode of port `q` is none of another port's commands. -/
theorem DecodeCase.eq_opcodeNotOfPort {w : Word} {p q : Port} {r : Except Illegal Instr} (hcase : DecodeCase w p r)
    (hq : OpcodeOfPort q (field w 31 24)) (hpq : p ≠ q) : r = .error .opcodeNotOfPort := by
  have hforeign : ¬ OpcodeOfPort p (field w 31 24) := fun hp => hpq (opcodeOfPort_unique p q _ hp hq)
  cases hcase with
  | formatS hop => exact absurd (by simp [OpcodeOfPort, hop]) hforeign
  | formatC hop => exact absurd (by simp [OpcodeOfPort, hop]) hforeign
  | formatD hop => exact absurd (by simp [OpcodeOfPort, hop]) hforeign
  | formatN _ i _ hp hop => exact absurd (hop ▸ hp ▸ opcode_ofPort i) hforeign
  | notOfPort => rfl

theorem decode_wrongPort (i : Instr) (p : Port) (h : i.wellFormed = true) (hp : p ≠ i.port) :
    decode p (encode i) = .error .opcodeNotOfPort := by
  obtain ⟨hop, _⟩ := fields_encode i h
  exact (decode_case p (encode i)).eq_opcodeNotOfPort (hop ▸ opcode_ofPort i) hp

/-! ### Commands that end with an error (60_exceptions.md R272, R274) -/

/-- A command that ends with an error code has written its status and nothing else. -/
theorem endCommand_withError (p : Port) (code : ErrCode) (s : State) (h : code ≠ .noError) :
    WithError p code s (endCommand p code s) := by
  cases p <;> simp [WithError, endCommand, h]

theorem submit_illegal_withError (p : Port) (w : Word) (s : State) (e : Illegal) (hb : s.busy p = false)
    (hd : decode p w = .error e) : ∃ t, submit p w s = .next t ∧ WithError p .illegalCommand s t :=
  ⟨_, submit_illegal p w s e hb hd, endCommand_withError p .illegalCommand s (by decide)⟩

theorem sampleFactor_rejected (sf : Nat) (h : sf = 0 ∨ sf = 31) : sampleFactorAccepted sf = false := by
  rcases h with rfl | rfl <;> rfl

theorem depth_rejected (d : Nat) (h : d < 2 ∨ 8 < d) : depthAccepted d = false := by
  simp only [depthAccepted, Config.minDepth, Config.maxDepth, Bool.and_eq_false_iff, decide_eq_false_iff_not]
  omega

theorem exec_nqInit_degenerate (sf : Nat) (s : State) (hlen : lengthAccepted s.nq.len.toNat = true)
    (hsf : sampleFactorAccepted sf = false) :
    exec (.nqInit sf) s = .next (endCommand .nq .degenerateParameters s) := by
  rcases execNqInit_cases sf s with ⟨hlen', _⟩ | ⟨_, _, he⟩ | ⟨_, hsf', _⟩
  · simp [hlen] at hlen'
  · exact he
  · simp [hsf] at hsf'

theorem exec_lzInit_degenerate (d : Nat) (s : State)
    (himg : imageAccepted s.lz.width.toNat s.lz.height.toNat s.lz.pixlen.toNat = true) (hd : depthAccepted d = false) :
    exec (.lzInit d) s = .next (endCommand .lz .degenerateParameters s) := by
  rcases execLzInit_cases d s with ⟨himg', _⟩ | ⟨_, _, he⟩ | ⟨_, hd', _⟩
  · simp [himg] at himg'
  · exact he
  · simp [hd] at hd'

/-- Settles O3: the port's opcode map and the word's format say when it is illegal; an illegal word and an operand out of
range both end the command before it changes anything. -/
theorem illegalCommandsExactly : Obligations.IllegalCommandsExactly := by
  refine ⟨fun w => ⟨(decode_case .nq w).illegal_nq_iff, (decode_case .lz w).illegal_lz_iff⟩, ?_, ?_, ?_⟩
  · rintro p w s hb ⟨e, hd⟩
    exact submit_illegal_withError p w s e hb hd
  · intro sf s hlen hsf
    exact ⟨_, exec_nqInit_degenerate sf s hlen (sampleFactor_rejected sf hsf), endCommand_withError _ _ s (by decide)⟩
  · intro d s himg hd
    exact ⟨_, exec_lzInit_degenerate d s himg (depth_rejected d hd), endCommand_withError _ _ s (by decide)⟩

/-- Settles O4: the opcode of a command is none of the other port's, so that its word is illegal there. -/
theorem wrongPortIsIllegal : Obligations.WrongPortIsIllegal := by
  intro i p s hwf hp hb
  have hd := decode_wrongPort i p hwf hp
  exact ⟨hd, submit_illegal_withError p (encode i) s _ hb hd⟩

/-! ### The assembler (30_encoding.md R100, R102) -/

/-- The write that submits a command. -/
def commandWrite (i : Instr) : HostAction := .write .word (cmdOffset i.port) (encode i)

theorem assemble_command (i : Instr) (h : i.wellFormed = true) : assemble (.command i) = some [commandWrite i] := by
  simp [assemble, assembleCommand, commandWrite, h]

theorem assemble_command_refused (i : Instr) (h : i.wellFormed = false) : assemble (.command i) = none := by
  simp [assemble, assembleCommand, h]

theorem assembleCommands_of_wellFormed (is : List Instr) (h : ∀ i ∈ is, i.wellFormed = true) :
    assembleCommands is = some (is.map commandWrite) := by
  induction is with
  | nil => rfl
  | cons i is ih =>
    have hi : assembleCommand i = some [commandWrite i] := assemble_command i (h i List.mem_cons_self)
    rw [assembleCommands, hi, ih fun j hj => h j (List.mem_cons_of_mem i hj)]
    rfl

/-- Settles O5: a command is one write where its operands fit, and a pseudo-instruction the writes of its commands. -/
theorem assemblerSpellsCommands : Obligations.AssemblerSpellsCommands := by
  refine ⟨assemble_command, assemble_command_refused, fun sf hsf => ?_, fun d hd => ?_⟩
  · have hwf : (Instr.nqInit sf).wellFormed = true := decide_eq_true hsf
    exact ⟨_, _, _, assemble_command _ hwf, assemble_command _ rfl, assemble_command _ rfl,
      assembleCommands_of_wellFormed [.nqInit sf, .nqProcess, .nqMapbuf] (by simp [Instr.wellFormed, hsf])⟩
  · have hwf : (Instr.lzInit d).wellFormed = true := decide_eq_true hd
    exact ⟨_, _, assemble_command _ hwf, assemble_command _ rfl,
      assembleCommands_of_wellFormed [.lzInit d, .lzEncode] (by simp [Instr.wellFormed, hd])⟩

/-! ### A submitted command (30_encoding.md R95, R99) -/

/-- Settles O6: the step is the write of the command register, which submits the word, and the word decodes. -/
theorem stepRunsDecodedCommand : Obligations.StepRunsDecodedCommand := by
  intro s p w i rest hb hd hi
  have hb' : State.busy { s with inputs := rest } p = false := by cases p <;> exact hb
  calc step s = hostWrite .word (cmdOffset p) w { s with inputs := rest } := step_action s _ rest hi
    _ = submit p w { s with inputs := rest } := hostWrite_command p w _
    _ = exec i { s with inputs := rest } := submit_decoded p w _ i hb' hd

/-- Every command is sequenced before its own rule runs. -/
theorem exec_disallowed (i : Instr) (s : State) (h : phaseAllowed i s = false) :
    exec i s = .next (endCommand i.port .sequenceError s) := by
  cases i <;>
    simp only [exec, execNqInit, execNqLearn, execNqUnbias, execNqInxbuild, execNqColormap, execNqProcess, execNqMap,
      execNqMapbuf, execLzInit, execLzEncode, sequenced_disallowed _ s _ h]

theorem exec_outOfSequence (i : Instr) (s : State) (h : phaseAllowed i s = false) :
    ∃ t, exec i s = .next t ∧ WithError i.port .sequenceError s t :=
  ⟨_, exec_disallowed i s h, endCommand_withError i.port .sequenceError s (by decide)⟩

/-- Settles O28: in each of these phases `PhasesAllowed` does not hold of the command. -/
theorem commandsOutOfSequence : Obligations.CommandsOutOfSequence := by
  intro s
  refine ⟨fun h => exec_outOfSequence .nqLearn s (by simp [phaseAllowed, h]),
    fun h => exec_outOfSequence .nqUnbias s (by simp [phaseAllowed, h]),
    fun h => exec_outOfSequence .nqInxbuild s (by simp [phaseAllowed, h]), fun hi hp => ?_,
    fun h => exec_outOfSequence .nqProcess s (by simp [phaseAllowed, h]),
    fun h => exec_outOfSequence .lzEncode s (by simp [phaseAllowed, h])⟩
  exact ⟨exec_outOfSequence .nqColormap s (by simp [phaseAllowed, hi, hp]),
    fun b g r => exec_outOfSequence (.nqMap b g r) s (by simp [phaseAllowed, hi, hp]),
    exec_outOfSequence .nqMapbuf s (by simp [phaseAllowed, hi, hp])⟩

end Sys2Proof.Proofs

/-! What every step keeps of the quantizer (41_nq_learning.md R136, R151, R120): the leaky frequencies (O16), the shape of
the network by phases (O17), and that an accepted job stays accepted, in the encoder too (O19). -/

namespace Sys2Proof.Proofs

open Sys2Proof.Machine Sys2Proof.Safety Sys2Proof.Laws

/-! ### A property of the NQE that every step keeps -/

/-- A property of the NQE that holds after reset, does not look at `NQ_LEN` and `STICKY`, and that every command keeps. -/
structure NqInvariant (P : NqState → Prop) : Prop where
  reset : P NqState.reset
  len : ∀ q v, P q → P { q with len := v }
  sticky : ∀ q, P q → P { q with sticky := true }
  command : ∀ s q, P s.nq → NqEffect s q → P q

theorem NqInvariant.step {P : NqState → Prop} (hP : NqInvariant P) (s t : State) (h : P s.nq) (hst : step s = .next t) :
    P t.nq := by
  rcases step_nq s t hst with hq | ⟨v, hq⟩ | hq | ⟨hq, _⟩ | ⟨s₀, hs₀, _, _, _, _, he⟩
  · rwa [hq]
  · rw [hq]
    exact hP.len _ v h
  · rw [hq]
    exact hP.sticky _ h
  · rw [hq]
    exact hP.reset
  · exact hP.command s₀ t.nq (by rwa [hs₀]) he

theorem indexed_ne_empty {q : NqState} (h : Indexed q) : q.phase ≠ .empty := by
  rcases h with h | h <;> simp [h]

/-! ### The leaky frequencies (R136) -/

/-- The frequencies and biases `InitNetwork` writes (R121). -/
theorem initNetwork_counts (q : NqState) (k : Nat) (hk : k < 256) :
    (initNetwork q).freq.read k 0 = 256 ∧ (initNetwork q).bias.read k 0 = 0 :=
  ⟨(Ram.fill_read _ _ _ hk).trans rfl, Ram.fill_read _ _ _ hk⟩

/-- The counts of a new network meet R136. -/
theorem leakRelation_initial : LeakRelation 256 0 := by
  unfold LeakRelation
  decide

theorem initNetwork_leak (q : NqState) (k : Nat) (hk : k < 256) :
    LeakRelation ((initNetwork q).freq.read k 0) ((initNetwork q).bias.read k 0) := by
  obtain ⟨hf, hb⟩ := initNetwork_counts q k hk
  rw [hf, hb]
  exact leakRelation_initial

theorem leakyFrequency_invariant : NqInvariant LeakyFrequency where
  reset := fun h => absurd rfl h
  len := fun _ _ h => h
  sticky := fun _ h => h
  command := by
    intro s q h he
    cases he with
    | error c hc => exact h
    | init sf hlen hsf => exact fun _ k hk => initNetwork_leak s.nq k hk
    | learn j hp hj => exact fun _ => learnRun_keeps_leak s.nq s.src j (h (by simp [hp])) hj
    | unbias hp => exact fun _ => h (by simp [hp])
    | inxbuild hp => exact fun _ => h (by simp [hp])
    | colormap hp => exact fun _ => h (indexed_ne_empty hp)
    | process j hp hj => exact fun _ => learnRun_keeps_leak s.nq s.src j (h (by simp [hp])) hj
    | map b g r hp => exact h
    | mapbuf idx hp hidx => exact h

/-- Settles O16: `InitNetwork` meets the relation and a contest keeps it, so every sample of a training run does, and no
other command writes a frequency or a bias. -/
theorem leakyFrequencyKept : Obligations.LeakyFrequencyKept :=
  ⟨leakyFrequency_invariant.step,
    fun c network freq bias h k hk => contest_keeps_leak_relation c network freq bias k hk (h k hk)⟩

/-! ### The network by phases (10_state.md R25, R29, R30) -/

/-- Biased lanes, and nothing in lane 3 (R151). -/
abbrev BiasedNetwork (network : Ram Neuron 256) : Prop := ∀ x ∈ network.cells, LanesIn 4080 x ∧ x.index = 0

/-- Bytes, with the position in lane 3 (42_nq_palette.md R160). -/
abbrev UnbiasedNetwork (network : Ram Neuron 256) : Prop :=
  (∀ x ∈ network.cells, LanesIn 255 x) ∧
    network.cells.map (fun x => x.index.toInt) = (List.range 256).map Int.ofNat

/-- Bytes sorted by green, with a permutation of the positions in lane 3 (42_nq_palette.md R163). -/
abbrev SortedNetwork (network : Ram Neuron 256) : Prop :=
  (∀ x ∈ network.cells, LanesIn 255 x) ∧ IndexPerm network ∧
    network.cells.Pairwise (fun x y => x.g.toInt ≤ y.g.toInt)

section
variable {q : NqState} (h : NetworkShape q)
include h

theorem biased_of_fixedPoint (hp : q.phase = .constructed ∨ q.phase = .learned) : BiasedNetwork q.network := by
  rcases hp with hp | hp <;> simpa only [NetworkShape, hp] using h

theorem unbiased_of_unbiased (hp : q.phase = .unbiased) : UnbiasedNetwork q.network := by
  simpa only [NetworkShape, hp] using h

theorem sorted_of_indexed (hp : Indexed q) : SortedNetwork q.network := by
  rcases hp with hp | hp <;> simpa only [NetworkShape, hp] using h

end

theorem unbias_of_biased (q : NqState) (h : BiasedNetwork q.network) : UnbiasedNetwork (unbias q).network :=
  unbias_shape q fun x hx => (h x hx).1

theorem inxBuild_of_unbiased (q : NqState) (h : UnbiasedNetwork q.network) : SortedNetwork (inxBuild q).network :=
  inxBuild_shape q h.1 (List.Perm.of_eq h.2)

theorem networkShape_invariant : NqInvariant NetworkShape where
  reset := trivial
  len := fun _ _ h => h
  sticky := fun _ h => h
  command := by
    intro s q h he
    cases he with
    | error c hc => exact h
    | init sf hlen hsf => exact initNetwork_lanes _
    | learn j hp hj => exact learnRun_lanes s.nq s.src j (biased_of_fixedPoint h (.inl hp)) hj
    | unbias hp => exact unbias_of_biased s.nq (biased_of_fixedPoint h (.inr hp))
    | inxbuild hp => exact inxBuild_of_unbiased s.nq (unbiased_of_unbiased h hp)
    | colormap hp =>
      have hs : SortedNetwork s.nq.network := sorted_of_indexed h hp
      exact hs
    | process j hp hj =>
      have hl : BiasedNetwork (learnCommit s.nq j).network := learnRun_lanes s.nq s.src j (biased_of_fixedPoint h (.inl hp)) hj
      exact inxBuild_of_unbiased _ (unbias_of_biased _ hl)
    | map b g r hp => exact h
    | mapbuf idx hp hidx => exact h

/-- Settles O17: each command that moves the phase leaves the network the next phase asks for. -/
theorem stepKeepsNetworkShape : Obligations.StepKeepsNetworkShape := networkShape_invariant.step

/-! ### Accepted jobs (R120, 44_lzw_encode.md R210) -/

theorem lengthAccepted_iff (n : Nat) : lengthAccepted n = true ↔ n ≠ 0 ∧ n % 3 = 0 ∧ n ≤ 0x7FFFFFFF := by
  simp [lengthAccepted, and_assoc]

theorem sampleFactorAccepted_iff (sf : Nat) : sampleFactorAccepted sf = true ↔ 1 ≤ sf ∧ sf ≤ 30 := by
  simp [sampleFactorAccepted]

/-- An accepted sample factor fits its register. -/
theorem sampleFactor_stored (sf : Nat) (h : sf ≤ 30) : (BitVec.ofNat 5 sf).toNat = sf := by
  rw [BitVec.toNat_ofNat, Nat.mod_eq_of_lt (by omega)]

/-- Training keeps the factor or forces it to 1, which is a legal factor too (R123). -/
theorem trainFactor_legal (len : Nat) (sf : BitVec 5) (h : 1 ≤ sf.toNat ∧ sf.toNat ≤ 30) :
    1 ≤ (trainFactor len sf).toNat ∧ (trainFactor len sf).toNat ≤ 30 := by
  unfold trainFactor
  split_ifs
  · decide
  · exact h

@[simp] theorem processed_lengthcount (o : PaletteOrder) (q : NqState) (j : LearnJob) :
    (processed o q j).lengthcount = q.lengthcount := rfl

@[simp] theorem processed_samplefac (o : PaletteOrder) (q : NqState) (j : LearnJob) :
    (processed o q j).samplefac = trainFactor q.lengthcount.toNat q.samplefac := rfl

theorem jobAccepted_invariant : NqInvariant JobAccepted where
  reset := fun h => absurd rfl h
  len := fun _ _ h => h
  sticky := fun _ h => h
  command := by
    intro s q h he
    cases he with
    | error c hc => exact h
    | init sf hlen hsf =>
      obtain ⟨h1, h30⟩ := (sampleFactorAccepted_iff sf).mp hsf
      have hst := sampleFactor_stored sf h30
      exact fun _ => ⟨(lengthAccepted_iff s.nq.len.toNat).mp hlen, h1.trans_eq hst.symm, hst.trans_le h30⟩
    | learn j hp hj =>
      obtain ⟨hlen, hsf⟩ := h (by simp [hp])
      exact fun _ => ⟨hlen, trainFactor_legal s.nq.lengthcount.toNat s.nq.samplefac hsf⟩
    | unbias hp => exact fun _ => h (by simp [hp])
    | inxbuild hp => exact fun _ => h (by simp [hp])
    | colormap hp => exact fun _ => h (indexed_ne_empty hp)
    | process j hp hj =>
      obtain ⟨hlen, hsf⟩ := h (by simp [hp])
      intro _
      simp only [processed_lengthcount, processed_samplefac]
      exact ⟨hlen, trainFactor_legal s.nq.lengthcount.toNat s.nq.samplefac hsf⟩
    | map b g r hp => exact h
    | mapbuf idx hp hidx => exact h

theorem imageLatched_accepted (depth : Nat) (z : LzState)
    (himg : imageAccepted z.width.toNat z.height.toNat z.pixlen.toNat = true) (hd : depthAccepted depth = true) :
    ImageAccepted (imageLatched depth z) := by
  simp only [imageAccepted, Bool.and_eq_true, decide_eq_true_eq] at himg
  simp only [depthAccepted, Config.minDepth, Config.maxDepth, Bool.and_eq_true, decide_eq_true_eq] at hd
  intro _
  refine ⟨himg.1, ?_⟩
  simp only [imageLatched, BitVec.toNat_ofNat]
  omega

theorem lzEffect_keeps_imageAccepted (s : State) (z : LzState) (out : List Byte) (sink : Sink)
    (h : LzEffect s z out sink) (hs : ImageAccepted s.lz) : ImageAccepted z := by
  cases h with
  | error c hc => exact hs
  | init depth himg hd => exact imageLatched_accepted depth s.lz himg hd
  | done j hp hj => exact fun _ => hs (by simp [hp])
  | aborted j hp hj => exact fun _ => hs (by simp [hp])

theorem step_keeps_imageAccepted (s t : State) (h : ImageAccepted s.lz) (hst : step s = .next t) :
    ImageAccepted t.lz := by
  rcases step_lz s t hst with hz | ⟨_, _, _, hz⟩ | hz | ⟨hz, _⟩ | ⟨s₀, hs₀, _, _, _, he⟩
  · rwa [hz]
  · rw [hz]
    exact h
  · rw [hz]
    exact h
  · rw [hz]
    exact fun hne => absurd rfl hne
  · exact lzEffect_keeps_imageAccepted s₀ t.lz _ _ he (by rwa [hs₀])

/-- Settles O19: only an accepted INIT writes the latched sizes, and training leaves a legal factor. -/
theorem stepKeepsJobsAccepted : Obligations.StepKeepsJobsAccepted :=
  fun s t hj hi hst => ⟨jobAccepted_invariant.step s t hj hst, step_keeps_imageAccepted s t hi hst⟩

end Sys2Proof.Proofs

/-! The commands of 41_nq_learning.md and the functions they are made of: `NQ.INIT` (O31), what `NQ.LEARN` writes (O32),
the move of the winner (O37), the taper (O38), and the sample walk (O39). -/

namespace Sys2Proof.Proofs

open Sys2Proof.Machine Sys2Proof.Safety Sys2Proof.Laws

/-! ### How a command of the NQE completes -/

/-- A command that completes writes `ERR` and `BUSY` only, `STICKY` being kept (60_exceptions.md R272). -/
theorem endCommand_nq_ok (s : State) :
    endCommand .nq .noError s = { s with nq := { s.nq with err := .noError, busy := false } } := by
  simp [endCommand]

/-! ### NQ.INIT (R120, R121) -/

theorem exec_nqInit_accepted (sf : Nat) (s : State) (hlen : lengthAccepted s.nq.len.toNat = true)
    (hsf : sampleFactorAccepted sf = true) :
    exec (.nqInit sf) s = .next (endCommand .nq .noError { s with nq := initAccepted sf s.nq }) := by
  rcases execNqInit_cases sf s with ⟨h, _⟩ | ⟨_, h, _⟩ | ⟨_, _, h⟩
  · exact absurd (hlen.symm.trans h) (by decide)
  · exact absurd (hsf.symm.trans h) (by decide)
  · exact h

/-- Settles O31: both checks pass, and the entries are those `InitNetwork` writes. -/
theorem nqInitBuildsGreyNetwork : Obligations.NqInitBuildsGreyNetwork := by
  intro sf s h0 h3 hmax h1 h30
  have hex := exec_nqInit_accepted sf s ((lengthAccepted_iff _).mpr ⟨h0, h3, hmax⟩)
    ((sampleFactorAccepted_iff sf).mpr ⟨h1, h30⟩)
  rw [endCommand_nq_ok] at hex
  exact ⟨_, hex, rfl, sampleFactor_stored sf h30, fun i hi => ⟨initNetwork_read s.nq i hi, initNetwork_counts s.nq i hi⟩⟩

/-! ### NQ.LEARN (R122 to R124, R131, R138) -/

theorem exec_nqLearn_of_ok (s : State) (j : LearnJob) (hp : s.nq.phase = .constructed)
    (hj : learnRun s.nq s.src = .ok j) :
    exec .nqLearn s =
      .next (endCommand .nq .noError { s with nq := { learnCommit s.nq j with phase := .learned } }) := by
  rw [exec, execNqLearn, sequenced_allowed _ _ _ (by simp [phaseAllowed, hp]), learn, hj]
  rfl

/-- A sample leaves lane 3 of every neuron (R138). -/
theorem trainOn_index (c : Colour) (j : LearnJob) (k : Nat) (hk : k < 256) :
    ((trainOn c j).network.read k Neuron.zero).index = (j.network.read k Neuron.zero).index := by
  have hs : ((alterSingle j.alpha (contest c j.network j.freq j.bias).winner c j.network).read k Neuron.zero).index =
      (j.network.read k Neuron.zero).index := by
    rw [alterSingle_read _ _ _ _ _ hk]
    split_ifs <;> rfl
  simp only [trainOn]
  split_ifs
  · rw [alterNeigh_read _ _ _ _ _ _ hk]
    split_ifs <;> exact hs
  · exact hs

theorem learnLoop_index (src : Buffer) (step len alphadec n : Nat) (j j' : LearnJob)
    (hj : learnLoop src step len alphadec n j = .ok j') (k : Nat) (hk : k < 256) :
    (j'.network.read k Neuron.zero).index = (j.network.read k Neuron.zero).index := by
  induction n generalizing j with
  | zero =>
    cases hj
    rfl
  | succ n ih =>
    rw [learnLoop] at hj
    cases hc : fetchSample src j.pix with
    | error f => simp [hc] at hj
    | ok c =>
      simp only [hc] at hj
      rw [ih _ hj, cycleDecay_network]
      exact trainOn_index c j k hk

theorem learnRun_index (q : NqState) (src : Buffer) (j : LearnJob) (hj : learnRun q src = .ok j) (k : Nat)
    (hk : k < 256) : (j.network.read k Neuron.zero).index = (q.network.read k Neuron.zero).index :=
  learnLoop_index _ _ _ _ _ (learnStart q _) j hj k hk

/-- `alphadec` of any factor fits its register. -/
theorem alphadec_stored (sf : BitVec 5) : (toWord (alphadecOf sf.toNat)).toNat = 30 + (sf.toNat - 1) / 3 := by
  have hsf := sf.isLt
  rw [toWord, BitVec.ofInt_natCast, BitVec.toNat_ofNat, alphadecOf, Nat.mod_eq_of_lt (by omega)]

/-- Settles O32: no sample lies beyond the attached image, so the run ends; what it commits is the job's RAMs, and no
sample writes lane 3. -/
theorem nqLearnCompletes : Obligations.NqLearnCompletes := by
  intro s hp hacc hsrc
  obtain ⟨⟨h0, h3, _⟩, _⟩ := hacc (by simp [hp])
  obtain ⟨j, hj⟩ := learnRun_completes s.nq s.src h3 h0 hsrc
  have hex := exec_nqLearn_of_ok s j hp hj
  rw [endCommand_nq_ok] at hex
  exact ⟨_, hex, rfl, rfl, alphadec_stored _, learnRun_index s.nq s.src j hj⟩

/-! ### The move of the winner (R137) -/

/-- What a move by the fraction `f / k` does to a neuron of biased lanes. -/
theorem moveToward_between (f k : Int) (c : Colour) (x : Neuron) (h0 : 0 ≤ f) (h1 : f ≤ k) (hk : 0 < k)
    (hx : LanesIn 4080 x) (hc : ColourIn 4080 c) :
    ((x.moveToward f k c).b.toInt = x.b.toInt - (f * (x.b.toInt - c.b)).tdiv k ∧
      (x.moveToward f k c).g.toInt = x.g.toInt - (f * (x.g.toInt - c.g)).tdiv k ∧
      (x.moveToward f k c).r.toInt = x.r.toInt - (f * (x.r.toInt - c.r)).tdiv k) ∧
    (min x.b.toInt c.b ≤ (x.moveToward f k c).b.toInt ∧ (x.moveToward f k c).b.toInt ≤ max x.b.toInt c.b) ∧
    (min x.g.toInt c.g ≤ (x.moveToward f k c).g.toInt ∧ (x.moveToward f k c).g.toInt ≤ max x.g.toInt c.g) ∧
    (min x.r.toInt c.r ≤ (x.moveToward f k c).r.toInt ∧ (x.moveToward f k c).r.toInt ≤ max x.r.toInt c.r) := by
  obtain ⟨hb, hg, hr⟩ := hx
  obtain ⟨hcb, hcg, hcr⟩ := hc
  obtain ⟨eb, bb⟩ := moveLane_between f k x.b c.b h0 h1 hk hb hcb
  obtain ⟨eg, bg⟩ := moveLane_between f k x.g c.g h0 h1 hk hg hcg
  obtain ⟨er, br⟩ := moveLane_between f k x.r c.r h0 h1 hk hr hcr
  exact ⟨⟨eb, eg, er⟩, bb, bg, br⟩

/-- A whole move lands on the sample. -/
theorem moveToward_whole (k : Int) (c : Colour) (x : Neuron) (hk : 0 < k) (hx : LanesIn 4080 x)
    (hc : ColourIn 4080 c) :
    (x.moveToward k k c).b.toInt = c.b ∧ (x.moveToward k k c).g.toInt = c.g ∧ (x.moveToward k k c).r.toInt = c.r := by
  obtain ⟨hb, hg, hr⟩ := hx
  obtain ⟨hcb, hcg, hcr⟩ := hc
  exact ⟨moveLane_whole k x.b c.b hk hb hcb, moveLane_whole k x.g c.g hk hg hcg, moveLane_whole k x.r c.r hk hr hcr⟩

/-- Settles O37: only entry `j` is rewritten, and it is moved by the fraction `alpha / 1024`. -/
theorem alterSingleMovesTowardSample : Obligations.AlterSingleMovesTowardSample := by
  intro alpha j c network ha hj hcb hcg hcr hl
  have hc : ColourIn 4080 c := ⟨hcb, hcg, hcr⟩
  refine ⟨fun k hk hne => ?_, ?_⟩
  · rw [alterSingle_read _ _ _ _ _ hk, if_neg (by omega)]
  · rintro old new rfl rfl
    rw [alterSingle_read _ _ _ _ _ hj, if_pos rfl]
    have hx := hl _ (Ram.read_mem network j Neuron.zero hj)
    obtain ⟨⟨eb, eg, er⟩, bb, bg, br⟩ :=
      moveToward_between alpha 1024 c _ (by omega) (by omega) (by norm_num) hx hc
    refine ⟨eb, eg, er, rfl, bb, bg, br, ?_⟩
    rintro rfl
    exact moveToward_whole 1024 c _ (by norm_num) hx hc

/-! ### The taper (R126) -/

/-- An entry of the taper as an unsigned number. -/
theorem radpowerEntry_toNat (rad alpha k : Nat) (hk : k < rad) (hr : rad ≤ 32) (ha : alpha ≤ 1024) :
    (radpowerEntry rad alpha k).toNat = alpha * ((rad * rad - k * k) * 256 / (rad * rad)) := by
  obtain ⟨he, h0, _⟩ := radpowerEntry_toInt rad alpha k hk hr ha
  have hmsb := BitVec.toInt_eq_toNat_of_msb (BitVec.msb_eq_false_iff_two_mul_lt.mpr (BitVec.toInt_pos_iff.mp h0))
  exact Int.ofNat.inj (hmsb.symm.trans he)

/-- Settles O38: entries below the radius hold the taper; an entry at or above it is kept, or lies past the RAM. -/
theorem taperValues : Obligations.TaperValues := by
  intro rad alpha radpower hr ha
  refine ⟨fun k hk => ?_, fun k hk => ?_⟩
  · rw [setRadpower_read _ _ _ _ (by omega), if_pos hk]
    exact radpowerEntry_toNat rad alpha k hk hr ha
  · by_cases h32 : k < 32
    · rw [setRadpower_read _ _ _ _ h32, if_neg (by omega)]
    · rw [Ram.read_beyond _ _ _ (by omega), Ram.read_beyond _ _ _ (by omega)]

/-! ### The sample walk (R127, R131) -/

/-- A number prime to 3 divides the byte length of whole pixels exactly where it divides their number. -/
theorem mod_eq_zero_iff_pixels (p len : Nat) (hp : Nat.Coprime p 3) (h3 : len % 3 = 0) : len % p = 0 ↔ len / 3 % p = 0 := by
  have he : len / 3 * 3 = len := by omega
  rw [← Nat.dvd_iff_mod_eq_zero, ← Nat.dvd_iff_mod_eq_zero, ← hp.dvd_mul_right (m := len / 3), he]

theorem selectStep_small (len : Nat) (h : len < 1509) : selectStep len = 3 := if_pos h

/-- From 1509 bytes on the stride is chosen by the pixel count. -/
theorem selectStep_large (len : Nat) (h3 : len % 3 = 0) (h : 1509 ≤ len) :
    selectStep len =
      if len / 3 % 499 ≠ 0 then 3 * 499
      else if len / 3 % 491 ≠ 0 then 3 * 491
      else if len / 3 % 487 ≠ 0 then 3 * 487
      else 3 * 503 := by
  rw [selectStep, if_neg (by simpa using h)]
  simp only [Config.prime1, Config.prime2, Config.prime3, Config.prime4, ne_eq,
    mod_eq_zero_iff_pixels 499 len (by norm_num) h3, mod_eq_zero_iff_pixels 491 len (by norm_num) h3,
    mod_eq_zero_iff_pixels 487 len (by norm_num) h3]

/-- Settles O39: the stride by the conditions in their order, and the walk of whole strides around whole pixels. -/
theorem sampleWalkStaysInside : Obligations.SampleWalkStaysInside := by
  intro len pix h3 h0 hp hin
  refine ⟨selectStep_small len, fun hlarge => ?_, nextPix_spec len pix h3 h0 hp hin⟩
  rw [selectStep_large len h3 hlarge]
  refine ⟨fun h499 => if_pos h499, fun h499 h491 => ?_, fun h499 h491 h487 => ?_, fun h499 h491 h487 => ?_⟩
  · simp [h499, h491]
  · simp [h499, h491, h487]
  · simp [h499, h491, h487]

end Sys2Proof.Proofs

/-! The contest of 41_nq_learning.md R132 to R135, R152: the two first minima (O34), and the sum of the frequencies (O35). -/

namespace Sys2Proof.Proofs

open Sys2Proof.Machine Sys2Proof.Safety Sys2Proof.Laws

/-! ### The scan, position by position -/

/-- The distance of the neuron at position `n` (R132). -/
abbrev distAt (c : Colour) (network : Ram Neuron 256) (n : Nat) : Nat := dist (network.read n Neuron.zero) c

/-- The biased distance of the neuron at position `n` (R134). -/
abbrev biasedAt (c : Colour) (network : Ram Neuron 256) (bias : Ram Word 256) (n : Nat) : Int :=
  biasedDist (distAt c network n) (bias.read n 0)

/-- The running minima once the positions below `n` are considered. -/
def scanTo (c : Colour) (network : Ram Neuron 256) (bias : Ram Word 256) : Nat → ContestBest
  | 0 => ContestBest.start
  | n + 1 => (scanTo c network bias n).consider n (distAt c network n) (biasedAt c network bias n)

theorem Ram.drop_cells {α : Type} {n : Nat} (r : Ram α n) (k : Nat) (d : α) (hk : k < n) :
    r.cells.drop k = r.read k d :: r.cells.drop (k + 1) := by
  rw [Ram.read_eq_getElem r k d hk]
  exact List.drop_eq_getElem_cons (by rw [r.size_eq]; exact hk)

/-- From position `n` on the scan of the two RAMs does what is left to do. -/
theorem contestScan_from (c : Colour) (network : Ram Neuron 256) (bias : Ram Word 256) (count n : Nat)
    (hn : n + count = 256) :
    contestScan c n (network.cells.drop n) (bias.cells.drop n) (scanTo c network bias n) =
      scanTo c network bias 256 := by
  induction count generalizing n with
  | zero =>
    obtain rfl : n = 256 := hn
    rw [List.drop_of_length_le (by rw [network.size_eq])]
    rfl
  | succ count ih =>
    rw [Ram.drop_cells network n Neuron.zero (by omega), Ram.drop_cells bias n 0 (by omega), contestScan]
    exact ih (n + 1) (by omega)

theorem contestScan_eq_scanTo (c : Colour) (network : Ram Neuron 256) (bias : Ram Word 256) :
    contestScan c 0 network.cells bias.cells ContestBest.start = scanTo c network bias 256 :=
  contestScan_from c network bias 256 0 rfl

/-! ### First minima (R133, R134) -/

/-- `w` is the first of the positions below `n` with the least `f`. -/
def FirstLeast (f : Nat → Int) (n w : Nat) : Prop :=
  w < n ∧ ∀ k, k < n → f w ≤ f k ∧ (k < w → f w < f k)

theorem firstLeast_one (f : Nat → Int) : FirstLeast f 1 0 := by
  refine ⟨Nat.one_pos, fun k hk => ?_⟩
  obtain rfl : k = 0 := by omega
  exact ⟨le_rfl, fun h => absurd h (lt_irrefl 0)⟩

/-- One more position becomes the first minimum exactly when it is strictly less. -/
theorem FirstLeast.succ {f : Nat → Int} {n w : Nat} (h : FirstLeast f n w) :
    FirstLeast f (n + 1) (if f n < f w then n else w) := by
  obtain ⟨hw, hmin⟩ := h
  have hcase : ∀ k, k < n + 1 → k < n ∨ k = n := fun k hk => by omega
  split_ifs with hlt
  · refine ⟨Nat.lt_succ_self n, fun k hk => ?_⟩
    rcases hcase k hk with hk | rfl
    · have := (hmin k hk).1
      exact ⟨by omega, fun _ => by omega⟩
    · exact ⟨le_rfl, fun h => absurd h (lt_irrefl _)⟩
  · refine ⟨by omega, fun k hk => ?_⟩
    rcases hcase k hk with hk | rfl
    · exact hmin k hk
    · exact ⟨by omega, fun h => by omega⟩

/-- Only one position is the first minimum. -/
theorem FirstLeast.unique {f : Nat → Int} {n w v : Nat} (hw : FirstLeast f n w) (hv : FirstLeast f n v) : w = v := by
  obtain ⟨hwn, hwmin⟩ := hw
  obtain ⟨hvn, hvmin⟩ := hv
  have h₁ := hwmin v hvn
  have h₂ := hvmin w hwn
  omega

/-- Below the start values of R135 the scan holds both first minima and their distances. -/
theorem scanTo_firstLeast (c : Colour) (network : Ram Neuron 256) (bias : Ram Word 256)
    (hd : distAt c network 0 < Config.contestInitDist)
    (hb : biasedAt c network bias 0 < Config.contestInitDist) (n : Nat) :
    ∃ w v : Nat,
      scanTo c network bias (n + 1) = ⟨distAt c network w, w, biasedAt c network bias v, v⟩ ∧
      FirstLeast (fun k => distAt c network k) (n + 1) w ∧ FirstLeast (biasedAt c network bias) (n + 1) v := by
  induction n with
  | zero =>
    refine ⟨0, 0, ?_, firstLeast_one _, firstLeast_one _⟩
    simp only [scanTo, ContestBest.consider, ContestBest.start, hd, hb, if_true]
  | succ n ih =>
    obtain ⟨w, v, he, hw, hv⟩ := ih
    refine ⟨_, _, ?_, hw.succ, hv.succ⟩
    rw [scanTo, he]
    simp only [ContestBest.consider, Nat.cast_lt]
    congr 1 <;> split_ifs <;> rfl

section
variable {c : Colour} (hc : ColourIn 4080 c)
include hc

theorem dist_le (x : Neuron) (hx : LanesIn 4080 x) : dist x c ≤ 12240 := by
  obtain ⟨hb, hg, hr⟩ := hx
  obtain ⟨hcb, hcg, hcr⟩ := hc
  unfold Machine.dist
  omega

/-- The two winners of a contest over lanes and biases in their ranges (R133, R134). -/
theorem contest_winners (network : Ram Neuron 256) (bias : Ram Word 256) (hl : ∀ x ∈ network.cells, LanesIn 4080 x)
    (hbias : ∀ b ∈ bias.cells, -67894272 ≤ b.toInt) :
    ∃ w v : Nat,
      (contestScan c 0 network.cells bias.cells ContestBest.start).bestpos = w ∧
      (contestScan c 0 network.cells bias.cells ContestBest.start).bestbiaspos = v ∧
      FirstLeast (fun k => distAt c network k) 256 w ∧ FirstLeast (biasedAt c network bias) 256 v := by
  have hd : distAt c network 0 ≤ 12240 := dist_le hc _ (hl _ (Ram.read_mem network 0 _ (by norm_num)))
  have hb := hbias _ (Ram.read_mem bias 0 0 (by norm_num))
  have hbd : biasedAt c network bias 0 < Config.contestInitDist := by
    simp only [biasedDist, asr, Config.intbiasshift, Config.netbiasshift, Config.contestInitDist]
    omega
  obtain ⟨w, v, he, hw, hv⟩ := scanTo_firstLeast c network bias (hd.trans_lt (by norm_num)) hbd 255
  rw [contestScan_eq_scanTo, he]
  exact ⟨w, v, rfl, rfl, hw, hv⟩

end

/-! ### What a contest leaves in the counts (R135) -/

section
variable (c : Colour) (network : Ram Neuron 256) (freq bias : Ram Word 256) (w : Nat)
  (hw : (contestScan c 0 network.cells bias.cells ContestBest.start).bestpos = w)
include hw

theorem contest_freq_toInt (k : Nat) (hk : k < 256) (hr : LeakRelation (freq.read k 0) (bias.read k 0)) :
    ((contest c network freq bias).freq.read k 0).toInt =
      (freq.read k 0).toInt - (freq.read k 0).toInt / 1024 + (if k = w then 64 else 0) := by
  have hf := (leak_keeps _ _ hr).1
  obtain ⟨_, ⟨h₂, h₃⟩, _, _⟩ := hr
  rw [contest_freq_read c network freq bias k hk, hw]
  simp only [Nat.cast_inj]
  split_ifs
  · rw [toWord_toInt] <;> rw [hf] <;> norm_num [Config.beta] <;> omega
  · rw [hf, add_zero]

theorem contest_bias_toInt (k : Nat) (hk : k < 256) (hr : LeakRelation (freq.read k 0) (bias.read k 0)) :
    ((contest c network freq bias).bias.read k 0).toInt =
      (bias.read k 0).toInt + (freq.read k 0).toInt / 1024 * 1024 - (if k = w then 65536 else 0) := by
  have hb := (leak_keeps _ _ hr).2
  obtain ⟨h₁, ⟨h₂, h₃⟩, h₄, h₅⟩ := hr
  rw [contest_bias_read c network freq bias k hk, hw]
  simp only [Nat.cast_inj]
  split_ifs
  · rw [toWord_toInt] <;> rw [hb] <;> norm_num [Config.betagamma] <;> omega
  · rw [hb, sub_zero]

end

theorem contest_winner (c : Colour) (network : Ram Neuron 256) (freq bias : Ram Word 256) :
    (contest c network freq bias).winner =
      (contestScan c 0 network.cells bias.cells ContestBest.start).bestbiaspos := rfl

/-- Settles O34: the scan keeps the first of the least of both distances, the contest credits the one, and the sample
moves the other. -/
theorem contestFindsFirstMinima : Obligations.ContestFindsFirstMinima := by
  intro c network bias hcb hcg hcr hl hbias
  obtain ⟨w, v, hw, hv, ⟨hw256, hwmin⟩, hv256, hvmin⟩ :=
    contest_winners ⟨hcb, hcg, hcr⟩ network bias hl fun b hb => (hbias b hb).1
  refine ⟨w, v, hw256, hv256, hw, hv, fun n hn => ?_, hvmin, fun freq hr => ⟨hv, fun n hn => ?_⟩, ?_⟩
  · simpa only [Nat.cast_le, Nat.cast_lt] using hwmin n hn
  · exact ⟨contest_freq_toInt c network freq bias w hw n hn (hr n hn),
      contest_bias_toInt c network freq bias w hw n hn (hr n hn)⟩
  · rintro j rfl rfl
    rw [trainOn, contest_winner, hv]
    simp only [ne_eq, ite_not]

/-! ### The sum of the frequencies (R152) -/

/-- A sum over the entries of a RAM, by positions. -/
theorem Ram.sum_cells (r : Ram Word 256) (f : Word → Int) :
    (r.cells.map f).sum = ∑ k ∈ Finset.range 256, f (r.read k 0) := by
  have hcells : r.cells = (List.range 256).map fun k => r.read k 0 := by
    apply List.ext_getElem
    · rw [r.size_eq, List.length_map, List.length_range]
    · intro k hk _
      rw [r.size_eq] at hk
      rw [List.getElem_map, List.getElem_range, Ram.read_eq_getElem r k 0 hk]
  rw [hcells, List.map_map]
  exact (Multiset.sum_coe _).symm

theorem sum_of_equal_freqs (freq : Ram Word 256) (h : ∀ k, k < 256 → freq.read k 0 = 256) :
    (freq.cells.map BitVec.toInt).sum = 65536 ∧ (freq.cells.map fun f => f.toInt / 1024).sum = 0 := by
  have h' : ∀ k ∈ Finset.range 256, freq.read k 0 = 256 := fun k hk => h k (Finset.mem_range.mp hk)
  constructor
  · rw [Ram.sum_cells, Finset.sum_congr rfl fun k hk => congrArg BitVec.toInt (h' k hk)]
    simp
  · rw [Ram.sum_cells]
    exact Finset.sum_eq_zero fun k hk => by rw [h' k hk]; rfl

/-- Every neuron leaks, and one is credited. -/
theorem contest_freq_sum (c : Colour) (network : Ram Neuron 256) (freq bias : Ram Word 256) (hc : ColourIn 4080 c)
    (hl : ∀ x ∈ network.cells, LanesIn 4080 x)
    (hr : ∀ k, k < 256 → LeakRelation (freq.read k 0) (bias.read k 0)) :
    ((contest c network freq bias).freq.cells.map BitVec.toInt).sum =
      (freq.cells.map BitVec.toInt).sum + 64 - (freq.cells.map fun f => f.toInt / 1024).sum := by
  have hbias : ∀ b ∈ bias.cells, -67894272 ≤ b.toInt := by
    intro b hb
    obtain ⟨k, hk, rfl⟩ := (Ram.mem_iff_read bias 0 b).mp hb
    exact (hr k hk).2.2.1
  obtain ⟨w, _, hw, _, ⟨hw256, _⟩, _⟩ := contest_winners hc network bias hl hbias
  rw [Ram.sum_cells, Ram.sum_cells, Ram.sum_cells, Finset.sum_congr rfl fun k hk =>
      contest_freq_toInt c network freq bias w hw k (Finset.mem_range.mp hk) (hr k (Finset.mem_range.mp hk)),
    Finset.sum_add_distrib, Finset.sum_sub_distrib, Finset.sum_ite_eq', if_pos (Finset.mem_range.mpr hw256)]
  ring

/-- An `NQ.INIT` that ends without an error was accepted. -/
theorem exec_nqInit_noError (sf : Nat) (s t : State) (h : exec (.nqInit sf) s = .next t) (he : t.nq.err = .noError) :
    t = endCommand .nq .noError { s with nq := initAccepted sf s.nq } := by
  rcases execNqInit_cases sf s with ⟨_, h'⟩ | ⟨_, _, h'⟩ | ⟨_, _, h'⟩ <;> rw [exec, h'] at h <;> cases h
  · cases he
  · cases he
  · rfl

/-- Settles O35: 256 equal entries after `NQ.INIT`; the leaks and the one credit of a contest. -/
theorem frequencySum : Obligations.FrequencySum := by
  refine ⟨fun sf s t h he => ?_, fun c network freq bias hcb hcg hcr hl hr => ?_⟩
  · obtain rfl := exec_nqInit_noError sf s t h he
    have hf : ∀ k, k < 256 → (initNetwork s.nq).freq.read k 0 = 256 := fun k hk => (initNetwork_counts s.nq k hk).1
    exact ⟨hf, (sum_of_equal_freqs _ hf).1⟩
  · have hsum := contest_freq_sum c network freq bias ⟨hcb, hcg, hcr⟩ hl hr
    refine ⟨hsum, fun hf => ?_⟩
    obtain ⟨h₁, h₂⟩ := sum_of_equal_freqs freq hf
    rw [hsum, h₁, h₂]
    norm_num

end Sys2Proof.Proofs

/-! Training on a one-pixel image (41_nq_learning.md R122 to R139): the grey at the median of the three bytes wins (O33). -/

namespace Sys2Proof.Proofs

open Sys2Proof.Machine Sys2Proof.Safety Sys2Proof.Laws

/-! ### The one sample -/

/-- The colour of a sample from its three bytes (R129). -/
def sampleOf (b g r : Byte) : Colour := ⟨16 * (b.toNat : Int), 16 * (g.toNat : Int), 16 * (r.toNat : Int)⟩

theorem sampleOf_in (b g r : Byte) : ColourIn 4080 (sampleOf b g r) := by
  have hb := b.isLt
  have hg := g.isLt
  have hr := r.isLt
  simp only [ColourIn, sampleOf]
  omega

theorem fetchSample_bytes (src : Buffer) (b g r : Byte) (hb : src.get 0 = some b) (hg : src.get 1 = some g)
    (hr : src.get 2 = some r) : fetchSample src 0 = .ok (sampleOf b g r) := by
  simp [fetchSample, readTriple, srcRead, hb, hg, hr, sampleOf, Config.netbiasshift, mul_comm]

/-- On one pixel training takes one sample; the decay after it writes none of the trained RAMs but the taper. -/
theorem learnRun_onePixel (q : NqState) (src : Buffer) (c : Colour) (hlen : q.lengthcount = 3)
    (hc : fetchSample src 0 = .ok c) :
    ∃ j, learnRun q src = .ok j ∧ j.network = (trainOn c (learnStart q 1)).network ∧
      j.freq = (trainOn c (learnStart q 1)).freq ∧ j.bias = (trainOn c (learnStart q 1)).bias := by
  have hrun : learnRun q src = learnLoop src (selectStep 3) 3 (alphadecOf 1) 1 (learnStart q 1) := by
    have hf : trainFactor 3 q.samplefac = 1 := if_pos (by norm_num)
    have h3 : (3 : Word).toNat = 3 := rfl
    simp only [learnRun, hlen, h3, hf]
    rfl
  have hstart : (learnStart q 1).pix = 0 := rfl
  rw [hrun, learnLoop, hstart, hc]
  exact ⟨_, rfl, cycleDecay_network _ _, cycleDecay_freq _ _, cycleDecay_bias _ _⟩

/-- What a sample does to neuron `k` at the distance `m` from the winner `v`, where there is a radius (R128, R139). -/
theorem trainOn_network_read (c : Colour) (j : LearnJob) (v : Nat) (hrad : j.rad ≠ 0)
    (hv : (contest c j.network j.freq j.bias).winner = v) (k : Nat) (hk : k < 256) (m : Nat)
    (hm : m = ((k : Int) - v).natAbs) :
    (m = 0 → (trainOn c j).network.read k Neuron.zero =
      (j.network.read k Neuron.zero).moveToward j.alpha Config.initalpha c) ∧
    (1 ≤ m → m < j.rad → (trainOn c j).network.read k Neuron.zero =
      (j.network.read k Neuron.zero).moveToward (j.radpower.read m 0).toInt Config.alpharadbias c) ∧
    (1 ≤ m → j.rad ≤ m → (trainOn c j).network.read k Neuron.zero = j.network.read k Neuron.zero) := by
  simp only [trainOn, if_pos hrad, hv]
  rw [alterNeigh_read _ _ _ _ _ _ hk, alterSingle_read _ _ _ _ _ hk, ← hm]
  refine ⟨fun h0 => ?_, fun h1 hlt => ?_, fun h1 hle => ?_⟩
  · rw [if_neg (by omega), if_pos (by omega)]
  · rw [if_pos ⟨h1, hlt⟩, if_neg (by omega)]
  · rw [if_neg (by omega), if_neg (by omega)]

/-! ### The winner on the grey diagonal (R121, R133) -/

/-- The network `NQ.INIT` leaves (R121). -/
def GreyNetwork (network : Ram Neuron 256) : Prop :=
  ∀ i, i < 256 → network.read i Neuron.zero =
    ⟨BitVec.ofNat 32 (16 * i), BitVec.ofNat 32 (16 * i), BitVec.ofNat 32 (16 * i), 0⟩

theorem grey_toInt (i : Nat) (hi : i < 256) : (BitVec.ofNat 32 (16 * i)).toInt = 16 * i := by
  rw [BitVec.toInt_eq_toNat_cond, BitVec.toNat_ofNat]
  split_ifs <;> omega

/-- The middle one of three bytes. -/
def median (b g r : Nat) : Nat := max (min b g) (min (max b g) r)

theorem median_between (b g r : Nat) :
    min (min b g) r ≤ median b g r ∧ median b g r ≤ max (max b g) r := by
  unfold median
  omega

/-- Three values are the least, the middle and the greatest of them. -/
theorem median_sorts (f : Nat → Nat) (b g r : Nat) :
    f b + f g + f r = f (min (min b g) r) + f (median b g r) + f (max (max b g) r) := by
  unfold median
  rcases le_total b g with hbg | hbg
  · rcases le_total g r with hgr | hgr
    · simp [hbg, hgr, hbg.trans hgr]
    · rcases le_total b r with hbr | hbr <;> simp [hbg, hgr, hbr] <;> omega
  · rcases le_total b r with hbr | hbr
    · simp [hbg, hbr, hbg.trans hbr]
      omega
    · rcases le_total g r with hgr | hgr <;> simp [hbg, hgr, hbr] <;> omega

/-- The distance of two numbers. -/
def gap (i x : Nat) : Nat := ((i : Int) - x).natAbs

/-- The sum of the distances to three numbers is least at their median, and nowhere else. -/
theorem median_nearest (b g r k : Nat) (hk : k ≠ median b g r) :
    gap (median b g r) b + gap (median b g r) g + gap (median b g r) r < gap k b + gap k g + gap k r := by
  obtain ⟨hlo, hhi⟩ := median_between b g r
  rw [median_sorts (gap (median b g r)), median_sorts (gap k)]
  generalize min (min b g) r = lo at hlo ⊢
  generalize max (max b g) r = hi at hhi ⊢
  unfold gap
  omega

section
variable {network : Ram Neuron 256} (hn : GreyNetwork network)
include hn

theorem grey_lanes (i : Nat) (hi : i < 256) : LanesIn 4080 (network.read i Neuron.zero) := by
  rw [hn i hi]
  simp only [LanesIn, grey_toInt i hi]
  omega

theorem grey_distAt (b g r : Byte) (i : Nat) (hi : i < 256) :
    distAt (sampleOf b g r) network i =
      16 * (gap i b.toNat + gap i g.toNat + gap i r.toNat) := by
  rw [distAt, hn i hi]
  simp only [Machine.dist, sampleOf, gap, grey_toInt i hi]
  omega

/-- The median is the one grey nearest to the sample. -/
theorem median_firstLeast (b g r : Byte) :
    FirstLeast (fun k => distAt (sampleOf b g r) network k) 256 (median b.toNat g.toNat r.toNat) := by
  have hb := b.isLt
  have hg := g.isLt
  have hr := r.isLt
  have hm : median b.toNat g.toNat r.toNat < 256 := by
    unfold median
    omega
  refine ⟨hm, fun k hk => ?_⟩
  simp only [grey_distAt hn b g r k hk, grey_distAt hn b g r _ hm]
  by_cases hkm : k = median b.toNat g.toNat r.toNat
  · rw [← hkm]
    exact ⟨le_rfl, fun h => absurd h (lt_irrefl k)⟩
  · have := median_nearest b.toNat g.toNat r.toNat k hkm
    omega

end

/-- With no bias yet the biased distance is the distance. -/
theorem biasedAt_unbiased (c : Colour) (network : Ram Neuron 256) (bias : Ram Word 256) (k : Nat)
    (h : bias.read k 0 = 0) : biasedAt c network bias k = distAt c network k := by
  rw [biasedAt, h]
  simp [biasedDist, asr]

theorem FirstLeast.congr {f f' : Nat → Int} {n w : Nat} (h : FirstLeast f n w) (he : ∀ k, k < n → f' k = f k) :
    FirstLeast f' n w := by
  obtain ⟨hw, hmin⟩ := h
  refine ⟨hw, fun k hk => ?_⟩
  rw [he k hk, he w hw]
  exact hmin k hk

/-- On the grey diagonal, with no bias, the median wins both ways. -/
theorem contest_winners_grey (network : Ram Neuron 256) (bias : Ram Word 256) (hn : GreyNetwork network)
    (hbias : ∀ i, i < 256 → bias.read i 0 = 0) (b g r : Byte) :
    (contestScan (sampleOf b g r) 0 network.cells bias.cells ContestBest.start).bestpos =
        median b.toNat g.toNat r.toNat ∧
      (contestScan (sampleOf b g r) 0 network.cells bias.cells ContestBest.start).bestbiaspos =
        median b.toNat g.toNat r.toNat := by
  have hl : ∀ x ∈ network.cells, LanesIn 4080 x := (forall_cells_iff network _).mpr (grey_lanes hn)
  have hb : ∀ x ∈ bias.cells, -67894272 ≤ x.toInt := by
    intro x hx
    obtain ⟨k, hk, rfl⟩ := (Ram.mem_iff_read bias 0 x).mp hx
    rw [hbias k hk]
    decide
  obtain ⟨w, v, hw, hv, hwmin, hvmin⟩ := contest_winners (sampleOf_in b g r) network bias hl hb
  have hmed := median_firstLeast hn b g r
  have hmedv := hmed.congr fun k hk => biasedAt_unbiased (sampleOf b g r) network bias k (hbias k hk)
  rw [hw, hv, hwmin.unique hmed, hvmin.unique hmedv]
  exact ⟨rfl, rfl⟩

/-! ### The trained network -/

/-- The first taper: a whole radius at the full learning rate (R125, R126). -/
theorem learnStart_taper (q : NqState) (n m : Nat) (hm : m ≤ 31) :
    ((learnStart q n).radpower.read m 0).toInt = (1024 * (((1024 - m * m) * 256) / 1024) : Nat) := by
  have hr : (learnStart q n).radpower = setRadpower 32 1024 q.radpower := rfl
  rw [hr, setRadpower_read _ _ _ _ (by omega), if_pos (by omega)]
  exact (radpowerEntry_toInt 32 1024 m (by omega) le_rfl le_rfl).1

theorem learnStart_taper_le (q : NqState) (n m : Nat) (hm : m ≤ 31) :
    0 ≤ ((learnStart q n).radpower.read m 0).toInt ∧ ((learnStart q n).radpower.read m 0).toInt ≤ 262144 :=
  setRadpower_taper 32 1024 q.radpower le_rfl le_rfl m (by omega)

/-- A sample on the grey diagonal: the winner lands, its neighbours move by the taper, the others stay (R137, R139). -/
theorem trainOn_grey (q : NqState) (c : Colour) (v : Nat) (hn : GreyNetwork q.network) (hc : ColourIn 4080 c)
    (hv : (contest c q.network q.freq q.bias).winner = v) (k : Nat) (hk : k < 256) (m : Nat)
    (hm : m = ((k : Int) - v).natAbs) (a : Int) (ha : a = (1024 * (((1024 - m * m) * 256) / 1024) : Nat))
    (x : Neuron) (hx : x = (trainOn c (learnStart q 1)).network.read k Neuron.zero) :
    (m = 0 → x.b.toInt = c.b ∧ x.g.toInt = c.g ∧ x.r.toInt = c.r) ∧
    (1 ≤ m → m ≤ 31 →
      x.b.toInt = 16 * (k : Int) - (a * (16 * (k : Int) - c.b)).tdiv 262144 ∧
      x.g.toInt = 16 * (k : Int) - (a * (16 * (k : Int) - c.g)).tdiv 262144 ∧
      x.r.toInt = 16 * (k : Int) - (a * (16 * (k : Int) - c.r)).tdiv 262144) ∧
    (32 ≤ m → x = q.network.read k Neuron.zero) := by
  have hrad : (learnStart q 1).rad = 32 := rfl
  have hlanes := grey_lanes hn k hk
  obtain ⟨hwin, hnear, hfar⟩ := trainOn_network_read c (learnStart q 1) v (by rw [hrad]; norm_num) hv k hk m hm
  rw [← hx] at hwin hnear hfar
  refine ⟨fun h0 => ?_, fun h1 h31 => ?_, fun h32 => hfar (by omega) (hrad.trans_le h32)⟩
  · rw [hwin h0]
    exact moveToward_whole 1024 c _ (by norm_num) hlanes hc
  · obtain ⟨hlo, hhi⟩ := learnStart_taper_le q 1 m h31
    have hmove := (moveToward_between _ 262144 c _ hlo hhi (by norm_num) hlanes hc).1
    rw [learnStart_taper q 1 m h31, ← ha] at hmove
    rw [hnear h1 (by rw [hrad]; omega), learnStart_taper q 1 m h31, ← ha]
    have hgrey := hn k hk
    have hstart : (learnStart q 1).network = q.network := rfl
    rw [hstart]
    rw [hgrey] at hmove ⊢
    simp only [grey_toInt k hk] at hmove
    exact hmove

/-- The counts after the first sample: the one neuron of the raw winner is credited (R135). -/
theorem contest_counts_initial (c : Colour) (network : Ram Neuron 256) (freq bias : Ram Word 256) (w : Nat)
    (hw : (contestScan c 0 network.cells bias.cells ContestBest.start).bestpos = w) (i : Nat) (hi : i < 256)
    (hf : freq.read i 0 = 256) (hb : bias.read i 0 = 0) :
    (contest c network freq bias).freq.read i 0 = (if i = w then 320 else 256) ∧
      ((contest c network freq bias).bias.read i 0).toInt = (if i = w then -65536 else 0) := by
  have hr : LeakRelation (freq.read i 0) (bias.read i 0) := by
    rw [hf, hb]
    exact leakRelation_initial
  constructor
  · apply BitVec.eq_of_toInt_eq
    rw [contest_freq_toInt c network freq bias w hw i hi hr, hf]
    split_ifs <;> decide
  · rw [contest_bias_toInt c network freq bias w hw i hi hr, hf, hb]
    split_ifs <;> decide

/-- Settles O33: the run is one sample, the median wins its contest both ways, and the moves and counts are those of
that sample. -/
theorem onePixelTraining : Obligations.OnePixelTraining := by
  intro s b g r hp hlen hn hcounts hb hg hr
  obtain ⟨j, hj, hnet, hfreq, hbias⟩ :=
    learnRun_onePixel s.nq s.src _ hlen (fetchSample_bytes s.src b g r hb hg hr)
  obtain ⟨hw, hv⟩ := contest_winners_grey s.nq.network s.nq.bias hn (fun i hi => (hcounts i hi).2) b g r
  refine ⟨_, median b.toNat g.toNat r.toNat, rfl, exec_nqLearn_of_ok s j hp hj, fun k hk m a x hm ha hx => ?_,
    fun i hi => ?_⟩
  · have hindex : x.index = 0 := by
      rw [hx]
      exact (learnRun_index s.nq s.src j hj k hk).trans (by rw [hn k hk])
    exact ⟨hindex, trainOn_grey s.nq _ _ hn (sampleOf_in b g r) hv k hk m hm a ha x (hx.trans (by rw [← hnet]; rfl))⟩
  · have hc := contest_counts_initial _ s.nq.network s.nq.freq s.nq.bias _ hw i hi (hcounts i hi).1 (hcounts i hi).2
    simp only [endCommand_nq_nq_freq, endCommand_nq_nq_bias, learnCommit_freq, learnCommit_bias, hfreq, hbias]
    exact hc

end Sys2Proof.Proofs

/-! The spec's loops (41_nq_learning.md R123 to R130, R135, R140, 43_nq_map.md R191): the contest, the moves, training and
the map search run as their pseudocode does (O36). -/

namespace Sys2Proof.Proofs

open Sys2Proof.Machine Sys2Proof.Safety Sys2Proof.Laws

/-! ### `writeAt` -/

theorem writeAt_read {α : Type} {n : Nat} (r : Ram α n) (pos : Int) (v d : α) (k : Nat) (hk : k < n) :
    (Pseudocode.writeAt r pos v).read k d = if (k : Int) = pos then v else r.read k d := by
  unfold Pseudocode.writeAt
  by_cases h0 : 0 ≤ pos
  · rw [if_pos h0]
    obtain ⟨p, rfl⟩ := Int.eq_ofNat_of_zero_le h0
    by_cases hp : k = p
    · rw [if_pos (by omega), ← hp]
      exact Ram.write_read_same r k v d hk
    · rw [if_neg (by omega)]
      exact Ram.write_read_other r p k v d hp
  · rw [if_neg h0, if_neg (by omega)]

/-! ### The contest (R135) -/

/-- The variables of R135 before round `n`: the minima so far, and the entries below `n` leaked. -/
def contestAt (c : Colour) (network : Ram Neuron 256) (freq bias : Ram Word 256) (n : Nat) :
    Pseudocode.ContestVars where
  bestd := (scanTo c network bias n).bestd
  bestbiasd := (scanTo c network bias n).bestbiasd
  bestpos := (scanTo c network bias n).bestpos
  bestbiaspos := (scanTo c network bias n).bestbiaspos
  freq := freq.mapIdx fun k f => if k < n then leakFreq f else f
  bias := (freq.zipWith Prod.mk bias).mapIdx fun k e => if k < n then leakBias e.1 e.2 else e.2

section
variable (c : Colour) (network : Ram Neuron 256) (freq bias : Ram Word 256)

theorem contestAt_freq_read (n k : Nat) (hk : k < 256) :
    (contestAt c network freq bias n).freq.read k 0 =
      if k < n then leakFreq (freq.read k 0) else freq.read k 0 :=
  Ram.mapIdx_read _ _ _ _ 0 hk

theorem contestAt_bias_read (n k : Nat) (hk : k < 256) :
    (contestAt c network freq bias n).bias.read k 0 =
      if k < n then leakBias (freq.read k 0) (bias.read k 0) else bias.read k 0 := by
  rw [contestAt, Ram.mapIdx_read _ _ _ _ (0, 0) hk, Ram.zipWith_read _ _ _ _ _ 0 0 hk]

theorem contestAt_bestpos (n : Nat) :
    (contestAt c network freq bias n).bestpos = (scanTo c network bias n).bestpos := rfl

theorem contestAt_bestbiaspos (n : Nat) :
    (contestAt c network freq bias n).bestbiaspos = (scanTo c network bias n).bestbiaspos := rfl

/-- A write at position `n` takes entries changed below `n` to entries changed below `n + 1`. -/
theorem write_extends (r r' : Ram Word 256) (n : Nat) (hn : n < 256) (old new : Nat → Word)
    (hr : ∀ k, k < 256 → r.read k 0 = if k < n then new k else old k)
    (hr' : ∀ k, k < 256 → r'.read k 0 = if k < n + 1 then new k else old k) : r.write n (new n) = r' := by
  apply Ram.ext_read _ _ 0
  intro k hk
  rw [hr' k hk]
  by_cases he : k = n
  · rw [he, Ram.write_read_same _ _ _ _ hn, if_pos (Nat.lt_succ_self n)]
  · rw [Ram.write_read_other _ _ _ _ _ he, hr k hk]
    congr 1
    exact propext (by omega)

theorem contestBody_contestAt (n : Nat) (hn : n < 256) :
    Pseudocode.contestBody c network n (contestAt c network freq bias n) =
      contestAt c network freq bias (n + 1) := by
  have hf := contestAt_freq_read c network freq bias n n hn
  have hb := contestAt_bias_read c network freq bias n n hn
  rw [if_neg (lt_irrefl n)] at hf hb
  have hfreq := write_extends _ _ n hn _ _ (contestAt_freq_read c network freq bias n)
    (contestAt_freq_read c network freq bias (n + 1))
  have hbias := write_extends _ _ n hn _ _ (contestAt_bias_read c network freq bias n)
    (contestAt_bias_read c network freq bias (n + 1))
  simp only [leakFreq, betafreq] at hfreq
  simp only [leakBias, betafreq] at hbias
  simp only [Pseudocode.contestBody, hf, hb, hfreq, hbias]
  simp only [contestAt, scanTo, ContestBest.consider, Nat.cast_lt, Nat.cast_ite, biasedAt, distAt,
    biasedDist]
  split_ifs <;> rfl

theorem contestFor_contestAt (count n : Nat) (hn : n + count ≤ 256) :
    Pseudocode.contestFor c network count n (contestAt c network freq bias n) =
      contestAt c network freq bias (n + count) := by
  induction count generalizing n with
  | zero => rfl
  | succ count ih =>
    rw [Pseudocode.contestFor, contestBody_contestAt c network freq bias n (by omega), ih (n + 1) (by omega),
      Nat.add_right_comm, Nat.add_assoc]

theorem contestAt_zero :
    contestAt c network freq bias 0 = ⟨0x7FFFFFFF, 0x7FFFFFFF, -1, -1, freq, bias⟩ := by
  have hf : (contestAt c network freq bias 0).freq = freq := Ram.ext_read _ _ 0 fun k hk =>
    contestAt_freq_read c network freq bias 0 k hk
  have hb : (contestAt c network freq bias 0).bias = bias := Ram.ext_read _ _ 0 fun k hk =>
    contestAt_bias_read c network freq bias 0 k hk
  calc contestAt c network freq bias 0
      = ⟨0x7FFFFFFF, 0x7FFFFFFF, -1, -1, (contestAt c network freq bias 0).freq,
          (contestAt c network freq bias 0).bias⟩ := rfl
    _ = _ := by rw [hf, hb]

/-- Adding to the entry at a position reads it and writes it back. -/
theorem addAt_eq_writeAt (pos v : Int) (r : Ram Word 256) :
    addAt pos v r = Pseudocode.writeAt r pos (toWord ((r.read pos.toNat 0).toInt + v)) := by
  apply Ram.ext_read _ _ 0
  intro k hk
  rw [addAt_read _ _ _ _ hk, writeAt_read _ _ _ _ _ hk]
  split_ifs with h
  · rw [← h, Int.toNat_natCast]
  · rfl

theorem contestAt_freq_all :
    (contestAt c network freq bias 256).freq = freq.mapIdx fun _ f => leakFreq f :=
  Ram.ext_read _ _ 0 fun k hk => by
    rw [contestAt_freq_read _ _ _ _ _ _ hk, if_pos hk, Ram.mapIdx_read _ _ _ _ 0 hk]

theorem contestAt_bias_all :
    (contestAt c network freq bias 256).bias = freq.zipWith leakBias bias :=
  Ram.ext_read _ _ 0 fun k hk => by
    rw [contestAt_bias_read _ _ _ _ _ _ hk, if_pos hk, Ram.zipWith_read _ _ _ _ _ 0 0 hk]

/-- Scanning before updating is the spec's one loop that does both: the scan reads each bias before its update (R135). -/
theorem contest_eq_loop : contest c network freq bias = Pseudocode.contest c network freq bias := by
  have hloop := contestFor_contestAt c network freq bias 256 0 le_rfl
  rw [contestAt_zero, Nat.zero_add] at hloop
  simp only [Pseudocode.contest, hloop, contestAt_freq_all, contestAt_bias_all, contestAt_bestpos,
    contestAt_bestbiaspos]
  simp only [Machine.contest, contestScan_eq_scanTo, addAt_eq_writeAt, sub_eq_add_neg]

end

/-- Whatever the distances, the winners are positions of the network, or there is none. -/
theorem scanTo_range (c : Colour) (network : Ram Neuron 256) (bias : Ram Word 256) (n : Nat) :
    -1 ≤ (scanTo c network bias n).bestbiaspos ∧ (scanTo c network bias n).bestbiaspos < n := by
  induction n with
  | zero => exact ⟨le_rfl, neg_one_lt_zero⟩
  | succ n ih =>
    simp only [scanTo, ContestBest.consider]
    split_ifs <;> omega

theorem contest_winner_range (c : Colour) (network : Ram Neuron 256) (freq bias : Ram Word 256) :
    -1 ≤ (contest c network freq bias).winner ∧ (contest c network freq bias).winner ≤ 255 := by
  have h := scanTo_range c network bias 256
  rw [contest_winner, contestScan_eq_scanTo]
  omega

/-! ### The moves (R137, R140) -/

theorem moveBy_read (f scale : Int) (c : Colour) (p : Int) (network : Ram Neuron 256) (k : Nat) (hk : k < 256) :
    (Pseudocode.moveBy f scale c p network).read k Neuron.zero =
      if (k : Int) = p then (network.read k Neuron.zero).moveToward f scale c else network.read k Neuron.zero := by
  rw [Pseudocode.moveBy, writeAt_read _ _ _ _ _ hk]
  split_ifs with h
  · rw [← h, Int.toNat_natCast]
  · rfl

theorem alterSingle_eq_spec (alpha : Nat) (j : Int) (c : Colour) (network : Ram Neuron 256) :
    alterSingle alpha j c network = Pseudocode.alterSingle alpha j c network :=
  Ram.ext_read _ _ Neuron.zero fun k hk => by
    rw [alterSingle_read _ _ _ _ _ hk, Pseudocode.alterSingle, moveBy_read _ _ _ _ _ _ hk]

/-- The moves of one round of R140: the neuron at each cursor that has not stopped. -/
def neighRound (a : Int) (c : Colour) (lo hi j k : Int) (network : Ram Neuron 256) : Ram Neuron 256 :=
  let up := if j < hi then Pseudocode.moveAt a c j network else network
  if k > lo then Pseudocode.moveAt a c k up else up

theorem alterNeighWhile_succ (c : Colour) (radpower : Ram Word 32) (lo hi : Int) (fuel : Nat) (j k : Int) (m : Nat)
    (network : Ram Neuron 256) :
    Pseudocode.alterNeighWhile c radpower lo hi (fuel + 1) j k m network =
      if j < hi ∨ k > lo then
        Pseudocode.alterNeighWhile c radpower lo hi fuel (if j < hi then j + 1 else j) (if k > lo then k - 1 else k)
          (m + 1) (neighRound (radpower.read m 0).toInt c lo hi j k network)
      else network := rfl

/-- One half of a round: the cursor's neuron moves, unless the cursor has stopped. -/
theorem moveAt_while_read (go : Prop) [Decidable go] (a : Int) (c : Colour) (pos : Int) (network : Ram Neuron 256)
    (p : Nat) (hp : p < 256) :
    (if go then Pseudocode.moveAt a c pos network else network).read p Neuron.zero =
      if go ∧ (p : Int) = pos then (network.read p Neuron.zero).moveToward a Config.alpharadbias c
      else network.read p Neuron.zero := by
  by_cases hgo : go
  · simp only [hgo, if_true, true_and, Pseudocode.moveAt, moveBy_read _ _ _ _ _ _ hp]
  · simp only [hgo, if_false, false_and]

/-- The two cursors are apart, so a round moves no neuron twice. -/
theorem neighRound_read (a : Int) (c : Colour) (lo hi j k : Int) (network : Ram Neuron 256) (hjk : j ≠ k) (p : Nat)
    (hp : p < 256) :
    (neighRound a c lo hi j k network).read p Neuron.zero =
      if (j < hi ∧ (p : Int) = j) ∨ (k > lo ∧ (p : Int) = k) then
        (network.read p Neuron.zero).moveToward a Config.alpharadbias c
      else network.read p Neuron.zero := by
  rw [neighRound, moveAt_while_read _ _ _ _ _ _ hp, moveAt_while_read _ _ _ _ _ _ hp]
  by_cases hdown : k > lo ∧ (p : Int) = k
  · have hup : ¬ (j < hi ∧ (p : Int) = j) := fun h => hjk (h.2.symm.trans hdown.2)
    rw [if_pos hdown, if_neg hup, if_pos (.inr hdown)]
  · rw [if_neg hdown]
    congr 1
    exact propext (or_iff_left hdown).symm

section
variable (i : Int) (c : Colour) (radpower : Ram Word 32) (lo hi : Int)

/-- The rounds of R140 from distance `m` on, with the cursors `j` and `k` at that distance from `i` until they stop: each
neuron they still pass moves once, by the taper at its distance. -/
theorem alterNeighWhile_read (fuel : Nat) (j k : Int) (m : Nat) (network : Ram Neuron 256) (hj : j < hi → j = i + m)
    (hk : k > lo → k = i - m) (hjk : k < j) (hfj : hi - j ≤ fuel) (hfk : k - lo ≤ fuel) (p : Nat) (hp : p < 256) :
    (Pseudocode.alterNeighWhile c radpower lo hi fuel j k m network).read p Neuron.zero =
      if (j ≤ p ∧ p < hi) ∨ (lo < p ∧ p ≤ k) then
        (network.read p Neuron.zero).moveToward (radpower.read ((p : Int) - i).natAbs 0).toInt Config.alpharadbias c
      else network.read p Neuron.zero := by
  induction fuel generalizing j k m network with
  | zero => rw [Pseudocode.alterNeighWhile, if_neg (by omega)]
  | succ fuel ih =>
    rw [alterNeighWhile_succ]
    by_cases hgo : j < hi ∨ k > lo
    · rw [if_pos hgo, ih _ _ _ _ (by split_ifs <;> omega) (by split_ifs <;> omega) (by split_ifs <;> omega)
        (by split_ifs <;> omega) (by split_ifs <;> omega), neighRound_read _ _ _ _ _ _ _ hjk.ne' _ hp]
      by_cases hnow : (j < hi ∧ (p : Int) = j) ∨ (k > lo ∧ (p : Int) = k)
      · have hdist : ((p : Int) - i).natAbs = m := by omega
        rw [if_pos hnow, if_neg (by split_ifs <;> omega), if_pos (by omega), hdist]
      · rw [if_neg hnow]
        congr 1
        refine propext ?_
        split_ifs <;> omega
    · rw [if_neg hgo, if_neg (by omega)]

end

/-- Moving each neuron by its distance is the spec's walk of two cursors (R140). -/
theorem alterNeigh_eq_spec (rad : Nat) (i : Int) (c : Colour) (radpower : Ram Word 32) (network : Ram Neuron 256)
    (hlo : -1 ≤ i) (hhi : i ≤ 255) :
    alterNeigh rad i c radpower network = Pseudocode.alterNeigh rad i c radpower network := by
  apply Ram.ext_read _ _ Neuron.zero
  intro p hp
  rw [alterNeigh_read _ _ _ _ _ _ hp, Pseudocode.alterNeigh, alterNeighWhile_read i c radpower _ _ _ (i + 1) (i - 1) 1
    network (fun _ => rfl) (fun _ => rfl) (by omega) (by simp only [Config.netsize]; split_ifs <;> omega)
    (by simp only [Config.netsize]; split_ifs <;> omega) p hp]
  congr 1
  refine propext ?_
  split_ifs <;> omega

/-! ### The map search (43_nq_map.md R191) -/

/-- The neurons the upward side has still to visit, from its cursor on. -/
def upLeft (network : Ram Neuron 256) (i : Int) : List Neuron := network.cells.drop i.toNat

/-- The neurons the downward side has still to visit, from its cursor down. -/
def downLeft (network : Ram Neuron 256) (j : Int) : List Neuron := (network.cells.take (j + 1).toNat).reverse

/-- The best candidate among the variables of R191. -/
def bestOf (v : Pseudocode.MapVars) : MapBest := ⟨v.bestd, v.best⟩

theorem bestOf_bestd (v : Pseudocode.MapVars) : (bestOf v).bestd = v.bestd := rfl

theorem upLeft_length (network : Ram Neuron 256) (i : Int) : (upLeft network i).length = 256 - i.toNat := by
  rw [upLeft, List.length_drop, network.size_eq]

theorem downLeft_length (network : Ram Neuron 256) (j : Int) (hj : j ≤ 255) :
    (downLeft network j).length = (j + 1).toNat := by
  rw [downLeft, List.length_reverse, List.length_take, network.size_eq]
  omega

theorem upLeft_stopped (network : Ram Neuron 256) (i : Int) (hi : 256 ≤ i) : upLeft network i = [] :=
  List.drop_of_length_le (by rw [network.size_eq]; omega)

theorem downLeft_stopped (network : Ram Neuron 256) (j : Int) (hj : j < 0) : downLeft network j = [] := by
  have h0 : (j + 1).toNat = 0 := by omega
  rw [downLeft, h0]
  rfl

theorem upLeft_cons (network : Ram Neuron 256) (n : Nat) (hn : n < 256) :
    upLeft network n = network.read n Neuron.zero :: upLeft network (n + 1) :=
  Ram.drop_cells network n Neuron.zero hn

theorem downLeft_cons (network : Ram Neuron 256) (n : Nat) (hn : n < 256) :
    downLeft network n = network.read n Neuron.zero :: downLeft network (n - 1) := by
  have h₁ : ((n : Int) + 1).toNat = n + 1 := by omega
  have h₂ : ((n : Int) - 1 + 1).toNat = n := by omega
  rw [downLeft, downLeft, h₁, h₂, List.take_add_one, Ram.read_getElem? network n Neuron.zero hn]
  simp

/-- A candidate of R191, whichever side its green distance was taken on. -/
theorem candidate_eq (network : Ram Neuron 256) (c : Colour) (n : Nat) (v : Pseudocode.MapVars) (d : Int)
    (hd : d.natAbs = ((network.read n Neuron.zero).g.toInt - c.g).natAbs) :
    bestOf (Pseudocode.candidate network c n v d) = (bestOf v).consider c (network.read n Neuron.zero) ∧
      (Pseudocode.candidate network c n v d).i = v.i ∧ (Pseudocode.candidate network c n v d).j = v.j := by
  simp only [Pseudocode.candidate, MapBest.consider, hd, bestOf, Nat.cast_add]
  split_ifs <;> exact ⟨rfl, rfl, rfl⟩

section
variable (network : Ram Neuron 256) (c : Colour) (v : Pseudocode.MapVars)

/-- The upward half of a round is one look on the upward side. -/
theorem upward_eq (hi : 0 ≤ v.i) :
    mapSide c (fun x => x.g.toInt - c.g) (upLeft network v.i) (bestOf v) =
        (upLeft network (Pseudocode.upward network c v).i, bestOf (Pseudocode.upward network c v)) ∧
      0 ≤ (Pseudocode.upward network c v).i ∧ (Pseudocode.upward network c v).j = v.j := by
  unfold Pseudocode.upward
  by_cases hgo : v.i < 256
  · obtain ⟨n, hn⟩ := Int.eq_ofNat_of_zero_le hi
    have hn256 : n < 256 := by omega
    rw [if_pos hgo, hn, Int.toNat_natCast, upLeft_cons network n hn256, mapSide_cons, bestOf_bestd]
    by_cases hstop : (network.read n Neuron.zero).g.toInt - c.g ≥ v.bestd
    · rw [if_pos hstop, if_pos hstop]
      exact ⟨by rw [upLeft_stopped network 256 le_rfl]; rfl, by norm_num, rfl⟩
    · obtain ⟨hbest, hci, hcj⟩ := candidate_eq network c n { v with i := (n : Int) + 1 } _ rfl
      rw [if_neg hstop, if_neg hstop, hbest, hci, hcj]
      exact ⟨rfl, by dsimp only; omega, rfl⟩
  · rw [if_neg hgo, upLeft_stopped network v.i (by omega)]
    exact ⟨rfl, hi, rfl⟩

/-- The downward half of a round is one look on the downward side. -/
theorem downward_eq (hlo : -1 ≤ v.j) (hhi : v.j ≤ 255) :
    mapSide c (fun x => c.g - x.g.toInt) (downLeft network v.j) (bestOf v) =
        (downLeft network (Pseudocode.downward network c v).j, bestOf (Pseudocode.downward network c v)) ∧
      (-1 ≤ (Pseudocode.downward network c v).j ∧ (Pseudocode.downward network c v).j ≤ 255) ∧
      (Pseudocode.downward network c v).i = v.i := by
  unfold Pseudocode.downward
  by_cases hgo : v.j ≥ 0
  · obtain ⟨n, hn⟩ := Int.eq_ofNat_of_zero_le hgo
    have hn256 : n < 256 := by omega
    rw [if_pos hgo, hn, Int.toNat_natCast, downLeft_cons network n hn256, mapSide_cons, bestOf_bestd]
    by_cases hstop : c.g - (network.read n Neuron.zero).g.toInt ≥ v.bestd
    · rw [if_pos hstop, if_pos hstop]
      exact ⟨by rw [downLeft_stopped network (-1) (by norm_num)]; rfl, by norm_num, rfl⟩
    · obtain ⟨hbest, hci, hcj⟩ := candidate_eq network c n { v with j := (n : Int) - 1 }
        (c.g - (network.read n Neuron.zero).g.toInt) (by omega)
      rw [if_neg hstop, if_neg hstop, hbest, hci, hcj]
      exact ⟨rfl, by dsimp only; omega, rfl⟩
  · rw [if_neg hgo, downLeft_stopped network v.j (by omega)]
    exact ⟨rfl, ⟨hlo, hhi⟩, rfl⟩

end

theorem mapSide_length (c : Colour) (diff : Neuron → Int) (left left' : List Neuron) (m m' : MapBest)
    (h : mapSide c diff left m = (left', m')) : left'.length ≤ left.length - 1 := by
  cases left with
  | nil =>
    cases h
    exact le_rfl
  | cons x rest =>
    rw [mapSide_cons] at h
    split_ifs at h <;> cases h
    · exact Nat.zero_le _
    · exact le_rfl

theorem mapLoop_succ (c : Colour) (n : Nat) (up down up' down' : List Neuron) (m m' m'' : MapBest)
    (hup : mapSide c (fun x => x.g.toInt - c.g) up m = (up', m'))
    (hdown : mapSide c (fun x => c.g - x.g.toInt) down m' = (down', m'')) :
    mapLoop c (n + 1) up down m = mapLoop c n up' down' m'' := by
  rw [mapLoop, hup, hdown]

theorem mapLoop_nil (c : Colour) (n : Nat) (m : MapBest) : mapLoop c n [] [] m = m := by
  induction n with
  | zero => rfl
  | succ n ih => exact ih

/-- Once both cursors have stopped, the lists' loop changes nothing more. -/
theorem mapLoop_stopped (network : Ram Neuron 256) (c : Colour) (n : Nat) (v : Pseudocode.MapVars)
    (h : ¬ (v.i < 256 ∨ v.j ≥ 0)) : mapLoop c n (upLeft network v.i) (downLeft network v.j) (bestOf v) = bestOf v := by
  rw [upLeft_stopped network v.i (by omega), downLeft_stopped network v.j (by omega), mapLoop_nil]

/-- The cursors' loop and the lists' loop agree as long as each has rounds enough to empty both sides. -/
theorem mapWhile_eq_mapLoop (network : Ram Neuron 256) (c : Colour) (fuel n : Nat) (v : Pseudocode.MapVars)
    (hi : 0 ≤ v.i) (hlo : -1 ≤ v.j) (hhi : v.j ≤ 255)
    (hu : (upLeft network v.i).length ≤ n ∧ (upLeft network v.i).length ≤ fuel)
    (hd : (downLeft network v.j).length ≤ n ∧ (downLeft network v.j).length ≤ fuel) :
    bestOf (Pseudocode.mapWhile network c fuel v) =
      mapLoop c n (upLeft network v.i) (downLeft network v.j) (bestOf v) := by
  induction fuel generalizing n v with
  | zero =>
    rw [upLeft_length] at hu
    rw [downLeft_length network v.j hhi] at hd
    exact (mapLoop_stopped network c n v (by omega)).symm
  | succ fuel ih =>
    rw [Pseudocode.mapWhile]
    by_cases hgo : v.i < 256 ∨ v.j ≥ 0
    · have hul := upLeft_length network v.i
      have hdl := downLeft_length network v.j hhi
      obtain ⟨n, rfl⟩ : ∃ n', n = n' + 1 := ⟨n - 1, by omega⟩
      obtain ⟨hup, hi', hj'⟩ := upward_eq network c v hi
      obtain ⟨hdown, ⟨hlo', hhi'⟩, hi''⟩ :=
        downward_eq network c (Pseudocode.upward network c v) (by omega) (by omega)
      rw [← hi''] at hup
      rw [hj'] at hdown
      have hshortU := mapSide_length c _ _ _ _ _ hup
      have hshortD := mapSide_length c _ _ _ _ _ hdown
      rw [if_pos hgo, mapLoop_succ c n _ _ _ _ _ _ _ hup hdown]
      exact ih n _ (by omega) hlo' hhi' (by omega) (by omega)
    · rw [if_neg hgo, mapLoop_stopped network c n v hgo]

/-- Walking two lists is the spec's walk of two cursors (R191). -/
theorem mapColour_eq_spec (network : Ram Neuron 256) (netindex : Ram Byte 256) (c : Colour) :
    mapColour network netindex c = Pseudocode.mapColour network netindex c := by
  have hlt := (netindex.read c.g.toNat 0).isLt
  have h := mapWhile_eq_mapLoop network c (2 * Config.netsize) Config.netsize
    ⟨Config.mapInitDist, -1, (netindex.read c.g.toNat 0).toNat, (netindex.read c.g.toNat 0).toNat - 1⟩
    (by dsimp only; omega) (by dsimp only; omega) (by dsimp only; omega)
    (by rw [upLeft_length]; simp only [Config.netsize]; omega)
    (by rw [downLeft_length _ _ (by dsimp only; omega)]; simp only [Config.netsize]; omega)
  have hdown : downLeft network ((netindex.read c.g.toNat 0).toNat - 1) =
      (network.cells.take (netindex.read c.g.toNat 0).toNat).reverse := by
    rw [downLeft, Int.sub_add_cancel, Int.toNat_natCast]
  simp only [hdown, upLeft, Int.toNat_natCast, bestOf] at h
  simp only [Machine.mapColour, Pseudocode.mapColour, ← h]

/-! ### Training (R123 to R130) -/

theorem tquot_natCast (a b : Nat) : tquot a b = (a / b : Nat) := (Int.ofNat_tdiv a b).symm

theorem radOf_natCast (radius : Nat) : Pseudocode.radOf radius = (radOf radius : Nat) := by
  simp only [Pseudocode.radOf, radOf, asr, Config.radiusbiasshift, Nat.cast_ite]
  split_ifs <;> omega

/-- The rounds of R126 from entry `k` on write the taper, entry by entry. -/
theorem setRadpowerFor_read (rad alpha count k : Nat) (radpower : Ram Word 32) (m : Nat) (hm : m < 32) :
    (Pseudocode.setRadpowerFor rad alpha count k radpower).read m 0 =
      if k ≤ m ∧ m < k + count then radpowerEntry rad alpha m else radpower.read m 0 := by
  induction count generalizing k radpower with
  | zero => rw [Pseudocode.setRadpowerFor, if_neg (by omega)]
  | succ count ih =>
    rw [Pseudocode.setRadpowerFor, ih]
    by_cases hmk : m = k
    · rw [hmk, if_neg (by omega), if_pos (by omega), Ram.write_read_same _ _ _ _ (by omega)]
      rfl
    · rw [Ram.write_read_other _ _ _ _ _ hmk]
      congr 1
      exact propext (by omega)

theorem setRadpower_eq_spec (rad alpha : Nat) (radpower : Ram Word 32) :
    Pseudocode.setRadpower rad alpha radpower = setRadpower rad alpha radpower := by
  apply Ram.ext_read _ _ 0
  intro m hm
  rw [Pseudocode.setRadpower, Int.toNat_natCast, setRadpowerFor_read _ _ _ _ _ _ hm, setRadpower_read _ _ _ _ hm]
  simp

/-- The variables of R124 to R130 that the registers of a job stand for. -/
def learnVarsOf (j : LearnJob) : Pseudocode.LearnVars where
  alpha := j.alpha
  radius := j.radius
  rad := j.rad
  delta := j.delta
  pix := j.pix
  i := j.i
  network := j.network
  freq := j.freq
  bias := j.bias
  radpower := j.radpower

/-- `x - x / d` on exact integers (R130). -/
theorem decay_natCast (x d : Nat) : (x : Int) - tquot x d = (x - x / d : Nat) := by
  rw [tquot_natCast, Nat.cast_sub (Nat.div_le_self x d)]

/-- A decay is due after the same samples (R130). -/
theorem decay_due (j : LearnJob) :
    (if (learnVarsOf j).delta = 0 then 1 else (learnVarsOf j).delta) = ((if j.delta = 0 then 1 else j.delta : Nat) : Int) ∧
      ((learnVarsOf j).i.tmod ((if j.delta = 0 then 1 else j.delta : Nat) : Int) = 0 ↔
        j.i % (if j.delta = 0 then 1 else j.delta) = 0) := by
  constructor
  · show (if (j.delta : Int) = 0 then (1 : Int) else j.delta) = _
    split_ifs <;> omega
  · show (j.i : Int).tmod _ = 0 ↔ _
    rw [← Int.ofNat_tmod, Int.natCast_eq_zero]

theorem cycleDecay_eq_spec (alphadec : Nat) (j : LearnJob) :
    Pseudocode.cycleDecay alphadec (learnVarsOf j) = learnVarsOf (cycleDecay alphadec j) := by
  obtain ⟨hdelta, hdue⟩ := decay_due j
  rw [Pseudocode.cycleDecay, cycleDecay, hdelta]
  by_cases hd : j.i % (if j.delta = 0 then 1 else j.delta) = 0
  · simp only [if_pos hd, if_pos (hdue.mpr hd)]
    have halpha : (learnVarsOf j).alpha - tquot (learnVarsOf j).alpha alphadec =
        (j.alpha - j.alpha / alphadec : Nat) := decay_natCast _ _
    have hradius : (learnVarsOf j).radius - tquot (learnVarsOf j).radius Config.radiusdec =
        (j.radius - j.radius / Config.radiusdec : Nat) := decay_natCast _ _
    rw [halpha, hradius, radOf_natCast, setRadpower_eq_spec]
    rfl
  · simp only [if_neg hd, if_neg (mt hdue.mp hd)]
    rfl

theorem cycleDecay_i (alphadec : Nat) (j : LearnJob) : (cycleDecay alphadec j).i = j.i := by
  unfold cycleDecay
  by_cases hd : j.i % (if j.delta = 0 then 1 else j.delta) = 0
  · simp only [if_pos hd]
  · simp only [if_neg hd]

theorem nextPix_natCast (step len pix : Nat) :
    (if (pix : Int) + step ≥ len then (pix : Int) + step - len else (pix : Int) + step) =
      (nextPix step len pix : Nat) := by
  unfold nextPix
  split_ifs <;> omega

theorem sampleBody_eq_spec (c : Colour) (step len alphadec : Nat) (j : LearnJob) :
    Pseudocode.sampleBody c step len alphadec (learnVarsOf j) =
      learnVarsOf (cycleDecay alphadec
        { trainOn c j with pix := nextPix step len (trainOn c j).pix, i := (trainOn c j).i + 1 }) := by
  obtain ⟨hlo, hhi⟩ := contest_winner_range c j.network j.freq j.bias
  have hcontest : Pseudocode.contest c (learnVarsOf j).network (learnVarsOf j).freq (learnVarsOf j).bias =
      contest c j.network j.freq j.bias := (contest_eq_loop c j.network j.freq j.bias).symm
  have hpix : (if (learnVarsOf j).pix + step ≥ len then (learnVarsOf j).pix + step - len
      else (learnVarsOf j).pix + step) = (nextPix step len j.pix : Nat) := nextPix_natCast step len j.pix
  have hrad : (learnVarsOf j).rad ≠ 0 ↔ j.rad ≠ 0 := not_congr Int.natCast_eq_zero
  have hsingle : Pseudocode.alterSingle (learnVarsOf j).alpha (contest c j.network j.freq j.bias).winner c
      (learnVarsOf j).network = alterSingle j.alpha (contest c j.network j.freq j.bias).winner c j.network :=
    (alterSingle_eq_spec _ _ _ _).symm
  rw [← cycleDecay_eq_spec, Pseudocode.sampleBody]
  simp only [hcontest, hpix, hsingle]
  by_cases h0 : j.rad ≠ 0
  · have hneigh : ∀ single, Pseudocode.alterNeigh (learnVarsOf j).rad.toNat
        (contest c j.network j.freq j.bias).winner c (learnVarsOf j).radpower single =
        alterNeigh j.rad (contest c j.network j.freq j.bias).winner c j.radpower single := fun single =>
      (alterNeigh_eq_spec _ _ _ _ _ hlo hhi).symm
    simp only [if_pos (hrad.mpr h0), hneigh, trainOn, if_pos h0]
    rfl
  · simp only [if_neg (mt hrad.mp h0), trainOn, if_neg h0]
    rfl

/-- The rounds of R128's loop while samples are left. -/
theorem sampleWhile_eq_spec (src : Buffer) (step len alphadec samples n : Nat) (j : LearnJob) (hn : j.i + n = samples) :
    Pseudocode.sampleWhile src samples step len alphadec n (learnVarsOf j) =
      (learnLoop src step len alphadec n j).map learnVarsOf := by
  induction n generalizing j with
  | zero => rfl
  | succ n ih =>
    have hleft : (learnVarsOf j).i < (samples : Int) := by
      show (j.i : Int) < samples
      omega
    have hpix : (learnVarsOf j).pix.toNat = j.pix := Int.toNat_natCast _
    rw [Pseudocode.sampleWhile, if_pos hleft, hpix, learnLoop]
    cases hc : fetchSample src j.pix with
    | error f => rfl
    | ok c =>
      simp only
      rw [sampleBody_eq_spec]
      exact ih _ (by rw [cycleDecay_i]; show j.i + 1 + n = samples; omega)

theorem trainFactor_eq_spec (q : NqState) :
    (if (q.lengthcount.toNat : Int) < Config.minpicturebytes then (1 : BitVec 5) else q.samplefac) =
      trainFactor q.lengthcount.toNat q.samplefac := by
  simp only [trainFactor, Nat.cast_lt]

theorem alphadecOf_eq_spec (sf : Nat) : 30 + tquot ((sf : Int) - 1) 3 = (alphadecOf sf : Nat) := by
  rw [alphadecOf]
  cases sf with
  | zero => rfl
  | succ n =>
    have hn : ((n + 1 : Nat) : Int) - 1 = n := by omega
    rw [hn, tquot, Int.tdiv_eq_ediv_of_nonneg (Int.natCast_nonneg n)]
    omega

/-- The registers at the first sample (R124, R125). -/
theorem learnStart_eq_spec (q : NqState) (n : Nat) :
    ({ alpha := Config.initalpha, radius := Config.initradius, rad := Pseudocode.radOf Config.initradius
       delta := tquot n Config.ncycles, pix := 0, i := 0, network := q.network, freq := q.freq, bias := q.bias
       radpower := Pseudocode.setRadpower (Pseudocode.radOf Config.initradius) Config.initalpha q.radpower } :
      Pseudocode.LearnVars) = learnVarsOf (learnStart q n) := by
  rw [radOf_natCast, setRadpower_eq_spec, tquot_natCast]
  rfl

/-- Training is the spec's set-up, its loop and its write-back (R123 to R130). -/
theorem learn_eq_spec (q : NqState) (src : Buffer) : learn q src = Pseudocode.learn q src := by
  have hsamples : ∀ sf : Nat, tquot q.lengthcount.toNat (3 * sf) = (samplePixels q.lengthcount.toNat sf : Nat) :=
    fun sf => tquot_natCast q.lengthcount.toNat (3 * sf)
  have hloop : ∀ (step alphadec n : Nat),
      Pseudocode.sampleWhile src n step q.lengthcount.toNat alphadec n (learnVarsOf (learnStart q n)) =
        (learnLoop src step q.lengthcount.toNat alphadec n (learnStart q n)).map learnVarsOf :=
    fun step alphadec n => sampleWhile_eq_spec src step _ alphadec n n _ (Nat.zero_add n)
  simp only [Pseudocode.learn, trainFactor_eq_spec, alphadecOf_eq_spec, hsamples, Int.toNat_natCast,
    learnStart_eq_spec, hloop, learn, learnRun]
  cases learnLoop src (selectStep q.lengthcount.toNat) q.lengthcount.toNat
    (alphadecOf (trainFactor q.lengthcount.toNat q.samplefac).toNat)
    (samplePixels q.lengthcount.toNat (trainFactor q.lengthcount.toNat q.samplefac).toNat) (learnStart q _) <;> rfl

/-- Settles O36: each form of the model is the loop of the pseudocode. -/
theorem meaningsAreTheSpecLoops : Obligations.MeaningsAreTheSpecLoops :=
  ⟨contest_eq_loop, alterNeigh_eq_spec, mapColour_eq_spec, learn_eq_spec⟩

end Sys2Proof.Proofs

/-! The commands of 42_nq_palette.md: what each leaves (O40, O41, O44), that `NQ.PROCESS` is the four in turn (O45), the
content of `netindex` (O42), what every step keeps of index and palette (O18), and what the index `NQ.MAP` returns names in
the palette (O48). -/

namespace Sys2Proof.Proofs

open Sys2Proof.Machine Sys2Proof.Safety Sys2Proof.Laws

/-! ### The state each command leaves (R160, R161, R165, R168, 43_nq_map.md R190) -/

section
variable (s : State)

theorem exec_nqLearn_completes (j : LearnJob) (hp : s.nq.phase = .constructed) (hj : learnRun s.nq s.src = .ok j) :
    exec .nqLearn s =
      .next { s with nq := { learnCommit s.nq j with phase := .learned, err := .noError, busy := false } } := by
  rw [exec_nqLearn_of_ok s j hp hj, endCommand_nq_ok]

theorem exec_nqUnbias_completes (hp : s.nq.phase = .learned) :
    exec .nqUnbias s =
      .next { s with nq := { unbias s.nq with phase := .unbiased, err := .noError, busy := false } } := by
  obtain ⟨hne, _⟩ | ⟨_, hex⟩ := execNqUnbias_cases s
  · exact absurd hp hne
  · rw [exec, hex, endCommand_nq_ok]

theorem exec_nqInxbuild_completes (hp : s.nq.phase = .unbiased) :
    exec .nqInxbuild s =
      .next { s with nq := { inxBuild s.nq with phase := .indexed, err := .noError, busy := false } } := by
  obtain ⟨hne, _⟩ | ⟨_, hex⟩ := execNqInxbuild_cases s
  · exact absurd hp hne
  · rw [exec, hex, endCommand_nq_ok]

theorem exec_nqColormap_completes (hp : Indexed s.nq) :
    exec .nqColormap s =
      .next { s with nq := { colorMap s.paletteOrder s.nq with phase := .palette, err := .noError, busy := false } } := by
  obtain ⟨hne, _⟩ | ⟨_, hex⟩ := execNqColormap_cases s
  · exact absurd hp hne
  · rw [exec, hex, endCommand_nq_ok]

theorem exec_nqProcess_completes (j : LearnJob) (hp : s.nq.phase = .constructed) (hj : learnRun s.nq s.src = .ok j) :
    exec .nqProcess s =
      .next { s with nq := { processed s.paletteOrder s.nq j with err := .noError, busy := false } } := by
  obtain ⟨hne, _⟩ | ⟨_, f, hf, _⟩ | ⟨_, j', hj', hex⟩ := execNqProcess_cases s
  · exact absurd hp hne
  · rw [hj] at hf
    cases hf
  · rw [hj] at hj'
    cases hj'
    rw [exec, hex, endCommand_nq_ok]

theorem exec_nqMap_completes (b g r : Nat) (hp : Indexed s.nq) :
    exec (.nqMap b g r) s =
      .next { s with nq := { s.nq with
        mapres := BitVec.ofInt 8 (mapColour s.nq.network s.nq.netindex (Colour.ofOperands b g r))
        err := .noError, busy := false } } := by
  obtain ⟨hne, _⟩ | ⟨_, hex⟩ := execNqMap_cases b g r s
  · exact absurd hp hne
  · rw [exec, hex, endCommand_nq_ok]

end

/-! ### NQ.UNBIAS (R160) -/

/-- One neuron out of fixed point, lane by lane. -/
theorem neuron_unbias_values (i : Nat) (x : Neuron) (hi : i < 256) :
    (x.unbias i).b.toInt = x.b.toInt / 16 ∧ (x.unbias i).g.toInt = x.g.toInt / 16 ∧
      (x.unbias i).r.toInt = x.r.toInt / 16 ∧ (x.unbias i).index.toNat = i := by
  refine ⟨asr_word x.b, asr_word x.g, asr_word x.r, ?_⟩
  change (BitVec.ofInt 32 (i : Int)).toNat = i
  rw [BitVec.ofInt_natCast, BitVec.toNat_ofNat, Nat.mod_eq_of_lt (by omega)]

/-- Settles O40: the command writes `network` alone, each entry out of fixed point with its position. -/
theorem nqUnbiasTakesOutOfFixedPoint : Obligations.NqUnbiasTakesOutOfFixedPoint := by
  intro s hp
  refine ⟨_, exec_nqUnbias_completes s hp, rfl, fun i hi => ?_⟩
  dsimp only
  rw [unbias_read s.nq i hi]
  exact neuron_unbias_values i _ hi

/-! ### NQ.INXBUILD (R161 to R164) -/

/-- Settles O41: the selection sort rearranges whole neurons and leaves them sorted by green. -/
theorem nqInxbuildSortsByGreen : Obligations.NqInxbuildSortsByGreen := by
  intro s hp
  exact ⟨_, exec_nqInxbuild_completes s hp, rfl, sortNetwork_perm s.nq.network, sortNetwork_sorted s.nq.network⟩

/-- `netindex` after `InxBuild` in closed form, by the greens of the network before the sort (R164). -/
theorem inxBuild_netindex_read (q : NqState) (hl : ∀ x ∈ q.network.cells, LanesIn 255 x) (v : Nat) (hv : v < 256) :
    ((inxBuild q).netindex.read v 0).toNat =
      (greensBelow q.network v + min (greensBelow q.network (v + 1)) 255) / 2 := by
  have hperm := sortNetwork_perm q.network
  have hgreens : ∀ x ∈ (sortNetwork q.network).cells, 0 ≤ x.g.toInt ∧ x.g.toInt ≤ 255 :=
    fun x hx => (hl x (hperm.mem_iff.mp hx)).2.1
  rw [inxBuild_netindex, buildIndex_read _ _ (sortNetwork_sorted _) hgreens v hv, indexEntry,
    countBelow_perm _ _ hperm, countBelow_perm _ _ hperm, greensBelow_eq, greensBelow_eq]

theorem greensBelow_le (network : Ram Neuron 256) (v : Int) : greensBelow network v ≤ 256 :=
  (countBelow_le network.cells v).trans_eq network.size_eq

/-- As many greens lie below a green that does not occur as below the next. -/
theorem greensBelow_absent (network : Ram Neuron 256) (v : Int) (h : ∀ x ∈ network.cells, x.g.toInt ≠ v) :
    greensBelow network (v + 1) = greensBelow network v := by
  unfold greensBelow
  congr 1
  refine List.filter_congr fun x hx => decide_eq_decide.mpr ?_
  have := h x hx
  omega

/-- Settles O42: both clauses are the closed form, which for an absent green has its two counts equal; and a greater
green has no fewer greens below it. -/
theorem netindexContent : Obligations.NetindexContent := by
  intro q hl
  refine ⟨fun v hv => ⟨fun _ => inxBuild_netindex_read q hl v hv, fun habsent => ?_⟩, fun v w hvw hw => ?_⟩
  · have hle := greensBelow_le q.network v
    rw [inxBuild_netindex_read q hl v hv, greensBelow_absent q.network v habsent]
    omega
  · have hlow : greensBelow q.network v ≤ greensBelow q.network w := countBelow_mono _ _ _ (by omega)
    have hhigh : greensBelow q.network (v + 1) ≤ greensBelow q.network (w + 1) := countBelow_mono _ _ _ (by omega)
    rw [inxBuild_netindex_read q hl v (by omega), inxBuild_netindex_read q hl w hw]
    omega

/-! ### NQ.COLORMAP and NQ.PROCESS (R165 to R168) -/

/-- Settles O44: lane 3 is a permutation, so that each neuron has a palette entry of its own and no entry is left over. -/
theorem nqColormapWritesPalette : Obligations.NqColormapWritesPalette := by
  intro s hp hshape
  obtain ⟨hl, hperm, _⟩ := sorted_of_indexed hshape hp
  exact ⟨_, exec_nqColormap_completes s hp, rfl, colorMap_current s.paletteOrder s.nq hl hperm,
    index_surjective s.nq.network hperm⟩

/-- Settles O45: the four commands each find the phase they ask for, and leave what the one command composes. -/
theorem processIsTheFourSteps : Obligations.ProcessIsTheFourSteps := by
  intro s hp hacc hsrc
  obtain ⟨⟨h0, h3, _⟩, _⟩ := hacc (by simp [hp])
  obtain ⟨j, hj⟩ := learnRun_completes s.nq s.src h3 h0 hsrc
  exact ⟨_, _, _, _, exec_nqLearn_completes s j hp hj, exec_nqUnbias_completes _ rfl, exec_nqInxbuild_completes _ rfl,
    exec_nqColormap_completes _ (.inl rfl), exec_nqProcess_completes s j hp hj, rfl, rfl⟩

/-! ### What every step keeps of index and palette (R164, R167, 43_nq_map.md R192) -/

/-- What the four steps of `NQ.PROCESS` make of a biased network before its palette is written. -/
theorem learned_unbiased (q : NqState) (src : Buffer) (j : LearnJob) (h : BiasedNetwork q.network)
    (hj : learnRun q src = .ok j) : UnbiasedNetwork (unbias (learnCommit q j)).network := by
  have hl : BiasedNetwork (learnCommit q j).network := learnRun_lanes q src j h hj
  exact unbias_of_biased _ hl

theorem indexSplits_of_not_indexed (q : NqState) (h : ¬ Indexed q) : IndexSplits q := fun hp => absurd hp h

theorem nqEffect_keeps_indexSplits (s : State) (q : NqState) (hshape : NetworkShape s.nq) (h : IndexSplits s.nq)
    (he : NqEffect s q) : IndexSplits q := by
  cases he with
  | error c hc => exact h
  | init sf hlen hsf => exact indexSplits_of_not_indexed _ (by simp [Indexed])
  | learn j hp hj => exact indexSplits_of_not_indexed _ (by simp [Indexed])
  | unbias hp => exact indexSplits_of_not_indexed _ (by simp [Indexed])
  | inxbuild hp => exact fun _ => inxBuild_splits s.nq (unbiased_of_unbiased hshape hp).1
  | colormap hp => exact fun _ => h hp
  | process j hp hj =>
    exact fun _ => inxBuild_splits (unbias (learnCommit s.nq j))
      (learned_unbiased s.nq s.src j (biased_of_fixedPoint hshape (.inl hp)) hj).1
  | map b g r hp => exact h
  | mapbuf idx hp hidx => exact h

theorem indexSplits_invariant : NqInvariant fun q => NetworkShape q ∧ IndexSplits q where
  reset := ⟨trivial, indexSplits_of_not_indexed _ (by simp [Indexed, NqState.reset])⟩
  len := fun _ _ h => h
  sticky := fun _ h => h
  command := fun s q h he =>
    ⟨networkShape_invariant.command s q h.1 he, nqEffect_keeps_indexSplits s q h.1 h.2 he⟩

/-- `PaletteCurrent` of the engine, for a byte order. -/
def PaletteCurrentIn (o : PaletteOrder) (q : NqState) : Prop :=
  q.phase = .palette → ∀ x ∈ q.network.cells, PaletteShows o q.pal x.index.toNat x

theorem paletteCurrent_iff (s : State) : PaletteCurrent s ↔ PaletteCurrentIn s.paletteOrder s.nq := Iff.rfl

theorem nqEffect_keeps_palette (s : State) (q : NqState) (hshape : NetworkShape s.nq)
    (h : PaletteCurrentIn s.paletteOrder s.nq) (he : NqEffect s q) : PaletteCurrentIn s.paletteOrder q := by
  cases he with
  | error c hc => exact h
  | init sf hlen hsf => exact fun hp => by cases hp
  | learn j hp hj => exact fun hp => by cases hp
  | unbias hp => exact fun hp => by cases hp
  | inxbuild hp => exact fun hp => by cases hp
  | colormap hp =>
    obtain ⟨hl, hperm, _⟩ := sorted_of_indexed hshape hp
    exact fun _ => colorMap_current s.paletteOrder s.nq hl hperm
  | process j hp hj =>
    obtain ⟨hl, hperm, _⟩ :=
      inxBuild_of_unbiased _ (learned_unbiased s.nq s.src j (biased_of_fixedPoint hshape (.inl hp)) hj)
    exact fun _ => colorMap_current s.paletteOrder (inxBuild (unbias (learnCommit s.nq j))) hl hperm
  | map b g r hp => exact h
  | mapbuf idx hp hidx => exact h

theorem step_keeps_paletteOrder (s t : State) (h : step s = .next t) : t.paletteOrder = s.paletteOrder := by
  obtain ⟨_, rfl⟩ | ⟨a, rest, _, ha⟩ := step_cases s t h
  · rfl
  · exact (action_keeps_host _ t a ha).2

theorem step_keeps_paletteCurrent (s t : State) (hshape : NetworkShape s.nq) (h : PaletteCurrent s)
    (hst : step s = .next t) : PaletteCurrent t := by
  rw [paletteCurrent_iff] at h ⊢
  rw [step_keeps_paletteOrder s t hst]
  rcases step_nq s t hst with hq | ⟨v, hq⟩ | hq | ⟨hq, _⟩ | ⟨s₀, hs₀, _, _, ho, _, he⟩
  · rwa [hq]
  · rw [hq]
    exact h
  · rw [hq]
    exact h
  · rw [hq]
    exact fun hp => by cases hp
  · rw [← hs₀] at hshape
    rw [← ho, ← hs₀] at h
    rw [← ho]
    exact nqEffect_keeps_palette s₀ t.nq hshape h he

/-- Settles O18: `InxBuild` splits the network it sorts, the palette is written from the network it stands beside, and no
other command writes the one without leaving the phase in which it is read. -/
theorem stepKeepsIndexAndPalette : Obligations.StepKeepsIndexAndPalette :=
  fun s t hshape hst => ⟨fun h => (indexSplits_invariant.step s t ⟨hshape, h⟩ hst).2,
    fun h => step_keeps_paletteCurrent s t hshape h hst⟩

/-! ### The palette entry `NQ.MAP` names (R167, 43_nq_map.md R192) -/

/-- A palette index fits `NQ_MAPRES`. -/
theorem mapres_index (network : Ram Neuron 256) (hperm : IndexPerm network) (x : Neuron) (hx : x ∈ network.cells) :
    (BitVec.ofInt 8 x.index.toInt).toNat = x.index.toNat := by
  obtain ⟨hlt, hint⟩ := index_lt network hperm x hx
  rw [hint, BitVec.ofInt_natCast, BitVec.toNat_ofNat, Nat.mod_eq_of_lt hlt]

/-- Settles O48: the search returns lane 3 of a nearest neuron, which names the entry that shows it; and every entry shows
some neuron. -/
theorem mapResultIndexesPalette : Obligations.MapResultIndexesPalette := by
  intro b g r s hb hg hr hp hinv
  obtain ⟨hl, hperm, hsorted⟩ := sorted_of_indexed hinv.shape (.inr hp)
  have hc : ColourIn 255 (Colour.ofOperands b g r) := by
    simp only [ColourIn, Colour.ofOperands]
    omega
  obtain ⟨p, hp256, hres, hmin⟩ := mapColour_spec s.nq.network s.nq.netindex _ hl hsorted hc
  have hx := Ram.read_mem s.nq.network p Neuron.zero hp256
  refine ⟨_, exec_nqMap_completes s b g r (.inr hp), _, hx, ?_, fun k hk => ?_⟩
  · rw [hres, mapres_index s.nq.network hperm _ hx]
    exact hinv.palette hp _ hx
  · obtain ⟨y, hy, rfl⟩ := index_surjective s.nq.network hperm k hk
    obtain ⟨n, hn, rfl⟩ := (Ram.mem_iff_read s.nq.network Neuron.zero y).mp hy
    exact ⟨_, hy, hinv.palette hp _ hy, (hmin n hn).1⟩

end Sys2Proof.Proofs

/-! The spec's loop of 42_nq_palette.md R162: one loop that sorts and buckets, swap by swap, does what sorting and then
bucketing does (O43). -/

namespace Sys2Proof.Proofs

open Sys2Proof.Machine Sys2Proof.Safety Sys2Proof.Laws

/-! ### The table -/

theorem writeAt_eq_indexAt (v : Int) (x : Nat) (t : Ram Byte 256) :
    Pseudocode.writeAt t v (BitVec.ofNat 8 x) = indexAt v x t := by
  refine Ram.ext_read _ _ 0 fun k hk => ?_
  rw [writeAt_read _ _ _ _ _ hk, indexAt_read _ _ _ _ hk]

theorem fillFor_read (x count : Nat) (j : Int) (t : Ram Byte 256) (k : Nat) (hk : k < 256) :
    (Pseudocode.fillFor x count j t).read k 0 =
      if j ≤ (k : Int) ∧ (k : Int) < j + count then BitVec.ofNat 8 x else t.read k 0 := by
  induction count generalizing j t with
  | zero => rw [Pseudocode.fillFor, if_neg (by omega)]
  | succ count ih =>
    rw [Pseudocode.fillFor, ih, writeAt_read _ _ _ _ _ hk]
    by_cases hj : (k : Int) = j
    · rw [if_pos hj, ite_self, if_pos (by omega)]
    · rw [if_neg hj]
      exact if_congr (by omega) rfl rfl

/-- `for j in lo+1..hi-1`, which is no round where `hi` is not above `lo + 1`. -/
theorem fillFor_eq_indexBetween (lo hi : Int) (x : Nat) (t : Ram Byte 256) :
    Pseudocode.fillFor x (hi - 1 - lo).toNat (lo + 1) t = indexBetween lo hi x t := by
  refine Ram.ext_read _ _ 0 fun k hk => ?_
  rw [fillFor_read _ _ _ _ _ hk, indexBetween_read _ _ _ _ _ hk]
  exact if_congr (by omega) rfl rfl

/-! ### The scan -/

/-- `smallpos` and `smallval` for what the scan has found: nothing below `val`, which stands at `pos`, or a neuron so many
positions from `base` on. -/
def foundAt (base pos : Nat) (val : Int) : Option (Nat × Neuron) → Nat × Int
  | none => (pos, val)
  | some (j, y) => (base + j, y.green)

theorem smallestFor_eq_scan (network : Ram Neuron 256) (base pos : Nat) (val : Int) (xs : List Neuron) (k : Nat)
    (hxs : network.cells.drop (base + k) = xs) (small : Option (Nat × Neuron)) :
    Pseudocode.smallestFor network xs.length (base + k) (foundAt base pos val small).1 (foundAt base pos val small).2 =
      foundAt base pos val (scanSmallest k xs (foundAt base pos val small).2 small) := by
  induction xs generalizing k small with
  | nil => rfl
  | cons x xs ih =>
    have hlt : base + k < 256 := by
      by_contra hge
      rw [List.drop_eq_nil_of_le (by rw [network.size_eq]; omega)] at hxs
      cases hxs
    rw [Ram.drop_cells network _ Neuron.zero hlt, List.cons.injEq] at hxs
    obtain ⟨hx, hrest⟩ := hxs
    rw [List.length_cons, Pseudocode.smallestFor, hx, scanSmallest]
    by_cases hsmall : x.green < (foundAt base pos val small).2
    · rw [if_pos hsmall]
      exact (if_pos hsmall).trans (ih (k + 1) hrest (some (k, x)))
    · rw [if_neg hsmall]
      exact (if_neg hsmall).trans (ih (k + 1) hrest small)

/-! ### One round -/

/-- The bucketing's registers of R162. -/
def indexJobOf (v : Pseudocode.InxVars) : IndexJob := ⟨v.previouscol, v.startpos, v.netindex⟩

/-- `swap(network[i], network[smallpos])`, unless they are one. -/
def swapAt (network : Ram Neuron 256) (i smallpos : Nat) : Ram Neuron 256 :=
  if i ≠ smallpos then
    (network.write i (network.read smallpos Neuron.zero)).write smallpos (network.read i Neuron.zero)
  else network

/-- A round of R162, for what its scan finds: the swap, and one step of the bucketing. -/
theorem inxBody_of_scan (i : Nat) (v : Pseudocode.InxVars) (smallpos : Nat) (smallval : Int)
    (h : Pseudocode.smallestFor v.network (255 - i) (i + 1) i (v.network.read i Neuron.zero).green =
      (smallpos, smallval)) :
    (Pseudocode.inxBody i v).network = swapAt v.network i smallpos ∧
      indexJobOf (Pseudocode.inxBody i v) = indexStep i smallval (indexJobOf v) := by
  simp only [Neuron.green] at h
  simp only [Pseudocode.inxBody, h, fillFor_eq_indexBetween, writeAt_eq_indexAt, indexStep]
  by_cases hnew : smallval ≠ v.previouscol
  · rw [if_pos hnew, if_pos (show smallval ≠ (indexJobOf v).previouscol from hnew)]
    exact ⟨rfl, rfl⟩
  · rw [if_neg hnew, if_neg (show ¬ smallval ≠ (indexJobOf v).previouscol from hnew)]
    exact ⟨rfl, rfl⟩

section
variable (network : Ram Neuron 256) (sorted : List Neuron) (x : Neuron) (xs : List Neuron)
  (hn : network.cells = sorted ++ x :: xs)
include hn

theorem read_after_sorted : network.read sorted.length Neuron.zero = x := by
  rw [Ram.read, hn, List.getD_eq_getElem?_getD, List.getElem?_append_right le_rfl, Nat.sub_self]
  rfl

theorem read_past_sorted (j : Nat) (y : Neuron) (hy : xs[j]? = some y) :
    network.read (sorted.length + 1 + j) Neuron.zero = y := by
  rw [Ram.read, hn, List.getD_eq_getElem?_getD, List.getElem?_append_right (by omega),
    show sorted.length + 1 + j - sorted.length = j + 1 by omega, List.getElem?_cons_succ, hy]
  rfl

theorem swapAt_past_sorted (j : Nat) (y : Neuron) (hy : xs[j]? = some y) :
    (swapAt network sorted.length (sorted.length + 1 + j)).cells = sorted ++ y :: xs.set j x := by
  rw [swapAt, if_pos (by omega), read_after_sorted network sorted x xs hn, read_past_sorted network sorted x xs hn j y hy]
  change (network.cells.set sorted.length y).set (sorted.length + 1 + j) x = _
  rw [hn, List.set_append_right _ _ le_rfl, Nat.sub_self, List.set_append_right _ _ (by omega),
    show sorted.length + 1 + j - sorted.length = j + 1 by omega]
  rfl

/-- The scan of the round for the position after the sorted ones. -/
theorem smallestFor_past_sorted :
    Pseudocode.smallestFor network (255 - sorted.length) (sorted.length + 1) sorted.length
      (network.read sorted.length Neuron.zero).green =
        foundAt (sorted.length + 1) sorted.length x.green (scanSmallest 0 xs x.green none) := by
  have hlen : xs.length = 255 - sorted.length := by
    have hsize := network.size_eq
    rw [hn, List.length_append, List.length_cons] at hsize
    omega
  have hdrop : network.cells.drop (sorted.length + 1 + 0) = xs := by
    rw [hn, Nat.add_zero, ← List.drop_drop, List.drop_left, List.drop_one, List.tail_cons]
  rw [read_after_sorted network sorted x xs hn, ← hlen]
  exact smallestFor_eq_scan network (sorted.length + 1) sorted.length x.green xs 0 hdrop none

end

/-- The round for the position after the sorted ones is one step of the sort and one of the bucketing. -/
theorem inxBody_eq_step (v : Pseudocode.InxVars) (sorted : List Neuron) (x : Neuron) (xs : List Neuron)
    (hv : v.network.cells = sorted ++ x :: xs) :
    (Pseudocode.inxBody sorted.length v).network.cells = sorted ++ (swapSmallest x xs).1 :: (swapSmallest x xs).2 ∧
      indexJobOf (Pseudocode.inxBody sorted.length v) =
        indexStep sorted.length (swapSmallest x xs).1.green (indexJobOf v) := by
  have hscan := smallestFor_past_sorted v.network sorted x xs hv
  unfold swapSmallest
  rcases scanSmallest_spec xs 0 x.green none with ⟨hnone, _⟩ | ⟨j, y, hsome, hy, _⟩
  · rw [hnone] at hscan ⊢
    obtain ⟨hnet, hjob⟩ := inxBody_of_scan sorted.length v sorted.length x.green hscan
    exact ⟨by rw [hnet, swapAt, if_neg (by simp), hv], hjob⟩
  · rw [Nat.zero_add] at hsome
    rw [hsome] at hscan ⊢
    obtain ⟨hnet, hjob⟩ := inxBody_of_scan sorted.length v (sorted.length + 1 + j) y.green hscan
    exact ⟨by rw [hnet, swapAt_past_sorted v.network sorted x xs hv j y hy], hjob⟩

/-! ### The whole loop -/

theorem inxFor_eq_sort_then_index (count : Nat) (v : Pseudocode.InxVars) (sorted rest : List Neuron)
    (hv : v.network.cells = sorted ++ rest) (hcount : rest.length = count) :
    (Pseudocode.inxFor count sorted.length v).network.cells = sorted ++ selectionSort count rest ∧
      indexJobOf (Pseudocode.inxFor count sorted.length v) =
        indexLoop sorted.length (selectionSort count rest) (indexJobOf v) := by
  induction count generalizing v sorted rest with
  | zero =>
    obtain rfl := List.eq_nil_of_length_eq_zero hcount
    exact ⟨hv, rfl⟩
  | succ count ih =>
    cases rest with
    | nil => simp at hcount
    | cons x xs =>
      obtain ⟨hnet, hjob⟩ := inxBody_eq_step v sorted x xs hv
      have hsplit : (Pseudocode.inxBody sorted.length v).network.cells =
          (sorted ++ [(swapSmallest x xs).1]) ++ (swapSmallest x xs).2 := by simpa using hnet
      have h := ih (Pseudocode.inxBody sorted.length v) _ _ hsplit
        ((length_swapSmallest x xs).trans (Nat.succ.inj hcount))
      rw [List.length_append, List.length_singleton, hjob] at h
      simpa [Pseudocode.inxFor, selectionSort, indexLoop] using h

/-- What follows the loop: the last bucket and the greens above it. -/
theorem fillFor_eq_indexFinish (v : Pseudocode.InxVars) :
    Pseudocode.fillFor Config.maxnetpos (255 - v.previouscol).toNat (v.previouscol + 1)
      (Pseudocode.writeAt v.netindex v.previouscol (BitVec.ofNat 8 ((v.startpos + Config.maxnetpos) / 2))) =
      indexFinish (indexJobOf v) := by
  rw [writeAt_eq_indexAt]
  exact fillFor_eq_indexBetween v.previouscol Config.netsize Config.maxnetpos _

/-- Settles O43: the sort of a position is finished before its bucketing, which moves no neuron, so that the one loop is the
two in turn. -/
theorem inxBuildIsTheSpecLoop : Obligations.InxBuildIsTheSpecLoop := by
  intro q
  have hsort : (sortNetwork q.network).cells = selectionSort 256 q.network.cells := rfl
  have h := inxFor_eq_sort_then_index 256 ⟨q.network, q.netindex, 0, 0⟩ [] q.network.cells rfl q.network.size_eq
  rw [List.length_nil, List.nil_append, ← hsort] at h
  obtain ⟨hnet, hjob⟩ := h
  rw [Pseudocode.inxBuild, fillFor_eq_indexFinish, hjob, Ram.cells_ext _ _ hnet]
  rfl

end Sys2Proof.Proofs

/-! The commands of 43_nq_map.md: what `NQ.MAP` returns (O46), that a colour of the network maps to itself (O47), and what
`NQ.MAPBUF` writes (O49). -/

namespace Sys2Proof.Proofs

open Sys2Proof.Machine Sys2Proof.Safety Sys2Proof.Laws

/-! ### NQ.MAP (R190, R192) -/

theorem ofOperands_in (b g r : Nat) (hb : b < 256) (hg : g < 256) (hr : r < 256) :
    ColourIn 255 (Colour.ofOperands b g r) := by
  simp only [ColourIn, Colour.ofOperands]
  omega

/-- Settles O46: the search returns lane 3 of the first nearest neuron, which fits `NQ_MAPRES`. -/
theorem nqMapFindsNearest : Obligations.NqMapFindsNearest := by
  intro b g r s hb hg hr hp hshape
  obtain ⟨hl, hperm, hsorted⟩ := sorted_of_indexed hshape hp
  obtain ⟨p, hp256, hres, hmin⟩ :=
    mapColour_spec s.nq.network s.nq.netindex _ hl hsorted (ofOperands_in b g r hb hg hr)
  have hx := Ram.read_mem s.nq.network p Neuron.zero hp256
  refine ⟨_, exec_nqMap_completes s b g r hp, rfl, p, hp256, ?_, hmin⟩
  rw [hres, mapres_index s.nq.network hperm _ hx]
  exact (index_lt s.nq.network hperm _ hx).2.symm

/-! ### Exact colours (R194) -/

/-- A neuron is at distance 0 of another's colour exactly when it has that colour. -/
theorem dist_eq_zero_iff (x y : Neuron) :
    dist y ⟨x.b.toInt, x.g.toInt, x.r.toInt⟩ = 0 ↔ y.b = x.b ∧ y.g = x.g ∧ y.r = x.r := by
  simp only [Machine.dist, ← BitVec.toInt_inj]
  omega

theorem toInt_toNat_of_nonneg (w : Word) (h : 0 ≤ w.toInt) : w.toInt.toNat = w.toNat := by
  rw [BitVec.toInt_eq_toNat_cond] at h ⊢
  split_ifs at h ⊢ <;> omega

/-- Settles O47: a neuron of the colour is at distance 0, so the nearest neuron found is too and has the colour itself. -/
theorem exactColourMapsToItself : Obligations.ExactColourMapsToItself := by
  rintro q x _ hp hshape hx rfl
  obtain ⟨hl, _, hsorted⟩ := sorted_of_indexed hshape hp
  have hlanes := hl x hx
  obtain ⟨p, hp256, hres, hmin⟩ :=
    mapColour_spec q.network q.netindex ⟨x.b.toInt, x.g.toInt, x.r.toInt⟩ hl hsorted hlanes
  rw [toInt_toNat_of_nonneg x.g hlanes.2.1.1] at hmin
  have hzero : dist (q.network.read p Neuron.zero) ⟨x.b.toInt, x.g.toInt, x.r.toInt⟩ = 0 := by
    obtain ⟨n, hn, rfl⟩ := (Ram.mem_iff_read q.network Neuron.zero x).mp hx
    have hle := (hmin n hn).1
    rwa [(dist_eq_zero_iff _ _).mpr ⟨rfl, rfl, rfl⟩, Nat.le_zero] at hle
  refine ⟨⟨p, hp256, hres, hzero, fun n hn h0 => (hmin n hn).2 (h0.trans hzero.symm)⟩, fun honly => ?_⟩
  obtain ⟨hb, hg, hr⟩ := (dist_eq_zero_iff x _).mp hzero
  rw [hres, honly _ (Ram.read_mem q.network p Neuron.zero hp256) hb hg hr]

/-! ### NQ.MAPBUF (R193) -/

/-- The byte that `NQ.MAPBUF` writes for pixel `k` of SRC. -/
def pixelIndex (network : Ram Neuron 256) (netindex : Ram Byte 256) (src : Buffer) (k : Nat) : Byte :=
  BitVec.ofInt 8 (mapColour network netindex
    ⟨(Memory.read src.mem (3 * k)).toNat, (Memory.read src.mem (3 * k + 1)).toNat,
      (Memory.read src.mem (3 * k + 2)).toNat⟩)

section
variable (network : Ram Neuron 256) (netindex : Ram Byte 256) (src : Buffer)

/-- A pixel inside SRC that has its byte in IDX: its index is written, and the loop goes on. -/
theorem mapBuf_succ (n k : Nat) (idx : Buffer) (hsrc : 3 * k + 3 ≤ src.size.toNat) (hidx : k < idx.size.toNat) :
    mapBuf network netindex src (n + 1) k idx =
      mapBuf network netindex src n (k + 1)
        { idx with mem := Memory.write idx.mem k (pixelIndex network netindex src k) } := by
  rw [mapBuf, readTriple_of_lt src _ hsrc]
  dsimp only
  rw [idxWrite_of_lt idx k _ hidx]
  rfl

/-- The `n` pixels from `k` on, all inside SRC and with room in IDX, write their `n` bytes and no other. -/
theorem mapBuf_completes (n k : Nat) (idx : Buffer) (hsrc : 3 * (k + n) ≤ src.size.toNat)
    (hidx : k + n ≤ idx.size.toNat) :
    ∃ t, mapBuf network netindex src n k idx = .ok t ∧ t.size = idx.size ∧
      ∀ a, Memory.read t.mem a =
        if k ≤ a ∧ a < k + n then pixelIndex network netindex src a else Memory.read idx.mem a := by
  induction n generalizing k idx with
  | zero => exact ⟨idx, rfl, rfl, fun a => by rw [if_neg (by omega)]⟩
  | succ n ih =>
    rw [mapBuf_succ network netindex src n k idx (by omega) (by omega)]
    obtain ⟨t, ht, hsize, hread⟩ :=
      ih (k + 1) { idx with mem := Memory.write idx.mem k (pixelIndex network netindex src k) } (by omega)
        (show k + 1 + n ≤ idx.size.toNat by omega)
    refine ⟨t, ht, hsize, fun a => ?_⟩
    rw [hread]
    rcases eq_or_ne a k with rfl | hne
    · rw [if_neg (by omega), if_pos (by omega), memory_read_write_same]
    · rw [memory_read_write_other _ _ _ _ hne]
      exact if_congr (by omega) rfl rfl

end

theorem exec_nqMapbuf_completes (s : State) (idx : Buffer) (hp : Indexed s.nq)
    (h : mapBuf s.nq.network s.nq.netindex s.src (s.nq.lengthcount.toNat / 3) 0 s.idx = .ok idx) :
    exec .nqMapbuf s = .next { s with nq := { s.nq with err := .noError, busy := false }, idx := idx } := by
  obtain ⟨hne, _⟩ | ⟨_, ⟨f, hf, _⟩ | ⟨idx', hidx', hex⟩⟩ := execNqMapbuf_cases s
  · exact absurd hp hne
  · rw [h] at hf
    cases hf
  · rw [h] at hidx'
    cases hidx'
    rw [exec, hex, endCommand_nq_ok]

/-- Settles O49: the loop runs over every pixel from pixel 0 on, and the command leaves the IDX that the loop leaves. -/
theorem nqMapbufMapsEveryPixel : Obligations.NqMapbufMapsEveryPixel := by
  intro s hp hsrc hidx
  obtain ⟨idx, hmap, hsize, hread⟩ :=
    mapBuf_completes s.nq.network s.nq.netindex s.src (s.nq.lengthcount.toNat / 3) 0 s.idx (by omega) (by omega)
  simp only [Nat.zero_le, true_and, Nat.zero_add] at hread
  exact ⟨_, exec_nqMapbuf_completes s idx hp hmap, rfl, hsize, hread⟩

end Sys2Proof.Proofs

/-! The dictionary of 44_lzw_encode.md: `LZ.INIT` (O50), that look-ups end (O58), and that every key inserted stays findable
(O57). -/

namespace Sys2Proof.Proofs

open Sys2Proof.Machine Sys2Proof.Safety Sys2Proof.Laws

/-! ### `LZ.INIT` (R210) -/

/-- Settles O50: neither check of `LZ.INIT` fails, and what is latched is what the command's registers hold. -/
theorem lzInitLatchesImage : Obligations.LzInitLatchesImage := by
  intro d s hne hlen hlow hhigh
  have himg : imageAccepted s.lz.width.toNat s.lz.height.toNat s.lz.pixlen.toNat = true := by
    simp [imageAccepted, hlen, hne]
  have hdepth : depthAccepted d = true := by
    simp [depthAccepted, hlow, hhigh]
  obtain ⟨hfail, _⟩ | ⟨_, hfail, _⟩ | ⟨_, _, hnext⟩ := execLzInit_cases d s
  · simp [himg] at hfail
  · simp [hdepth] at hfail
  · refine ⟨_, hnext, by simp [endCommand, imageLatched], ?_⟩
    simp only [endCommand, imageLatched, BitVec.toNat_ofNat]
    omega

/-! ### Look-ups (R214, R215, R217, R218) -/

/-- Settles O58: the scan ends, with one of its two answers, at a slot of the table. -/
theorem scansEnd : Obligations.ScansEnd := by
  intro t key i _ hfree hi
  obtain ⟨r, hr⟩ := probe_ends t key i hfree hi
  have hslot := lookup_slot t key i r hi hr
  obtain ⟨k, rfl, hk⟩ | ⟨k, rfl, hk⟩ := lookup_answer t key i r hr
  · exact ⟨k, hslot, .inl ⟨hr, hk⟩⟩
  · exact ⟨k, hslot, .inr ⟨hr, hk⟩⟩

/-- One slot of a look-up (R214, R217): it is empty, or holds the key, or the scan goes on as `next` does. -/
def lookAt (t : KeyTable) (key : BitVec 20) (a : Nat) (next : Option ProbeEnd) : Option ProbeEnd :=
  match find t a with
  | none => some (.miss a)
  | some k => if k = key then some (.hit a) else next

theorem lookup_eq_lookAt (t : KeyTable) (key : BitVec 20) (a : Nat) :
    lookup t key a = lookAt t key a (probe t key a) := rfl

theorem probeLoop_eq_lookAt (t : KeyTable) (key : BitVec 20) (disp n a : Nat) :
    probeLoop t key disp (n + 1) a =
      lookAt t key (probeNext disp a) (probeLoop t key disp n (probeNext disp a)) := rfl

theorem lookAt_empty (t : KeyTable) (key : BitVec 20) (a : Nat) (next : Option ProbeEnd) (h : find t a = none) :
    lookAt t key a next = some (.miss a) := by
  rw [lookAt, h]

theorem lookAt_key (t : KeyTable) (key : BitVec 20) (a : Nat) (next : Option ProbeEnd) (h : find t a = some key) :
    lookAt t key a next = some (.hit a) := by
  rw [lookAt, h]
  exact if_pos rfl

theorem lookAt_other (t : KeyTable) (key k : BitVec 20) (a : Nat) (next : Option ProbeEnd) (h : find t a = some k)
    (hne : k ≠ key) : lookAt t key a next = next := by
  rw [lookAt, h]
  exact if_neg hne

section
variable (t : KeyTable) (key : BitVec 20) (i : Nat)

/-- A slot that holds a key holds it still when an empty slot is filled. -/
theorem find_put_of_some (k : BitVec 20) (a : Nat) (hi : find t i = none) (ha : find t a = some k) :
    find (put t i key) a = some k := by
  rw [find_put_other t i a key (by rintro rfl; simp [hi] at ha), ha]

/-- A scan that ends at its key has passed no empty slot, so filling one does not change it. -/
theorem lookAt_put_hit (key' : BitVec 20) (a k : Nat) (next next' : Option ProbeEnd) (hi : find t i = none)
    (hnext : next = some (.hit k) → next' = some (.hit k)) (h : lookAt t key' a next = some (.hit k)) :
    lookAt (put t i key) key' a next' = some (.hit k) := by
  cases hf : find t a with
  | none =>
    rw [lookAt_empty t key' a next hf] at h
    cases h
  | some x =>
    have hput := find_put_of_some t key i x a hi hf
    by_cases hx : x = key'
    · subst hx
      rw [lookAt_key t x a next hf] at h
      rw [lookAt_key _ x a next' hput, h]
    · rw [lookAt_other t key' x a next hf hx] at h
      rw [lookAt_other _ key' x a next' hput hx, hnext h]

/-- A scan that ends at an empty slot ends there, at its key, once the key is in the slot. -/
theorem lookAt_put_miss (a : Nat) (next next' : Option ProbeEnd) (hi : find t i = none)
    (hnext : next = some (.miss i) → next' = some (.hit i)) (h : lookAt t key a next = some (.miss i)) :
    lookAt (put t i key) key a next' = some (.hit i) := by
  cases hf : find t a with
  | none =>
    rw [lookAt_empty t key a next hf] at h
    cases h
    exact lookAt_key _ key i next' (find_put_same t i key)
  | some x =>
    by_cases hx : x = key
    · subst hx
      rw [lookAt_key t x a next hf] at h
      cases h
    · rw [lookAt_other t key x a next hf hx] at h
      rw [lookAt_other _ key x a next' (find_put_of_some t key i x a hi hf) hx, hnext h]

theorem probeLoop_put_hit (key' : BitVec 20) (disp n a k : Nat) (hi : find t i = none)
    (h : probeLoop t key' disp n a = some (.hit k)) : probeLoop (put t i key) key' disp n a = some (.hit k) := by
  induction n generalizing a with
  | zero => cases h
  | succ n ih =>
    rw [probeLoop_eq_lookAt] at h ⊢
    exact lookAt_put_hit t key i key' _ k _ _ hi (ih _) h

theorem lookup_put_hit (key' : BitVec 20) (a k : Nat) (hi : find t i = none)
    (h : lookup t key' a = some (.hit k)) : lookup (put t i key) key' a = some (.hit k) := by
  rw [lookup_eq_lookAt] at h ⊢
  exact lookAt_put_hit t key i key' a k _ _ hi (probeLoop_put_hit t key i key' _ _ a k hi) h

theorem probeLoop_put_miss (disp n a : Nat) (hi : find t i = none)
    (h : probeLoop t key disp n a = some (.miss i)) : probeLoop (put t i key) key disp n a = some (.hit i) := by
  induction n generalizing a with
  | zero => cases h
  | succ n ih =>
    rw [probeLoop_eq_lookAt] at h ⊢
    exact lookAt_put_miss t key i _ _ _ hi (ih _) h

theorem lookup_miss_empty (a : Nat) (h : lookup t key a = some (.miss i)) : find t i = none := by
  obtain ⟨_, hr, _⟩ | ⟨_, hr, hk⟩ := lookup_answer t key a _ h <;> cases hr
  exact hk

theorem lookup_hit_key (a : Nat) (h : lookup t key a = some (.hit i)) : find t i = some key := by
  obtain ⟨_, hr, hk⟩ | ⟨_, hr, _⟩ := lookup_answer t key a _ h <;> cases hr
  exact hk

theorem lookup_put_miss (a : Nat) (h : lookup t key a = some (.miss i)) :
    lookup (put t i key) key a = some (.hit i) := by
  have hi := lookup_miss_empty t key i a h
  rw [lookup_eq_lookAt] at h ⊢
  exact lookAt_put_miss t key i a _ _ hi (probeLoop_put_miss t key i _ _ a hi) h

end

/-- R215: `ent` is below 4096, so the key of a pair tells both. -/
theorem fcode_injective (c c' ent ent' : Nat) (hc : c < 256) (hc' : c' < 256) (he : ent < 4096) (he' : ent' < 4096)
    (h : fcode c ent = fcode c' ent') : c = c' ∧ ent = ent' := by
  have hnat := congrArg BitVec.toNat h
  rw [fcode_toNat c ent hc he, fcode_toNat c' ent' hc' he'] at hnat
  omega

/-- Settles O57: a key in the empty slot its look-up ends at is met there, and no look-up of another key passed it. -/
theorem dictionaryKeysAreFound : Obligations.DictionaryKeysAreFound := by
  refine ⟨fun c c' ent ent' hc hc' he he' => ⟨fcode_toNat c ent hc he, fcode_injective c c' ent ent' hc hc' he he', rfl,
    Nat.le_of_lt_succ (primarySlot_lt c ent hc he), homeSlot_fcode c ent hc he⟩, ?_⟩
  intro t key i _ hfound hmiss
  refine ⟨fun e he => ?_, find_put_same t i key⟩
  obtain rfl | he := mem_put t i key e he
  · exact lookup_put_miss t key i _ hmiss
  · exact lookup_put_hit t key i e.2 _ e.1 (lookup_miss_empty t key i _ hmiss) (hfound e he)

end Sys2Proof.Proofs

/-! The encoder's registers between pixels (44_lzw_encode.md R224 to R226, 45_lzw_bitpack.md R243, R245, R250 to R252): what
every code sent keeps of them, and what every pixel keeps (O56). -/

namespace Sys2Proof.Proofs

open Sys2Proof.Machine Sys2Proof.Safety Sys2Proof.Laws

/-- A sequence that ends well has two parts that do. -/
theorem bind_eq_ok {r : EncodeStep} {f : EncodeJob → EncodeStep} {j' : EncodeJob} (h : r.bind f = .ok j') :
    ∃ j, r = .ok j ∧ f j = .ok j' := by
  cases r with
  | ok j => exact ⟨j, rfl, h⟩
  | error e => cases h

/-! ### The width (R245) -/

/-- The largest code of a width, as R245 sets it. -/
def maxcodeOf (width : Nat) : Nat := if width = 12 then 4096 else 2 ^ width - 1

/-- The next code is the first that its width does not hold, and a wider one is left (R245, R247). -/
abbrev Outgrown (freeEnt nBits : Nat) : Prop := freeEnt = 2 ^ nBits ∧ nBits < 12

section
variable {depth code : Nat} {j j' : EncodeJob}

theorem updateWidth_outgrown (h : EncodeInv depth j) (hw : Outgrown j.freeEnt j.nBits) :
    updateWidth j = { j with nBits := j.nBits + 1, maxcode := maxcodeOf (j.nBits + 1) } := by
  have hpos := Nat.two_pow_pos j.nBits
  have hmax := h.maxcode
  rw [if_neg (by omega)] at hmax
  rw [updateWidth, if_pos (.inl (by omega)), if_neg (by simp [h.clearFlg]), maxcodeOf]
  split_ifs <;> rfl

/-- A width that is not outgrown has room for one more code. -/
theorem freeEnt_le_maxcode (h : EncodeInv depth j) (hw : ¬ Outgrown j.freeEnt j.nBits) : j.freeEnt ≤ j.maxcode := by
  have hmax := h.maxcode
  have hfits := h.freeFits
  have hhigh := h.freeHigh
  have hbits := h.bitsHigh
  split_ifs at hmax
  · omega
  · have hpos := Nat.two_pow_pos j.nBits
    omega

theorem updateWidth_fits (h : EncodeInv depth j) (hw : ¬ Outgrown j.freeEnt j.nBits) : updateWidth j = j := by
  have hroom := freeEnt_le_maxcode h hw
  rw [updateWidth, if_neg (by simp [h.clearFlg]; omega)]

/-- Every code allocated so far fits the width (45_lzw_bitpack.md R242). -/
theorem freeEnt_le_two_pow (h : EncodeInv depth j) : j.freeEnt ≤ 2 ^ j.nBits := by
  have hfits := h.freeFits
  have hmax := h.maxcode
  have hpos := Nat.two_pow_pos j.nBits
  split_ifs at hmax with h12
  · rw [h12]
    exact h.freeHigh
  · omega

/-- The width after a code sent in these registers. -/
def widthAfter (j : EncodeJob) : Nat := if Outgrown j.freeEnt j.nBits then j.nBits + 1 else j.nBits

theorem updateWidth_nBits (h : EncodeInv depth j) : (updateWidth j).nBits = widthAfter j := by
  rw [widthAfter]
  split_ifs with hw
  · rw [updateWidth_outgrown h hw]
  · rw [updateWidth_fits h hw]

/-- `UpdateWidth` keeps what holds between pixels, and leaves room for one more code. -/
theorem encodeInv_updateWidth (h : EncodeInv depth j) :
    EncodeInv depth (updateWidth j) ∧ j.freeEnt ≤ (updateWidth j).maxcode := by
  by_cases hw : Outgrown j.freeEnt j.nBits
  · have hroom : j.freeEnt ≤ maxcodeOf (j.nBits + 1) := by
      have hpos := Nat.two_pow_pos j.nBits
      have hfull := hw.1
      rw [maxcodeOf]
      split_ifs
      · exact h.freeHigh
      · rw [Nat.pow_succ]
        omega
    have hbits := h.bitsLow
    rw [updateWidth_outgrown h hw]
    exact ⟨{ h with
      bitsLow := by show j.gInitBits ≤ j.nBits + 1; omega
      bitsHigh := hw.2
      maxcode := rfl
      freeFits := Nat.le_succ_of_le hroom }, hroom⟩
  · rw [updateWidth_fits h hw]
    exact ⟨h, freeEnt_le_maxcode h hw⟩

/-- A code sent keeps what holds between pixels; the width grows as R245 says, and there is room for one more code. -/
theorem encodeInv_output (h : EncodeInv depth j) (ho : output code j = .ok j') :
    EncodeInv depth j' ∧ j'.nBits = widthAfter j ∧ j'.freeEnt ≤ j'.maxcode := by
  obtain ⟨hw, hroom⟩ := encodeInv_updateWidth h
  obtain ⟨⟨hn, hm, hflg⟩, ⟨hg, hfree, hclear, heof⟩, ⟨hent, -, hkeys, hcodes⟩, -, hbits, hpacket⟩ :=
    output_registers code j j' h.packet ho
  refine ⟨?_, hn.trans (updateWidth_nBits h), by rw [hfree, hm]; exact hroom⟩
  have hsame : j' = { updateWidth j with
      curAccum := j'.curAccum, curBits := j'.curBits, packet := j'.packet, out := j'.out, outlen := j'.outlen,
      sink := j'.sink } := by
    have hs := output_sends code j
    rw [ho] at hs
    refine hs.rest.trans ?_
    rw [hn, hm, hflg, (updateWidth_sends j).rest]
  rw [hsame]
  exact { hw with curBits := hbits, packet := hpacket }

/-! ### A hit, an insert, a block clear (44_lzw_encode.md R216, R224, R225) -/

theorem encodeInv_ent (h : EncodeInv depth j) (ent : Nat) (hent : ent < 4096) : EncodeInv depth { j with ent := ent } :=
  { h with ent := hent }

theorem codeAt_write_same (t : CodeTable) (i free : Nat) (h : free < 4096) :
    codeAt (writeDefault 0 t i (BitVec.ofNat 12 free)) i = free := by
  rw [codeAt, readDefault_write_same, BitVec.toNat_ofNat]
  exact Nat.mod_eq_of_lt h

theorem codeAt_write_other (t : CodeTable) (i k : Nat) (code : BitVec 12) (h : k ≠ i) :
    codeAt (writeDefault 0 t i code) k = codeAt t k := by
  rw [codeAt, readDefault_write_other 0 t i k code h, codeAt]

/-- A slot that holds a key is not the empty one. -/
theorem slot_ne_of_mem {t : KeyTable} {i : Nat} {e : Nat × BitVec 20} (ht : KeysCanonical t) (hi : find t i = none)
    (he : e ∈ t) : e.1 ≠ i := by
  rintro rfl
  simp [find_of_mem t ht.1 e he] at hi

/-- R224: the insert keeps what holds between pixels, where the code to allocate fits the width. -/
theorem encodeInv_insert {i : Nat} (key : BitVec 20) (h : EncodeInv depth j) (hi : find j.htab i = none)
    (hslot : i < 5003) (hroom : j.freeEnt ≤ j.maxcode) (hfree : j.freeEnt < 4096) :
    EncodeInv depth (insert i key j) := by
  have hlow := h.freeLow
  refine { h with
    freeLow := Nat.le_succ_of_le hlow
    freeHigh := hfree
    freeFits := Nat.succ_le_succ hroom
    keys := keysCanonical_put _ h.keys i key hslot
    codes := codesCanonical_write _ h.codes i _ hslot
    count := ?_
    live := fun e he => ?_ }
  · show (put j.htab i key).length = j.freeEnt + 1 - (j.clearCode + 2)
    rw [length_put_new _ _ _ hi, h.count]
    omega
  · show j.clearCode + 2 ≤ codeAt (writeDefault 0 j.codetab i _) e.1 ∧
      codeAt (writeDefault 0 j.codetab i _) e.1 < j.freeEnt + 1
    obtain rfl | he := mem_put _ _ _ _ he
    · rw [codeAt_write_same _ _ _ hfree]
      omega
    · rw [codeAt_write_other _ _ _ _ (slot_ne_of_mem h.keys hi he)]
      have hlive := h.live e he
      omega

/-- The registers with which a CLEAR is sent, at the start of the stream (R213) or by a block clear (R250): the dictionary
is empty, and `UpdateWidth` is about to set the initial width. -/
structure AtClear (depth : Nat) (j : EncodeJob) : Prop where
  depthLow : 2 ≤ depth
  depthHigh : depth ≤ 8
  gInitBits : j.gInitBits = depth + 1
  clearCode : j.clearCode = 2 ^ depth
  eofCode : j.eofCode = 2 ^ depth + 1
  freeEnt : j.freeEnt = 2 ^ depth + 2
  packet : j.packet.length < 254
  keys : j.htab = []
  codes : CodesCanonical j.codetab
  width : updateWidth j = { j with nBits := depth + 1, maxcode := 2 ^ (depth + 1) - 1, clearFlg := false }

theorem two_pow_depth (hlow : 2 ≤ depth) (hhigh : depth ≤ 8) : 2 ^ 2 ≤ 2 ^ depth ∧ 2 ^ depth ≤ 2 ^ 8 :=
  ⟨Nat.pow_le_pow_right (by omega) hlow, Nat.pow_le_pow_right (by omega) hhigh⟩

/-- After a CLEAR: the initial width, and an empty dictionary. -/
structure Cleared (depth : Nat) (j : EncodeJob) : Prop where
  nBits : j.nBits = depth + 1
  maxcode : j.maxcode = 2 ^ (depth + 1) - 1
  clearFlg : j.clearFlg = false
  freeEnt : j.freeEnt = 2 ^ depth + 2
  keys : j.htab = []

theorem cleared_of_atClear (h : AtClear depth j) (ho : output code j = .ok j') : Cleared depth j' := by
  obtain ⟨⟨hn, hm, hflg⟩, ⟨-, hfree, -⟩, ⟨-, -, hkeys, -⟩, -⟩ := output_registers code j j' h.packet ho
  rw [h.width] at hn hm hflg
  exact ⟨hn, hm, hflg, hfree.trans h.freeEnt, hkeys.trans h.keys⟩

/-- A CLEAR establishes what holds between pixels, `ent` being a code. -/
theorem encodeInv_of_atClear (h : AtClear depth j) (hent : j.ent < 4096) (ho : output code j = .ok j') :
    EncodeInv depth j' := by
  obtain ⟨hn, hm, hflg, hfree, hkeys⟩ := cleared_of_atClear h ho
  obtain ⟨-, ⟨hg, -, hclear, heof⟩, ⟨hent', -, -, hcodes⟩, -, hbits, hpacket⟩ := output_registers code j j' h.packet ho
  have hpow := two_pow_depth h.depthLow h.depthHigh
  have hlow := h.depthLow
  have hhigh := h.depthHigh
  have hg := hg.trans h.gInitBits
  have hclear := hclear.trans h.clearCode
  exact {
    depthLow := hlow, depthHigh := hhigh, gInitBits := hg, clearCode := hclear, eofCode := heof.trans h.eofCode
    clearFlg := hflg, curBits := hbits, packet := hpacket
    ent := hent'.trans_lt hent
    freeLow := by omega
    freeHigh := by omega
    bitsLow := by omega
    bitsHigh := by omega
    maxcode := by rw [hn, hm, if_neg (by omega)]
    freeFits := by rw [hfree, hm, Nat.pow_succ]; omega
    keys := hkeys ▸ keysCanonical_nil
    codes := hcodes ▸ h.codes
    count := by rw [hkeys, hfree, hclear, List.length_nil]; omega
    live := by simp [hkeys] }

/-- R213: the start of the stream. -/
theorem atClear_compressStart (c : Nat) (j : EncodeJob) (hlow : 2 ≤ depth) (hhigh : depth ≤ 8)
    (hcodes : CodesCanonical j.codetab) : AtClear depth (clearHash { compressStart (depth + 1) j with ent := c }) := by
  have hpow := two_pow_depth hlow hhigh
  refine ⟨hlow, hhigh, rfl, rfl, rfl, rfl, by simp, rfl, hcodes, ?_⟩
  rw [updateWidth, if_neg]
  · rfl
  · simp only [clearHash_freeEnt, clearHash_maxcode, compressStart_freeEnt, compressStart_maxcode, clearHash_clearFlg,
      compressStart_clearFlg, Nat.add_sub_cancel, Nat.pow_succ]
    simp
    omega

/-- R250: a block clear, `c` being the pixel that missed. -/
theorem atClear_clearedFor (c : Nat) (h : EncodeInv depth j) : AtClear depth (clearedFor c j) := by
  refine ⟨h.depthLow, h.depthHigh, h.gInitBits, h.clearCode, h.eofCode, ?_, h.packet, rfl, h.codes, ?_⟩
  · show j.clearCode + 2 = _
    rw [h.clearCode]
  · have hflg : (clearedFor c j).clearFlg = true := rfl
    have hinit : (clearedFor c j).gInitBits = depth + 1 := h.gInitBits
    rw [updateWidth, if_pos (.inr hflg), if_pos hflg, hinit]

/-! ### One pixel (R214) -/

/-- How a pixel is taken: a hit; or a miss that sends `ent`, and then inserts the pair or clears the block. -/
theorem takePixel_ok {c : Nat} (h : takePixel c j = .ok j') :
    (∃ i, lookup j.htab (fcode c j.ent) (primarySlot c j.ent) = some (.hit i) ∧
      j' = { j with ent := codeAt j.codetab i }) ∨
    ∃ i w, lookup j.htab (fcode c j.ent) (primarySlot c j.ent) = some (.miss i) ∧ output j.ent j = .ok w ∧
      ((w.freeEnt < 4096 ∧ j' = insert i (fcode c j.ent) { w with ent := c }) ∨
        (¬ w.freeEnt < 4096 ∧ output w.clearCode (clearedFor c w) = .ok j')) := by
  cases hl : lookup j.htab (fcode c j.ent) (primarySlot c j.ent) with
  | none =>
    rw [takePixel_endless c j hl] at h
    cases h
  | some r =>
    cases r with
    | hit i =>
      rw [takePixel_hit c i j hl] at h
      cases h
      exact .inl ⟨i, rfl, rfl⟩
    | miss i =>
      rw [takePixel_miss c i j hl, miss_bind] at h
      obtain ⟨w, hw, ha⟩ := bind_eq_ok h
      refine .inr ⟨i, w, rfl, hw, ?_⟩
      unfold allocate at ha
      split_ifs at ha with hf
      · cases ha
        exact .inl ⟨hf, rfl⟩
      · exact .inr ⟨hf, ha⟩

theorem le_widthAfter (j : EncodeJob) : j.nBits ≤ widthAfter j := by
  rw [widthAfter]
  split_ifs <;> omega

/-- Every pixel keeps what holds between pixels, and the width falls only at a CLEAR (R251). -/
theorem encodeInv_takePixel {c : Nat} (h : EncodeInv depth j) (hc : c < 256) (ht : takePixel c j = .ok j') :
    EncodeInv depth j' ∧
      (j.nBits ≤ j'.nBits ∨ (j'.nBits = depth + 1 ∧ j'.freeEnt = 2 ^ depth + 2 ∧ j'.htab = [])) := by
  obtain ⟨i, -, rfl⟩ | ⟨i, w, hl, hw, ⟨hf, rfl⟩ | ⟨-, ho⟩⟩ := takePixel_ok ht
  · exact ⟨encodeInv_ent h _ (codeAt_lt _ _), .inl le_rfl⟩
  · obtain ⟨hinv, hn, hroom⟩ := encodeInv_output h hw
    obtain ⟨-, -, ⟨-, -, hkeys, -⟩, -⟩ := output_registers _ _ _ h.packet hw
    refine ⟨encodeInv_insert _ (encodeInv_ent hinv c (by omega)) ?_ (lookup_pixel_slot _ c _ _ hc h.ent hl) hroom hf,
      .inl ?_⟩
    · show find w.htab i = none
      rw [hkeys]
      exact lookup_miss_empty _ _ _ _ hl
    · show j.nBits ≤ w.nBits
      rw [hn]
      exact le_widthAfter j
  · obtain ⟨hinv, -, -⟩ := encodeInv_output h hw
    have hat := atClear_clearedFor c hinv
    obtain ⟨hn, -, -, hfree, hkeys⟩ := cleared_of_atClear hat ho
    exact ⟨encodeInv_of_atClear hat (show c < 4096 by omega) ho, .inr ⟨hn, hfree, hkeys⟩⟩

end

/-- Settles O56: the CLEAR that starts the stream establishes the registers' invariant, each way to take a pixel keeps it,
and a miss with no code left sends `ent` and then a CLEAR. -/
theorem encoderRegistersKept : Obligations.EncoderRegistersKept := by
  refine ⟨fun depth c j j' hlow hhigh hc hcodes ho => ?_, fun depth c j j' h hc ht => encodeInv_takePixel h hc ht,
    fun depth c i key j h hsink hfull => ?_⟩
  · exact encodeInv_of_atClear (atClear_compressStart c j hlow hhigh hcodes) (show c < 4096 by omega) ho
  · obtain ⟨w, hw, hacc⟩ := output_accepting j.ent j hsink
    obtain ⟨j', ho, -⟩ := output_accepting w.clearCode (clearedFor c w) hacc
    have hat := atClear_clearedFor c (encodeInv_output h hw).1
    obtain ⟨-, ⟨-, hfree, -⟩, ⟨-, -, -, hcodes⟩, -⟩ := output_registers _ _ _ h.packet hw
    obtain ⟨-, -, ⟨hent, -, -, hcodes'⟩, -⟩ := output_registers _ _ _ hat.packet ho
    obtain ⟨hn, hm, hflg, hfree', hkeys⟩ := cleared_of_atClear hat ho
    refine ⟨j', ?_, hkeys, hcodes'.trans hcodes, hfree', hn, hm, hflg, hent⟩
    rw [miss_bind, hw]
    show allocate c i key w = _
    rw [allocate, if_neg (by rw [hfree, hfull]; decide), clearBlock_eq, ho]

end Sys2Proof.Proofs

/-! What the stream depends on (44_lzw_encode.md R211, R220, 10_state.md R52): two runs over the same pixels, from whatever an
earlier job left, send the same bytes (O55). -/

namespace Sys2Proof.Proofs

open Sys2Proof.Machine Sys2Proof.Safety Sys2Proof.Laws

/-! ### Two runs that end alike -/

/-- Both operations go on, or both end with a sink failure, in registers that `R` relates; or both are stuck alike. -/
def Alike (R : EncodeJob → EncodeJob → Prop) : EncodeStep → EncodeStep → Prop
  | .ok j, .ok j' => R j j'
  | .error (.ioFailure j), .error (.ioFailure j') => R j j'
  | .error (.stuck f), .error (.stuck f') => f = f'
  | _, _ => False

/-- What two operations that end alike are. -/
theorem Alike.elim {R : EncodeJob → EncodeJob → Prop} {r r' : EncodeStep} (h : Alike R r r') :
    (∃ j j', r = .ok j ∧ r' = .ok j' ∧ R j j') ∨
      (∃ j j', r = .error (.ioFailure j) ∧ r' = .error (.ioFailure j') ∧ R j j') ∨
      ∃ f, r = .error (.stuck f) ∧ r' = .error (.stuck f) := by
  match r, r', h with
  | .ok j, .ok j', h => exact .inl ⟨j, j', rfl, rfl, h⟩
  | .error (.ioFailure j), .error (.ioFailure j'), h => exact .inr (.inl ⟨j, j', rfl, rfl, h⟩)
  | .error (.stuck f), .error (.stuck f'), h => exact .inr (.inr ⟨f, rfl, by rw [show f = f' from h]⟩)

theorem Alike.mono {R S : EncodeJob → EncodeJob → Prop} {r r' : EncodeStep} (h : Alike R r r')
    (hS : ∀ j j', R j j' → S j j') : Alike S r r' := by
  obtain ⟨j, j', rfl, rfl, hR⟩ | ⟨j, j', rfl, rfl, hR⟩ | ⟨e, rfl, rfl⟩ := h.elim
  · exact hS j j' hR
  · exact hS j j' hR
  · exact rfl

theorem Alike.bind {R S : EncodeJob → EncodeJob → Prop} {r r' : EncodeStep} {f f' : EncodeJob → EncodeStep}
    (h : Alike R r r') (hf : ∀ j j', r = .ok j → R j j' → Alike S (f j) (f' j')) (hS : ∀ j j', R j j' → S j j') :
    Alike S (r.bind f) (r'.bind f') := by
  obtain ⟨j, j', rfl, rfl, hR⟩ | ⟨j, j', rfl, rfl, hR⟩ | ⟨e, rfl, rfl⟩ := h.elim
  · exact hf j j' rfl hR
  · exact hS j j' hR
  · exact rfl

/-- The same registers in two runs, but for `LZ_OUTLEN`, for OUT, which has grown from `base` and from `base'` by the same
bytes, and for the codes that stand in slots without a key, which nothing reads (10_state.md R45). -/
inductive Twin (base base' : List Byte) (j : EncodeJob) : EncodeJob → Prop
  | mk (bs : List Byte) (outlen : Word) (codetab : CodeTable) (hout : j.out = base ++ bs)
      (hlive : ∀ i, find j.htab i ≠ none → codeAt codetab i = codeAt j.codetab i) :
      Twin base base' j { j with out := base' ++ bs, outlen := outlen, codetab := codetab }

section
variable {base base' : List Byte} {j j' : EncodeJob}

theorem Alike.thenTwin {r r' : EncodeStep} {f f' : EncodeJob → EncodeStep} (h : Alike (Twin base base') r r')
    (hf : ∀ j j', Twin base base' j j' → Alike (Twin base base') (f j) (f' j')) :
    Alike (Twin base base') (r.bind f) (r'.bind f') :=
  h.bind (fun j j' _ => hf j j') fun _ _ => id

theorem outWrite_alike (v : Byte) (h : Twin base base' j j') :
    Alike (Twin base base') (outWrite v j) (outWrite v j') := by
  obtain ⟨bs, l, t, hout, hlive⟩ := h
  cases hd : j.sink.draw.1 with
  | accept =>
    rw [outWrite_accept v j hd, outWrite_accept v _ (by exact hd)]
    have hgrown := Twin.mk (base := base) (base' := base')
      (j := { j with sink := j.sink.draw.2, out := j.out ++ [v], outlen := outlenNext j.outlen (j.out.length + 1) })
      (bs ++ [v]) (outlenNext l ((base' ++ bs).length + 1)) t (by simp [hout]) hlive
    rw [← List.append_assoc] at hgrown
    exact hgrown
  | fail =>
    rw [outWrite_fail v j hd, outWrite_fail v _ (by exact hd)]
    exact .mk bs l t hout hlive

theorem outWrites_alike (vs : List Byte) (h : Twin base base' j j') :
    Alike (Twin base base') (outWrites vs j) (outWrites vs j') := by
  induction vs generalizing j j' with
  | nil => exact h
  | cons v vs ih =>
    rw [outWrites_cons, outWrites_cons]
    exact (outWrite_alike v h).thenTwin fun _ _ => ih

theorem flushChar_alike (h : Twin base base' j j') : Alike (Twin base base') (flushChar j) (flushChar j') := by
  obtain ⟨bs, l, t, hout, hlive⟩ := h
  rw [flushChar_bind, flushChar_bind]
  dsimp only
  split_ifs
  · refine (outWrites_alike _ (.mk bs l t hout hlive)).thenTwin fun w w' hw => ?_
    obtain ⟨bs, l, t, hout, hlive⟩ := hw
    exact Twin.mk bs l t hout hlive
  · exact Twin.mk bs l t hout hlive

theorem charOut_alike (b : Byte) (h : Twin base base' j j') : Alike (Twin base base') (charOut b j) (charOut b j') := by
  obtain ⟨bs, l, t, hout, hlive⟩ := h
  rw [charOut_eq, charOut_eq]
  dsimp only
  split_ifs
  · exact flushChar_alike (.mk bs l t hout hlive)
  · exact Twin.mk bs l t hout hlive

theorem shiftByte_alike (h : Twin base base' j j') : Alike (Twin base base') (shiftByte j) (shiftByte j') := by
  have hacc : j'.curAccum = j.curAccum := by cases h; rfl
  rw [shiftByte_bind, shiftByte_bind, hacc]
  refine (charOut_alike _ h).thenTwin fun w w' hw => ?_
  obtain ⟨bs, l, t, hout, hlive⟩ := hw
  exact Twin.mk bs l t hout hlive

theorem drainBytes_alike (n : Nat) (h : Twin base base' j j') :
    Alike (Twin base base') (drainBytes n j) (drainBytes n j') := by
  induction n generalizing j j' with
  | zero => exact h
  | succ n ih =>
    have hbits : j'.curBits = j.curBits := by cases h; rfl
    rw [drainBytes_succ, drainBytes_succ, hbits]
    split_ifs
    · exact (shiftByte_alike h).thenTwin fun _ _ => ih
    · exact h

theorem drainBits_alike (n : Nat) (h : Twin base base' j j') :
    Alike (Twin base base') (drainBits n j) (drainBits n j') := by
  induction n generalizing j j' with
  | zero => exact h
  | succ n ih =>
    have hbits : j'.curBits = j.curBits := by cases h; rfl
    rw [drainBits_succ, drainBits_succ, hbits]
    split_ifs
    · exact (shiftByte_alike h).thenTwin fun _ _ => ih
    · exact h

theorem pack_alike (code : Nat) (h : Twin base base' j j') : Alike (Twin base base') (pack code j) (pack code j') := by
  obtain ⟨bs, l, t, hout, hlive⟩ := h
  exact drainBytes_alike _ (.mk bs l t hout hlive)

theorem finalFlush_alike (h : Twin base base' j j') : Alike (Twin base base') (finalFlush j) (finalFlush j') := by
  have hbits : j'.curBits = j.curBits := by cases h; rfl
  rw [finalFlush_bind, finalFlush_bind, hbits]
  refine (drainBits_alike _ h).thenTwin fun w w' hw => ?_
  obtain ⟨bs, l, t, hout, hlive⟩ := hw
  exact flushChar_alike (.mk bs l t hout hlive)

theorem updateWidth_twin (h : Twin base base' j j') : Twin base base' (updateWidth j) (updateWidth j') := by
  obtain ⟨bs, l, t, hout, hlive⟩ := h
  unfold updateWidth
  dsimp only
  split_ifs <;> exact .mk bs l t hout hlive

theorem output_alike (code : Nat) (h : Twin base base' j j') :
    Alike (Twin base base') (output code j) (output code j') := by
  rw [output_bind, output_bind]
  refine (pack_alike code h).thenTwin fun w w' hw => ?_
  have heof : w'.eofCode = w.eofCode := by cases hw; rfl
  rw [heof]
  split_ifs
  · exact finalFlush_alike (updateWidth_twin hw)
  · exact updateWidth_twin hw

/-- The insert gives the slot its key and its code in both runs; a block clear empties the dictionary of both. -/
theorem allocate_alike (c i : Nat) (key : BitVec 20) (h : Twin base base' j j') :
    Alike (Twin base base') (allocate c i key j) (allocate c i key j') := by
  obtain ⟨bs, l, t, hout, hlive⟩ := h
  unfold allocate
  dsimp only
  split_ifs
  · refine Twin.mk (j := insert i key { j with ent := c }) bs l
      (writeDefault 0 t i (BitVec.ofNat 12 j.freeEnt)) hout fun k hk => ?_
    show codeAt (writeDefault 0 t i _) k = codeAt (writeDefault 0 j.codetab i _) k
    by_cases hki : k = i
    · subst hki
      simp only [codeAt, readDefault_write_same]
    · rw [codeAt_write_other _ _ _ _ hki, codeAt_write_other _ _ _ _ hki]
      exact hlive k (by rwa [insert_htab, find_put_other _ _ _ _ hki] at hk)
  · exact output_alike _ (Twin.mk (j := clearedFor c j) bs l t hout fun k hk => absurd rfl hk)

theorem takePixel_alike (c : Nat) (h : Twin base base' j j') :
    Alike (Twin base base') (takePixel c j) (takePixel c j') := by
  obtain ⟨bs, l, t, hout, hlive⟩ := h
  cases hl : lookup j.htab (fcode c j.ent) (primarySlot c j.ent) with
  | none =>
    rw [takePixel_endless c j hl, takePixel_endless c _ (by exact hl)]
    exact rfl
  | some r =>
    cases r with
    | hit i =>
      rw [takePixel_hit c i j hl, takePixel_hit c i _ (by exact hl)]
      dsimp only
      rw [hlive i (by rw [lookup_hit_key _ _ _ _ hl]; simp)]
      exact Twin.mk (j := { j with ent := codeAt j.codetab i }) bs l t hout hlive
    | miss i =>
      rw [takePixel_miss c i j hl, takePixel_miss c i _ (by exact hl), miss_bind, miss_bind]
      exact (output_alike j.ent (.mk bs l t hout hlive)).thenTwin fun _ _ => allocate_alike c i _

/-! ### The pixels -/

/-- The pixel cursor is `NextPixel`'s alone (R212). -/
theorem takePixel_curPixel {c : Nat} (hc : c < 256) (h : takePixel c j = .ok j') : j'.curPixel = j.curPixel := by
  have hkeep := (curPixel_invariant j.curPixel).takePixel c j rfl hc
  rwa [h] at hkeep

theorem pixRead_congr {pix pix' : Buffer} {a : Nat} (h : pix'.get a = pix.get a) : pixRead pix' a = pixRead pix a := by
  rw [pixRead, h, pixRead]

theorem mainLoop_alike (pix pix' : Buffer) (n : Nat) (h : Twin base base' j j')
    (hpix : ∀ a, a < j.curPixel + n → pix'.get a = pix.get a) :
    Alike (Twin base base') (mainLoop pix n j) (mainLoop pix' n j') := by
  induction n generalizing j j' with
  | zero =>
    have hent : j'.ent = j.ent := by cases h; rfl
    rw [mainLoop_zero, mainLoop_zero, hent]
    refine (output_alike _ h).thenTwin fun w w' hw => ?_
    have heof : w'.eofCode = w.eofCode := by cases hw; rfl
    rw [heof]
    exact output_alike _ hw
  | succ n ih =>
    have hcur : j'.curPixel = j.curPixel := by cases h; rfl
    have hread := pixRead_congr (hpix j.curPixel (by omega))
    rw [← hcur] at hread
    cases hv : pixRead pix j.curPixel with
    | error f =>
      rw [mainLoop_stuck pix n j f hv, mainLoop_stuck pix' n j' f (by rw [hread, hcur, hv])]
      exact rfl
    | ok v =>
      rw [mainLoop_succ pix n j v hv, mainLoop_succ pix' n j' v (by rw [hread, hcur, hv])]
      have hnext : Twin base base' { j with curPixel := j.curPixel + 1 } { j' with curPixel := j'.curPixel + 1 } := by
        obtain ⟨bs, l, t, hout, hlive⟩ := h
        exact .mk bs l t hout hlive
      refine (takePixel_alike v.toNat hnext).bind (fun w w' hw htwin => ?_) fun _ _ => id
      have hcur' : w.curPixel = j.curPixel + 1 := takePixel_curPixel v.isLt hw
      exact ih htwin fun a ha => hpix a (by omega)

/-- `Compress` sets or clears every register and the dictionary before it reads them (R213, R220). -/
theorem compress_alike (pix pix' : Buffer) (n initBits : Nat) (bs : List Byte) (hcur : j'.curPixel = j.curPixel)
    (hsink : j'.sink = j.sink) (hout : j.out = base ++ bs) (hout' : j'.out = base' ++ bs)
    (hpix : ∀ a, a < j.curPixel + n → pix'.get a = pix.get a) :
    Alike (Twin base base') (compress pix n initBits j) (compress pix' n initBits j') := by
  cases n with
  | zero => exact rfl
  | succ n =>
    have hread := pixRead_congr (hpix j.curPixel (by omega))
    rw [← hcur] at hread
    cases hv : pixRead pix j.curPixel with
    | error f =>
      rw [compress_stuck pix n initBits j f hv, compress_stuck pix' n initBits j' f (by rw [hread, hcur, hv])]
      exact rfl
    | ok v =>
      rw [compress_succ pix n initBits j v hv, compress_succ pix' n initBits j' v (by rw [hread, hcur, hv])]
      have hfirst : firstPrefix initBits v.toNat j' =
          { firstPrefix initBits v.toNat j with out := base' ++ bs, outlen := j'.outlen, codetab := j'.codetab } := by
        simp only [firstPrefix, clearHash, compressStart, hcur, hsink, hout']
      rw [hfirst]
      have htwin := Twin.mk (base' := base') (j := firstPrefix initBits v.toNat j) bs j'.outlen j'.codetab hout
        fun k hk => absurd rfl hk
      refine (output_alike _ htwin).bind (fun w w' hw hnext => ?_) fun _ _ => id
      have hkeep := (curPixel_invariant (j.curPixel + 1)).output (2 ^ (initBits - 1)) (firstPrefix initBits v.toNat j) rfl
      rw [hw] at hkeep
      replace hkeep : w.curPixel = j.curPixel + 1 := hkeep
      exact mainLoop_alike pix pix' n hnext fun a ha => hpix a (by omega)

end

/-! ### The whole encode -/

/-- OUT has grown from `base` and from `base'` by the same bytes, and the sinks have the same answers left. -/
def SameStream (base base' : List Byte) (j j' : EncodeJob) : Prop :=
  ∃ bs, j.out = base ++ bs ∧ j'.out = base' ++ bs ∧ j'.sink = j.sink

theorem Twin.sameStream {base base' : List Byte} {j j' : EncodeJob} (h : Twin base base' j j') :
    SameStream base base' j j' := by
  obtain ⟨bs, l, t, hout, hlive⟩ := h
  exact ⟨bs, hout, rfl, rfl⟩

theorem encodeRun_alike (s s' : State) (hcode : s'.lz.initCodeSize = s.lz.initCodeSize)
    (hpixels : s'.lz.pixels = s.lz.pixels) (hpix : ∀ a, a < s.lz.pixels → s'.pix.get a = s.pix.get a)
    (hsink : s'.sink = s.sink) : Alike (SameStream s.out s'.out) (encodeRun s) (encodeRun s') := by
  rw [encodeRun_bind, encodeRun_bind, hcode, hpixels]
  cases hd : s.sink.draw.1 with
  | accept =>
    rw [outWrite_accept _ (encodeStart s) (by exact hd), outWrite_accept _ (encodeStart s') (by rw [← hd, ← hsink]; rfl)]
    show Alike _ ((compress s.pix _ _ _).bind (outWrite 0)) ((compress s'.pix _ _ _).bind (outWrite 0))
    refine Alike.bind (R := Twin s.out s'.out) ?_ (fun w w' _ hw => (outWrite_alike 0 hw).mono fun _ _ => Twin.sameStream)
      fun _ _ => Twin.sameStream
    exact compress_alike s.pix s'.pix _ _ [s.lz.initCodeSize.setWidth 8] rfl (congrArg (fun k : Sink => k.draw.2) hsink)
      rfl rfl fun a ha => hpix a (by simpa using ha)
  | fail =>
    rw [outWrite_fail _ (encodeStart s) (by exact hd), outWrite_fail _ (encodeStart s') (by rw [← hd, ← hsink]; rfl)]
    exact ⟨[], by simp, by simp, congrArg (fun k : Sink => k.draw.2) hsink⟩

/-- The encode of `s` ends, by itself or at a byte the sink fails, with the registers `j`. -/
def EndsWith (s : State) (j : EncodeJob) : Prop := encodeRun s = .ok j ∨ encodeRun s = .error (.ioFailure j)

/-- However an encode ends, `LZ_OUTLEN` counts the bytes that were accepted (10_state.md R43). -/
theorem EndsWith.delivered {s : State} {j : EncodeJob} (h : EndsWith s j) : ∃ bs, Delivered s.sink s.out bs j := by
  have hside := encodeRun_sideBySide s
  obtain h | h := h <;> rw [h] at hside
  · obtain ⟨a, k, -, rfl, -, bs, hd, -⟩ := hside
    exact ⟨bs, hd.out, hd.accepted, hd.count⟩
  · obtain ⟨bs, -, hd, -⟩ := hside
    exact ⟨bs, hd⟩

theorem EndsWith.outlen {s : State} {j : EncodeJob} {stream : List Byte} (h : EndsWith s j)
    (hout : j.out = s.out ++ stream) (hlen : stream.length < 2 ^ 32) : j.outlen.toNat = stream.length := by
  obtain ⟨bs, hd⟩ := h.delivered
  obtain rfl : bs = stream := List.append_cancel_left (hd.out.symm.trans hout)
  exact hd.count hlen

theorem outlen_eq_of_sameStream {s s' : State} {j j' : EncodeJob} {stream : List Byte} (h : EndsWith s j)
    (h' : EndsWith s' j') (hout : j.out = s.out ++ stream) (hout' : j'.out = s'.out ++ stream)
    (hlen : stream.length < 2 ^ 32) : j'.outlen = j.outlen :=
  BitVec.eq_of_toNat_eq ((h'.outlen hout' hlen).trans (h.outlen hout hlen).symm)

/-- Settles O55: the two runs stay twins to the end, whichever way they end. -/
theorem streamDependsOnImageOnly : Obligations.StreamDependsOnImageOnly := by
  intro s s' hp hp' hcode hpixels hpix hsink
  obtain ⟨j, j', hj, hj', stream, hout, hout', hk⟩ | ⟨j, j', hj, hj', stream, hout, hout', hk⟩ | ⟨f, hf, hf'⟩ :=
    (encodeRun_alike s s' hcode hpixels hpix hsink).elim
  · rw [exec_lzEncode_of_ok s j hp hj, exec_lzEncode_of_ok s' j' hp' hj']
    refine ⟨fun t ht => ?_, by simp⟩
    cases ht
    exact ⟨_, stream, rfl, hout, hout', rfl, rfl, hk, outlen_eq_of_sameStream (.inl hj) (.inl hj') hout hout'⟩
  · rw [exec_lzEncode_of_ioFailure s j hp hj, exec_lzEncode_of_ioFailure s' j' hp' hj']
    refine ⟨fun t ht => ?_, by simp⟩
    cases ht
    exact ⟨_, stream, rfl, hout, hout', rfl, rfl, hk, outlen_eq_of_sameStream (.inr hj) (.inr hj') hout hout'⟩
  · rw [exec_lzEncode_of_stuck s f hp hf, exec_lzEncode_of_stuck s' f hp' hf']
    exact ⟨fun t ht => by simp at ht, fun f h => h⟩

end Sys2Proof.Proofs

/-! The stream of 44_lzw_encode.md R211 as bits (45_lzw_bitpack.md R241 to R246): which code bits each operation sends, in
which sub-blocks. Whatever the codes are, the sub-blocks take apart again to the payload (R253), and every code of an
image is sent (O51). -/

namespace Sys2Proof.Proofs

open Sys2Proof.Machine Sys2Proof.Safety Sys2Proof.Laws

/-! ### Bits of numbers -/

@[simp] theorem length_natBits (n x : Nat) : (natBits n x).length = n := by simp [natBits]

theorem natBits_add (m n x : Nat) : natBits (m + n) x = natBits m x ++ natBits n (x / 2 ^ m) := by
  simp [natBits, List.range_add, Nat.testBit_div_two_pow, Function.comp_def, Nat.add_comm]

theorem byteBits_ofNat (x : Nat) : byteBits (BitVec.ofNat 8 x) = natBits 8 x := by
  refine List.map_congr_left fun k hk => ?_
  have := List.mem_range.mp hk
  rw [BitVec.getLsbD_ofNat, decide_eq_true this, Bool.true_and]

theorem natBits_congr (n x y : Nat) (h : ∀ k, k < n → x.testBit k = y.testBit k) : natBits n x = natBits n y :=
  List.map_congr_left fun k hk => h k (List.mem_range.mp hk)

/-- R241: the code is laid above the pending bits, and what was left above those is masked away. -/
theorem natBits_accumulate (accum bits n code : Nat) :
    natBits (bits + n) (accumulate accum bits code) = natBits bits accum ++ natBits n code := by
  rw [natBits_add]
  unfold accumulate
  split_ifs with h
  · congr 1
    · refine natBits_congr _ _ _ fun k hk => ?_
      simp [Nat.testBit_mul_two_pow, Config.masks, hk, Nat.not_le.mpr hk]
    · refine natBits_congr _ _ _ fun k _ => ?_
      simp [Nat.testBit_div_two_pow, Nat.testBit_mul_two_pow, Config.masks]
  · obtain rfl : bits = 0 := by omega
    simp [natBits]

theorem natBits_succ (n x : Nat) : natBits (n + 1) x = x.testBit 0 :: natBits n (x / 2) := by
  rw [Nat.add_comm, natBits_add 1 n]
  rfl

theorem bitsValue_natBits (n x : Nat) (h : x < 2 ^ n) : bitsValue (natBits n x) = x := by
  induction n generalizing x with
  | zero => exact (Nat.lt_one_iff.mp h).symm
  | succ n ih =>
    rw [Nat.pow_succ] at h
    rw [natBits_succ, bitsValue, ih (x / 2) (by omega), Nat.testBit_zero]
    have hmod := Nat.div_add_mod x 2
    obtain h0 | h1 := Nat.mod_two_eq_zero_or_one x
    · simp [h0]
      omega
    · simp [h1]
      omega

/-! ### What was sent, between two states of the registers -/

/-- A sub-block's payload (45_lzw_bitpack.md R243, R244). -/
def IsBlock (b : List Byte) : Prop := b ≠ [] ∧ b.length ≤ 254

/-- From `j` to `j'` OUT has grown by whole sub-blocks, and with the code bits `bits` added the bits that waited in `j` are
those of the sub-blocks and then those that wait in `j'`. -/
def Writes (bits : List Bool) (j j' : EncodeJob) : Prop :=
  ∃ blocks : List (List Byte), (∀ b ∈ blocks, IsBlock b) ∧ j'.out = j.out ++ blocks.flatMap block ∧
    waitingBits j ++ bits = blocks.flatten.flatMap byteBits ++ waitingBits j'

theorem Writes.nothing {j j' : EncodeJob} (hout : j'.out = j.out) (hbits : waitingBits j' = waitingBits j) :
    Writes [] j j' := ⟨[], by simp, by simp [hout], by simp [hbits]⟩

theorem Writes.trans {a b : List Bool} {j k l : EncodeJob} (h₁ : Writes a j k) (h₂ : Writes b k l) :
    Writes (a ++ b) j l := by
  obtain ⟨x, hx, ox, bx⟩ := h₁
  obtain ⟨y, hy, oy, yb⟩ := h₂
  refine ⟨x ++ y, fun b hb => (List.mem_append.mp hb).elim (hx b) (hy b), ?_, ?_⟩
  · rw [oy, ox, List.flatMap_append, List.append_assoc]
  · rw [← List.append_assoc, bx, List.append_assoc, yb, List.flatten_append, List.flatMap_append, List.append_assoc]

section
variable {j j' : EncodeJob}

/-- R243: a payload byte is buffered, or completes the sub-block that is sent. -/
theorem charOut_writes (b : Byte) (hp : j.packet.length < 254) (h : charOut b j = .ok j') :
    ∃ blocks : List (List Byte), (∀ b ∈ blocks, IsBlock b) ∧ j'.out = j.out ++ blocks.flatMap block ∧
      j.packet ++ [b] = blocks.flatten ++ j'.packet := by
  rw [charOut_eq] at h
  split_ifs at h with hfull
  · have e := flushChar_ok _ j' h
    refine ⟨[j.packet ++ [b]], ?_, by rw [e]; simp, by rw [e]; simp⟩
    intro x hx
    obtain rfl := List.mem_singleton.mp hx
    exact ⟨by simp, by rw [List.length_append, List.length_singleton]; omega⟩
  · cases h
    exact ⟨[], by simp, by simp, by simp⟩

/-- One byte of the accumulator, with padding above its pending bits where these are fewer than 8 (R241, R246). -/
theorem shiftByte_writes (hp : j.packet.length < 254) (h : shiftByte j = .ok j') :
    Writes (natBits (8 - j.curBits) (j.curAccum / 2 ^ j.curBits)) j j' := by
  obtain ⟨w, hw, rfl⟩ := shiftByte_ok j j' h
  obtain ⟨blocks, hb, hout, hpack⟩ := charOut_writes _ hp hw
  obtain ⟨hacc, hbits⟩ := charOut_bits _ j w hw
  have hpacket := congrArg (List.flatMap byteBits) hpack
  rw [List.flatMap_append, List.flatMap_append, List.flatMap_singleton, byteBits_ofNat] at hpacket
  refine ⟨blocks, hb, hout, ?_⟩
  rw [waitingBits, waitingBits, List.append_assoc, ← natBits_add, ← List.append_assoc, ← hpacket, List.append_assoc,
    hacc, hbits, ← natBits_add]
  congr 2
  show j.curBits + (8 - j.curBits) = 8 + (j.curBits - 8)
  omega

theorem drainBytes_writes (n : Nat) (hp : j.packet.length < 254) (h : drainBytes n j = .ok j') : Writes [] j j' := by
  induction n generalizing j with
  | zero =>
    cases h
    exact .nothing rfl rfl
  | succ n ih =>
    rw [drainBytes_succ] at h
    split_ifs at h with h8
    · obtain ⟨w, hw, hn⟩ := bind_eq_ok h
      have hone := shiftByte_writes hp hw
      rw [Nat.sub_eq_zero_of_le h8] at hone
      exact hone.trans (ih (shiftByte_packet j w hp hw) hn)
    · cases h
      exact .nothing rfl rfl

/-- R241: the code's bits, as many as the width, least significant first, whether or not the code fits. -/
theorem pack_writes (code : Nat) (hp : j.packet.length < 254) (h : pack code j = .ok j') :
    Writes (natBits j.nBits code) j j' := by
  obtain ⟨blocks, hb, hout, hbits⟩ := drainBytes_writes _ (by exact hp) h
  refine ⟨blocks, hb, hout, ?_⟩
  rw [← hbits, List.append_nil, waitingBits, waitingBits, natBits_accumulate, List.append_assoc]

theorem drainBits_writes (n : Nat) (hp : j.packet.length < 254) (h : drainBits n j = .ok j') :
    j'.packet.length < 254 ∧ ∃ pad, Writes pad j j' := by
  induction n generalizing j with
  | zero =>
    cases h
    exact ⟨hp, [], .nothing rfl rfl⟩
  | succ n ih =>
    rw [drainBits_succ] at h
    split_ifs at h
    · obtain ⟨w, hw, hn⟩ := bind_eq_ok h
      obtain ⟨hp', pad, hrest⟩ := ih (shiftByte_packet j w hp hw) hn
      exact ⟨hp', _, (shiftByte_writes hp hw).trans hrest⟩
    · cases h
      exact ⟨hp, [], .nothing rfl rfl⟩

/-- R244: a flush sends what is buffered, if anything is. -/
theorem flushChar_writes (hp : j.packet.length < 254) (h : flushChar j = .ok j') : Writes [] j j' := by
  have e := flushChar_ok j j' h
  by_cases hne : j.packet = []
  · refine .nothing (by rw [e]; simp [block, hne]) (by rw [e]; simp [waitingBits, hne])
  · refine ⟨[j.packet], ?_, by rw [e]; simp, by rw [e]; simp [waitingBits]⟩
    intro b hb
    obtain rfl := List.mem_singleton.mp hb
    exact ⟨hne, by omega⟩

/-- R246: padding bits at most, and nothing waits any more. -/
theorem finalFlush_writes (hp : j.packet.length < 254) (h : finalFlush j = .ok j') :
    waitingBits j' = [] ∧ ∃ pad, Writes pad j j' := by
  obtain ⟨-, hpacket, hbits⟩ := finalFlush_ok j j' h
  refine ⟨by simp [waitingBits, hpacket, hbits, natBits], ?_⟩
  rw [finalFlush_bind] at h
  obtain ⟨w, hw, hflush⟩ := bind_eq_ok h
  obtain ⟨hp', pad, hdrain⟩ := drainBits_writes _ hp hw
  have hzero : w.curBits = 0 := drainBits_bits _ j w le_rfl hw
  have hset : Writes [] w { w with curBits := 0 } := .nothing rfl (by simp [waitingBits, hzero])
  exact ⟨_, (hdrain.trans hset).trans (flushChar_writes (by exact hp') hflush)⟩

/-- What `Output` sends (R240): the code at the width before it; and after the code `EOFCode` padding, and all that waits. -/
theorem output_writes (code : Nat) (hp : j.packet.length < 254) (h : output code j = .ok j') :
    (code ≠ j.eofCode → Writes (natBits j.nBits code) j j') ∧
      (code = j.eofCode → waitingBits j' = [] ∧ ∃ pad, Writes (natBits j.nBits code ++ pad) j j') := by
  rw [output_bind] at h
  obtain ⟨w, hw, hrest⟩ := bind_eq_ok h
  have hpack := pack_writes code hp hw
  have hwidth : Writes [] w (updateWidth w) := .nothing (by simp) (by simp [waitingBits])
  rw [(pack_stream code j w hw).eofCode] at hrest
  split_ifs at hrest with heof
  · refine ⟨fun hne => absurd heof hne, fun _ => ?_⟩
    obtain ⟨hnone, pad, hflush⟩ := finalFlush_writes (by simpa using (pack_bits code j w hp hw).2) hrest
    exact ⟨hnone, _, hpack.trans (hwidth.trans hflush)⟩
  · cases hrest
    refine ⟨fun _ => ?_, fun h => absurd h heof⟩
    simpa using hpack.trans hwidth

end

/-! ### Sub-blocks taken apart again (45_lzw_bitpack.md R253) -/

theorem deframe_terminator (n : Nat) : deframe (n + 1) [0] = some [] := by simp [deframe]

/-- The decoder's reading of a sub-block: its payload, then what follows. -/
theorem deframe_block (n : Nat) (b rest : List Byte) (hb : IsBlock b) :
    deframe (n + 1) (block b ++ rest) = (deframe n rest).map (b ++ ·) := by
  obtain ⟨hne, hlen⟩ := hb
  have hpos := List.length_pos_iff.mpr hne
  have hcount : (BitVec.ofNat 8 b.length).toNat = b.length := by
    rw [BitVec.toNat_ofNat]
    omega
  have hzero : BitVec.ofNat 8 b.length ≠ 0 := by
    intro h
    rw [h] at hcount
    simp at hcount
    omega
  rw [block, if_neg hne, List.cons_append, deframe, if_neg hzero, hcount, if_pos (by simp), List.drop_left,
    List.take_left]

theorem deframe_blocks (blocks : List (List Byte)) (hb : ∀ b ∈ blocks, IsBlock b) (n : Nat)
    (hn : (blocks.flatMap block ++ [0]).length ≤ n) :
    deframe n (blocks.flatMap block ++ [0]) = some blocks.flatten := by
  induction blocks generalizing n with
  | nil =>
    obtain ⟨m, rfl⟩ : ∃ m, n = m + 1 := ⟨n - 1, by simp at hn; omega⟩
    exact deframe_terminator m
  | cons b blocks ih =>
    have hone := List.length_pos_iff.mpr (hb b List.mem_cons_self).1
    rw [List.flatMap_cons, List.append_assoc] at hn ⊢
    obtain ⟨m, rfl⟩ : ∃ m, n = m + 1 := ⟨n - 1, by
      simp only [List.length_append, List.length_singleton] at hn
      omega⟩
    have hblock : (block b).length = b.length + 1 := by simp [block, (hb b List.mem_cons_self).1]
    rw [List.length_append, hblock] at hn
    rw [deframe_block m b _ (hb b List.mem_cons_self), ih (fun x hx => hb x (List.mem_cons_of_mem _ hx)) m (by omega)]
    rfl

/-! ### Runs that complete (44_lzw_encode.md R211, R218) -/

section
variable {depth : Nat} {j j' : EncodeJob} (pix : Buffer)

theorem encodeInv_curPixel (h : EncodeInv depth j) (k : Nat) : EncodeInv depth { j with curPixel := k } := { h with }

/-- The dictionary of the invariant has as many keys as codes are allocated, so it is never full (R218). -/
theorem roomy_of_encodeInv (h : EncodeInv depth j) : Roomy j := by
  have hlow := h.freeLow
  have hhigh := h.freeHigh
  exact ⟨by rw [h.count]; omega, hhigh, by omega, h.ent⟩

/-- What the main loop does with a pixel that PIX has. -/
theorem mainLoop_of_lt (n : Nat) (j : EncodeJob) (h : j.curPixel < pix.size.toNat) :
    mainLoop pix (n + 1) j =
      (takePixel (Memory.read pix.mem j.curPixel).toNat { j with curPixel := j.curPixel + 1 }).bind (mainLoop pix n) :=
  mainLoop_succ pix n j _ (pixRead_of_lt pix _ h)

theorem mainLoop_accepting (n : Nat) (h : EncodeInv depth j) (hsink : Accepting j.sink)
    (hpix : j.curPixel + n ≤ pix.size.toNat) : ∃ j', mainLoop pix n j = .ok j' ∧ Accepting j'.sink := by
  induction n generalizing j with
  | zero =>
    obtain ⟨w, hw, hacc⟩ := output_accepting j.ent j hsink
    rw [mainLoop_zero, hw]
    exact output_accepting w.eofCode w hacc
  | succ n ih =>
    have hc := (Memory.read pix.mem j.curPixel).isLt
    have hread := encodeInv_curPixel h (j.curPixel + 1)
    obtain ⟨w, hw, hacc⟩ := takePixel_accepting _ _ (roomy_of_encodeInv hread) hc hsink
    have hcur : w.curPixel = j.curPixel + 1 := takePixel_curPixel hc hw
    rw [mainLoop_of_lt pix n j (by omega), hw]
    exact ih (encodeInv_takePixel hread hc hw).1 hacc (by omega)

theorem output_writes_some (code : Nat) (hp : j.packet.length < 254) (h : output code j = .ok j') :
    ∃ bits, Writes bits j j' := by
  obtain ⟨hcode, heof⟩ := output_writes code hp h
  by_cases he : code = j.eofCode
  · obtain ⟨-, pad, hw⟩ := heof he
    exact ⟨_, hw⟩
  · exact ⟨_, hcode he⟩

theorem takePixel_writes {c : Nat} (h : EncodeInv depth j) (ht : takePixel c j = .ok j') : ∃ bits, Writes bits j j' := by
  obtain ⟨i, -, rfl⟩ | ⟨i, w, -, hw, ⟨-, rfl⟩ | ⟨-, ho⟩⟩ := takePixel_ok ht
  · exact ⟨[], .nothing rfl rfl⟩
  · exact output_writes_some j.ent (j' := w) h.packet hw
  · obtain ⟨bits, hsent⟩ := output_writes_some _ h.packet hw
    obtain ⟨bits', hclear⟩ :=
      output_writes_some w.clearCode (j := clearedFor c w) (encodeInv_output h hw).1.packet ho
    exact ⟨_, hsent.trans hclear⟩

/-- The main loop ends with the code `EOFCode`, which leaves no bit waiting (R214, 45_lzw_bitpack.md R246). -/
theorem mainLoop_writes (n : Nat) (h : EncodeInv depth j) (hpix : j.curPixel + n ≤ pix.size.toNat)
    (hm : mainLoop pix n j = .ok j') : waitingBits j' = [] ∧ ∃ bits, bits ≠ [] ∧ Writes bits j j' := by
  induction n generalizing j with
  | zero =>
    rw [mainLoop_zero] at hm
    obtain ⟨w, hw, ho⟩ := bind_eq_ok hm
    have hinv := (encodeInv_output h hw).1
    obtain ⟨bits, hent⟩ := output_writes_some _ h.packet hw
    obtain ⟨hnone, pad, heof⟩ := (output_writes _ hinv.packet ho).2 rfl
    refine ⟨hnone, _, fun hnil => ?_, hent.trans heof⟩
    have hlen := congrArg List.length hnil
    have hlow := hinv.bitsLow
    have hinit := hinv.gInitBits
    simp only [List.length_append, length_natBits, List.length_nil] at hlen
    omega
  | succ n ih =>
    have hc := (Memory.read pix.mem j.curPixel).isLt
    have hread := encodeInv_curPixel h (j.curPixel + 1)
    rw [mainLoop_of_lt pix n j (by omega)] at hm
    obtain ⟨w, hw, hrest⟩ := bind_eq_ok hm
    have hcur : w.curPixel = j.curPixel + 1 := takePixel_curPixel hc hw
    obtain ⟨bits, hone⟩ := takePixel_writes hread hw
    obtain ⟨hnone, bits', hne, hall⟩ := ih (encodeInv_takePixel hread hc hw).1 (by omega) hrest
    exact ⟨hnone, _, by simp [hne], Writes.trans (j := j) hone hall⟩

/-! ### From CLEAR on (R213) -/

/-- The registers `w` stand right after the CLEAR that starts the stream of an image whose first pixel is at `j`'s cursor. -/
structure Started (depth : Nat) (pix : Buffer) (j w : EncodeJob) : Prop where
  inv : EncodeInv depth w
  cleared : Cleared depth w
  ent : w.ent = (Memory.read pix.mem j.curPixel).toNat
  curPixel : w.curPixel = j.curPixel + 1
  clear : Writes (natBits (depth + 1) (2 ^ depth)) (firstPrefix (depth + 1) w.ent j) w

theorem firstPrefix_started {w : EncodeJob} (hlow : 2 ≤ depth) (hhigh : depth ≤ 8) (hcodes : CodesCanonical j.codetab)
    (hw : output (2 ^ depth) (firstPrefix (depth + 1) (Memory.read pix.mem j.curPixel).toNat j) = .ok w) :
    Started depth pix j w := by
  have hc := (Memory.read pix.mem j.curPixel).isLt
  have hat : AtClear depth (firstPrefix (depth + 1) (Memory.read pix.mem j.curPixel).toNat j) :=
    atClear_compressStart _ { j with curPixel := j.curPixel + 1 } hlow hhigh hcodes
  obtain ⟨-, -, ⟨hent, hcur, -⟩, -⟩ := output_registers _ _ _ hat.packet hw
  refine ⟨encodeInv_of_atClear hat (Nat.lt_of_lt_of_le hc (by omega)) hw, cleared_of_atClear hat hw, hent, hcur, ?_⟩
  rw [hent]
  exact (output_writes _ hat.packet hw).1 (by rw [hat.eofCode]; omega)

/-- `Compress` of an image that PIX holds: CLEAR, then the main loop; on a sink that accepts it completes. -/
theorem compress_accepting (n : Nat) (hlow : 2 ≤ depth) (hhigh : depth ≤ 8) (hcodes : CodesCanonical j.codetab)
    (hsink : Accepting j.sink) (hpix : j.curPixel + (n + 1) ≤ pix.size.toNat) :
    ∃ w j', Started depth pix j w ∧ mainLoop pix n w = .ok j' ∧ compress pix (n + 1) (depth + 1) j = .ok j' ∧
      Accepting j'.sink := by
  obtain ⟨w, hw, hacc⟩ :=
    output_accepting (2 ^ depth) (firstPrefix (depth + 1) (Memory.read pix.mem j.curPixel).toNat j) hsink
  have hstart := firstPrefix_started pix hlow hhigh hcodes hw
  obtain ⟨j', hj, hacc'⟩ := mainLoop_accepting pix n hstart.inv hacc (by rw [hstart.curPixel]; omega)
  refine ⟨w, j', hstart, hj, ?_, hacc'⟩
  rw [compress_succ pix n _ j _ (pixRead_of_lt pix _ (by omega)), Nat.add_sub_cancel, hw]
  exact hj

/-- When nothing waits before and after, the sub-blocks sent hold exactly the bits. -/
theorem Writes.all {bits : List Bool} (h : Writes bits j j') (hj : waitingBits j = []) (hj' : waitingBits j' = []) :
    ∃ blocks : List (List Byte), (∀ b ∈ blocks, IsBlock b) ∧ j'.out = j.out ++ blocks.flatMap block ∧
      blocks.flatten.flatMap byteBits = bits := by
  obtain ⟨blocks, hb, hout, hbits⟩ := h
  exact ⟨blocks, hb, hout, by simpa [hj, hj'] using hbits.symm⟩

end

/-! ### `LZ.ENCODE` (R211) -/

/-- The state with the code RAM empty: what stands in it before an encode does not matter (R220). -/
def forgetCodes (s : State) : State := { s with lz := { s.lz with codetab := [] } }

/-- The registers when the code-size byte has been sent, on a sink that accepts it. -/
def headed (s : State) : EncodeJob :=
  { encodeStart s with
    sink := s.sink.draw.2
    out := s.out ++ [s.lz.initCodeSize.setWidth 8]
    outlen := outlenNext 0 (s.out.length + 1) }

/-- An encode of an image that PIX holds, on a sink that accepts: header, CLEAR, main loop, terminator. -/
theorem encodeRun_completes (s : State) (hp : s.lz.phase = .ready) (himg : ImageAccepted s.lz)
    (hpix : s.lz.pixels ≤ s.pix.size.toNat) (hsink : Accepting s.sink) :
    ∃ j n w w', encodeRun s = .ok j ∧ s.lz.pixels = n + 1 ∧
      Started s.lz.initCodeSize.toNat s.pix (headed (forgetCodes s)) w ∧ mainLoop s.pix n w = .ok w' ∧
      j.out = w'.out ++ [0] := by
  obtain ⟨hne, hlow, hhigh⟩ := himg (by simp [hp])
  obtain ⟨n, hn⟩ := Nat.exists_eq_succ_of_ne_zero hne
  obtain ⟨w, w', hstart, hloop, hcomp, hacc⟩ := compress_accepting (j := headed (forgetCodes s)) s.pix n hlow hhigh
    codesCanonical_nil (draw_accepting s.sink hsink).2 (show 0 + (n + 1) ≤ _ by omega)
  have hrun : encodeRun (forgetCodes s) = outWrite 0 w' := by
    rw [encodeRun_bind, outWrite_accepting _ _ (by exact hsink)]
    show (compress s.pix s.lz.pixels _ (headed (forgetCodes s))).bind (outWrite 0) = _
    rw [hn]
    show (compress s.pix (n + 1) (s.lz.initCodeSize.toNat + 1) (headed (forgetCodes s))).bind (outWrite 0) = _
    rw [hcomp]
    rfl
  rw [outWrite_accepting 0 w' hacc] at hrun
  obtain ⟨x, j, hx, hj, bs, hout, hout', -⟩ | ⟨_, _, hx, -⟩ | ⟨_, hx, -⟩ :=
    (encodeRun_alike (forgetCodes s) s rfl rfl (fun _ _ => rfl) rfl).elim
  · rw [hrun] at hx
    cases hx
    exact ⟨j, n, w, w', hj, hn, hstart, hloop, hout'.trans hout.symm⟩
  · rw [hrun] at hx
    cases hx
  · rw [hrun] at hx
    cases hx

/-- The stream of R211: the code-size byte, the sub-blocks, the terminator. -/
theorem out_of_blocks (s : State) {j w : EncodeJob} {blocks : List (List Byte)} (hout : j.out = w.out ++ [0])
    (hblocks : w.out = (headed (forgetCodes s)).out ++ blocks.flatMap block) :
    j.out = s.out ++ (s.lz.initCodeSize.setWidth 8 :: (blocks.flatMap block ++ [0])) := by
  rw [hout, hblocks]
  show s.out ++ [s.lz.initCodeSize.setWidth 8] ++ blocks.flatMap block ++ [0] = _
  simp

/-- Settles O51: the run completes, its sub-blocks take apart again, and one of them holds a bit of the last code. -/
theorem lzEncodeCompletes : Obligations.LzEncodeCompletes := by
  intro s hp himg hpix hsink
  obtain ⟨j, n, w, w', hj, hn, hstart, hloop, hout⟩ := encodeRun_completes s hp himg hpix hsink
  obtain ⟨hnone, bits, hne, hbits⟩ :=
    mainLoop_writes s.pix n hstart.inv (by rw [hstart.curPixel]; show 0 + 1 + n ≤ _; omega) hloop
  obtain ⟨blocks, hb, hblocks, hpayload⟩ := (hstart.clear.trans hbits).all rfl hnone
  have hstream := out_of_blocks s hout hblocks
  refine ⟨_, _, blocks.flatten, exec_lzEncode_of_ok s j hp hj, ?_, ?_, deframe_blocks blocks hb _ (by simp), ?_,
    EndsWith.outlen (.inl hj) hstream⟩
  · rw [← hstream]
    simp [endCommand, encodeCommit]
  · simp
  · intro hnil
    rw [hnil] at hpayload
    simp [hne] at hpayload

end Sys2Proof.Proofs

/-! The round trip of 44_lzw_encode.md R229 (O53): the decoder, reading the codes as they are sent, builds the encoder's
dictionary one code behind it, and returns the pixels. -/

namespace Sys2Proof.Proofs

open Sys2Proof.Machine Sys2Proof.Safety Sys2Proof.Laws

/-! ### Codes and their strings -/

/-- The string of a code: a pixel, or an entry of the dictionary `table`, whose first code is `ClearCode + 2`. -/
def stringOf (depth : Nat) (table : List (List Nat)) (code : Nat) : Option (List Nat) :=
  if code < 2 ^ depth then some [code]
  else if code < 2 ^ depth + 2 then none
  else table[code - (2 ^ depth + 2)]?

section
variable {depth : Nat}

theorem stringOf_pixel (table : List (List Nat)) (c : Nat) (h : c < 2 ^ depth) : stringOf depth table c = some [c] :=
  if_pos h

theorem stringOf_entry (table : List (List Nat)) (i : Nat) : stringOf depth table (2 ^ depth + 2 + i) = table[i]? := by
  rw [stringOf, if_neg (by omega), if_neg (by omega), Nat.add_sub_cancel_left]

/-- A new entry leaves the other codes their strings. -/
theorem stringOf_append {table : List (List Nat)} {code : Nat} {s : List Nat} (e : List Nat)
    (h : stringOf depth table code = some s) : stringOf depth (table ++ [e]) code = some s := by
  unfold stringOf at h ⊢
  split_ifs at h ⊢
  · exact h
  · rw [List.getElem?_append_left (List.getElem?_eq_some_iff.mp h).1, h]

/-- A code that has a string is no control code, and is below the next code to allocate. -/
theorem code_of_stringOf {table : List (List Nat)} {code : Nat} {s : List Nat}
    (h : stringOf depth table code = some s) :
    code < 2 ^ depth ∨ (2 ^ depth + 2 ≤ code ∧ code < 2 ^ depth + 2 + table.length) := by
  unfold stringOf at h
  split_ifs at h with h₁ h₂
  · exact .inl h₁
  · have := (List.getElem?_eq_some_iff.mp h).1
    exact .inr ⟨by omega, by omega⟩

/-! ### The decoder, one code behind -/

/-- The entry the decoder adds to its table with the next code, if that code's string starts as `s` does. -/
def pending (d : DecodeJob) (s : List Nat) : List (List Nat) :=
  match d.prev with
  | none => []
  | some p => [p ++ s.take 1]

/-- The encoder's strings, when its `ent` has the string `s`: the decoder's, and the one it is about to add. -/
def strings (d : DecodeJob) (s : List Nat) : List (List Nat) := d.table ++ pending d s

/-- Encoder and decoder between two pixels: `s` is the string of `ent`, and the decoder `d` has read every code sent. -/
structure Sync (depth : Nat) (d : DecodeJob) (s : List Nat) (j : EncodeJob) : Prop where
  inv : EncodeInv depth j
  width : d.width = j.nBits
  fresh : d.prev = none → d.table = []
  prev : ∀ p, d.prev = some p → p ≠ []
  string : s ≠ []
  size : j.freeEnt = 2 ^ depth + 2 + (strings d s).length
  ent : stringOf depth (strings d s) j.ent = some s
  keys : ∀ e ∈ j.htab, ∃ c p q, (c < 256 ∧ p < 4096) ∧ e.2 = fcode c p ∧ stringOf depth (strings d s) p = some q ∧
    stringOf depth (strings d s) (codeAt j.codetab e.1) = some (q ++ [c])

/-- The decoder, given `bits` and whatever follows them, returns `pixels` and goes on as `d'` with what follows; and it has
rounds enough for that if it had enough at first. -/
def Decodes (depth : Nat) (d : DecodeJob) (bits : List Bool) (pixels : List Nat) (d' : DecodeJob) : Prop :=
  ∀ n rest, (bits ++ rest).length < n → ∃ m, rest.length < m ∧
    decodeBits depth n d (bits ++ rest) = (decodeBits depth m d' rest).map (pixels ++ ·)

theorem Decodes.nothing (d : DecodeJob) : Decodes depth d [] [] d := fun n rest h =>
  ⟨n, h, by simp⟩

theorem Decodes.trans {a b : List Bool} {x y : List Nat} {d e f : DecodeJob} (h₁ : Decodes depth d a x e)
    (h₂ : Decodes depth e b y f) : Decodes depth d (a ++ b) (x ++ y) f := by
  intro n rest hn
  rw [List.append_assoc] at hn ⊢
  obtain ⟨m, hm, e₁⟩ := h₁ n (b ++ rest) hn
  obtain ⟨k, hk, e₂⟩ := h₂ m rest hm
  refine ⟨k, hk, ?_⟩
  rw [e₁, e₂, Option.map_map]
  congr 1
  funext p
  simp

/-- The decoder, given `bits`, comes to EOF in them and returns `pixels`, in as many rounds as there are bits and one more. -/
def DecodesAll (depth : Nat) (d : DecodeJob) (bits : List Bool) (pixels : List Nat) : Prop :=
  ∀ n, bits.length < n → decodeBits depth n d bits = some pixels

theorem Decodes.finish {a b : List Bool} {x y : List Nat} {d e : DecodeJob} (h₁ : Decodes depth d a x e)
    (h₂ : DecodesAll depth e b y) : DecodesAll depth d (a ++ b) (x ++ y) := by
  intro n hn
  obtain ⟨m, hm, e₁⟩ := h₁ n b hn
  rw [e₁, h₂ m hm]
  rfl

/-- What the decoder does with a code of its width. -/
theorem decodeBits_code (n code : Nat) (d : DecodeJob) (rest : List Bool) (hcode : code < 2 ^ d.width) :
    decodeBits depth (n + 1) d (natBits d.width code ++ rest) =
      if code = 2 ^ depth then decodeBits depth n (DecodeJob.cleared depth) rest
      else if code = 2 ^ depth + 1 then some []
      else (d.string depth code).bind fun e => (decodeBits depth n (d.learn depth e) rest).map (e ++ ·) := by
  have hlen : ¬ (natBits d.width code ++ rest).length < d.width := by simp
  have htake : (natBits d.width code ++ rest).take d.width = natBits d.width code := List.take_left' (length_natBits _ _)
  have hdrop : (natBits d.width code ++ rest).drop d.width = rest := List.drop_left' (length_natBits _ _)
  rw [decodeBits, if_neg hlen, htake, hdrop, bitsValue_natBits _ _ hcode]
  dsimp only
  cases d.string depth code <;> rfl

/-- CLEAR: the decoder starts over. -/
theorem decodes_clear (d : DecodeJob) (hw : depth < d.width) :
    Decodes depth d (natBits d.width (2 ^ depth)) [] (DecodeJob.cleared depth) := by
  intro n rest hn
  have hcode : 2 ^ depth < 2 ^ d.width := Nat.pow_lt_pow_right (by omega) hw
  rw [List.length_append, length_natBits] at hn
  obtain ⟨m, rfl⟩ : ∃ m, n = m + 1 := ⟨n - 1, by omega⟩
  refine ⟨m, by omega, ?_⟩
  rw [decodeBits_code m _ d rest hcode, if_pos rfl]
  simp

/-- A code with a string: its pixels, and the table learns. -/
theorem decodes_string (d : DecodeJob) (code : Nat) (s : List Nat) (hw : 0 < d.width) (hcode : code < 2 ^ d.width)
    (hclear : code ≠ 2 ^ depth) (heof : code ≠ 2 ^ depth + 1) (hs : d.string depth code = some s) :
    Decodes depth d (natBits d.width code) s (d.learn depth s) := by
  intro n rest hn
  rw [List.length_append, length_natBits] at hn
  obtain ⟨m, rfl⟩ : ∃ m, n = m + 1 := ⟨n - 1, by omega⟩
  refine ⟨m, by omega, ?_⟩
  rw [decodeBits_code m _ d rest hcode, if_neg hclear, if_neg heof, hs, Option.bind_some]

/-- EOF: nothing more, whatever padding follows. -/
theorem decodesAll_eof (d : DecodeJob) (pad : List Bool) (hcode : 2 ^ depth + 1 < 2 ^ d.width) :
    DecodesAll depth d (natBits d.width (2 ^ depth + 1) ++ pad) [] := by
  intro n hn
  obtain ⟨m, rfl⟩ : ∃ m, n = m + 1 := ⟨n - 1, by omega⟩
  rw [decodeBits_code m _ d pad hcode, if_neg (by omega), if_pos rfl]

theorem decoderString_pixel (d : DecodeJob) (c : Nat) (h : c < 2 ^ depth) : d.string depth c = some [c] := if_pos h

/-- The code of an entry the decoder has. -/
theorem decoderString_entry {d : DecodeJob} {p : List Nat} (hp : d.prev = some p) (i : Nat) (hi : i ≠ d.table.length) :
    d.string depth (2 ^ depth + 2 + i) = d.table[i]? := by
  rw [DecodeJob.string, if_neg (by omega), hp]
  dsimp only
  rw [if_neg (by omega), Nat.add_sub_cancel_left]

/-- The code of the entry the decoder is about to add. -/
theorem decoderString_next {d : DecodeJob} {p : List Nat} (hp : d.prev = some p) :
    d.string depth (2 ^ depth + 2 + d.table.length) = some (p ++ p.take 1) := by
  rw [DecodeJob.string, if_neg (by omega), hp]
  exact if_pos rfl

theorem strings_of_prev {d : DecodeJob} {p : List Nat} (hp : d.prev = some p) (s : List Nat) :
    strings d s = d.table ++ [p ++ s.take 1] := by
  rw [strings, pending, hp]

theorem strings_of_fresh {d : DecodeJob} (hp : d.prev = none) (s : List Nat) : strings d s = d.table := by
  rw [strings, pending, hp, List.append_nil]

theorem take_one_append {p : List Nat} (hp : p ≠ []) (l : List Nat) : (p ++ l).take 1 = p.take 1 :=
  List.take_append_of_le_length (List.length_pos_iff.mpr hp)

/-- A longer match starts with the same pixel. -/
theorem strings_append {s : List Nat} (d : DecodeJob) (hs : s ≠ []) (l : List Nat) : strings d (s ++ l) = strings d s := by
  cases hp : d.prev with
  | none => rw [strings_of_fresh hp, strings_of_fresh hp]
  | some p => rw [strings_of_prev hp, strings_of_prev hp, take_one_append hs]

section
variable {d : DecodeJob} {s : List Nat} {j w j' : EncodeJob} {c : Nat}

/-- The decoder finds the string of the encoder's `ent`, be it the entry it is about to add: that one is the string before
with its own first pixel after it (R229). -/
theorem Sync.decoderString (h : Sync depth d s j) : d.string depth j.ent = some s := by
  have hent := h.ent
  obtain hpixel | ⟨hlow, hhigh⟩ := code_of_stringOf hent
  · rw [decoderString_pixel d j.ent hpixel, ← stringOf_pixel _ j.ent hpixel, hent]
  · obtain ⟨i, hi⟩ := Nat.exists_eq_add_of_le hlow
    rw [hi, stringOf_entry] at hent
    rw [hi] at hhigh ⊢
    cases hp : d.prev with
    | none =>
      rw [strings_of_fresh hp, h.fresh hp] at hent
      simp at hent
    | some p =>
      rw [strings_of_prev hp] at hent hhigh
      by_cases hlast : i = d.table.length
      · subst hlast
        have hs : p ++ s.take 1 = s := by simpa using hent
        have hfirst : s.take 1 = p.take 1 := by
          rw [← hs, take_one_append (h.prev p hp)]
        rw [decoderString_next hp, ← hfirst, hs]
      · rw [List.length_append, List.length_singleton] at hhigh
        rw [List.getElem?_append_left (by omega)] at hent
        rw [decoderString_entry hp i hlast, hent]

/-- The code `ent` fits the width it is sent at (45_lzw_bitpack.md R242). -/
theorem Sync.ent_fits (h : Sync depth d s j) : j.ent < 2 ^ j.nBits := by
  have hfree := freeEnt_le_two_pow h.inv
  have hsize := h.size
  obtain hpixel | ⟨-, hhigh⟩ := code_of_stringOf h.ent <;> omega

/-- The decoder's registers after the code `ent`: it has the encoder's strings, and its width is the encoder's
(45_lzw_bitpack.md R245, R247). -/
theorem Sync.learn (h : Sync depth d s j) : d.learn depth s = ⟨widthAfter j, strings d s, some s⟩ := by
  have hsize := h.size
  have hfree := h.inv.freeHigh
  cases hp : d.prev with
  | none =>
    have hlow := h.inv.bitsLow
    have hdepth := two_pow_depth h.inv.depthLow h.inv.depthHigh
    have hpow : 2 ^ (depth + 1) ≤ 2 ^ j.nBits := Nat.pow_le_pow_right (by omega) (h.inv.gInitBits ▸ hlow)
    rw [strings_of_fresh hp] at hsize ⊢
    rw [h.fresh hp, List.length_nil] at hsize
    rw [DecodeJob.learn, hp, widthAfter, if_neg (by rw [Nat.pow_succ] at hpow; omega), h.width]
  | some p =>
    rw [strings_of_prev hp] at hsize ⊢
    rw [DecodeJob.learn, hp]
    dsimp only
    have hroom : 2 ^ depth + 2 + d.table.length < 2 ^ 12 := by
      rw [List.length_append, List.length_singleton] at hsize
      omega
    rw [if_pos hroom, ← hsize, h.width]
    rfl

/-- The code `ent`, as it is sent and read. -/
theorem Sync.sendEnt (h : Sync depth d s j) (hw : output j.ent j = .ok w) :
    Writes (natBits j.nBits j.ent) j w ∧
      Decodes depth d (natBits j.nBits j.ent) s ⟨widthAfter j, strings d s, some s⟩ := by
  have hcode := code_of_stringOf h.ent
  have hlow := h.inv.bitsLow
  have hinit := h.inv.gInitBits
  have heof := h.inv.eofCode
  refine ⟨(output_writes j.ent h.inv.packet hw).1 (by omega), ?_⟩
  have hdec := decodes_string d j.ent s (by rw [h.width]; omega) (by rw [h.width]; exact h.ent_fits) (by omega)
    (by omega) h.decoderString
  rwa [h.learn, h.width] at hdec

/-- Right after a CLEAR both dictionaries are empty. -/
theorem sync_cleared (hinv : EncodeInv depth j) (hclear : Cleared depth j) (hc : j.ent < 2 ^ depth) :
    Sync depth (DecodeJob.cleared depth) [j.ent] j where
  inv := hinv
  width := hclear.nBits.symm
  fresh _ := rfl
  prev p hp := by cases hp
  string := by simp
  size := hclear.freeEnt
  ent := stringOf_pixel _ _ hc
  keys e he := by
    rw [hclear.keys] at he
    cases he

/-- R224: the pair the encoder inserts is the entry the decoder adds with the next code. -/
theorem Sync.insert {i : Nat} (h : Sync depth d s j) (hc : c < 2 ^ depth) (hi : find j.htab i = none)
    (hw : output j.ent j = .ok w) (hfree : w.freeEnt < 4096)
    (hinv : EncodeInv depth (Machine.insert i (fcode c j.ent) { w with ent := c })) :
    Sync depth ⟨widthAfter j, strings d s, some s⟩ [c] (Machine.insert i (fcode c j.ent) { w with ent := c }) := by
  obtain ⟨-, ⟨-, hfreeEnt, -⟩, ⟨-, -, hkeys, hcodes⟩, -⟩ := output_registers _ _ _ h.inv.packet hw
  have hsize := h.size
  have hdepth := two_pow_depth h.inv.depthLow h.inv.depthHigh
  refine ⟨hinv, (encodeInv_output h.inv hw).2.1.symm, (fun hp => by cases hp), (fun p hp => ?_), (by simp), ?_,
    stringOf_pixel _ c hc, fun e he => ?_⟩
  · cases hp
    exact h.string
  · show w.freeEnt + 1 = 2 ^ depth + 2 + (strings d s ++ [s ++ [c]]).length
    rw [List.length_append, List.length_singleton]
    omega
  · show ∃ c' p q, (c' < 256 ∧ p < 4096) ∧ e.2 = fcode c' p ∧
      stringOf depth (strings d s ++ [s ++ [c]]) p = some q ∧
      stringOf depth (strings d s ++ [s ++ [c]]) (codeAt (writeDefault 0 w.codetab i (BitVec.ofNat 12 w.freeEnt)) e.1) =
        some (q ++ [c'])
    obtain rfl | he := mem_put _ _ _ _ he
    · refine ⟨c, j.ent, s, ⟨by omega, h.inv.ent⟩, rfl, stringOf_append _ h.ent, ?_⟩
      rw [codeAt_write_same _ _ _ hfree, hfreeEnt, hsize, stringOf_entry]
      simp
    · replace he : e ∈ j.htab := hkeys ▸ he
      obtain ⟨c', p, q, hlt, hkey, hp, hq⟩ := h.keys e he
      refine ⟨c', p, q, hlt, hkey, stringOf_append _ hp, ?_⟩
      rw [codeAt_write_other _ _ _ _ (slot_ne_of_mem h.inv.keys hi he), hcodes]
      exact stringOf_append _ hq

/-- R216: the code a look-up finds has the string of the pair. -/
theorem Sync.hit {i : Nat} (h : Sync depth d s j) (hc : c < 2 ^ depth)
    (hl : lookup j.htab (fcode c j.ent) (primarySlot c j.ent) = some (.hit i)) :
    Sync depth d (s ++ [c]) { j with ent := codeAt j.codetab i } := by
  have hdepth := two_pow_depth h.inv.depthLow h.inv.depthHigh
  obtain ⟨c', p, q, ⟨hc', hp'⟩, hkey, hp, hq⟩ := h.keys _ (mem_of_find _ _ _ (lookup_hit_key _ _ _ _ hl))
  obtain ⟨rfl, rfl⟩ := fcode_injective c c' j.ent p (by omega) hc' h.inv.ent hp' hkey
  obtain rfl : s = q := Option.some.inj (h.ent.symm.trans hp)
  have hsame := strings_append d h.string [c]
  exact ⟨encodeInv_ent h.inv _ (codeAt_lt _ _), h.width, h.fresh, h.prev, by simp, by rw [hsame]; exact h.size,
    by rw [hsame]; exact hq, by rw [hsame]; exact h.keys⟩

/-- One pixel: whatever is sent, the decoder returns as the start of what has been read. -/
theorem Sync.takePixel (h : Sync depth d s j) (hc : c < 2 ^ depth) (ht : takePixel c j = .ok j') :
    ∃ bits pixels d' s', Writes bits j j' ∧ Decodes depth d bits pixels d' ∧ Sync depth d' s' j' ∧
      pixels ++ s' = s ++ [c] := by
  have hdepth := two_pow_depth h.inv.depthLow h.inv.depthHigh
  have hinv := (encodeInv_takePixel h.inv (by omega) ht).1
  obtain ⟨i, hl, rfl⟩ | ⟨i, w, hl, hw, ⟨hfree, rfl⟩ | ⟨-, ho⟩⟩ := takePixel_ok ht
  · exact ⟨[], [], d, s ++ [c], .nothing rfl rfl, .nothing d, h.hit hc hl, rfl⟩
  · obtain ⟨hsent, hread⟩ := h.sendEnt hw
    exact ⟨_, _, _, _, hsent, hread, h.insert hc (lookup_miss_empty _ _ _ _ hl) hw hfree hinv, rfl⟩
  · obtain ⟨hsent, hread⟩ := h.sendEnt hw
    obtain ⟨hinvw, hwidth, -⟩ := encodeInv_output h.inv hw
    have hat := atClear_clearedFor c hinvw
    obtain ⟨-, -, ⟨hent, -⟩, -⟩ := output_registers _ _ _ hat.packet ho
    replace hent : j'.ent = c := hent
    have hclear := (output_writes w.clearCode hat.packet ho).1 (by rw [hat.eofCode, hinvw.clearCode]; omega)
    have hsync := sync_cleared hinv (cleared_of_atClear hat ho) (by rw [hent]; exact hc)
    have hwide : depth + 1 ≤ w.nBits := hinvw.gInitBits ▸ hinvw.bitsLow
    rw [hwidth] at hwide
    have hdecode := decodes_clear ⟨widthAfter j, strings d s, some s⟩ hwide
    rw [hent] at hsync
    rw [hinvw.clearCode, show (clearedFor c w).nBits = widthAfter j from hwidth] at hclear
    exact ⟨_, _, _, [c], hsent.trans hclear, hread.trans hdecode, hsync, by simp⟩

/-- The rest of an encode: the decoder returns the string of `ent` and the pixels still to read (R214, R229). -/
theorem Sync.mainLoop {pix : Buffer} (n : Nat) (h : Sync depth d s j) (hpix : j.curPixel + n ≤ pix.size.toNat)
    (hfits : ∀ a, a < j.curPixel + n → (Memory.read pix.mem a).toNat < 2 ^ depth) (hm : mainLoop pix n j = .ok j') :
    ∃ bits, Writes bits j j' ∧ waitingBits j' = [] ∧
      DecodesAll depth d bits (s ++ (List.range' j.curPixel n).map fun a => (Memory.read pix.mem a).toNat) := by
  induction n generalizing d s j with
  | zero =>
    rw [mainLoop_zero] at hm
    obtain ⟨w, hw, ho⟩ := bind_eq_ok hm
    obtain ⟨hsent, hread⟩ := h.sendEnt hw
    obtain ⟨hinv, hwidth, -⟩ := encodeInv_output h.inv hw
    obtain ⟨hnone, pad, heof⟩ := (output_writes _ hinv.packet ho).2 rfl
    have hlow := hinv.freeLow
    have hclear := hinv.clearCode
    have hpow := freeEnt_le_two_pow hinv
    have hend := decodesAll_eof ⟨widthAfter j, strings d s, some s⟩ pad
      (show 2 ^ depth + 1 < 2 ^ widthAfter j by rw [← hwidth]; omega)
    rw [hinv.eofCode, hwidth] at heof
    exact ⟨_, hsent.trans heof, hnone, hread.finish hend⟩
  | succ n ih =>
    have hc := hfits j.curPixel (by omega)
    have hcbyte := (Memory.read pix.mem j.curPixel).isLt
    rw [mainLoop_of_lt pix n j (by omega)] at hm
    obtain ⟨w, hw, hrest⟩ := bind_eq_ok hm
    have hcur : w.curPixel = j.curPixel + 1 := takePixel_curPixel hcbyte hw
    have hread : Sync depth d s { j with curPixel := j.curPixel + 1 } := { h with inv := encodeInv_curPixel h.inv _ }
    obtain ⟨bits, pixels, d', s', hsent, hdec, hsync, hjoin⟩ := hread.takePixel hc hw
    obtain ⟨bits', hsent', hnone, hdec'⟩ :=
      ih hsync (by omega) (fun a ha => hfits a (by omega)) hrest
    have hall := hdec.finish hdec'
    rw [← List.append_assoc, hjoin, hcur, List.append_assoc] at hall
    exact ⟨_, Writes.trans (j := j) hsent hsent', hnone, hall⟩

end

/-- A stream of sub-blocks whose bits decode. -/
theorem gifDecode_blocks (size : Byte) (blocks : List (List Byte)) (pixels : List Nat) (hb : ∀ b ∈ blocks, IsBlock b)
    (h : DecodesAll size.toNat (DecodeJob.cleared size.toNat) (blocks.flatten.flatMap byteBits) pixels) :
    gifDecode (size :: (blocks.flatMap block ++ [0])) = some pixels := by
  rw [gifDecode, deframe_blocks blocks hb _ le_rfl]
  exact h _ (Nat.lt_succ_self _)

end

/-- Settles O53: the decoder's table stays the encoder's, one code behind, so that each code is read with its string. -/
theorem streamRoundTrip : Obligations.StreamRoundTrip := by
  intro s hp himg hsink hpix
  obtain ⟨hne, hlow, hhigh⟩ := himg (by simp [hp])
  have hread : ∀ a, a < s.lz.pixels → a < s.pix.size.toNat ∧
      (Memory.read s.pix.mem a).toNat < 2 ^ s.lz.initCodeSize.toNat := by
    intro a ha
    obtain ⟨v, hv, hlt⟩ := hpix a ha
    obtain ⟨hsize, rfl⟩ := (buffer_get_some _ _ _).mp hv
    exact ⟨hsize, hlt⟩
  have hsize : s.lz.pixels ≤ s.pix.size.toNat := by
    have := (hread (s.lz.pixels - 1) (by omega)).1
    omega
  obtain ⟨j, n, w, w', hj, hn, hstart, hloop, hout⟩ := encodeRun_completes s hp himg hsize hsink
  have hcur : w.curPixel = 1 := hstart.curPixel
  have hent : w.ent = (Memory.read s.pix.mem 0).toNat := hstart.ent
  have hsync := sync_cleared hstart.inv hstart.cleared (by rw [hent]; exact (hread 0 (by omega)).2)
  obtain ⟨bits, hsent, hnone, hdec⟩ :=
    hsync.mainLoop n (by omega) (fun a ha => (hread a (by omega)).2) hloop
  obtain ⟨blocks, hb, hblocks, hpayload⟩ := (hstart.clear.trans hsent).all rfl hnone
  have hsize8 : (s.lz.initCodeSize.setWidth 8).toNat = s.lz.initCodeSize.toNat := by
    rw [BitVec.toNat_setWidth]
    omega
  have hclear := decodes_clear (DecodeJob.cleared s.lz.initCodeSize.toNat) (Nat.lt_succ_self s.lz.initCodeSize.toNat)
  refine ⟨_, _, exec_lzEncode_of_ok s j hp hj, out_of_blocks s hout hblocks, gifDecode_blocks _ blocks _ hb ?_⟩
  rw [hsize8, hpayload, hn, List.range_eq_range', List.range'_succ, List.map_cons]
  rw [hent, hcur] at hdec
  exact hclear.finish hdec

end Sys2Proof.Proofs

/-! The stream of 45_lzw_bitpack.md as bytes: payload bytes leave in sub-blocks (O60), a code's bits in whole ones (O59),
and a stream is its header, the sub-blocks of its payload, all full but the last, and the terminator (O52). -/

namespace Sys2Proof.Proofs

open Sys2Proof.Machine Sys2Proof.Safety Sys2Proof.Laws

/-! ### Sub-blocks of a payload (45_lzw_bitpack.md R253) -/

theorem frameBlocks_nil (n : Nat) : frameBlocks n [] = [] := by
  cases n <;> rfl

theorem frameBlocks_succ (n : Nat) {p : List Byte} (hp : p ≠ []) :
    frameBlocks (n + 1) p = block (p.take 254) ++ frameBlocks n (p.drop 254) := by
  rw [frameBlocks, if_neg (by simpa using hp), block, if_neg (by simpa using hp)]

/-- Rounds enough for the payload are all alike. -/
theorem frameBlocks_fuel (n m : Nat) (p : List Byte) (hn : p.length ≤ n) (hm : p.length ≤ m) :
    frameBlocks n p = frameBlocks m p := by
  by_cases hp : p = []
  · rw [hp, frameBlocks_nil, frameBlocks_nil]
  have hpos := List.length_pos_iff.mpr hp
  induction n generalizing m p with
  | zero => omega
  | succ n ih =>
    obtain ⟨m, rfl⟩ : ∃ k, m = k + 1 := ⟨m - 1, by omega⟩
    rw [frameBlocks_succ n hp, frameBlocks_succ m hp]
    by_cases hrest : p.drop 254 = []
    · rw [hrest, frameBlocks_nil, frameBlocks_nil]
    · have hlen : (p.drop 254).length = p.length - 254 := List.length_drop
      rw [ih m (p.drop 254) (by omega) (by omega) hrest (List.length_pos_iff.mpr hrest)]

@[simp] theorem frame_nil : frame [] = [] := rfl

theorem frame_of_ne_nil {p : List Byte} (hp : p ≠ []) : frame p = block (p.take 254) ++ frame (p.drop 254) := by
  obtain ⟨n, hn⟩ := Nat.exists_eq_succ_of_ne_zero (List.length_pos_iff.mpr hp).ne'
  rw [frame, hn, frameBlocks_succ n hp, frame]
  congr 1
  exact frameBlocks_fuel _ _ _ (by rw [List.length_drop]; omega) le_rfl

/-- Induction on a payload, sub-block by sub-block. -/
theorem payload_induction {P : List Byte → Prop} (nil : P []) (step : ∀ p, p ≠ [] → P (p.drop 254) → P p)
    (p : List Byte) : P p := by
  induction hn : p.length using Nat.strong_induction_on generalizing p with
  | _ n ih =>
    by_cases hp : p = []
    · exact hp ▸ nil
    · have hpos := List.length_pos_iff.mpr hp
      exact step p hp (ih _ (by rw [List.length_drop]; omega) _ rfl)

/-- A payload of one sub-block. -/
theorem frame_eq_block {p : List Byte} (hp : p.length ≤ 254) : frame p = block p := by
  by_cases hne : p = []
  · rw [hne]
    rfl
  · rw [frame_of_ne_nil hne, List.take_of_length_le hp, List.drop_of_length_le hp, frame_nil, List.append_nil]

/-- A payload of whole sub-blocks, and more after it. -/
theorem frame_append (a b : List Byte) (ha : 254 ∣ a.length) : frame (a ++ b) = frame a ++ frame b := by
  induction a using payload_induction with
  | nil => simp
  | step a hne ih =>
    have hlen : 254 ≤ a.length := Nat.le_of_dvd (List.length_pos_iff.mpr hne) ha
    rw [frame_of_ne_nil (by simp [hne]), frame_of_ne_nil hne, List.take_append_of_le_length hlen,
      List.drop_append_of_le_length hlen, ih (by rw [List.length_drop]; exact Nat.dvd_sub ha (dvd_refl 254)),
      List.append_assoc]

/-- The sub-blocks as a list. -/
theorem frame_eq_flatMap (p : List Byte) :
    ∃ blocks : List (List Byte), (∀ b ∈ blocks, IsBlock b) ∧ frame p = blocks.flatMap block ∧ blocks.flatten = p := by
  induction p using payload_induction with
  | nil => exact ⟨[], by simp, rfl, rfl⟩
  | step p hne ih =>
    obtain ⟨blocks, hb, hframe, hflat⟩ := ih
    have hfirst : IsBlock (p.take 254) := ⟨by simpa using hne, List.length_take_le 254 p⟩
    refine ⟨p.take 254 :: blocks, List.forall_mem_cons.mpr ⟨hfirst, hb⟩, ?_, ?_⟩
    · rw [frame_of_ne_nil hne, hframe, List.flatMap_cons]
    · rw [List.flatten_cons, hflat, List.take_append_drop]

theorem deframe_frame (p : List Byte) (n : Nat) (hn : (frame p ++ [0]).length ≤ n) :
    deframe n (frame p ++ [0]) = some p := by
  obtain ⟨blocks, hb, hframe, rfl⟩ := frame_eq_flatMap p
  rw [hframe] at hn ⊢
  exact deframe_blocks blocks hb n hn

/-- Bytes are sub-blocks of one payload at most. -/
theorem eq_flatten_of_frame {p : List Byte} {blocks : List (List Byte)} (hb : ∀ b ∈ blocks, IsBlock b)
    (h : frame p = blocks.flatMap block) : p = blocks.flatten := by
  have hp := deframe_frame p _ le_rfl
  rw [h, deframe_blocks blocks hb _ le_rfl] at hp
  exact (Option.some.inj hp).symm

/-- R253: a count byte for each full sub-block and for a shorter one at the end. -/
theorem length_frame (p : List Byte) :
    (frame p).length = p.length + p.length / 254 + if p.length % 254 = 0 then 0 else 1 := by
  induction p using payload_induction with
  | nil => rfl
  | step p hne ih =>
    have hpos := List.length_pos_iff.mpr hne
    have hblock : (block (p.take 254)).length = min 254 p.length + 1 := by
      rw [block, if_neg (by simpa using hne), List.length_cons, List.length_take]
    rw [frame_of_ne_nil hne, List.length_append, hblock, ih, List.length_drop]
    obtain hlt | hge := Nat.lt_or_ge p.length 254
    · rw [Nat.sub_eq_zero_of_le hlt.le, if_pos rfl, if_neg (by omega)]
      omega
    · have hmod : (p.length - 254) % 254 = p.length % 254 := (Nat.mod_eq_sub_mod hge).symm
      rw [hmod]
      omega

/-! ### One payload byte, one flush (R243, R244) -/

section
variable {j j' w : EncodeJob}

/-- R243: a payload byte is buffered, or fills the sub-block and sends it. -/
theorem charOut_ok (b : Byte) (hp : j.packet.length < 254) (h : charOut b j = .ok j') :
    (j.packet.length < 253 ∧ j'.packet = j.packet ++ [b] ∧ j'.out = j.out) ∨
      (j.packet.length = 253 ∧ j'.packet = [] ∧ j'.out = j.out ++ block (j.packet ++ [b])) := by
  rw [charOut_eq, List.length_append, List.length_singleton] at h
  split_ifs at h with hfull
  · replace hfull : 254 ≤ j.packet.length + 1 := hfull
    have e := flushChar_ok _ j' h
    exact .inr ⟨by omega, by rw [e], by rw [e]⟩
  · replace hfull : ¬ 254 ≤ j.packet.length + 1 := hfull
    cases h
    exact .inl ⟨by omega, rfl, rfl⟩

/-! ### Whole sub-blocks sent, between two states of the registers -/

/-- From `j` to `j'` OUT has grown by full sub-blocks only. -/
def SendsFull (j j' : EncodeJob) : Prop := ∃ sent : List Byte, 254 ∣ sent.length ∧ j'.out = j.out ++ frame sent

theorem SendsFull.nothing (h : j'.out = j.out) : SendsFull j j' := ⟨[], by simp, by simp [h]⟩

/-- Full sub-blocks, and then the sub-blocks of more payload. -/
theorem SendsFull.thenFrame {p : List Byte} (h : SendsFull j w) (hw : j'.out = w.out ++ frame p) :
    ∃ sent : List Byte, j'.out = j.out ++ frame (sent ++ p) ∧ 254 ∣ sent.length := by
  obtain ⟨a, ha, hout⟩ := h
  exact ⟨a, by rw [hw, hout, frame_append a p ha, List.append_assoc], ha⟩

theorem SendsFull.trans (h₁ : SendsFull j w) (h₂ : SendsFull w j') : SendsFull j j' := by
  obtain ⟨b, hb, hout⟩ := h₂
  obtain ⟨a, hall, ha⟩ := h₁.thenFrame hout
  exact ⟨a ++ b, by rw [List.length_append]; exact Nat.dvd_add ha hb, hall⟩

theorem charOut_sendsFull (b : Byte) (hp : j.packet.length < 254) (h : charOut b j = .ok j') : SendsFull j j' := by
  obtain ⟨-, -, hout⟩ | ⟨hfull, -, hout⟩ := charOut_ok b hp h
  · exact .nothing hout
  · have hlen : (j.packet ++ [b]).length = 254 := by rw [List.length_append, hfull, List.length_singleton]
    exact ⟨_, hlen.symm.dvd, by rw [hout, frame_eq_block hlen.le]⟩

theorem shiftByte_sendsFull (hp : j.packet.length < 254) (h : shiftByte j = .ok j') : SendsFull j j' := by
  obtain ⟨w, hw, rfl⟩ := shiftByte_ok j j' h
  exact charOut_sendsFull (j' := w) _ hp hw

/-- What a byte off the accumulator keeps, the loop of R241 keeps. -/
theorem drainBytes_keeps {P : EncodeJob → Prop} (hP : ∀ {j w}, 8 ≤ j.curBits → shiftByte j = .ok w → P j → P w)
    (n : Nat) (hj : P j) (h : drainBytes n j = .ok j') : P j' := by
  induction n generalizing j with
  | zero =>
    cases h
    exact hj
  | succ n ih =>
    rw [drainBytes_succ] at h
    split_ifs at h with h8
    · obtain ⟨w, hw, hn⟩ := bind_eq_ok h
      exact ih (hP h8 hw hj) hn
    · cases h
      exact hj

/-- What a byte off the accumulator keeps, padded or not, the loop of R246 keeps. -/
theorem drainBits_keeps {P : EncodeJob → Prop} (hP : ∀ {j w}, shiftByte j = .ok w → P j → P w) (n : Nat) (hj : P j)
    (h : drainBits n j = .ok j') : P j' := by
  induction n generalizing j with
  | zero =>
    cases h
    exact hj
  | succ n ih =>
    rw [drainBits_succ] at h
    split_ifs at h
    · obtain ⟨w, hw, hn⟩ := bind_eq_ok h
      exact ih (hP hw hj) hn
    · cases h
      exact hj

/-- Since `j` only full sub-blocks were sent, and `w` has room for a byte. -/
def Filling (j w : EncodeJob) : Prop := w.packet.length < 254 ∧ SendsFull j w

theorem filling_refl (hp : j.packet.length < 254) : Filling j j := ⟨hp, .nothing rfl⟩

theorem shiftByte_filling {k : EncodeJob} (h : shiftByte w = .ok k) (hj : Filling j w) : Filling j k :=
  ⟨shiftByte_packet w k hj.1 h, hj.2.trans (shiftByte_sendsFull hj.1 h)⟩

theorem drainBytes_sendsFull (n : Nat) (hp : j.packet.length < 254) (h : drainBytes n j = .ok j') : SendsFull j j' :=
  (drainBytes_keeps (fun _ => shiftByte_filling) n (filling_refl hp) h).2

theorem drainBits_filling (n : Nat) (hp : j.packet.length < 254) (h : drainBits n j = .ok j') : Filling j j' :=
  drainBits_keeps shiftByte_filling n (filling_refl hp) h

theorem pack_sendsFull (code : Nat) (hp : j.packet.length < 254) (h : pack code j = .ok j') : SendsFull j j' := by
  obtain ⟨sent, hsent, hout⟩ := drainBytes_sendsFull _ (by exact hp) h
  exact ⟨sent, hsent, hout⟩

/-- R246: the final flush sends full sub-blocks, and then at most one shorter one. -/
theorem finalFlush_frames (hp : j.packet.length < 254) (h : finalFlush j = .ok j') :
    ∃ payload, j'.out = j.out ++ frame payload := by
  rw [finalFlush_bind] at h
  obtain ⟨w, hw, hflush⟩ := bind_eq_ok h
  have hlast : j'.out = w.out ++ block w.packet := by rw [flushChar_ok _ j' hflush]
  obtain ⟨hp', hfull⟩ := drainBits_filling _ hp hw
  rw [← frame_eq_block hp'.le] at hlast
  obtain ⟨sent, hout, -⟩ := hfull.thenFrame hlast
  exact ⟨_, hout⟩

/-- A code that is not `EOFCode` sends full sub-blocks only (R240). -/
theorem output_sendsFull (code : Nat) (hp : j.packet.length < 254) (hcode : code ≠ j.eofCode)
    (h : output code j = .ok j') : SendsFull j j' := by
  rw [output_bind] at h
  obtain ⟨w, hw, hrest⟩ := bind_eq_ok h
  rw [(pack_stream code j w hw).eofCode, if_neg hcode] at hrest
  cases hrest
  exact (pack_sendsFull code hp hw).trans (.nothing (updateWidth_out w))

/-- The code `EOFCode` sends full sub-blocks, and then at most one shorter one (R240, R246). -/
theorem output_eof_frames (hp : j.packet.length < 254) (h : output j.eofCode j = .ok j') :
    ∃ payload, j'.out = j.out ++ frame payload := by
  rw [output_bind] at h
  obtain ⟨w, hw, hrest⟩ := bind_eq_ok h
  rw [(pack_stream _ j w hw).eofCode, if_pos rfl] at hrest
  obtain ⟨payload, hout⟩ := finalFlush_frames (by simpa using (pack_bits _ j w hp hw).2) hrest
  rw [updateWidth_out] at hout
  obtain ⟨sent, hall, -⟩ := (pack_sendsFull _ hp hw).thenFrame hout
  exact ⟨_, hall⟩

/-! ### The bits of one code (R241) -/

/-- The full sub-blocks sent hold the bits that were sent. -/
theorem SendsFull.bits {bits : List Bool} (h : SendsFull j j') (hw : Writes bits j j') :
    ∃ sent : List Byte, 254 ∣ sent.length ∧ j'.out = j.out ++ frame sent ∧
      waitingBits j ++ bits = sent.flatMap byteBits ++ waitingBits j' := by
  obtain ⟨sent, hfull, hout⟩ := h
  obtain ⟨blocks, hb, hblocks, hbits⟩ := hw
  obtain rfl := eq_flatten_of_frame hb (List.append_cancel_left (hout.symm.trans hblocks))
  exact ⟨_, hfull, hout, hbits⟩

theorem length_flatMap_byteBits (bytes : List Byte) : (bytes.flatMap byteBits).length = 8 * bytes.length := by
  simp [List.length_flatMap, byteBits, Nat.mul_comm]

theorem length_waitingBits (j : EncodeJob) : (waitingBits j).length = 8 * j.packet.length + j.curBits := by
  rw [waitingBits, List.length_append, length_flatMap_byteBits, length_natBits]

/-- The accumulator holds no bit above its pending ones. -/
abbrev AccumFits (j : EncodeJob) : Prop := j.curAccum < 2 ^ j.curBits

theorem accumulate_lt {accum bits n code : Nat} (ha : accum < 2 ^ bits) (hc : code < 2 ^ n) :
    accumulate accum bits code < 2 ^ (bits + n) := by
  have hcode : code * 2 ^ bits < 2 ^ (bits + n) := by
    rw [Nat.add_comm, Nat.pow_add]
    exact Nat.mul_lt_mul_of_pos_right hc (Nat.two_pow_pos bits)
  unfold accumulate
  split_ifs with hbits
  · have hlow : accum &&& Config.masks bits < 2 ^ (bits + n) :=
      Nat.and_le_left.trans_lt (ha.trans_le (Nat.pow_le_pow_right (by omega) (by omega)))
    exact Nat.or_lt_two_pow hlow hcode
  · obtain rfl : bits = 0 := by omega
    simpa using hcode

theorem shiftByte_accumFits (h8 : 8 ≤ j.curBits) (h : shiftByte j = .ok w) (hj : AccumFits j) : AccumFits w := by
  obtain ⟨hbits, haccum⟩ := shiftByte_bits j w h
  rw [AccumFits, hbits, haccum, Nat.div_lt_iff_lt_mul (by omega), show 256 = 2 ^ 8 from rfl, ← Nat.pow_add,
    Nat.sub_add_cancel h8]
  exact hj

theorem pack_accumFits {code : Nat} (hcode : code < 2 ^ j.nBits) (hj : AccumFits j) (h : pack code j = .ok j') :
    AccumFits j' := drainBytes_keeps shiftByte_accumFits _ (accumulate_lt hj hcode) h

end

/-- Settles O60: a byte is buffered or fills the sub-block, and a flush sends what is buffered. -/
theorem subBlocksOfAtMost254 : Obligations.SubBlocksOfAtMost254 := by
  intro b j hsink hp
  obtain ⟨j', hj', -⟩ := charOut_accepting b j hsink
  obtain ⟨k, hk, -⟩ := flushChar_accepting j hsink
  refine ⟨⟨j', hj', ?_⟩, k, hk, flushChar_packet j k hk, ?_⟩
  · obtain ⟨hlt, hpacket, hout⟩ | ⟨hfull, hpacket, hout⟩ := charOut_ok b hp hj'
    · exact ⟨fun _ => ⟨hpacket, hout⟩, fun h => by omega⟩
    · refine ⟨fun h => by omega, fun _ => ⟨hpacket, ?_⟩⟩
      rw [hout, block, if_neg (by simp), List.length_append, hfull]
      rfl
  · rw [flushChar_ok j k hk, block]
    split_ifs <;> simp

/-- Settles O59: the bytes sent are full sub-blocks; and at most 19 bits beside a packet of fewer than 254 bytes fill no
second one. -/
theorem packAppendsCodeBits : Obligations.PackAppendsCodeBits := by
  intro code j hcode hwidth hbits haccum hp hsink
  obtain ⟨j', hj', -⟩ := pack_accepting code j hsink
  obtain ⟨hbits', hp'⟩ := pack_bits code j j' hp hj'
  obtain ⟨sent, hfull, hout, hsent⟩ := (pack_sendsFull code hp hj').bits (pack_writes code hp hj')
  refine ⟨j', sent, hj', ?_, hout, hsent, hbits', pack_accumFits hcode haccum hj', hp'⟩
  have hlen := congrArg List.length hsent
  rw [List.length_append, List.length_append, length_waitingBits, length_waitingBits, length_flatMap_byteBits,
    length_natBits] at hlen
  obtain ⟨k, hk⟩ := hfull
  obtain rfl | rfl : k = 0 ∨ k = 1 := by omega
  · exact .inl (List.length_eq_zero_iff.mp hk)
  · exact .inr hk

/-! ### The whole stream (R253) -/

section
variable {depth c : Nat} {d : DecodeJob} {s : List Nat} {j j' w : EncodeJob}

/-- The code `ent` is never `EOFCode`, so that sending it flushes nothing. -/
theorem Sync.ent_ne_eofCode (h : Sync depth d s j) : j.ent ≠ j.eofCode := by
  have heof := h.inv.eofCode
  have hcode := code_of_stringOf h.ent
  omega

theorem Sync.takePixel_sendsFull (h : Sync depth d s j) (ht : Machine.takePixel c j = .ok j') : SendsFull j j' := by
  obtain ⟨i, -, rfl⟩ | ⟨i, w, -, hw, ⟨-, rfl⟩ | ⟨-, ho⟩⟩ := takePixel_ok ht
  · exact .nothing rfl
  · exact (output_sendsFull _ (j' := w) h.inv.packet h.ent_ne_eofCode hw).trans (.nothing rfl)
  · have hinv := (encodeInv_output h.inv hw).1
    have hat := atClear_clearedFor c hinv
    have hclear := output_sendsFull _ hat.packet (by rw [hat.eofCode, hinv.clearCode]; omega) ho
    exact (output_sendsFull _ h.inv.packet h.ent_ne_eofCode hw).trans hclear

theorem Sync.mainLoop_frames {pix : Buffer} (n : Nat) (h : Sync depth d s j) (hpix : j.curPixel + n ≤ pix.size.toNat)
    (hfits : ∀ a, a < j.curPixel + n → (Memory.read pix.mem a).toNat < 2 ^ depth)
    (hm : Machine.mainLoop pix n j = .ok j') : ∃ payload, j'.out = j.out ++ frame payload := by
  induction n generalizing d s j with
  | zero =>
    rw [mainLoop_zero] at hm
    obtain ⟨w, hw, ho⟩ := bind_eq_ok hm
    obtain ⟨payload, hout⟩ := output_eof_frames (encodeInv_output h.inv hw).1.packet ho
    obtain ⟨sent, hall, -⟩ := (output_sendsFull _ h.inv.packet h.ent_ne_eofCode hw).thenFrame hout
    exact ⟨_, hall⟩
  | succ n ih =>
    have hcbyte := (Memory.read pix.mem j.curPixel).isLt
    rw [mainLoop_of_lt pix n j (by omega)] at hm
    obtain ⟨w, hw, hrest⟩ := bind_eq_ok hm
    have hcur : w.curPixel = j.curPixel + 1 := takePixel_curPixel hcbyte hw
    have hread : Sync depth d s { j with curPixel := j.curPixel + 1 } := { h with inv := encodeInv_curPixel h.inv _ }
    obtain ⟨-, -, d', s', -, -, hsync, -⟩ := hread.takePixel (hfits j.curPixel (by omega)) hw
    obtain ⟨payload, hout⟩ := ih hsync (by omega) (fun a ha => hfits a (by omega)) hrest
    obtain ⟨sent, hall, -⟩ := (hread.takePixel_sendsFull hw).thenFrame hout
    exact ⟨_, hall⟩

/-- `Compress` of pixels that fit the depth sends the sub-blocks of one payload (R213). -/
theorem compress_frames {pix : Buffer} (n : Nat) (hlow : 2 ≤ depth) (hhigh : depth ≤ 8)
    (hcodes : CodesCanonical j.codetab) (hcur : j.curPixel = 0) (hpix : n + 1 ≤ pix.size.toNat)
    (hfits : ∀ a, a < n + 1 → (Memory.read pix.mem a).toNat < 2 ^ depth)
    (h : compress pix (n + 1) (depth + 1) j = .ok j') : ∃ payload, j'.out = j.out ++ frame payload := by
  rw [compress_succ pix n _ j _ (pixRead_of_lt pix _ (by omega)), Nat.add_sub_cancel] at h
  obtain ⟨w, hw, hloop⟩ := bind_eq_ok h
  have hstart := firstPrefix_started pix hlow hhigh hcodes hw
  have hcur' := hstart.curPixel
  have hsync := sync_cleared hstart.inv hstart.cleared (by rw [hstart.ent, hcur]; exact hfits 0 (by omega))
  obtain ⟨payload, hout⟩ := hsync.mainLoop_frames n (by omega) (fun a ha => hfits a (by omega)) hloop
  have hclear : SendsFull (firstPrefix (depth + 1) (Memory.read pix.mem j.curPixel).toNat j) w := by
    refine output_sendsFull _ (by simp [firstPrefix]) ?_ hw
    show 2 ^ depth ≠ 2 ^ depth + 1
    omega
  obtain ⟨sent, hall, -⟩ := hclear.thenFrame hout
  exact ⟨_, hall⟩

end

/-- PIX holds the image, and its pixels fit the depth. -/
structure PixelsFit (s : State) : Prop where
  size : s.lz.pixels ≤ s.pix.size.toNat
  fits : ∀ a, a < s.lz.pixels → (Memory.read s.pix.mem a).toNat < 2 ^ s.lz.initCodeSize.toNat

theorem pixelsFit_of_get {s : State} (hne : s.lz.pixels ≠ 0)
    (h : ∀ a, a < s.lz.pixels → ∃ v, s.pix.get a = some v ∧ v.toNat < 2 ^ s.lz.initCodeSize.toNat) :
    PixelsFit s := by
  refine ⟨?_, fun a ha => ?_⟩
  · obtain ⟨v, hv, -⟩ := h (s.lz.pixels - 1) (by omega)
    have hlt := ((buffer_get_some _ _ _).mp hv).1
    omega
  · obtain ⟨v, hv, hlt⟩ := h a ha
    obtain ⟨-, rfl⟩ := (buffer_get_some _ _ _).mp hv
    exact hlt

/-- The stream of R211, where the code RAM starts in canonical form. -/
theorem encodeRun_frames {s : State} {j : EncodeJob} (hp : s.lz.phase = .ready) (himg : ImageAccepted s.lz)
    (hcodes : CodesCanonical s.lz.codetab) (hpix : PixelsFit s) (hj : encodeRun s = .ok j) :
    ∃ payload, j.out = s.out ++ (s.lz.initCodeSize.setWidth 8 :: frame payload ++ [0]) := by
  obtain ⟨hne, hlow, hhigh⟩ := himg (by simp [hp])
  obtain ⟨n, hn⟩ := Nat.exists_eq_succ_of_ne_zero hne
  obtain ⟨hsize, hfits⟩ := hpix
  rw [hn] at hsize hfits
  rw [encodeRun_bind, hn] at hj
  obtain ⟨w, hw, hrest⟩ := bind_eq_ok hj
  obtain ⟨w', hw', hlast⟩ := bind_eq_ok hrest
  obtain ⟨-, rfl⟩ := outWrite_ok _ _ _ hw
  obtain ⟨-, rfl⟩ := outWrite_ok _ _ _ hlast
  obtain ⟨payload, hout⟩ := compress_frames n hlow hhigh hcodes rfl hsize hfits hw'
  refine ⟨payload, ?_⟩
  show w'.out ++ [0] = _
  rw [hout]
  show s.out ++ [s.lz.initCodeSize.setWidth 8] ++ frame payload ++ [0] = _
  simp

/-- Settles O52: the payload's sub-blocks, on an empty code RAM, and so on any (O55); the stream is the one that O51 counts
and takes apart. -/
theorem streamShape : Obligations.StreamShape := by
  intro s hp himg hsink hget
  have hpix := pixelsFit_of_get (himg (by simp [hp])).1 hget
  obtain ⟨t, stream, payload', ht, ht', -, hdeframe, hne, hcount⟩ := lzEncodeCompletes s hp himg hpix.size hsink
  obtain ⟨j, -, -, -, hj, -⟩ := encodeRun_completes (forgetCodes s) hp himg hpix.size hsink
  obtain ⟨payload, hout⟩ :=
    encodeRun_frames (s := forgetCodes s) hp himg codesCanonical_nil ⟨hpix.size, hpix.fits⟩ hj
  obtain ⟨u, stream', hu, hforget, hsame, -⟩ :=
    (streamDependsOnImageOnly (forgetCodes s) s hp hp rfl rfl (fun _ _ => rfl) rfl).1 _
      (exec_lzEncode_of_ok (forgetCodes s) j hp hj)
  cases ht.symm.trans hu
  obtain rfl : stream' = s.lz.initCodeSize.setWidth 8 :: frame payload ++ [0] :=
    List.append_cancel_left (hforget.symm.trans hout)
  obtain rfl : stream = s.lz.initCodeSize.setWidth 8 :: frame payload ++ [0] :=
    List.append_cancel_left ((congrArg State.out ht').symm.trans hsame)
  obtain rfl : payload = payload' := by
    refine Option.some.inj (Eq.trans (deframe_frame payload _ ?_).symm hdeframe)
    simp
  refine ⟨t, payload, ht, hne, by rw [BitVec.ofNat_toNat, hsame], fun n hn hlt => ?_⟩
  have hlen : (s.lz.initCodeSize.setWidth 8 :: frame payload ++ [0] : List Byte).length = n := by
    rw [List.length_append, List.length_cons, length_frame, hn]
    simp only [List.length_singleton]
    omega
  rw [← hlen]
  exact hcount (hlen ▸ hlt)

end Sys2Proof.Proofs

/-! How commands end and what they touch (60_exceptions.md R270 to R274, R286): the codes each can end with and what the
end writes (O22), that errors are precise (O23), the order of the checks of an INIT (O29), what a command of each engine
leaves unchanged (O26, O27), and that commands of the two engines commute (O24). -/

namespace Sys2Proof.Proofs

open Sys2Proof.Machine Sys2Proof.Safety Sys2Proof.Laws

/-! ### The end of a command (R271, R272, R274) -/

/-- The codes a command, once decoded, can end with before it has changed anything (R271, R274). -/
@[simp] def preciseCodes : Instr → List ErrCode
  | .nqInit _ => [.invalidInput, .degenerateParameters]
  | .lzInit _ => [.invalidInput, .degenerateParameters]
  | _ => [.sequenceError]

/-- How a command that goes on ends: it completes in a state `u` it has reached with `STICKY` kept, or it fails on the
state `s` it found, or it is `LZ.ENCODE` aborted by its sink. -/
inductive CommandEnd (i : Instr) (s : State) : State → Prop where
  | completed (u : State) (hu : u.sticky i.port = s.sticky i.port) : CommandEnd i s (endCommand i.port .noError u)
  | failed (c : ErrCode) (hc : c ∈ preciseCodes i) : CommandEnd i s (endCommand i.port c s)
  | aborted (u : State) (hi : i = .lzEncode) : CommandEnd i s (endCommand i.port .ioFailure u)

theorem exec_commandEnd (i : Instr) (s t : State) (h : exec i s = .next t) : CommandEnd i s t := by
  cases i with
  | nqInit sf =>
    rcases execNqInit_cases sf s with ⟨-, h'⟩ | ⟨-, -, h'⟩ | ⟨-, -, h'⟩ <;> cases h'.symm.trans h
    · exact .failed .invalidInput (by simp)
    · exact .failed .degenerateParameters (by simp)
    · exact .completed _ rfl
  | nqLearn =>
    rcases execNqLearn_cases s with ⟨-, h'⟩ | ⟨-, f, -, h'⟩ | ⟨-, j, -, h'⟩ <;> cases h'.symm.trans h
    · exact .failed .sequenceError (by simp)
    · exact .completed _ rfl
  | nqUnbias =>
    rcases execNqUnbias_cases s with ⟨-, h'⟩ | ⟨-, h'⟩ <;> cases h'.symm.trans h
    · exact .failed .sequenceError (by simp)
    · exact .completed _ rfl
  | nqInxbuild =>
    rcases execNqInxbuild_cases s with ⟨-, h'⟩ | ⟨-, h'⟩ <;> cases h'.symm.trans h
    · exact .failed .sequenceError (by simp)
    · exact .completed _ rfl
  | nqColormap =>
    rcases execNqColormap_cases s with ⟨-, h'⟩ | ⟨-, h'⟩ <;> cases h'.symm.trans h
    · exact .failed .sequenceError (by simp)
    · exact .completed _ rfl
  | nqProcess =>
    rcases execNqProcess_cases s with ⟨-, h'⟩ | ⟨-, f, -, h'⟩ | ⟨-, j, -, h'⟩ <;> cases h'.symm.trans h
    · exact .failed .sequenceError (by simp)
    · exact .completed _ rfl
  | nqMap b g r =>
    rcases execNqMap_cases b g r s with ⟨-, h'⟩ | ⟨-, h'⟩ <;> cases h'.symm.trans h
    · exact .failed .sequenceError (by simp)
    · exact .completed _ (by simp [State.sticky, Instr.port])
  | nqMapbuf =>
    rcases execNqMapbuf_cases s with ⟨-, h'⟩ | ⟨-, ⟨f, -, h'⟩ | ⟨idx, -, h'⟩⟩ <;> cases h'.symm.trans h
    · exact .failed .sequenceError (by simp)
    · exact .completed _ rfl
  | lzInit depth =>
    rcases execLzInit_cases depth s with ⟨-, h'⟩ | ⟨-, -, h'⟩ | ⟨-, -, h'⟩ <;> cases h'.symm.trans h
    · exact .failed .invalidInput (by simp)
    · exact .failed .degenerateParameters (by simp)
    · exact .completed _ rfl
  | lzEncode =>
    rcases execLzEncode_cases s with ⟨-, h'⟩ | ⟨-, ⟨j, -, h'⟩ | ⟨j, -, h'⟩ | ⟨f, -, h'⟩⟩ <;> cases h'.symm.trans h
    · exact .failed .sequenceError (by simp)
    · exact .completed _ rfl
    · exact .aborted _ rfl

theorem preciseCodes_ne_noError {i : Instr} {c : ErrCode} (h : c ∈ preciseCodes i) : c ≠ .noError := by
  rintro rfl
  cases i <;> simp at h

section
variable {i : Instr} {s t : State}

/-- The codes of R271: no error, a precise one, or the failure of the sink under `LZ.ENCODE`. -/
theorem CommandEnd.code (h : CommandEnd i s t) :
    t.err i.port = .noError ∨ t.err i.port ∈ preciseCodes i ∨ (i = .lzEncode ∧ t.err i.port = .ioFailure) := by
  cases h with
  | completed u hu => exact .inl (endCommand_err _ _ u)
  | failed c hc => exact .inr (.inl (by rwa [endCommand_err]))
  | aborted u hi => exact .inr (.inr ⟨hi, endCommand_err _ _ u⟩)

/-- What the end writes (R272). -/
theorem CommandEnd.status (h : CommandEnd i s t) :
    t.busy i.port = false ∧ (t.err i.port ≠ .noError → t.sticky i.port = true) ∧
      (t.err i.port = .noError → t.sticky i.port = s.sticky i.port) := by
  cases h with
  | completed u hu => simp [hu]
  | failed c hc => simp [preciseCodes_ne_noError hc]
  | aborted u hi => simp

/-- An error that is not the sink's has changed the status alone (R274). -/
theorem CommandEnd.precise (h : CommandEnd i s t) (hne : t.err i.port ≠ .noError) (hio : t.err i.port ≠ .ioFailure) :
    WithError i.port (t.err i.port) s t := by
  cases h with
  | completed u hu => exact absurd (endCommand_err _ _ u) hne
  | failed c hc =>
    rw [endCommand_err]
    exact endCommand_withError i.port c s (preciseCodes_ne_noError hc)
  | aborted u hi => exact absurd (endCommand_err _ _ u) hio

end

/-- Settles O22: the codes are those a command can fail with before it has changed anything, and the sink's failure for
`LZ.ENCODE`; `EndCommand` writes the status. -/
theorem commandEndWritesStatus : Obligations.CommandEndWritesStatus := by
  intro i s t h
  have hend := exec_commandEnd i s t h
  refine ⟨?_, hend.status⟩
  have hcode := hend.code
  cases i <;> simpa [State.err, Instr.port, preciseCodes, or_comm, or_left_comm] using hcode

/-- Settles O23: each code but `IO_FAILURE` is raised on the state the command found, and so is that of an illegal word. -/
theorem errorsArePrecise : Obligations.ErrorsArePrecise := by
  refine ⟨fun i s t h => (exec_commandEnd i s t h).precise, ?_⟩
  rintro p w s t hb ⟨e, hd⟩ h
  cases (submit_illegal p w s e hb hd).symm.trans h
  exact endCommand_withError p .illegalCommand s (by decide)

/-! ### The checks of an INIT (R270, R273) -/

theorem lengthAccepted_eq_false_iff (n : Nat) : lengthAccepted n = false ↔ n = 0 ∨ n % 3 ≠ 0 ∨ 0x7FFFFFFF < n := by
  rw [← Bool.not_eq_true, lengthAccepted_iff]
  omega

theorem sampleFactorAccepted_eq_false_iff (sf : Nat) : sampleFactorAccepted sf = false ↔ sf < 1 ∨ 30 < sf := by
  rw [← Bool.not_eq_true, sampleFactorAccepted_iff]
  omega

theorem imageAccepted_iff (w h n : Nat) : imageAccepted w h n = true ↔ w * h ≠ 0 ∧ n = w * h := by
  simp [imageAccepted]

theorem imageAccepted_eq_false_iff (w h n : Nat) : imageAccepted w h n = false ↔ w * h = 0 ∨ n ≠ w * h := by
  rw [← Bool.not_eq_true, imageAccepted_iff]
  tauto

theorem exec_nqInit_invalidInput (sf : Nat) (s : State) (hlen : lengthAccepted s.nq.len.toNat = false) :
    exec (.nqInit sf) s = .next (endCommand .nq .invalidInput s) := by
  rcases execNqInit_cases sf s with ⟨_, he⟩ | ⟨hlen', _⟩ | ⟨hlen', _⟩
  · exact he
  · simp [hlen] at hlen'
  · simp [hlen] at hlen'

theorem exec_lzInit_invalidInput (d : Nat) (s : State)
    (himg : imageAccepted s.lz.width.toNat s.lz.height.toNat s.lz.pixlen.toNat = false) :
    exec (.lzInit d) s = .next (endCommand .lz .invalidInput s) := by
  rcases execLzInit_cases d s with ⟨_, he⟩ | ⟨himg', _⟩ | ⟨himg', _⟩
  · exact he
  · simp [himg] at himg'
  · simp [himg] at himg'

/-- Settles O29: the length is checked whatever the operand, and the operand only behind an accepted length. -/
theorem initErrorPriority : Obligations.InitErrorPriority := by
  refine ⟨fun sf s => ⟨fun hlen => ?_, fun h0 h3 hmax hsf => ?_⟩, fun d s => ⟨fun himg => ?_, fun hne hlen hd => ?_⟩⟩
  · exact ⟨_, exec_nqInit_invalidInput sf s ((lengthAccepted_eq_false_iff _).mpr hlen),
      endCommand_withError _ _ s (by decide)⟩
  · exact ⟨_, exec_nqInit_degenerate sf s ((lengthAccepted_iff _).mpr ⟨h0, h3, hmax⟩)
      ((sampleFactorAccepted_eq_false_iff sf).mpr hsf), endCommand_withError _ _ s (by decide)⟩
  · exact ⟨_, exec_lzInit_invalidInput d s ((imageAccepted_eq_false_iff _ _ _).mpr himg),
      endCommand_withError _ _ s (by decide)⟩
  · exact ⟨_, exec_lzInit_degenerate d s ((imageAccepted_iff _ _ _).mpr ⟨hne, hlen⟩) (depth_rejected d hd),
      endCommand_withError _ _ s (by decide)⟩

/-! ### What a command leaves unchanged (R286, 20_memory.md R79) -/

theorem nqEffect_len {s : State} {q : NqState} (h : NqEffect s q) : q.len = s.nq.len := by
  cases h <;> rfl

/-- Settles O26: no effect of a command writes `NQ_LEN`, and none but that of `NQ.MAPBUF` writes IDX. -/
theorem nqCommandFrame : Obligations.NqCommandFrame := by
  intro i s t hi h
  obtain ⟨heffect, hframe, hidx⟩ := exec_nq_effect i s t hi h
  exact ⟨hframe, nqEffect_len heffect, fun hne => hidx.resolve_right fun hmapbuf => hne hmapbuf.1⟩

theorem lzEffect_keeps_imageRegisters {s : State} {z : LzState} {out : List Byte} {sink : Sink}
    (h : LzEffect s z out sink) :
    z.width = s.lz.width ∧ z.height = s.lz.height ∧ z.pixlen = s.lz.pixlen := by
  cases h <;> exact ⟨rfl, rfl, rfl⟩

/-- `LZ.INIT` writes neither the stream, the sink, `LZ_OUTLEN` nor the dictionary (44_lzw_encode.md R210). -/
theorem lzInit_keeps_stream {depth : Nat} {s t : State} (h : exec (.lzInit depth) s = .next t) :
    t.out = s.out ∧ t.sink = s.sink ∧ t.lz.outlen = s.lz.outlen ∧ t.lz.htab = s.lz.htab ∧
      t.lz.codetab = s.lz.codetab := by
  rcases execLzInit_cases depth s with ⟨-, h'⟩ | ⟨-, -, h'⟩ | ⟨-, -, h'⟩ <;> cases h'.symm.trans h <;>
    exact ⟨rfl, rfl, rfl, rfl, rfl⟩

/-- `LZ.ENCODE` does not write the latched image (44_lzw_encode.md R211). -/
theorem lzEncode_keeps_image {s t : State} (h : exec .lzEncode s = .next t) :
    t.lz.imgW = s.lz.imgW ∧ t.lz.imgH = s.lz.imgH ∧ t.lz.initCodeSize = s.lz.initCodeSize := by
  rcases execLzEncode_cases s with ⟨-, h'⟩ | ⟨-, ⟨j, -, h'⟩ | ⟨j, -, h'⟩ | ⟨f, -, h'⟩⟩ <;> cases h'.symm.trans h <;>
    exact ⟨rfl, rfl, rfl⟩

/-- Settles O27: the frame is that of every effect of a command; the rest, that of the one command or the other. -/
theorem lzCommandFrame : Obligations.LzCommandFrame := by
  intro i s t hi h
  obtain ⟨heffect, hframe⟩ := exec_lz_effect i s t hi h
  refine ⟨hframe, lzEffect_keeps_imageRegisters heffect, fun hne => ?_, fun heq => ?_⟩
  · cases i with
    | lzInit depth => exact lzInit_keeps_stream h
    | lzEncode => exact absurd rfl hne
    | _ => cases hi
  · subst heq
    exact lzEncode_keeps_image h

/-! ### The two engines side by side (R286) -/

/-- The next state, if there is one, changed by `f`; a stop is a stop. -/
def mapNext (f : State → State) : Host.Outcome State Fault Refusal → Host.Outcome State Fault Refusal
  | .next t => .next (f t)
  | .fault r => .fault r
  | .refused r => .refused r

/-- The state with what the LZE's commands write (20_memory.md R79) replaced. -/
def withLzSide (z : LzState) (out : List Byte) (sink : Sink) (s : State) : State :=
  { s with lz := z, out := out, sink := sink }

/-- The state with what the NQE's commands write (20_memory.md R79) replaced. -/
def withNqSide (q : NqState) (idx : Buffer) (s : State) : State := { s with nq := q, idx := idx }

/-- A command runs past a change `f` of the state that its phase check, its sequence error and its own rule run past. -/
theorem sequenced_mapNext {f : State → State} {i : Instr} {s : State} {run : State → Host.Outcome State Fault Refusal}
    (hphase : phaseAllowed i (f s) = phaseAllowed i s)
    (herror : endCommand i.port .sequenceError (f s) = f (endCommand i.port .sequenceError s))
    (hrun : run (f s) = mapNext f (run s)) : sequenced i (f s) run = mapNext f (sequenced i s run) := by
  cases hp : phaseAllowed i s with
  | true => rw [sequenced_allowed i s run hp, sequenced_allowed i (f s) run (hphase.trans hp), hrun]
  | false =>
    rw [sequenced_disallowed i s run hp, sequenced_disallowed i (f s) run (hphase.trans hp), herror]
    rfl

theorem sequenced_withLzSide {i : Instr} (hi : i.port = .nq) {z : LzState} {out : List Byte} {sink : Sink} {s : State}
    {run : State → Host.Outcome State Fault Refusal}
    (hrun : run (withLzSide z out sink s) = mapNext (withLzSide z out sink) (run s)) :
    sequenced i (withLzSide z out sink s) run = mapNext (withLzSide z out sink) (sequenced i s run) := by
  refine sequenced_mapNext ?_ (by rw [hi]; rfl) hrun
  cases i with
  | lzEncode => cases hi
  | _ => rfl

theorem sequenced_withNqSide {i : Instr} (hi : i.port = .lz) {q : NqState} {idx : Buffer} {s : State}
    {run : State → Host.Outcome State Fault Refusal}
    (hrun : run (withNqSide q idx s) = mapNext (withNqSide q idx) (run s)) :
    sequenced i (withNqSide q idx s) run = mapNext (withNqSide q idx) (sequenced i s run) := by
  refine sequenced_mapNext ?_ (by rw [hi]; rfl) hrun
  cases i with
  | lzInit depth => rfl
  | lzEncode => rfl
  | _ => cases hi

/-- A command of the NQE neither reads nor writes what the LZE's commands write. -/
theorem exec_withLzSide (i : Instr) (hi : i.port = .nq) (z : LzState) (out : List Byte) (sink : Sink) (s : State) :
    exec i (withLzSide z out sink s) = mapNext (withLzSide z out sink) (exec i s) := by
  cases i with
  | nqInit sf =>
    unfold exec execNqInit
    refine sequenced_withLzSide hi ?_
    dsimp only [withLzSide]
    split_ifs <;> rfl
  | nqLearn =>
    unfold exec execNqLearn
    refine sequenced_withLzSide hi ?_
    dsimp only [withLzSide]
    cases learn s.nq s.src <;> rfl
  | nqUnbias =>
    unfold exec execNqUnbias
    exact sequenced_withLzSide hi rfl
  | nqInxbuild =>
    unfold exec execNqInxbuild
    exact sequenced_withLzSide hi rfl
  | nqColormap =>
    unfold exec execNqColormap
    exact sequenced_withLzSide hi rfl
  | nqProcess =>
    unfold exec execNqProcess
    refine sequenced_withLzSide hi ?_
    dsimp only [withLzSide]
    cases learn s.nq s.src <;> rfl
  | nqMap b g r =>
    unfold exec execNqMap
    exact sequenced_withLzSide hi rfl
  | nqMapbuf =>
    unfold exec execNqMapbuf
    refine sequenced_withLzSide hi ?_
    dsimp only [withLzSide]
    cases mapBuf s.nq.network s.nq.netindex s.src (s.nq.lengthcount.toNat / 3) 0 s.idx <;> rfl
  | lzInit depth => cases hi
  | lzEncode => cases hi

/-- An encode reads the LZE, PIX, the stream and the sink. -/
theorem encodeRun_withNqSide (q : NqState) (idx : Buffer) (s : State) :
    encodeRun (withNqSide q idx s) = encodeRun s := rfl

/-- A command of the LZE neither reads nor writes what the NQE's commands write. -/
theorem exec_withNqSide (i : Instr) (hi : i.port = .lz) (q : NqState) (idx : Buffer) (s : State) :
    exec i (withNqSide q idx s) = mapNext (withNqSide q idx) (exec i s) := by
  cases i with
  | lzInit depth =>
    unfold exec execLzInit
    refine sequenced_withNqSide hi ?_
    dsimp only [withNqSide]
    split_ifs <;> rfl
  | lzEncode =>
    unfold exec execLzEncode
    refine sequenced_withNqSide hi ?_
    rw [encodeRun_withNqSide]
    rcases encodeRun s with (j | f) | j <;> rfl
  | _ => cases hi

/-- Settles O24: each of the two commands runs past what the other writes, and writes what the other leaves alone. -/
theorem enginesCommute : Obligations.EnginesCommute := by
  intro i k s a b hi hk ha hb
  obtain ⟨-, hframeA, -⟩ := exec_nq_effect i s a hi ha
  obtain ⟨-, hframeB⟩ := exec_lz_effect k s b hk hb
  have hka : exec k a = .next (withNqSide a.nq a.idx b) := by
    rw [hframeA]
    exact (exec_withNqSide k hk a.nq a.idx s).trans (congrArg _ hb)
  have hib : exec i b = .next (withLzSide b.lz b.out b.sink a) := by
    rw [hframeB]
    exact (exec_withLzSide i hi b.lz b.out b.sink s).trans (congrArg _ ha)
  refine ⟨_, hka, hib.trans (congrArg _ ?_)⟩
  rw [hframeA, hframeB]
  rfl

end Sys2Proof.Proofs

/-! Unspecified reset values are never observed (70_reset_and_hazards.md R302): no command and no action of the host
reads what a phase has not yet written (O14). -/

namespace Sys2Proof.Proofs

open Sys2Proof.Machine Sys2Proof.Safety Sys2Proof.Laws

/-! ### `LZ_OUTLEN` is a function of the stream (10_state.md R43, 20_memory.md R66) -/

/-- `LZ_OUTLEN` after `n` bytes of an encode that found `base` bytes in OUT. -/
def countFrom (base : Nat) : Nat → Word
  | 0 => 0
  | n + 1 => outlenNext (countFrom base n) (base + n + 1)

/-- `LZ_OUTLEN` is what the bytes sent since OUT held `base` bytes make it. -/
def Counted (base : Nat) (j : EncodeJob) : Prop := ∃ n, j.out.length = base + n ∧ j.outlen = countFrom base n

section
variable {base : Nat} {j : EncodeJob}

/-- Only the registers of OUT matter. -/
theorem Counted.congr (h : Counted base j) (j' : EncodeJob) (ho : j'.out = j.out) (hl : j'.outlen = j.outlen) :
    Counted base j' := by
  obtain ⟨n, hn, hc⟩ := h
  exact ⟨n, ho ▸ hn, hl.trans hc⟩

/-- The same stream has the same count, beyond 2^32 bytes too. -/
theorem Counted.outlen_eq {j' : EncodeJob} (h : Counted base j) (h' : Counted base j') (ho : j'.out = j.out) :
    j'.outlen = j.outlen := by
  obtain ⟨n, hn, hc⟩ := h
  obtain ⟨n', hn', hc'⟩ := h'
  rw [ho, hn] at hn'
  rw [hc, hc', Nat.add_left_cancel hn']

theorem outWrite_counted (v : Byte) (h : Counted base j) : Ends (Counted base) (outWrite v j) := by
  cases hd : j.sink.draw.1 with
  | accept =>
    obtain ⟨n, hn, hc⟩ := h
    rw [outWrite_accept v j hd]
    refine ⟨n + 1, by rw [List.length_append, hn, List.length_singleton, Nat.add_assoc], ?_⟩
    rw [countFrom, hc, hn]
  | fail =>
    rw [outWrite_fail v j hd]
    exact h.congr _ rfl rfl

theorem Ends.thenCounted {r : EncodeStep} {f : EncodeJob → EncodeStep} (h : Ends (Counted base) r)
    (hf : ∀ w, Counted base w → Ends (Counted base) (f w)) : Ends (Counted base) (r.bind f) :=
  h.bind hf fun _ => id

theorem outWrites_counted (vs : List Byte) (h : Counted base j) : Ends (Counted base) (outWrites vs j) := by
  induction vs generalizing j with
  | nil => exact h
  | cons v vs ih =>
    rw [outWrites_cons]
    exact (outWrite_counted v h).thenCounted fun _ => ih

theorem flushChar_counted (h : Counted base j) : Ends (Counted base) (flushChar j) := by
  rw [flushChar_bind]
  split_ifs
  · exact (outWrites_counted _ h).thenCounted fun w hw => hw.congr { w with packet := [] } rfl rfl
  · exact h

theorem charOut_counted (b : Byte) (h : Counted base j) : Ends (Counted base) (charOut b j) := by
  have hb : Counted base { j with packet := j.packet ++ [b] } := h.congr _ rfl rfl
  rw [charOut_eq]
  split_ifs
  · exact flushChar_counted hb
  · exact hb

theorem shiftByte_counted (h : Counted base j) : Ends (Counted base) (shiftByte j) := by
  rw [shiftByte_bind]
  exact (charOut_counted _ h).thenCounted fun w hw =>
    hw.congr { w with curAccum := w.curAccum / 2 ^ 8, curBits := w.curBits - 8 } rfl rfl

theorem drainBytes_counted (n : Nat) (h : Counted base j) : Ends (Counted base) (drainBytes n j) := by
  induction n generalizing j with
  | zero => exact h
  | succ n ih =>
    rw [drainBytes_succ]
    split_ifs
    · exact (shiftByte_counted h).thenCounted fun _ => ih
    · exact h

theorem drainBits_counted (n : Nat) (h : Counted base j) : Ends (Counted base) (drainBits n j) := by
  induction n generalizing j with
  | zero => exact h
  | succ n ih =>
    rw [drainBits_succ]
    split_ifs
    · exact (shiftByte_counted h).thenCounted fun _ => ih
    · exact h

theorem finalFlush_counted (h : Counted base j) : Ends (Counted base) (finalFlush j) := by
  rw [finalFlush_bind]
  exact (drainBits_counted _ h).thenCounted fun w hw => flushChar_counted (hw.congr { w with curBits := 0 } rfl rfl)

theorem output_counted (code : Nat) (h : Counted base j) : Ends (Counted base) (output code j) := by
  rw [output_bind]
  refine Ends.thenCounted (drainBytes_counted _ (h.congr _ rfl rfl)) fun w hw => ?_
  have hu : Counted base (updateWidth w) := hw.congr _ (updateWidth_out w) (updateWidth_outlen w)
  split_ifs
  · exact finalFlush_counted hu
  · exact hu

theorem allocate_counted (c i : Nat) (key : BitVec 20) (h : Counted base j) :
    Ends (Counted base) (allocate c i key j) := by
  unfold allocate
  split_ifs
  · exact h.congr _ rfl rfl
  · rw [clearBlock_eq]
    exact output_counted _ (h.congr (clearedFor c j) rfl rfl)

theorem takePixel_counted (c : Nat) (h : Counted base j) : Ends (Counted base) (takePixel c j) := by
  cases hl : lookup j.htab (fcode c j.ent) (primarySlot c j.ent) with
  | none =>
    rw [takePixel_endless c j hl]
    exact trivial
  | some r =>
    cases r with
    | hit i =>
      rw [takePixel_hit c i j hl]
      exact h.congr _ rfl rfl
    | miss i =>
      rw [takePixel_miss c i j hl, miss_bind]
      exact (output_counted _ h).thenCounted fun _ => allocate_counted c i _

theorem mainLoop_counted (pix : Buffer) (n : Nat) (h : Counted base j) : Ends (Counted base) (mainLoop pix n j) := by
  induction n generalizing j with
  | zero =>
    rw [mainLoop_zero]
    exact (output_counted _ h).thenCounted fun w => output_counted w.eofCode
  | succ n ih =>
    cases hv : pixRead pix j.curPixel with
    | error f =>
      rw [mainLoop_stuck pix n j f hv]
      exact trivial
    | ok v =>
      rw [mainLoop_succ pix n j v hv]
      have hnext : Counted base { j with curPixel := j.curPixel + 1 } := h.congr _ rfl rfl
      exact (takePixel_counted _ hnext).thenCounted fun _ => ih

theorem compress_counted (pix : Buffer) (n initBits : Nat) (h : Counted base j) :
    Ends (Counted base) (compress pix n initBits j) := by
  cases n with
  | zero => exact trivial
  | succ n =>
    cases hv : pixRead pix j.curPixel with
    | error f =>
      rw [compress_stuck pix n initBits j f hv]
      exact trivial
    | ok v =>
      rw [compress_succ pix n initBits j v hv]
      exact (output_counted _ (h.congr (firstPrefix initBits v.toNat j) rfl rfl)).thenCounted fun _ =>
        mainLoop_counted pix n

end

theorem encodeRun_counted (s : State) : Ends (Counted s.out.length) (encodeRun s) := by
  have hstart : Counted s.out.length (encodeStart s) := ⟨0, rfl, rfl⟩
  rw [encodeRun_bind]
  exact (outWrite_counted _ hstart).thenCounted fun _ hw =>
    (compress_counted _ _ _ hw).thenCounted fun _ => outWrite_counted 0

/-! ### The NQE's commands on engines that differ only in what a phase has not yet written -/

theorem sameNq_refl (q : NqState) : SameNq q q := by
  constructor <;> simp

/-- `InitNetwork` does not read the network it writes (41_nq_learning.md R121). -/
theorem initNetwork_network_const (q q' : NqState) : (initNetwork q').network = (initNetwork q).network := by
  refine Ram.ext_read _ _ Neuron.zero fun k hk => ?_
  simp only [initNetwork_network, Ram.mapIdx_read _ _ k _ Neuron.zero hk]

section
variable {q q' : NqState} (h : SameNq q q')
include h

/-- `InitNetwork` writes every entry of the three RAMs (41_nq_learning.md R121). -/
theorem sameNq_init (sf : Nat) : SameNq (initAccepted sf q) (initAccepted sf q') :=
  { h with
    phase := rfl
    lengthcount := fun _ => h.len
    samplefac := fun _ => rfl
    network := fun _ => initNetwork_network_const _ _
    freq := fun _ => rfl
    bias := fun _ => rfl
    netindex := by simp
    pal := by simp }

/-- Training writes all of `radpower` before it reads any of it (R125, R126). -/
theorem sameNq_learnRun (hp : q.phase ≠ .empty) (src : Buffer) : learnRun q' src = learnRun q src := by
  have hradpower : setRadpower (radOf Config.initradius) Config.initalpha q'.radpower =
      setRadpower (radOf Config.initradius) Config.initalpha q.radpower := setRadpower_all _ _ _
  simp only [learnRun, learnStart, h.lengthcount hp, h.samplefac hp, h.network hp, h.freq hp, h.bias hp, hradpower]

theorem sameNq_learn (hp : q.phase ≠ .empty) (j : LearnJob) :
    SameNq { learnCommit q j with phase := .learned } { learnCommit q' j with phase := .learned } :=
  { h with
    phase := rfl
    lengthcount := fun _ => h.lengthcount hp
    samplefac := fun _ => by simp only [learnCommit_samplefac, h.lengthcount hp, h.samplefac hp]
    network := fun _ => rfl
    freq := fun _ => rfl
    bias := fun _ => rfl
    netindex := by simp
    pal := by simp }

/-- What a command after training may write, once the engine is past `EMPTY`. -/
theorem sameNq_moved (hp : q.phase ≠ .empty) (phase : NqPhase) {network network' : Ram Neuron 256}
    {netindex netindex' : Ram Byte 256} {pal pal' : Ram Byte 768} (hnetwork : network' = network)
    (hnetindex : phase = .indexed ∨ phase = .palette → netindex' = netindex)
    (hpal : phase = .palette → pal' = pal) :
    SameNq { q with phase := phase, network := network, netindex := netindex, pal := pal }
      { q' with phase := phase, network := network', netindex := netindex', pal := pal' } :=
  { h with
    phase := rfl
    lengthcount := fun _ => h.lengthcount hp
    samplefac := fun _ => h.samplefac hp
    network := fun _ => hnetwork
    freq := fun _ => h.freq hp
    bias := fun _ => h.bias hp
    netindex := hnetindex
    pal := hpal }

theorem sameNq_unbias (hp : q.phase ≠ .empty) :
    SameNq { unbias q with phase := .unbiased } { unbias q' with phase := .unbiased } :=
  sameNq_moved h hp .unbiased (congrArg (Ram.mapIdx Neuron.unbias) (h.network hp)) (by simp) (by simp)

/-- `InxBuild` writes every entry of `netindex`, the greens being bytes (42_nq_palette.md R162, R164). -/
theorem sameNq_inxbuild (hp : q.phase ≠ .empty) (hn : UnbiasedNetwork q.network) :
    SameNq { inxBuild q with phase := .indexed } { inxBuild q' with phase := .indexed } := by
  obtain ⟨hlanes, -, hsorted⟩ := inxBuild_of_unbiased q hn
  refine sameNq_moved h hp .indexed (congrArg sortNetwork (h.network hp)) (fun _ => ?_) (by simp)
  rw [inxBuild_netindex, inxBuild_netindex, h.network hp]
  exact buildIndex_all _ _ _ hsorted fun x hx => (hlanes x hx).2.1

/-- `ColorMap` writes every byte of `PAL` (R166). -/
theorem sameNq_colormap (hp : Indexed q) {o o' : PaletteOrder} (ho : o' = o) :
    SameNq { colorMap o q with phase := .palette } { colorMap o' q' with phase := .palette } := by
  have hne := indexed_ne_empty hp
  have hnetwork := h.network hne
  subst ho
  exact sameNq_moved h hne .palette hnetwork (fun _ => h.netindex hp) fun _ => colorMap_pal o' q q' hnetwork

/-- The four steps of `NQ.PROCESS` in turn (R168). -/
theorem sameNq_process (hp : q.phase ≠ .empty) {o o' : PaletteOrder} (ho : o' = o) (j : LearnJob)
    (hn : UnbiasedNetwork (unbias (learnCommit q j)).network) : SameNq (processed o q j) (processed o' q' j) :=
  have hunbiased := sameNq_unbias (sameNq_learn h hp j) (by simp)
  sameNq_colormap (sameNq_inxbuild hunbiased (by simp) hn) (.inl rfl) ho

theorem sameNq_mapres {mapres mapres' : Byte} (hm : mapres' = mapres) :
    SameNq { q with mapres := mapres } { q' with mapres := mapres' } :=
  { h with mapres := hm }

end

/-! ### The LZE's commands -/

theorem sameLz_refl (z : LzState) : SameLz z z := by
  constructor <;> simp

theorem sameLz_init {z z' : LzState} (h : SameLz z z') (depth : Nat) :
    SameLz (imageLatched depth z) (imageLatched depth z') :=
  { h with
    phase := rfl
    imgW := fun _ => h.width
    imgH := fun _ => h.height
    initCodeSize := fun _ => rfl }

/-- The same stream, with the same count, and the same answers left to come. -/
abbrev SameEnd (j j' : EncodeJob) : Prop := j'.out = j.out ∧ j'.outlen = j.outlen ∧ j'.sink = j.sink

theorem Counted.sameEnd {base : List Byte} {j j' : EncodeJob} (h : Counted base.length j) (h' : Counted base.length j')
    (hs : SameStream base base j j') : SameEnd j j' := by
  obtain ⟨bs, hout, hout', hsink⟩ := hs
  have hsame := hout'.trans hout.symm
  exact ⟨hsame, h.outlen_eq h' hsame, hsink⟩

/-- The codes an earlier job left in slots without a key show neither in the stream nor in its count. -/
theorem encodeRun_same {s s' : State} (h : SameButUnspecified s s') (hp : s.lz.phase ≠ .empty) :
    Alike SameEnd (encodeRun s) (encodeRun s') := by
  have hpixels : s'.lz.pixels = s.lz.pixels := by rw [LzState.pixels, LzState.pixels, h.lz.imgW hp, h.lz.imgH hp]
  have hrun := encodeRun_alike s s' (h.lz.initCodeSize hp) hpixels (fun a _ => by rw [h.pix]) h.sink
  have hcount := encodeRun_counted s
  have hcount' := encodeRun_counted s'
  rw [h.out] at hrun hcount'
  obtain ⟨j, j', hj, hj', hs⟩ | ⟨j, j', hj, hj', hs⟩ | ⟨f, hf, hf'⟩ := hrun.elim
  · rw [hj] at hcount ⊢
    rw [hj'] at hcount' ⊢
    exact hcount.sameEnd hcount' hs
  · rw [hj] at hcount ⊢
    rw [hj'] at hcount' ⊢
    exact hcount.sameEnd hcount' hs
  · rw [hf, hf']
    exact rfl

/-! ### Every command -/

/-- The phases in which `PhasesAllowed` admits the palette commands (30_encoding.md R95). -/
theorem indexed_of_decide {q : NqState} (h : decide (q.phase = .indexed ∨ q.phase = .palette) = true) :
    Indexed q := by
  simpa [Indexed] using h

theorem sameOutcome_next {r r' : Host.Outcome State Fault Refusal} {t t' : State} (hr : r = .next t)
    (hr' : r' = .next t') (h : SameButUnspecified t t') : SameOutcome r r' := by
  rw [hr, hr']
  exact h

theorem sameOutcome_fault {r r' : Host.Outcome State Fault Refusal} {f : Fault} (hr : r = .fault f)
    (hr' : r' = .fault f) : SameOutcome r r' := by
  rw [hr, hr']
  exact rfl

/-- A fault of the training run is that of the command. -/
theorem exec_train_fault (s : State) (f : Fault) (hp : s.nq.phase = .constructed)
    (hf : learnRun s.nq s.src = .error f) : exec .nqLearn s = .fault f ∧ exec .nqProcess s = .fault f := by
  constructor
  · rw [exec, execNqLearn, sequenced_allowed _ _ _ (by simp [phaseAllowed, hp]), learn, hf]
  · rw [exec, execNqProcess, sequenced_allowed _ _ _ (by simp [phaseAllowed, hp]), learn, hf]

theorem exec_lzInit_accepted (depth : Nat) (s : State)
    (himg : imageAccepted s.lz.width.toNat s.lz.height.toNat s.lz.pixlen.toNat = true)
    (hd : depthAccepted depth = true) :
    exec (.lzInit depth) s = .next (endCommand .lz .noError { s with lz := imageLatched depth s.lz }) := by
  obtain ⟨himg', _⟩ | ⟨_, hd', _⟩ | ⟨_, _, he⟩ := execLzInit_cases depth s
  · simp [himg] at himg'
  · simp [hd] at hd'
  · exact he

section
variable {s s' : State} (h : SameButUnspecified s s')
include h

theorem same_endCommand (p : Port) (c : ErrCode) : SameButUnspecified (endCommand p c s) (endCommand p c s') := by
  cases p with
  | nq =>
    have hsticky := congrArg (· || decide (c ≠ .noError)) h.nq.sticky
    exact { h with nq := { h.nq with err := rfl, busy := rfl, sticky := hsticky } }
  | lz =>
    have hsticky := congrArg (· || decide (c ≠ .noError)) h.lz.sticky
    exact { h with lz := { h.lz with err := rfl, busy := rfl, sticky := hsticky } }

theorem indexed_same (hp : Indexed s.nq) : Indexed s'.nq := by
  rwa [Indexed, h.nq.phase]

/-- A command of the NQE that completes, leaving the engine as `q` and `q'`. -/
theorem same_completed {q q' : NqState} (hq : SameNq q q') :
    SameButUnspecified { s with nq := { q with err := .noError, busy := false } }
      { s' with nq := { q' with err := .noError, busy := false } } :=
  { h with nq := { hq with err := rfl, busy := rfl } }

theorem exec_nqInit_same (sf : Nat) : SameOutcome (exec (.nqInit sf) s) (exec (.nqInit sf) s') := by
  have hlen' : lengthAccepted s'.nq.len.toNat = lengthAccepted s.nq.len.toNat := by rw [h.nq.len]
  obtain ⟨hlen, he⟩ | ⟨hlen, hsf, he⟩ | ⟨hlen, hsf, he⟩ := execNqInit_cases sf s
  · exact sameOutcome_next he (exec_nqInit_invalidInput sf s' (hlen'.trans hlen)) (same_endCommand h _ _)
  · exact sameOutcome_next he (exec_nqInit_degenerate sf s' (hlen'.trans hlen) hsf) (same_endCommand h _ _)
  · refine sameOutcome_next he (exec_nqInit_accepted sf s' (hlen'.trans hlen) hsf) ?_
    rw [endCommand_nq_ok, endCommand_nq_ok]
    exact same_completed h (sameNq_init h.nq sf)

theorem exec_nqLearn_same (hp : s.nq.phase = .constructed) : SameOutcome (exec .nqLearn s) (exec .nqLearn s') := by
  have hp' : s'.nq.phase = .constructed := h.nq.phase.trans hp
  have hne : s.nq.phase ≠ .empty := by simp [hp]
  have hrun : learnRun s'.nq s'.src = learnRun s.nq s.src := by rw [h.src, sameNq_learnRun h.nq hne]
  cases hj : learnRun s.nq s.src with
  | ok j =>
    exact sameOutcome_next (exec_nqLearn_completes s j hp hj) (exec_nqLearn_completes s' j hp' (hrun.trans hj))
      (same_completed h (sameNq_learn h.nq hne j))
  | error f => exact sameOutcome_fault (exec_train_fault s f hp hj).1 (exec_train_fault s' f hp' (hrun.trans hj)).1

theorem exec_nqUnbias_same (hp : s.nq.phase = .learned) : SameOutcome (exec .nqUnbias s) (exec .nqUnbias s') :=
  sameOutcome_next (exec_nqUnbias_completes s hp) (exec_nqUnbias_completes s' (h.nq.phase.trans hp))
    (same_completed h (sameNq_unbias h.nq (by simp [hp])))

theorem exec_nqInxbuild_same (hshape : NetworkShape s.nq) (hp : s.nq.phase = .unbiased) :
    SameOutcome (exec .nqInxbuild s) (exec .nqInxbuild s') :=
  sameOutcome_next (exec_nqInxbuild_completes s hp) (exec_nqInxbuild_completes s' (h.nq.phase.trans hp))
    (same_completed h (sameNq_inxbuild h.nq (by simp [hp]) (unbiased_of_unbiased hshape hp)))

theorem exec_nqColormap_same (hp : Indexed s.nq) :
    SameOutcome (exec .nqColormap s) (exec .nqColormap s') :=
  sameOutcome_next (exec_nqColormap_completes s hp) (exec_nqColormap_completes s' (indexed_same h hp))
    (same_completed h (sameNq_colormap h.nq hp h.paletteOrder))

theorem exec_nqProcess_same (hshape : NetworkShape s.nq) (hp : s.nq.phase = .constructed) :
    SameOutcome (exec .nqProcess s) (exec .nqProcess s') := by
  have hp' : s'.nq.phase = .constructed := h.nq.phase.trans hp
  have hne : s.nq.phase ≠ .empty := by simp [hp]
  have hrun : learnRun s'.nq s'.src = learnRun s.nq s.src := by rw [h.src, sameNq_learnRun h.nq hne]
  cases hj : learnRun s.nq s.src with
  | ok j =>
    have hn := learned_unbiased s.nq s.src j (biased_of_fixedPoint hshape (.inl hp)) hj
    exact sameOutcome_next (exec_nqProcess_completes s j hp hj) (exec_nqProcess_completes s' j hp' (hrun.trans hj))
      (same_completed h (sameNq_process h.nq hne h.paletteOrder j hn))
  | error f => exact sameOutcome_fault (exec_train_fault s f hp hj).2 (exec_train_fault s' f hp' (hrun.trans hj)).2

theorem exec_nqMap_same (b g r : Nat) (hp : Indexed s.nq) :
    SameOutcome (exec (.nqMap b g r) s) (exec (.nqMap b g r) s') := by
  have hmap : mapColour s'.nq.network s'.nq.netindex (Colour.ofOperands b g r) =
      mapColour s.nq.network s.nq.netindex (Colour.ofOperands b g r) := by
    rw [h.nq.network (indexed_ne_empty hp), h.nq.netindex hp]
  have hmapres := same_completed h (sameNq_mapres h.nq (congrArg (BitVec.ofInt 8) hmap))
  exact sameOutcome_next (exec_nqMap_completes s b g r hp) (exec_nqMap_completes s' b g r (indexed_same h hp)) hmapres

theorem exec_nqMapbuf_same (hp : Indexed s.nq) :
    SameOutcome (exec .nqMapbuf s) (exec .nqMapbuf s') := by
  have hne := indexed_ne_empty hp
  have hp' := indexed_same h hp
  have hmap : mapBuf s'.nq.network s'.nq.netindex s'.src (s'.nq.lengthcount.toNat / 3) 0 s'.idx =
      mapBuf s.nq.network s.nq.netindex s.src (s.nq.lengthcount.toNat / 3) 0 s.idx := by
    rw [h.nq.network hne, h.nq.netindex hp, h.src, h.nq.lengthcount hne, h.idx]
  cases hidx : mapBuf s.nq.network s.nq.netindex s.src (s.nq.lengthcount.toNat / 3) 0 s.idx with
  | ok idx =>
    exact sameOutcome_next (exec_nqMapbuf_completes s idx hp hidx)
      (exec_nqMapbuf_completes s' idx hp' (hmap.trans hidx)) { same_completed h h.nq with idx := rfl }
  | error f =>
    exact sameOutcome_fault (exec_nqMapbuf_stuck s f hp hidx) (exec_nqMapbuf_stuck s' f hp' (hmap.trans hidx))

theorem exec_lzInit_same (depth : Nat) : SameOutcome (exec (.lzInit depth) s) (exec (.lzInit depth) s') := by
  have himg' : imageAccepted s'.lz.width.toNat s'.lz.height.toNat s'.lz.pixlen.toNat =
      imageAccepted s.lz.width.toNat s.lz.height.toNat s.lz.pixlen.toNat := by
    rw [h.lz.width, h.lz.height, h.lz.pixlen]
  obtain ⟨himg, he⟩ | ⟨himg, hd, he⟩ | ⟨himg, hd, he⟩ := execLzInit_cases depth s
  · exact sameOutcome_next he (exec_lzInit_invalidInput depth s' (himg'.trans himg)) (same_endCommand h _ _)
  · exact sameOutcome_next he (exec_lzInit_degenerate depth s' (himg'.trans himg) hd) (same_endCommand h _ _)
  · have hlatched : SameButUnspecified { s with lz := imageLatched depth s.lz }
        { s' with lz := imageLatched depth s'.lz } := { h with lz := sameLz_init h.lz depth }
    exact sameOutcome_next he (exec_lzInit_accepted depth s' (himg'.trans himg) hd) (same_endCommand hlatched _ _)

/-- An encode that has left the registers `j` and `j'` behind. -/
theorem same_encodeCommit (hp : s.lz.phase ≠ .empty) (phase : LzPhase) {j j' : EncodeJob} (hj : SameEnd j j') :
    SameButUnspecified (encodeCommit s phase j) (encodeCommit s' phase j') := by
  obtain ⟨hout, houtlen, hsink⟩ := hj
  have hlz : SameLz (encodeCommit s phase j).lz (encodeCommit s' phase j').lz :=
    { h.lz with
      phase := rfl
      outlen := houtlen
      imgW := fun _ => h.lz.imgW hp
      imgH := fun _ => h.lz.imgH hp
      initCodeSize := fun _ => h.lz.initCodeSize hp }
  exact { h with lz := hlz, out := hout, sink := hsink }

theorem exec_lzEncode_same (hp : s.lz.phase = .ready) : SameOutcome (exec .lzEncode s) (exec .lzEncode s') := by
  have hp' : s'.lz.phase = .ready := h.lz.phase.trans hp
  have hne : s.lz.phase ≠ .empty := by simp [hp]
  obtain ⟨j, j', hj, hj', hs⟩ | ⟨j, j', hj, hj', hs⟩ | ⟨f, hf, hf'⟩ := (encodeRun_same h hne).elim
  · exact sameOutcome_next (exec_lzEncode_of_ok s j hp hj) (exec_lzEncode_of_ok s' j' hp' hj')
      (same_endCommand (same_encodeCommit h hne .done hs) _ _)
  · exact sameOutcome_next (exec_lzEncode_of_ioFailure s j hp hj) (exec_lzEncode_of_ioFailure s' j' hp' hj')
      (same_endCommand (same_encodeCommit h hne .aborted hs) _ _)
  · exact sameOutcome_fault (exec_lzEncode_of_stuck s f hp hf) (exec_lzEncode_of_stuck s' f hp' hf')

theorem phaseAllowed_same (i : Instr) : phaseAllowed i s' = phaseAllowed i s := by
  cases i <;> simp only [phaseAllowed, h.nq.phase, h.lz.phase]

theorem exec_same (hshape : NetworkShape s.nq) (i : Instr) : SameOutcome (exec i s) (exec i s') := by
  cases hp : phaseAllowed i s with
  | false =>
    exact sameOutcome_next (exec_disallowed i s hp) (exec_disallowed i s' ((phaseAllowed_same h i).trans hp))
      (same_endCommand h _ _)
  | true =>
    cases i with
    | nqInit sf => exact exec_nqInit_same h sf
    | nqLearn => exact exec_nqLearn_same h (of_decide_eq_true hp)
    | nqUnbias => exact exec_nqUnbias_same h (of_decide_eq_true hp)
    | nqInxbuild => exact exec_nqInxbuild_same h hshape (of_decide_eq_true hp)
    | nqColormap => exact exec_nqColormap_same h (indexed_of_decide hp)
    | nqProcess => exact exec_nqProcess_same h hshape (of_decide_eq_true hp)
    | nqMap b g r => exact exec_nqMap_same h b g r (indexed_of_decide hp)
    | nqMapbuf => exact exec_nqMapbuf_same h (indexed_of_decide hp)
    | lzInit depth => exact exec_lzInit_same h depth
    | lzEncode => exact exec_lzEncode_same h (of_decide_eq_true hp)

/-! ### Every action of the host -/

theorem submit_same (hshape : NetworkShape s.nq) (p : Port) (w : Word) :
    SameOutcome (submit p w s) (submit p w s') := by
  have hbusy : s'.busy p = s.busy p := by
    cases p with
    | nq => exact h.nq.busy
    | lz => exact h.lz.busy
  rw [submit, submit, hbusy]
  split_ifs
  · cases p with
    | nq => exact { h with nq := { h.nq with sticky := rfl } }
    | lz => exact { h with lz := { h.lz with sticky := rfl } }
  · rw [runWord, runWord]
    cases decode p w with
    | ok i => exact exec_same h hshape i
    | error e => exact same_endCommand h p .illegalCommand

theorem csrWrite_same (hshape : NetworkShape s.nq) (v : Word) (r : Csr) :
    SameOutcome (csrWrite v s r) (csrWrite v s' r) := by
  cases r with
  | nqCmd => exact submit_same h hshape .nq v
  | lzCmd => exact submit_same h hshape .lz v
  | nqLen => exact { h with nq := { h.nq with len := rfl } }
  | lzWidth => exact { h with lz := { h.lz with width := rfl } }
  | lzHeight => exact { h with lz := { h.lz with height := rfl } }
  | lzPixlen => exact { h with lz := { h.lz with pixlen := rfl } }
  | _ => exact h

theorem hostWrite_same (hshape : NetworkShape s.nq) (width : AccessWidth) (o : BitVec 12) (v : Word) :
    SameOutcome (hostWrite width o v s) (hostWrite width o v s') := by
  rw [hostWrite, hostWrite]
  split_ifs
  · cases csrAt o.toNat with
    | some r => exact csrWrite_same h hshape v r
    | none => exact h
  · exact rfl

theorem nqStatusWord_same : s'.nq.statusWord = s.nq.statusWord := by
  simp only [NqState.statusWord, h.nq.phase, h.nq.err, h.nq.busy, h.nq.sticky]

theorem lzStatusWord_same : s'.lz.statusWord = s.lz.statusWord := by
  simp only [LzState.statusWord, h.lz.phase, h.lz.err, h.lz.busy, h.lz.sticky]

/-- The palette is read only in the phase in which it is written (R67). -/
theorem csrRead_same (r : Csr) : csrRead s' r = csrRead s r := by
  cases r with
  | nqStatus => rw [csrRead, csrRead, nqStatusWord_same h]
  | lzStatus => rw [csrRead, csrRead, lzStatusWord_same h]
  | palW w =>
    rw [csrRead, csrRead, h.nq.phase]
    split_ifs with hp
    · rw [h.nq.pal hp]
    · rfl
  | nqLen => rw [csrRead, csrRead, h.nq.len]
  | nqMapres => rw [csrRead, csrRead, h.nq.mapres]
  | lzWidth => rw [csrRead, csrRead, h.lz.width]
  | lzHeight => rw [csrRead, csrRead, h.lz.height]
  | lzPixlen => rw [csrRead, csrRead, h.lz.pixlen]
  | lzOutlen => rw [csrRead, csrRead, h.lz.outlen]
  | _ => rfl

theorem hostRead_same (width : AccessWidth) (o : BitVec 12) :
    SameOutcome (hostRead width o s) (hostRead width o s') := by
  have hread : windowRead s' o.toNat = windowRead s o.toNat := by
    simp only [windowRead, csrRead_same h]
  rw [hostRead, hostRead, hread]
  split_ifs
  · cases windowRead s o.toNat with
    | ok v => exact { h with lastRead := rfl }
    | error f => exact rfl
  · exact rfl

theorem hostAction_same (hshape : NetworkShape s.nq) (a : HostAction) :
    SameOutcome (hostAction a s) (hostAction a s') := by
  cases a with
  | write width o v => exact hostWrite_same h hshape width o v
  | read width o => exact hostRead_same h width o
  | attachSrc bytes =>
    rw [hostAction, hostAction]
    split_ifs
    · exact { h with src := rfl }
    · exact rfl
  | attachIdx bytes =>
    rw [hostAction, hostAction]
    split_ifs
    · exact { h with idx := rfl }
    · exact rfl
  | attachPix bytes =>
    rw [hostAction, hostAction]
    split_ifs
    · exact { h with pix := rfl }
    · exact rfl
  | idxToPix => exact { h with pix := h.idx }
  | connectSink sink => exact { h with sink := rfl, out := rfl }
  | reset => exact { h with nq := sameNq_refl _, lz := sameLz_refl _ }

theorem step_same (hshape : NetworkShape s.nq) : SameOutcome (step s) (step s') := by
  cases hi : s.inputs with
  | nil =>
    rw [step_idle s hi, step_idle s' (h.inputs.trans hi)]
    exact h
  | cons a rest =>
    rw [step_action s a rest hi, step_action s' a rest (h.inputs.trans hi)]
    have hrest : SameButUnspecified { s with inputs := rest } { s' with inputs := rest } := { h with inputs := rfl }
    exact hostAction_same hrest hshape a

theorem observe_same : observe s' = observe s := by
  have hpal : (if s.nq.phase = .palette then some s'.nq.pal.cells else none) =
      if s.nq.phase = .palette then some s.nq.pal.cells else none := by
    split_ifs with hp
    · rw [h.nq.pal hp]
    · rfl
  simp only [observe, nqStatusWord_same h, lzStatusWord_same h, h.nq.len, h.nq.mapres, h.nq.phase, h.lz.width,
    h.lz.height, h.lz.pixlen, h.lz.outlen, hpal, h.idx, h.out, h.lastRead]

end

/-- Settles O14: each command reads only what its phase has written, or writes it first; and the host reads no more. -/
theorem unspecifiedValuesNeverObserved : Obligations.UnspecifiedValuesNeverObserved :=
  fun _ _ h hshape => ⟨observe_same h, step_same h hshape⟩

end Sys2Proof.Proofs

/-! Reset, busy writes and latched lengths (70_reset_and_hazards.md): what the reset state and the reset input leave
(O12), that every invariant holds there (O13), that a command write to a busy engine is discarded and no run comes to one
(O7), and that the length registers do not affect an accepted job (O25). -/

namespace Sys2Proof.Proofs

open Sys2Proof.Machine Sys2Proof.Safety Sys2Proof.Laws

/-! ### Reset (R300, R301) -/

theorem step_reset (s : State) (rest : List HostAction) (hi : s.inputs = .reset :: rest) :
    step s = .next (resetCore { s with inputs := rest }) :=
  step_action s _ rest hi

/-- Settles O12: the reset input gives both engines the state they have in `State.reset`, and nothing else. -/
theorem resetValues : Obligations.ResetValues := by
  refine ⟨?_, fun s rest hi => ⟨_, step_reset s rest hi, rfl⟩⟩
  intro t ht
  have hengines : t.nq = NqState.reset ∧ t.lz = LzState.reset := by
    obtain rfl | ⟨s, rest, hi, hstep⟩ := ht
    · exact ⟨rfl, rfl⟩
    · rw [step_reset s rest hi] at hstep
      cases hstep
      exact ⟨rfl, rfl⟩
  obtain ⟨hnq, hlz⟩ := hengines
  rw [hnq, hlz]
  exact ⟨rfl, rfl, rfl, rfl, rfl, rfl, rfl, rfl, rfl, rfl⟩

theorem memoryCanonical_reset : MemoryCanonical State.reset :=
  ⟨unattached_wf, unattached_wf, unattached_wf, keysCanonical_nil, codesCanonical_nil⟩

/-- Settles O13: after reset both phases are `EMPTY`, no buffer is attached, and no engine is busy. -/
theorem resetMeetsInvariants : Obligations.ResetMeetsInvariants where
  memory := memoryCanonical_reset
  job := jobAccepted_invariant.reset
  leak := leakyFrequency_invariant.reset
  shape := networkShape_invariant.reset
  splits := indexSplits_invariant.reset.2
  palette := fun hp => by cases hp
  image := fun hne => absurd rfl hne
  notBusy := ⟨rfl, rfl⟩

/-! ### `BUSY` (R310, 00_scope.md R19) -/

theorem nq_notBusy_invariant : NqInvariant fun q => q.busy = false where
  reset := rfl
  len := fun _ _ h => h
  sticky := fun _ h => h
  command := by
    intro s q h he
    cases he <;> rfl

theorem lzEffect_notBusy {s : State} {z : LzState} {out : List Byte} {sink : Sink} (h : LzEffect s z out sink) :
    z.busy = false := by
  cases h <;> rfl

theorem step_keeps_lz_notBusy (s t : State) (h : s.lz.busy = false) (hst : step s = .next t) : t.lz.busy = false := by
  obtain hz | ⟨_, _, _, hz⟩ | hz | ⟨hz, _⟩ | ⟨s₀, _, _, _, _, he⟩ := step_lz s t hst
  · rwa [hz]
  · rwa [hz]
  · rwa [hz]
  · rw [hz]
    rfl
  · exact lzEffect_notBusy he

theorem step_discards (s : State) (p : Port) (w : Word) (rest : List HostAction) (hb : s.busy p = true)
    (hi : s.inputs = .write .word (cmdOffset p) w :: rest) : step s = discardCommand p { s with inputs := rest } := by
  have hb' : State.busy { s with inputs := rest } p = true := by cases p <;> exact hb
  rw [step_action s _ rest hi, hostAction, hostWrite_command, submit, if_pos hb']

/-- Settles O7: a word submitted to a busy engine is discarded; every command ends with `BUSY` 0, and no action of the
host sets it. -/
theorem busyWriteIsDiscarded : Obligations.BusyWriteIsDiscarded := by
  refine ⟨fun s w rest => ⟨step_discards s .nq w rest, step_discards s .lz w rest⟩, ⟨rfl, rfl⟩, ?_⟩
  rintro s t ⟨hnq, hlz⟩ hst
  exact ⟨nq_notBusy_invariant.step s t hnq hst, step_keeps_lz_notBusy s t hlz hst⟩

/-! ### Latched lengths (R316) -/

/-- The state with other values in the length registers of both engines. -/
def withLengths (n : Word) (w h : BitVec 16) (x : Word) (s : State) : State :=
  { s with
    nq := { s.nq with len := n }
    lz := { s.lz with width := w, height := h, pixlen := x } }

section
variable {n x : Word} {w h : BitVec 16} {s : State}

theorem sequenced_withLengths {i : Instr} {run : State → Host.Outcome State Fault Refusal}
    (hrun : run (withLengths n w h x s) = mapNext (withLengths n w h x) (run s)) :
    sequenced i (withLengths n w h x s) run = mapNext (withLengths n w h x) (sequenced i s run) := by
  refine sequenced_mapNext ?_ ?_ hrun
  · cases i <;> rfl
  · cases i.port <;> rfl

/-- Training reads the latched length (41_nq_learning.md R123). -/
theorem learn_len (q : NqState) (src : Buffer) :
    learn { q with len := n } src = (learn q src).map fun q => { q with len := n } := by
  have hrun : learnRun { q with len := n } src = learnRun q src := rfl
  rw [learn, learn, hrun]
  cases learnRun q src <;> rfl

/-- An encode reads the latched image (44_lzw_encode.md R211). -/
theorem encodeRun_withLengths : encodeRun (withLengths n w h x s) = encodeRun s := rfl

/-- No command but the two INITs reads or writes a length register. -/
theorem exec_withLengths (i : Instr) (hnq : ∀ sf, i ≠ .nqInit sf) (hlz : ∀ d, i ≠ .lzInit d) :
    exec i (withLengths n w h x s) = mapNext (withLengths n w h x) (exec i s) := by
  cases i with
  | nqInit sf => exact absurd rfl (hnq sf)
  | nqLearn =>
    unfold exec execNqLearn
    refine sequenced_withLengths ?_
    dsimp only [withLengths]
    rw [learn_len]
    cases learn s.nq s.src <;> rfl
  | nqUnbias =>
    unfold exec execNqUnbias
    exact sequenced_withLengths rfl
  | nqInxbuild =>
    unfold exec execNqInxbuild
    exact sequenced_withLengths rfl
  | nqColormap =>
    unfold exec execNqColormap
    exact sequenced_withLengths rfl
  | nqProcess =>
    unfold exec execNqProcess
    refine sequenced_withLengths ?_
    dsimp only [withLengths]
    rw [learn_len]
    cases learn s.nq s.src <;> rfl
  | nqMap b g r =>
    unfold exec execNqMap
    exact sequenced_withLengths rfl
  | nqMapbuf =>
    unfold exec execNqMapbuf
    refine sequenced_withLengths ?_
    dsimp only [withLengths]
    cases mapBuf s.nq.network s.nq.netindex s.src (s.nq.lengthcount.toNat / 3) 0 s.idx <;> rfl
  | lzInit depth => exact absurd rfl (hlz depth)
  | lzEncode =>
    unfold exec execLzEncode
    refine sequenced_withLengths ?_
    rw [encodeRun_withLengths]
    rcases encodeRun s with (j | f) | j <;> rfl

end

/-- Settles O25: a command but an INIT runs past a change of the length registers. -/
theorem lengthsAreLatched : Obligations.LengthsAreLatched := by
  intro i s t n w h x hnq hlz he
  exact (exec_withLengths i hnq hlz).trans (congrArg _ he)

end Sys2Proof.Proofs
